-- ==== Sys2Proof/Word.lean ====
section
/-! DEFINITION. The machine's words and operand sizes (spec/00_scope.md R9). A "word" of this manual has 16 bits, a "long" 32. -/

namespace Sys2Proof

/-- 8 bits, the unit of memory (R60). -/
abbrev Byte := BitVec 8

/-- 16 bits: opcode and extension words (R100), word operands, SR. -/
abbrev Word := BitVec 16

/-- 32 bits: registers, addresses, long operands (R6 `XLEN`). -/
abbrev Long := BitVec 32

/-- An operand size (R9). -/
inductive Size where
  | b | w | l
  deriving DecidableEq, Repr

/-- `bits(sz)` of R9. -/
def Size.bits : Size → Nat
  | .b => 8
  | .w => 16
  | .l => 32

/-- `bytes(sz)` of R9. -/
def Size.bytes : Size → Nat
  | .b => 1
  | .w => 2
  | .l => 4

/-- `mask(sz)` of R9. -/
def Size.mask : Size → Long
  | .b => 0xFF
  | .w => 0xFFFF
  | .l => 0xFFFFFFFF

/-- The two sizes of the instructions that have no byte form (R108). -/
inductive WordLong where
  | w | l
  deriving DecidableEq, Repr

/-- The operand size a one-bit size field names. -/
def WordLong.size : WordLong → Size
  | .w => .w
  | .l => .l

end Sys2Proof
end

