-- ==== Sys2Proof/Config.lean ====
section
/-! DEFINITION. What an implementation fixes: the size of memory, the OPEN parameters of spec/00_scope.md R6 that select a behaviour
(plain data, carried by State so that a statement holds for every setting), and the free values (constants with no body: nothing can
evaluate them). -/

namespace Sys2Proof

/-- The OPEN parameters of R6 that switch a behaviour (92_eei_decisions.md D2, D6, D7). Log entry 4. -/
structure Params where
  /-- `TRACE_EXC`: whether the driver raises the trace exception (R418). -/
  traceExc : Bool
  /-- `LINE_AF_VECTORS`: whether opcodes 0xAxxx and 0xFxxx use vectors 10 and 11 (R412). -/
  lineAfVectors : Bool
  /-- `INDEX_SCALE_ENABLED`: whether extension-word bits 10:9 scale the index (R150). -/
  indexScale : Bool
  deriving DecidableEq, Repr

/-- `MEM_SIZE` of R6: 2^24 bytes, every address backed. -/
def Config.memSize : Nat := 16777216

/-- `DIV_OVF_NZ` of R6 (D18, U1): the pair (N, Z) after a divide overflow, a FREE VALUE, a function of the operands:
DIVS (true) or DIVU (false), the dividend, the divisor. DESIGN CHOICE, log entry 5. -/
opaque Config.divOvfNZ (signed : Bool) (dividend : Long) (divisor : Word) : Bool × Bool

/-- The flags `CHK_UNDEF` of R6 supplies. -/
structure ChkFlags where
  n : Bool
  z : Bool
  v : Bool
  c : Bool
  deriving DecidableEq, Repr, Inhabited

/-- `CHK_UNDEF` of R6 (D19, U2): Z, V and C after CHK, and N when no trap is taken, a FREE VALUE, a function of the operands
(`Dn.W`, the bound) and the old CCR. DESIGN CHOICE, log entry 6. -/
opaque Config.chkUndef (dn bound : Word) (ccr : Byte) : ChkFlags

end Sys2Proof
end

