-- ==== Sys2Proof/Syntax.lean ====
section
/-! DEFINITION. The instructions as data: operands and one constructor per row of spec/opcode_table.json (spec/30_encoding.md R106 to
R116). An instruction carries its extension words' fields. -/

namespace Sys2Proof

/-- A register number 0 to 7. -/
abbrev Reg := Fin 8

/-- The fields of the index extension word (R114); bit 8 is ignored and not kept. Log entry 14. -/
structure IndexWord where
  /-- bit 15: the index register is an address register. -/
  isAddr : Bool
  /-- bits 14:12. -/
  reg : Reg
  /-- bit 11: all 32 bits of the index register, else its low word sign-extended. -/
  isLong : Bool
  /-- bits 10:9. -/
  scale : BitVec 2
  /-- bits 7:0. -/
  disp : Byte
  deriving DecidableEq, Repr

/-- An effective-address operand with its extension words (R110). -/
inductive Ea where
  /-- `Dn` -/
  | dn (n : Reg)
  /-- `An` -/
  | an (n : Reg)
  /-- `(An)` -/
  | ind (n : Reg)
  /-- `(An)+` -/
  | postInc (n : Reg)
  /-- `-(An)` -/
  | preDec (n : Reg)
  /-- `(d16,An)` -/
  | disp (n : Reg) (d : Word)
  /-- `(d8,An,Xn)` -/
  | index (n : Reg) (x : IndexWord)
  /-- `(xxx).W` -/
  | absW (w : Word)
  /-- `(xxx).L` -/
  | absL (a : Long)
  /-- `(d16,PC)` -/
  | pcDisp (d : Word)
  /-- `(d8,PC,Xn)` -/
  | pcIndex (x : IndexWord)
  /-- `#<data>`: the immediate at the operand's size, zero-extended -/
  | imm (v : Long)
  deriving DecidableEq, Repr

/-- The twelve addressing modes of R110. -/
inductive EaKind where
  | dn | an | ind | postInc | preDec | disp | index | absW | absL | pcDisp | pcIndex | imm
  deriving DecidableEq, Repr

/-- The addressing mode of an operand. -/
def Ea.kind : Ea → EaKind
  | .dn _ => .dn
  | .an _ => .an
  | .ind _ => .ind
  | .postInc _ => .postInc
  | .preDec _ => .preDec
  | .disp _ _ => .disp
  | .index _ _ => .index
  | .absW _ => .absW
  | .absL _ => .absL
  | .pcDisp _ => .pcDisp
  | .pcIndex _ => .pcIndex
  | .imm _ => .imm

/-- The sixteen conditions of R330. -/
inductive Cond where
  | t | f | hi | ls | cc | cs | ne | eq | vc | vs | pl | mi | ge | lt | gt | le
  deriving DecidableEq, Repr

/-- A branch displacement (R113): the opcode's byte when it is not 0, else one extension word. -/
inductive BranchDisp where
  | byte (d : Byte)
  | word (d : Word)
  deriving DecidableEq, Repr

/-- A shift count (R290): the 3-bit field (0 means 8), or a data register modulo 64. -/
inductive ShiftCount where
  | field (n : BitVec 3)
  | reg (n : Reg)
  deriving DecidableEq, Repr

/-- The operand form of the F_REGREG format (R106): `Dy,Dx` or `-(Ay),-(Ax)`. -/
inductive PairForm where
  | dregs | preDecs
  deriving DecidableEq, Repr

/-- The direction of MOVEP (R206). -/
inductive MovepDir where
  | memToReg | regToMem
  deriving DecidableEq, Repr

/-- One constructor per row of spec/opcode_table.json, in the table's order. `imm` arguments of `Long` hold an immediate at the
operand's size, zero-extended; `q` is the 3-bit quick-data field (0 means 8). -/
inductive Instr where
  | oriToCcr (imm : Byte)
  | oriToSr (imm : Word)
  | andiToCcr (imm : Byte)
  | andiToSr (imm : Word)
  | eoriToCcr (imm : Byte)
  | eoriToSr (imm : Word)
  | ori (sz : Size) (imm : Long) (ea : Ea)
  | andi (sz : Size) (imm : Long) (ea : Ea)
  | subi (sz : Size) (imm : Long) (ea : Ea)
  | addi (sz : Size) (imm : Long) (ea : Ea)
  | eori (sz : Size) (imm : Long) (ea : Ea)
  | cmpi (sz : Size) (imm : Long) (ea : Ea)
  | btstImm (num : Byte) (ea : Ea)
  | bchgImm (num : Byte) (ea : Ea)
  | bclrImm (num : Byte) (ea : Ea)
  | bsetImm (num : Byte) (ea : Ea)
  | btstDyn (n : Reg) (ea : Ea)
  | bchgDyn (n : Reg) (ea : Ea)
  | bclrDyn (n : Reg) (ea : Ea)
  | bsetDyn (n : Reg) (ea : Ea)
  | movep (dir : MovepDir) (sz : WordLong) (dx ay : Reg) (d : Word)
  | move (sz : Size) (src dst : Ea)
  | movea (sz : WordLong) (n : Reg) (src : Ea)
  | negx (sz : Size) (ea : Ea)
  | moveFromSr (ea : Ea)
  | chk (n : Reg) (ea : Ea)
  | lea (n : Reg) (ea : Ea)
  | clr (sz : Size) (ea : Ea)
  | neg (sz : Size) (ea : Ea)
  | moveToCcr (ea : Ea)
  | not (sz : Size) (ea : Ea)
  | moveToSr (ea : Ea)
  | nbcd (ea : Ea)
  | swap (n : Reg)
  | pea (ea : Ea)
  | extW (n : Reg)
  | extL (n : Reg)
  | movemToMem (sz : WordLong) (mask : Word) (ea : Ea)
  | tst (sz : Size) (ea : Ea)
  | tas (ea : Ea)
  | illegal
  | movemToRegs (sz : WordLong) (mask : Word) (ea : Ea)
  | trap (v : BitVec 4)
  | link (n : Reg) (d : Word)
  | unlk (n : Reg)
  | moveToUsp (n : Reg)
  | moveFromUsp (n : Reg)
  | reset
  | nop
  | stop (imm : Word)
  | rte
  | rts
  | trapv
  | rtr
  | jsr (ea : Ea)
  | jmp (ea : Ea)
  | addq (sz : Size) (q : BitVec 3) (ea : Ea)
  | subq (sz : Size) (q : BitVec 3) (ea : Ea)
  | scc (cond : Cond) (ea : Ea)
  | dbcc (cond : Cond) (n : Reg) (d : Word)
  | bra (disp : BranchDisp)
  | bsr (disp : BranchDisp)
  | bcc (cond : Cond) (disp : BranchDisp)
  | moveq (n : Reg) (data : Byte)
  | orEaDn (sz : Size) (ea : Ea) (n : Reg)
  | orDnEa (sz : Size) (n : Reg) (ea : Ea)
  | divu (n : Reg) (ea : Ea)
  | divs (n : Reg) (ea : Ea)
  | sbcd (form : PairForm) (x y : Reg)
  | subEaDn (sz : Size) (ea : Ea) (n : Reg)
  | subDnEa (sz : Size) (n : Reg) (ea : Ea)
  | suba (sz : WordLong) (n : Reg) (ea : Ea)
  | subx (sz : Size) (form : PairForm) (x y : Reg)
  | cmp (sz : Size) (ea : Ea) (n : Reg)
  | cmpa (sz : WordLong) (n : Reg) (ea : Ea)
  | eor (sz : Size) (n : Reg) (ea : Ea)
  | cmpm (sz : Size) (x y : Reg)
  | andEaDn (sz : Size) (ea : Ea) (n : Reg)
  | andDnEa (sz : Size) (n : Reg) (ea : Ea)
  | mulu (n : Reg) (ea : Ea)
  | muls (n : Reg) (ea : Ea)
  | abcd (form : PairForm) (x y : Reg)
  | exgDD (x y : Reg)
  | exgAA (x y : Reg)
  | exgDA (x y : Reg)
  | addEaDn (sz : Size) (ea : Ea) (n : Reg)
  | addDnEa (sz : Size) (n : Reg) (ea : Ea)
  | adda (sz : WordLong) (n : Reg) (ea : Ea)
  | addx (sz : Size) (form : PairForm) (x y : Reg)
  | asrReg (sz : Size) (cnt : ShiftCount) (y : Reg)
  | asrMem (ea : Ea)
  | aslReg (sz : Size) (cnt : ShiftCount) (y : Reg)
  | aslMem (ea : Ea)
  | lsrReg (sz : Size) (cnt : ShiftCount) (y : Reg)
  | lsrMem (ea : Ea)
  | lslReg (sz : Size) (cnt : ShiftCount) (y : Reg)
  | lslMem (ea : Ea)
  | roxrReg (sz : Size) (cnt : ShiftCount) (y : Reg)
  | roxrMem (ea : Ea)
  | roxlReg (sz : Size) (cnt : ShiftCount) (y : Reg)
  | roxlMem (ea : Ea)
  | rorReg (sz : Size) (cnt : ShiftCount) (y : Reg)
  | rorMem (ea : Ea)
  | rolReg (sz : Size) (cnt : ShiftCount) (y : Reg)
  | rolMem (ea : Ea)
  deriving DecidableEq, Repr

end Sys2Proof
end

