-- ==== Sys2Proof/WellFormed.lean ====
section
/-! DEFINITION. Which instruction terms an encoding of the manual stands for: the EA classes and their use per row (spec/30_encoding.md
R111, R112, R116), the widths of immediates (R113), the two displacement forms and the conditions of Bcc (R113, R123). -/

namespace Sys2Proof

/-- The EA classes of R111. -/
inductive EaClass where
  | all | data | dataNoImm | alterable | dataAlterable | memoryAlterable | control | controlAlterablePreDec | controlPostInc
  deriving DecidableEq, Repr

/-- The addressing modes that change a register or memory operand may name (R111 "alterable"). -/
def EaKind.isAlterable : EaKind → Bool
  | .pcDisp | .pcIndex | .imm => false
  | .dn | .an | .ind | .postInc | .preDec | .disp | .index | .absW | .absL => true

/-- The modes of R111 "control": a memory address without a register side effect. -/
def EaKind.isControl : EaKind → Bool
  | .ind | .disp | .index | .absW | .absL | .pcDisp | .pcIndex => true
  | .dn | .an | .postInc | .preDec | .imm => false

/-- The modes each class admits (R111). -/
def EaClass.admits (c : EaClass) (k : EaKind) : Bool :=
  match c with
  | .all => true
  | .data => k != .an
  | .dataNoImm => k != .an && k != .imm
  | .alterable => k.isAlterable
  | .dataAlterable => k.isAlterable && k != .an
  | .memoryAlterable => k.isAlterable && k != .an && k != .dn
  | .control => k.isControl
  | .controlAlterablePreDec => (k.isControl && k.isAlterable) || k == .preDec
  | .controlPostInc => k.isControl || k == .postInc

/-- An immediate fits its operand size (R113). -/
def Size.fits (sz : Size) (v : Long) : Bool := v &&& sz.mask == v

/-- An operand of class `c` at size `sz`: its mode is in the class, it is not `An` at byte size (R112), and an immediate fits. -/
def Ea.ok (c : EaClass) (sz : Size) (ea : Ea) : Bool :=
  c.admits ea.kind && !(sz == .b && ea.kind == .an) &&
    match ea with
    | .imm v => sz.fits v
    | .dn _ | .an _ | .ind _ | .postInc _ | .preDec _ | .disp _ _ | .index _ _ | .absW _ | .absL _ | .pcDisp _ | .pcIndex _ => true

/-- The 8-bit displacement 0 is the mark of the word form, never a displacement (R113). -/
def BranchDisp.ok : BranchDisp → Bool
  | .byte d => d != 0
  | .word _ => true

/-- The size at which a bit operation's operand is read (R310): long for `Dn`, else byte. -/
def Ea.bitSize : Ea → Size
  | .dn _ => .l
  | .an _ | .ind _ | .postInc _ | .preDec _ | .disp _ _ | .index _ _ | .absW _ | .absL _ | .pcDisp _ | .pcIndex _ | .imm _ => .b

/-- The constraints of each row of R116 on the operands of its constructor. -/
def Instr.wellFormed : Instr → Bool
  | .oriToCcr _ | .oriToSr _ | .andiToCcr _ | .andiToSr _ | .eoriToCcr _ | .eoriToSr _ => true
  | .ori sz i ea | .andi sz i ea | .subi sz i ea | .addi sz i ea | .eori sz i ea | .cmpi sz i ea =>
    sz.fits i && ea.ok .dataAlterable sz
  | .btstImm _ ea => ea.ok .dataNoImm ea.bitSize
  | .btstDyn _ ea => ea.ok .data ea.bitSize
  | .bchgImm _ ea | .bclrImm _ ea | .bsetImm _ ea | .bchgDyn _ ea | .bclrDyn _ ea | .bsetDyn _ ea => ea.ok .dataAlterable ea.bitSize
  | .movep _ _ _ _ _ => true
  | .move sz src dst => src.ok .all sz && dst.ok .dataAlterable sz
  | .movea sz _ src => src.ok .all sz.size
  | .negx sz ea | .clr sz ea | .neg sz ea | .not sz ea | .tst sz ea => ea.ok .dataAlterable sz
  | .moveFromSr ea => ea.ok .dataAlterable .w
  | .chk _ ea | .moveToCcr ea | .moveToSr ea => ea.ok .data .w
  | .lea _ ea | .pea ea | .jsr ea | .jmp ea => ea.ok .control .l
  | .nbcd ea | .tas ea | .scc _ ea => ea.ok .dataAlterable .b
  | .swap _ | .extW _ | .extL _ => true
  | .movemToMem sz _ ea => ea.ok .controlAlterablePreDec sz.size
  | .movemToRegs sz _ ea => ea.ok .controlPostInc sz.size
  | .illegal | .trap _ | .link _ _ | .unlk _ | .moveToUsp _ | .moveFromUsp _ => true
  | .reset | .nop | .stop _ | .rte | .rts | .trapv | .rtr => true
  | .addq sz _ ea | .subq sz _ ea => ea.ok .alterable sz
  | .dbcc _ _ _ | .moveq _ _ => true
  | .bra disp | .bsr disp => disp.ok
  | .bcc cond disp => cond != .t && cond != .f && disp.ok
  | .orEaDn sz ea _ | .andEaDn sz ea _ => ea.ok .data sz
  | .orDnEa sz _ ea | .andDnEa sz _ ea | .addDnEa sz _ ea | .subDnEa sz _ ea => ea.ok .memoryAlterable sz
  | .eor sz _ ea => ea.ok .dataAlterable sz
  | .addEaDn sz ea _ | .subEaDn sz ea _ | .cmp sz ea _ => ea.ok .all sz
  | .adda sz _ ea | .suba sz _ ea | .cmpa sz _ ea => ea.ok .all sz.size
  | .divu _ ea | .divs _ ea | .mulu _ ea | .muls _ ea => ea.ok .data .w
  | .sbcd _ _ _ | .abcd _ _ _ | .subx _ _ _ _ | .addx _ _ _ _ | .cmpm _ _ _ => true
  | .exgDD _ _ | .exgAA _ _ | .exgDA _ _ => true
  | .asrReg _ _ _ | .aslReg _ _ _ | .lsrReg _ _ _ | .lslReg _ _ _ => true
  | .roxrReg _ _ _ | .roxlReg _ _ _ | .rorReg _ _ _ | .rolReg _ _ _ => true
  | .asrMem ea | .aslMem ea | .lsrMem ea | .lslMem ea | .roxrMem ea | .roxlMem ea | .rorMem ea | .rolMem ea =>
    ea.ok .memoryAlterable .w

end Sys2Proof
end

