-- ==== Sys2Proof/Decode.lean ====
section
/-! DEFINITION. The decoder and the encoder (spec/30_encoding.md): opcode words are read as the five fields 15:12, 11:9, 8:6, 5:3, 2:0 of
R106, extension words in the order of R101. A term the fields name is accepted only if it is well formed (R111, R112, R116), so an opcode
that satisfies no row of R116 is rejected by name (R121). -/

namespace Sys2Proof

/-- The fields every format of R106 is a view of. -/
structure OpFields where
  /-- bits 15:12 -/
  line : BitVec 4
  /-- bits 11:9 -/
  rx : BitVec 3
  /-- bits 8:6 -/
  opm : BitVec 3
  /-- bits 5:3 -/
  mode : BitVec 3
  /-- bits 2:0 -/
  ry : BitVec 3
  deriving DecidableEq, Repr

/-- The fields of an opcode word (R106). -/
def splitOp (op : Word) : OpFields :=
  ⟨op.extractLsb' 12 4, op.extractLsb' 9 3, op.extractLsb' 6 3, op.extractLsb' 3 3, op.extractLsb' 0 3⟩

/-- The opcode word of its fields (R106). -/
def joinOp (f : OpFields) : Word := f.line ++ f.rx ++ f.opm ++ f.mode ++ f.ry

/-- A register field. -/
def regOf (b : BitVec 3) : Reg := b.toFin

/-- The field of a register number. -/
def regBits (r : Reg) : BitVec 3 := BitVec.ofFin r

/-- The standard size field of R107 (`00/01/10`); `11` is never a size. -/
def sizeOf2 (b : BitVec 2) : Option Size :=
  match b.toNat with
  | 0 => some .b
  | 1 => some .w
  | 2 => some .l
  | _ => none

/-- The bits of the standard size field (R107). -/
def sizeBits : Size → BitVec 2
  | .b => 0
  | .w => 1
  | .l => 2

/-- A one-bit size field (R108). -/
def wlOf (b : Bool) : WordLong := if b then .l else .w

/-- The bit of a one-bit size field (R108). -/
def wlBit : WordLong → BitVec 1
  | .w => 0
  | .l => 1

/-- The condition field of R330. -/
def condOf (b : BitVec 4) : Cond :=
  match b.toNat with
  | 0 => .t
  | 1 => .f
  | 2 => .hi
  | 3 => .ls
  | 4 => .cc
  | 5 => .cs
  | 6 => .ne
  | 7 => .eq
  | 8 => .vc
  | 9 => .vs
  | 10 => .pl
  | 11 => .mi
  | 12 => .ge
  | 13 => .lt
  | 14 => .gt
  | _ => .le

/-- The bits of a condition (R330). -/
def condBits : Cond → BitVec 4
  | .t => 0
  | .f => 1
  | .hi => 2
  | .ls => 3
  | .cc => 4
  | .cs => 5
  | .ne => 6
  | .eq => 7
  | .vc => 8
  | .vs => 9
  | .pl => 10
  | .mi => 11
  | .ge => 12
  | .lt => 13
  | .gt => 14
  | .le => 15

/-! ## Reading extension words -/

/-- Why the decoder rejects a word list. -/
inductive DecodeReject where
  /-- No row of R116 matches the opcode: IllegalInstruction (R121). Safe: the machine raises the exception. -/
  | illegalOpcode (op : Word)
  /-- The list ends before the instruction does; never in the machine, which reads five words (R100). -/
  | truncated
  deriving DecidableEq, Repr

/-- What a reader of the instruction stream gives: a value and the words after it. -/
abbrev Parsed (α : Type) := Except DecodeReject (α × List Word)

/-- One extension word (R104 `FetchExt16`). -/
def takeWord : List Word → Parsed Word
  | [] => .error .truncated
  | w :: ws => .ok (w, ws)

/-- Two extension words, high-order word first (R104 `FetchExt32`). -/
def takeLong : List Word → Parsed Long
  | hi :: lo :: ws => .ok (hi ++ lo, ws)
  | _ => .error .truncated

/-- The low byte of one extension word; the high byte is ignored (20_memory.md R70). -/
def takeByte (ws : List Word) : Parsed Byte :=
  match takeWord ws with
  | .ok (w, rest) => .ok (w.extractLsb' 0 8, rest)
  | .error e => .error e

/-- An immediate at an operand size, zero-extended (R113, 20_memory.md R70). -/
def takeImm (sz : Size) (ws : List Word) : Parsed Long :=
  match sz with
  | .b =>
    match takeByte ws with
    | .ok (v, rest) => .ok (v.setWidth 32, rest)
    | .error e => .error e
  | .w =>
    match takeWord ws with
    | .ok (v, rest) => .ok (v.setWidth 32, rest)
    | .error e => .error e
  | .l => takeLong ws

/-- The index extension word of R114. -/
def indexOf (w : Word) : IndexWord :=
  ⟨w.getLsbD 15, regOf (w.extractLsb' 12 3), w.getLsbD 11, w.extractLsb' 9 2, w.extractLsb' 0 8⟩

/-- The word of an index extension (R114), bit 8 written as 0. Log entry 14. -/
def indexBits (x : IndexWord) : Word :=
  BitVec.ofBool x.isAddr ++ regBits x.reg ++ BitVec.ofBool x.isLong ++ x.scale ++ 0#1 ++ x.disp

/-- Apply `f` to what was read. -/
def Parsed.map {α β : Type} (f : α → β) : Parsed α → Parsed β
  | .ok (a, ws) => .ok (f a, ws)
  | .error e => .error e

/-- Go on reading with what was read. -/
def Parsed.next {α β : Type} (p : Parsed α) (f : α → List Word → Parsed β) : Parsed β :=
  match p with
  | .ok (a, ws) => f a ws
  | .error e => .error e

/-- The effective-address operand that a mode and register field name (R110) with its extension words; `none` in the result is a field
that names no mode (`111 101` to `111 111`). -/
def takeEa (sz : Size) (mode reg : BitVec 3) (ws : List Word) : Parsed (Option Ea) :=
  match mode.toNat with
  | 0 => .ok (some (.dn (regOf reg)), ws)
  | 1 => .ok (some (.an (regOf reg)), ws)
  | 2 => .ok (some (.ind (regOf reg)), ws)
  | 3 => .ok (some (.postInc (regOf reg)), ws)
  | 4 => .ok (some (.preDec (regOf reg)), ws)
  | 5 => (takeWord ws).map fun d => some (.disp (regOf reg) d)
  | 6 => (takeWord ws).map fun w => some (.index (regOf reg) (indexOf w))
  | _ =>
    match reg.toNat with
    | 0 => (takeWord ws).map fun w => some (.absW w)
    | 1 => (takeLong ws).map fun a => some (.absL a)
    | 2 => (takeWord ws).map fun d => some (.pcDisp d)
    | 3 => (takeWord ws).map fun w => some (.pcIndex (indexOf w))
    | 4 => (takeImm sz ws).map fun v => some (.imm v)
    | _ => .ok (none, ws)

/-- Read the operand of the mode and register fields 5:3 and 2:0 and build the instruction from it; `none` is no instruction. -/
def withEa (sz : Size) (f : OpFields) (ws : List Word) (k : Ea → Instr) : Parsed (Option Instr) :=
  (takeEa sz f.mode f.ry ws).map fun ea => ea.map k

/-- An instruction without extension words. -/
def bare (i : Instr) (ws : List Word) : Parsed (Option Instr) := .ok (some i, ws)

/-- No row of R116. -/
def noRow (ws : List Word) : Parsed (Option Instr) := .ok (none, ws)

/-- Bits 7:6. -/
def OpFields.low2 (f : OpFields) : BitVec 2 := f.opm.extractLsb' 0 2

/-- Bit 8. -/
def OpFields.bit8 (f : OpFields) : Bool := f.opm.getLsbD 2

/-- Bit 7. -/
def OpFields.bit7 (f : OpFields) : Bool := f.opm.getLsbD 1

/-- Bit 6. -/
def OpFields.bit6 (f : OpFields) : Bool := f.opm.getLsbD 0

/-- Bits 11:8. -/
def OpFields.cond (f : OpFields) : BitVec 4 := f.rx ++ f.opm.extractLsb' 2 1

/-- Bits 7:0. -/
def OpFields.byte (f : OpFields) : Byte := f.low2 ++ f.mode ++ f.ry

/-- The operand form of bit 3 in F_REGREG (R106). -/
def OpFields.form (f : OpFields) : PairForm := if f.mode.getLsbD 0 then .preDecs else .dregs

/-- Bits 5:4 are 00: the F_REGREG and F_EXG shapes of R109, R118. -/
def OpFields.regReg (f : OpFields) : Bool := f.mode.extractLsb' 1 2 == 0

/-! ## The lines of the opcode map (R116) -/

/-- An immediate form of line 0: the immediate's words, then the operand's (R101). -/
def immEa (sz : Size) (f : OpFields) (ws : List Word) (k : Size → Long → Ea → Instr) : Parsed (Option Instr) :=
  (takeImm sz ws).next fun v rest => withEa sz f rest (k sz v)

/-- An immediate form that has a form on CCR and SR (F_IMM_SRCCR of R106): EA field `111 100` at sizes B and W. -/
def immOrStatus (sz : Size) (f : OpFields) (ws : List Word) (k : Size → Long → Ea → Instr) (ccr : Byte → Instr) (sr : Word → Instr) :
    Parsed (Option Instr) :=
  if f.mode = 7 ∧ f.ry = 4 then
    match sz with
    | .b => (takeByte ws).map fun v => some (ccr v)
    | .w => (takeWord ws).map fun v => some (sr v)
    | .l => noRow ws
  else immEa sz f ws k

/-- The bit operation of the type field 7:6 (R310), static form. -/
def bitImm (f : OpFields) (num : Byte) (ea : Ea) : Instr :=
  match f.low2.toNat with
  | 0 => .btstImm num ea
  | 1 => .bchgImm num ea
  | 2 => .bclrImm num ea
  | _ => .bsetImm num ea

/-- The bit operation of the type field 7:6 (R310), dynamic form. -/
def bitDyn (f : OpFields) (ea : Ea) : Instr :=
  match f.low2.toNat with
  | 0 => .btstDyn (regOf f.rx) ea
  | 1 => .bchgDyn (regOf f.rx) ea
  | 2 => .bclrDyn (regOf f.rx) ea
  | _ => .bsetDyn (regOf f.rx) ea

/-- Line 0: immediate, bit operations, MOVEP. -/
def decodeLine0 (f : OpFields) (ws : List Word) : Parsed (Option Instr) :=
  if f.bit8 then
    if f.mode = 1 then
      (takeWord ws).map fun d =>
        some (.movep (if f.bit7 then .regToMem else .memToReg) (wlOf f.bit6) (regOf f.rx) (regOf f.ry) d)
    else withEa .b f ws (bitDyn f)
  else
    match f.rx.toNat with
    | 4 => (takeByte ws).next fun n rest => withEa .b f rest (bitImm f n)
    | r =>
      match sizeOf2 f.low2 with
      | none => noRow ws
      | some sz =>
        match r with
        | 0 => immOrStatus sz f ws .ori .oriToCcr .oriToSr
        | 1 => immOrStatus sz f ws .andi .andiToCcr .andiToSr
        | 2 => immEa sz f ws .subi
        | 3 => immEa sz f ws .addi
        | 5 => immOrStatus sz f ws .eori .eoriToCcr .eoriToSr
        | 6 => immEa sz f ws .cmpi
        | _ => noRow ws

/-- Lines 1, 2, 3: MOVE and MOVEA; the source's extension words come before the destination's (R101). -/
def decodeMove (sz : Size) (f : OpFields) (ws : List Word) : Parsed (Option Instr) :=
  (takeEa sz f.mode f.ry ws).next fun src rest =>
    if f.opm = 1 then
      match sz with
      | .b => noRow rest
      | .w => .ok (src.map fun e => .movea .w (regOf f.rx) e, rest)
      | .l => .ok (src.map fun e => .movea .l (regOf f.rx) e, rest)
    else
      (takeEa sz f.opm f.rx rest).map fun dst => src.bind fun a => dst.map fun b => .move sz a b

/-- The rows 0x4E40 to 0x4E77. -/
def decodeLine4E (f : OpFields) (ws : List Word) : Parsed (Option Instr) :=
  match f.mode.toNat with
  | 0 => bare (.trap (0#1 ++ f.ry)) ws
  | 1 => bare (.trap (1#1 ++ f.ry)) ws
  | 2 => (takeWord ws).map fun d => some (.link (regOf f.ry) d)
  | 3 => bare (.unlk (regOf f.ry)) ws
  | 4 => bare (.moveToUsp (regOf f.ry)) ws
  | 5 => bare (.moveFromUsp (regOf f.ry)) ws
  | 6 =>
    match f.ry.toNat with
    | 0 => bare .reset ws
    | 1 => bare .nop ws
    | 2 => (takeWord ws).map fun i => some (.stop i)
    | 3 => bare .rte ws
    | 5 => bare .rts ws
    | 6 => bare .trapv ws
    | 7 => bare .rtr ws
    | _ => noRow ws
  | _ => noRow ws

/-- A single-operand row with a size field, and the row that the size value 11 selects. -/
def sizedEa (f : OpFields) (ws : List Word) (k : Size → Ea → Instr) (other : Parsed (Option Instr)) : Parsed (Option Instr) :=
  match sizeOf2 f.low2 with
  | some sz => withEa sz f ws (k sz)
  | none => other

/-- Line 4: miscellaneous. -/
def decodeLine4 (f : OpFields) (ws : List Word) : Parsed (Option Instr) :=
  if f.bit8 then
    match f.low2.toNat with
    | 2 => withEa .w f ws (.chk (regOf f.rx))
    | 3 => withEa .l f ws (.lea (regOf f.rx))
    | _ => noRow ws
  else
    match f.rx.toNat with
    | 0 => sizedEa f ws .negx (withEa .w f ws .moveFromSr)
    | 1 => sizedEa f ws .clr (noRow ws)
    | 2 => sizedEa f ws .neg (withEa .w f ws .moveToCcr)
    | 3 => sizedEa f ws .not (withEa .w f ws .moveToSr)
    | 4 =>
      match f.low2.toNat with
      | 0 => withEa .b f ws .nbcd
      | 1 => if f.mode = 0 then bare (.swap (regOf f.ry)) ws else withEa .l f ws .pea
      | 2 =>
        if f.mode = 0 then bare (.extW (regOf f.ry)) ws
        else (takeWord ws).next fun m rest => withEa .w f rest (.movemToMem .w m)
      | _ =>
        if f.mode = 0 then bare (.extL (regOf f.ry)) ws
        else (takeWord ws).next fun m rest => withEa .l f rest (.movemToMem .l m)
    | 5 => sizedEa f ws .tst (if f.mode = 7 ∧ f.ry = 4 then bare .illegal ws else withEa .b f ws .tas)
    | 6 =>
      match f.low2.toNat with
      | 2 => (takeWord ws).next fun m rest => withEa .w f rest (.movemToRegs .w m)
      | 3 => (takeWord ws).next fun m rest => withEa .l f rest (.movemToRegs .l m)
      | _ => noRow ws
    | _ =>
      match f.low2.toNat with
      | 1 => decodeLine4E f ws
      | 2 => withEa .l f ws .jsr
      | 3 => withEa .l f ws .jmp
      | _ => noRow ws

/-- Line 5: ADDQ, SUBQ, Scc, DBcc. -/
def decodeLine5 (f : OpFields) (ws : List Word) : Parsed (Option Instr) :=
  match sizeOf2 f.low2 with
  | some sz => withEa sz f ws (if f.bit8 then .subq sz f.rx else .addq sz f.rx)
  | none =>
    if f.mode = 1 then (takeWord ws).map fun d => some (.dbcc (condOf f.cond) (regOf f.ry) d)
    else withEa .b f ws (.scc (condOf f.cond))

/-- Line 6: BRA, BSR, Bcc; a displacement byte of 0 is followed by one extension word (R113). -/
def decodeLine6 (f : OpFields) (ws : List Word) : Parsed (Option Instr) :=
  let k (d : BranchDisp) : Option Instr :=
    match condOf f.cond with
    | .t => some (.bra d)
    | .f => some (.bsr d)
    | cond => some (.bcc cond d)
  if f.byte = 0 then (takeWord ws).map fun d => k (.word d) else .ok (k (.byte f.byte), ws)

/-- Line 7: MOVEQ. -/
def decodeLine7 (f : OpFields) (ws : List Word) : Parsed (Option Instr) :=
  if f.bit8 then noRow ws else bare (.moveq (regOf f.rx) f.byte) ws

/-- A line of the two-operand rows by the opmode field (R109): `ea` for 000 to 010, `word` for 011, `long` for 111, `pair` for 100 to 110
with bits 5:4 clear, `dn` for the rest of 100 to 110. -/
def decodeOpmode (f : OpFields) (ws : List Word) (ea : Size → Ea → Instr) (word long : Ea → Instr) (longSz : Size)
    (pair : Size → Parsed (Option Instr)) (dn : Size → Ea → Instr) : Parsed (Option Instr) :=
  match sizeOf2 f.low2 with
  | none => if f.bit8 then withEa longSz f ws long else withEa .w f ws word
  | some sz =>
    if f.bit8 then
      if f.regReg then pair sz else withEa sz f ws (dn sz)
    else withEa sz f ws (ea sz)

/-- Line 8: OR, DIVU, DIVS, SBCD. -/
def decodeLine8 (f : OpFields) (ws : List Word) : Parsed (Option Instr) :=
  decodeOpmode f ws (fun sz e => .orEaDn sz e (regOf f.rx)) (.divu (regOf f.rx)) (.divs (regOf f.rx)) .w
    (fun sz => if sz = .b then bare (.sbcd f.form (regOf f.rx) (regOf f.ry)) ws else noRow ws)
    (fun sz e => .orDnEa sz (regOf f.rx) e)

/-- Line 9: SUB, SUBA, SUBX. -/
def decodeLine9 (f : OpFields) (ws : List Word) : Parsed (Option Instr) :=
  decodeOpmode f ws (fun sz e => .subEaDn sz e (regOf f.rx)) (.suba .w (regOf f.rx)) (.suba .l (regOf f.rx)) .l
    (fun sz => bare (.subx sz f.form (regOf f.rx) (regOf f.ry)) ws)
    (fun sz e => .subDnEa sz (regOf f.rx) e)

/-- Line B: CMP, CMPA, EOR, CMPM; with EA mode 000 the pair shape is `EOR Dn,Dn` (R118). -/
def decodeLineB (f : OpFields) (ws : List Word) : Parsed (Option Instr) :=
  decodeOpmode f ws (fun sz e => .cmp sz e (regOf f.rx)) (.cmpa .w (regOf f.rx)) (.cmpa .l (regOf f.rx)) .l
    (fun sz =>
      match f.form with
      | .dregs => bare (.eor sz (regOf f.rx) (.dn (regOf f.ry))) ws
      | .preDecs => bare (.cmpm sz (regOf f.rx) (regOf f.ry)) ws)
    (fun sz e => .eor sz (regOf f.rx) e)

/-- Line C: AND, MULU, MULS, ABCD, EXG (R118). -/
def decodeLineC (f : OpFields) (ws : List Word) : Parsed (Option Instr) :=
  decodeOpmode f ws (fun sz e => .andEaDn sz e (regOf f.rx)) (.mulu (regOf f.rx)) (.muls (regOf f.rx)) .w
    (fun sz =>
      match sz, f.form with
      | .b, form => bare (.abcd form (regOf f.rx) (regOf f.ry)) ws
      | .w, .dregs => bare (.exgDD (regOf f.rx) (regOf f.ry)) ws
      | .w, .preDecs => bare (.exgAA (regOf f.rx) (regOf f.ry)) ws
      | .l, .dregs => noRow ws
      | .l, .preDecs => bare (.exgDA (regOf f.rx) (regOf f.ry)) ws)
    (fun sz e => .andDnEa sz (regOf f.rx) e)

/-- Line D: ADD, ADDA, ADDX. -/
def decodeLineD (f : OpFields) (ws : List Word) : Parsed (Option Instr) :=
  decodeOpmode f ws (fun sz e => .addEaDn sz e (regOf f.rx)) (.adda .w (regOf f.rx)) (.adda .l (regOf f.rx)) .l
    (fun sz => bare (.addx sz f.form (regOf f.rx) (regOf f.ry)) ws)
    (fun sz e => .addDnEa sz (regOf f.rx) e)

/-- The register shift or rotate of a kind and direction (R106 "Type", R290). -/
def shiftReg (kind : BitVec 2) (left : Bool) (sz : Size) (cnt : ShiftCount) (y : Reg) : Instr :=
  match kind.toNat, left with
  | 0, false => .asrReg sz cnt y
  | 0, true => .aslReg sz cnt y
  | 1, false => .lsrReg sz cnt y
  | 1, true => .lslReg sz cnt y
  | 2, false => .roxrReg sz cnt y
  | 2, true => .roxlReg sz cnt y
  | _, false => .rorReg sz cnt y
  | _, true => .rolReg sz cnt y

/-- The memory shift or rotate of a kind and direction (R290). -/
def shiftMem (kind : BitVec 2) (left : Bool) (ea : Ea) : Instr :=
  match kind.toNat, left with
  | 0, false => .asrMem ea
  | 0, true => .aslMem ea
  | 1, false => .lsrMem ea
  | 1, true => .lslMem ea
  | 2, false => .roxrMem ea
  | 2, true => .roxlMem ea
  | _, false => .rorMem ea
  | _, true => .rolMem ea

/-- Line E: shifts and rotates. -/
def decodeLineE (f : OpFields) (ws : List Word) : Parsed (Option Instr) :=
  match sizeOf2 f.low2 with
  | none => if f.rx.getLsbD 2 then noRow ws else withEa .w f ws (shiftMem (f.rx.extractLsb' 0 2) f.bit8)
  | some sz =>
    let cnt : ShiftCount := if f.mode.getLsbD 2 then .reg (regOf f.rx) else .field f.rx
    bare (shiftReg (f.mode.extractLsb' 0 2) f.bit8 sz cnt (regOf f.ry)) ws

/-- The dispatch on the line (R115); lines A and F have no row. -/
def decodeFields (f : OpFields) (ws : List Word) : Parsed (Option Instr) :=
  match f.line.toNat with
  | 0 => decodeLine0 f ws
  | 1 => decodeMove .b f ws
  | 2 => decodeMove .l f ws
  | 3 => decodeMove .w f ws
  | 4 => decodeLine4 f ws
  | 5 => decodeLine5 f ws
  | 6 => decodeLine6 f ws
  | 7 => decodeLine7 f ws
  | 8 => decodeLine8 f ws
  | 9 => decodeLine9 f ws
  | 11 => decodeLineB f ws
  | 12 => decodeLineC f ws
  | 13 => decodeLineD f ws
  | 14 => decodeLineE f ws
  | _ => noRow ws

/-- The decoder: the instruction at the head of a word list and the words after it. -/
def decode : List Word → Parsed Instr
  | [] => .error .truncated
  | op :: ws =>
    match decodeFields (splitOp op) ws with
    | .error e => .error e
    | .ok (none, _) => .error (.illegalOpcode op)
    | .ok (some i, rest) => if i.wellFormed then .ok (i, rest) else .error (.illegalOpcode op)

/-- Bytes as big-endian words (20_memory.md R63); a last odd byte is no word. -/
def wordsOfBytes : List Byte → List Word
  | hi :: lo :: bs => (hi ++ lo) :: wordsOfBytes bs
  | _ => []

/-- The decoder on the bytes of memory, lowest address first. -/
def decodeBytes (bs : List Byte) : Parsed Instr := decode (wordsOfBytes bs)

/-! ## The encoder -/

/-- The mode field of an operand (R110). -/
def Ea.modeBits : Ea → BitVec 3
  | .dn _ => 0
  | .an _ => 1
  | .ind _ => 2
  | .postInc _ => 3
  | .preDec _ => 4
  | .disp _ _ => 5
  | .index _ _ => 6
  | .absW _ | .absL _ | .pcDisp _ | .pcIndex _ | .imm _ => 7

/-- The register field of an operand (R110). -/
def Ea.regField : Ea → BitVec 3
  | .dn n | .an n | .ind n | .postInc n | .preDec n | .disp n _ | .index n _ => regBits n
  | .absW _ => 0
  | .absL _ => 1
  | .pcDisp _ => 2
  | .pcIndex _ => 3
  | .imm _ => 4

/-- The words of a long, high-order word first. -/
def longWords (v : Long) : List Word := [v.extractLsb' 16 16, v.extractLsb' 0 16]

/-- The words of an immediate at an operand size (R113); a byte stands in the low half of its word, the high half 0. Log entry 14. -/
def immWords (sz : Size) (v : Long) : List Word :=
  match sz with
  | .b => [(v.extractLsb' 0 8).setWidth 16]
  | .w => [v.extractLsb' 0 16]
  | .l => longWords v

/-- The extension words of an operand at an operand size (R110). -/
def Ea.extWords (sz : Size) : Ea → List Word
  | .dn _ | .an _ | .ind _ | .postInc _ | .preDec _ => []
  | .disp _ d => [d]
  | .index _ x => [indexBits x]
  | .absW w => [w]
  | .absL a => longWords a
  | .pcDisp d => [d]
  | .pcIndex x => [indexBits x]
  | .imm v => immWords sz v

/-- The bytes of an operand's extension words (R110). -/
def Ea.extBytes (sz : Size) (ea : Ea) : Nat := 2 * (ea.extWords sz).length

/-- An opcode word with an EA field in bits 5:0. -/
def eaOp (line : BitVec 4) (rx opm : BitVec 3) (ea : Ea) : Word := joinOp ⟨line, rx, opm, ea.modeBits, ea.regField⟩

/-- A row with an EA field and only the operand's extension words. -/
def encEa (line : BitVec 4) (rx opm : BitVec 3) (sz : Size) (ea : Ea) : List Word := eaOp line rx opm ea :: ea.extWords sz

/-- The opmode field of bit 8 and bits 7:6 (R109). -/
def opmBits (bit8 : BitVec 1) (low : BitVec 2) : BitVec 3 := bit8 ++ low

/-- A row of the immediate format (F_IMM_EA). -/
def encImm (rx : BitVec 3) (sz : Size) (v : Long) (ea : Ea) : List Word :=
  eaOp 0 rx (opmBits 0 (sizeBits sz)) ea :: (immWords sz v ++ ea.extWords sz)

/-- A row of the immediate-to-CCR or -SR format (F_IMM_SRCCR). -/
def encStatus (rx : BitVec 3) (sz : BitVec 2) (v : Word) : List Word := [joinOp ⟨0, rx, opmBits 0 sz, 7, 4⟩, v]

/-- A row of the static bit format (F_BIT_IMM). -/
def encBit (kind : BitVec 2) (num : Byte) (ea : Ea) : List Word :=
  eaOp 0 4 (opmBits 0 kind) ea :: num.setWidth 16 :: ea.extWords ea.bitSize

/-- A row of the dynamic bit format (F_BIT_DYN). -/
def encBitDyn (kind : BitVec 2) (n : Reg) (ea : Ea) : List Word := encEa 0 (regBits n) (opmBits 1 kind) ea.bitSize ea

/-- The line of a MOVE size (R107 `01/11/10`). -/
def moveLine : Size → BitVec 4
  | .b => 1
  | .w => 3
  | .l => 2

/-- The bits 5:3 of the F_REGREG format. -/
def formBits : PairForm → BitVec 3
  | .dregs => 0
  | .preDecs => 1

/-- A row of the F_REGREG format. -/
def encPair (line : BitVec 4) (low : BitVec 2) (form : PairForm) (x y : Reg) : List Word :=
  [joinOp ⟨line, regBits x, opmBits 1 low, formBits form, regBits y⟩]

/-- A word of bits 15:12, 11:8 and 7:0 (F_BRANCH, F_MOVEQ). -/
def byteOp (line cond : BitVec 4) (b : Byte) : Word := line ++ cond ++ b

/-- A row of the branch format (F_BRANCH). -/
def encBranch (cond : Cond) : BranchDisp → List Word
  | .byte d => [byteOp 6 (condBits cond) d]
  | .word d => [byteOp 6 (condBits cond) 0, d]

/-- Bits 11:9 of a condition field. -/
def condHi (cond : Cond) : BitVec 3 := (condBits cond).extractLsb' 1 3

/-- Bit 8 of a condition field. -/
def condLo (cond : Cond) : BitVec 1 := (condBits cond).extractLsb' 0 1

/-- Bits 11:9 of a register shift (R290). -/
def countField : ShiftCount → BitVec 3
  | .field n => n
  | .reg n => regBits n

/-- Bit 5 of a register shift (R290). -/
def countBit : ShiftCount → BitVec 1
  | .field _ => 0
  | .reg _ => 1

/-- A row of the register shift format (F_SHIFT_REG). -/
def encShift (kind : BitVec 2) (dr : BitVec 1) (sz : Size) (cnt : ShiftCount) (y : Reg) : List Word :=
  [joinOp ⟨14, countField cnt, opmBits dr (sizeBits sz), countBit cnt ++ kind, regBits y⟩]

/-- A row of the memory shift format (F_SHIFT_MEM). -/
def encShiftMem (kind : BitVec 2) (dr : BitVec 1) (ea : Ea) : List Word := encEa 14 (0#1 ++ kind) (opmBits dr 3) .w ea

/-- A fixed row 0x4E70 to 0x4E77. -/
def enc4E7 (ry : BitVec 3) : Word := joinOp ⟨4, 7, 1, 6, ry⟩

/-- The words of an instruction (R106 to R116). -/
def encode : Instr → List Word
  | .oriToCcr i => encStatus 0 0 (i.setWidth 16)
  | .oriToSr i => encStatus 0 1 i
  | .andiToCcr i => encStatus 1 0 (i.setWidth 16)
  | .andiToSr i => encStatus 1 1 i
  | .eoriToCcr i => encStatus 5 0 (i.setWidth 16)
  | .eoriToSr i => encStatus 5 1 i
  | .ori sz i ea => encImm 0 sz i ea
  | .andi sz i ea => encImm 1 sz i ea
  | .subi sz i ea => encImm 2 sz i ea
  | .addi sz i ea => encImm 3 sz i ea
  | .eori sz i ea => encImm 5 sz i ea
  | .cmpi sz i ea => encImm 6 sz i ea
  | .btstImm n ea => encBit 0 n ea
  | .bchgImm n ea => encBit 1 n ea
  | .bclrImm n ea => encBit 2 n ea
  | .bsetImm n ea => encBit 3 n ea
  | .btstDyn n ea => encBitDyn 0 n ea
  | .bchgDyn n ea => encBitDyn 1 n ea
  | .bclrDyn n ea => encBitDyn 2 n ea
  | .bsetDyn n ea => encBitDyn 3 n ea
  | .movep dir sz dx ay d =>
    [joinOp ⟨0, regBits dx, 1#1 ++ (match dir with | .memToReg => 0#1 | .regToMem => 1#1) ++ wlBit sz, 1, regBits ay⟩, d]
  | .move sz src dst =>
    joinOp ⟨moveLine sz, dst.regField, dst.modeBits, src.modeBits, src.regField⟩ :: (src.extWords sz ++ dst.extWords sz)
  | .movea sz n src => joinOp ⟨moveLine sz.size, regBits n, 1, src.modeBits, src.regField⟩ :: src.extWords sz.size
  | .negx sz ea => encEa 4 0 (opmBits 0 (sizeBits sz)) sz ea
  | .moveFromSr ea => encEa 4 0 3 .w ea
  | .chk n ea => encEa 4 (regBits n) 6 .w ea
  | .lea n ea => encEa 4 (regBits n) 7 .l ea
  | .clr sz ea => encEa 4 1 (opmBits 0 (sizeBits sz)) sz ea
  | .neg sz ea => encEa 4 2 (opmBits 0 (sizeBits sz)) sz ea
  | .moveToCcr ea => encEa 4 2 3 .w ea
  | .not sz ea => encEa 4 3 (opmBits 0 (sizeBits sz)) sz ea
  | .moveToSr ea => encEa 4 3 3 .w ea
  | .nbcd ea => encEa 4 4 0 .b ea
  | .swap n => [joinOp ⟨4, 4, 1, 0, regBits n⟩]
  | .pea ea => encEa 4 4 1 .l ea
  | .extW n => [joinOp ⟨4, 4, 2, 0, regBits n⟩]
  | .extL n => [joinOp ⟨4, 4, 3, 0, regBits n⟩]
  | .movemToMem sz m ea => eaOp 4 4 (opmBits 0 (1#1 ++ wlBit sz)) ea :: m :: ea.extWords sz.size
  | .tst sz ea => encEa 4 5 (opmBits 0 (sizeBits sz)) sz ea
  | .tas ea => encEa 4 5 3 .b ea
  | .illegal => [joinOp ⟨4, 5, 3, 7, 4⟩]
  | .movemToRegs sz m ea => eaOp 4 6 (opmBits 0 (1#1 ++ wlBit sz)) ea :: m :: ea.extWords sz.size
  | .trap v => [joinOp ⟨4, 7, 1, 0#2 ++ v.extractLsb' 3 1, v.extractLsb' 0 3⟩]
  | .link n d => [joinOp ⟨4, 7, 1, 2, regBits n⟩, d]
  | .unlk n => [joinOp ⟨4, 7, 1, 3, regBits n⟩]
  | .moveToUsp n => [joinOp ⟨4, 7, 1, 4, regBits n⟩]
  | .moveFromUsp n => [joinOp ⟨4, 7, 1, 5, regBits n⟩]
  | .reset => [enc4E7 0]
  | .nop => [enc4E7 1]
  | .stop i => [enc4E7 2, i]
  | .rte => [enc4E7 3]
  | .rts => [enc4E7 5]
  | .trapv => [enc4E7 6]
  | .rtr => [enc4E7 7]
  | .jsr ea => encEa 4 7 2 .l ea
  | .jmp ea => encEa 4 7 3 .l ea
  | .addq sz q ea => encEa 5 q (opmBits 0 (sizeBits sz)) sz ea
  | .subq sz q ea => encEa 5 q (opmBits 1 (sizeBits sz)) sz ea
  | .scc cond ea => encEa 5 (condHi cond) (opmBits (condLo cond) 3) .b ea
  | .dbcc cond n d => [joinOp ⟨5, condHi cond, opmBits (condLo cond) 3, 1, regBits n⟩, d]
  | .bra d => encBranch .t d
  | .bsr d => encBranch .f d
  | .bcc cond d => encBranch cond d
  | .moveq n v => [byteOp 7 (regBits n ++ 0#1) v]
  | .orEaDn sz ea n => encEa 8 (regBits n) (opmBits 0 (sizeBits sz)) sz ea
  | .orDnEa sz n ea => encEa 8 (regBits n) (opmBits 1 (sizeBits sz)) sz ea
  | .divu n ea => encEa 8 (regBits n) 3 .w ea
  | .divs n ea => encEa 8 (regBits n) 7 .w ea
  | .sbcd form x y => encPair 8 0 form x y
  | .subEaDn sz ea n => encEa 9 (regBits n) (opmBits 0 (sizeBits sz)) sz ea
  | .subDnEa sz n ea => encEa 9 (regBits n) (opmBits 1 (sizeBits sz)) sz ea
  | .suba sz n ea => encEa 9 (regBits n) (opmBits (wlBit sz) 3) sz.size ea
  | .subx sz form x y => encPair 9 (sizeBits sz) form x y
  | .cmp sz ea n => encEa 11 (regBits n) (opmBits 0 (sizeBits sz)) sz ea
  | .cmpa sz n ea => encEa 11 (regBits n) (opmBits (wlBit sz) 3) sz.size ea
  | .eor sz n ea => encEa 11 (regBits n) (opmBits 1 (sizeBits sz)) sz ea
  | .cmpm sz x y => encPair 11 (sizeBits sz) .preDecs x y
  | .andEaDn sz ea n => encEa 12 (regBits n) (opmBits 0 (sizeBits sz)) sz ea
  | .andDnEa sz n ea => encEa 12 (regBits n) (opmBits 1 (sizeBits sz)) sz ea
  | .mulu n ea => encEa 12 (regBits n) 3 .w ea
  | .muls n ea => encEa 12 (regBits n) 7 .w ea
  | .abcd form x y => encPair 12 0 form x y
  | .exgDD x y => [joinOp ⟨12, regBits x, 5, 0, regBits y⟩]
  | .exgAA x y => [joinOp ⟨12, regBits x, 5, 1, regBits y⟩]
  | .exgDA x y => [joinOp ⟨12, regBits x, 6, 1, regBits y⟩]
  | .addEaDn sz ea n => encEa 13 (regBits n) (opmBits 0 (sizeBits sz)) sz ea
  | .addDnEa sz n ea => encEa 13 (regBits n) (opmBits 1 (sizeBits sz)) sz ea
  | .adda sz n ea => encEa 13 (regBits n) (opmBits (wlBit sz) 3) sz.size ea
  | .addx sz form x y => encPair 13 (sizeBits sz) form x y
  | .asrReg sz cnt y => encShift 0 0 sz cnt y
  | .asrMem ea => encShiftMem 0 0 ea
  | .aslReg sz cnt y => encShift 0 1 sz cnt y
  | .aslMem ea => encShiftMem 0 1 ea
  | .lsrReg sz cnt y => encShift 1 0 sz cnt y
  | .lsrMem ea => encShiftMem 1 0 ea
  | .lslReg sz cnt y => encShift 1 1 sz cnt y
  | .lslMem ea => encShiftMem 1 1 ea
  | .roxrReg sz cnt y => encShift 2 0 sz cnt y
  | .roxrMem ea => encShiftMem 2 0 ea
  | .roxlReg sz cnt y => encShift 2 1 sz cnt y
  | .roxlMem ea => encShiftMem 2 1 ea
  | .rorReg sz cnt y => encShift 3 0 sz cnt y
  | .rorMem ea => encShiftMem 3 0 ea
  | .rolReg sz cnt y => encShift 3 1 sz cnt y
  | .rolMem ea => encShiftMem 3 1 ea

/-- The length of an instruction in bytes (R100). -/
def Instr.length (i : Instr) : Nat := 2 * (encode i).length

/-! ## The rows of the opcode map -/

/-- The mask and match values of an instruction's row in R116. -/
def Instr.row : Instr → Word × Word
  | .oriToCcr _ => (0xFFFF, 0x003C)
  | .oriToSr _ => (0xFFFF, 0x007C)
  | .andiToCcr _ => (0xFFFF, 0x023C)
  | .andiToSr _ => (0xFFFF, 0x027C)
  | .eoriToCcr _ => (0xFFFF, 0x0A3C)
  | .eoriToSr _ => (0xFFFF, 0x0A7C)
  | .ori _ _ _ => (0xFF00, 0x0000)
  | .andi _ _ _ => (0xFF00, 0x0200)
  | .subi _ _ _ => (0xFF00, 0x0400)
  | .addi _ _ _ => (0xFF00, 0x0600)
  | .eori _ _ _ => (0xFF00, 0x0A00)
  | .cmpi _ _ _ => (0xFF00, 0x0C00)
  | .btstImm _ _ => (0xFFC0, 0x0800)
  | .bchgImm _ _ => (0xFFC0, 0x0840)
  | .bclrImm _ _ => (0xFFC0, 0x0880)
  | .bsetImm _ _ => (0xFFC0, 0x08C0)
  | .btstDyn _ _ => (0xF1C0, 0x0100)
  | .bchgDyn _ _ => (0xF1C0, 0x0140)
  | .bclrDyn _ _ => (0xF1C0, 0x0180)
  | .bsetDyn _ _ => (0xF1C0, 0x01C0)
  | .movep _ _ _ _ _ => (0xF138, 0x0108)
  | .move _ _ _ => (0xC000, 0x0000)
  | .movea _ _ _ => (0xC1C0, 0x0040)
  | .negx _ _ => (0xFF00, 0x4000)
  | .moveFromSr _ => (0xFFC0, 0x40C0)
  | .chk _ _ => (0xF1C0, 0x4180)
  | .lea _ _ => (0xF1C0, 0x41C0)
  | .clr _ _ => (0xFF00, 0x4200)
  | .neg _ _ => (0xFF00, 0x4400)
  | .moveToCcr _ => (0xFFC0, 0x44C0)
  | .not _ _ => (0xFF00, 0x4600)
  | .moveToSr _ => (0xFFC0, 0x46C0)
  | .nbcd _ => (0xFFC0, 0x4800)
  | .swap _ => (0xFFF8, 0x4840)
  | .pea _ => (0xFFC0, 0x4840)
  | .extW _ => (0xFFF8, 0x4880)
  | .extL _ => (0xFFF8, 0x48C0)
  | .movemToMem _ _ _ => (0xFF80, 0x4880)
  | .tst _ _ => (0xFF00, 0x4A00)
  | .tas _ => (0xFFC0, 0x4AC0)
  | .illegal => (0xFFFF, 0x4AFC)
  | .movemToRegs _ _ _ => (0xFF80, 0x4C80)
  | .trap _ => (0xFFF0, 0x4E40)
  | .link _ _ => (0xFFF8, 0x4E50)
  | .unlk _ => (0xFFF8, 0x4E58)
  | .moveToUsp _ => (0xFFF8, 0x4E60)
  | .moveFromUsp _ => (0xFFF8, 0x4E68)
  | .reset => (0xFFFF, 0x4E70)
  | .nop => (0xFFFF, 0x4E71)
  | .stop _ => (0xFFFF, 0x4E72)
  | .rte => (0xFFFF, 0x4E73)
  | .rts => (0xFFFF, 0x4E75)
  | .trapv => (0xFFFF, 0x4E76)
  | .rtr => (0xFFFF, 0x4E77)
  | .jsr _ => (0xFFC0, 0x4E80)
  | .jmp _ => (0xFFC0, 0x4EC0)
  | .addq _ _ _ => (0xF100, 0x5000)
  | .subq _ _ _ => (0xF100, 0x5100)
  | .scc _ _ => (0xF0C0, 0x50C0)
  | .dbcc _ _ _ => (0xF0F8, 0x50C8)
  | .bra _ => (0xFF00, 0x6000)
  | .bsr _ => (0xFF00, 0x6100)
  | .bcc _ _ => (0xF000, 0x6000)
  | .moveq _ _ => (0xF100, 0x7000)
  | .orEaDn _ _ _ => (0xF100, 0x8000)
  | .orDnEa _ _ _ => (0xF100, 0x8100)
  | .divu _ _ => (0xF1C0, 0x80C0)
  | .divs _ _ => (0xF1C0, 0x81C0)
  | .sbcd _ _ _ => (0xF1F0, 0x8100)
  | .subEaDn _ _ _ => (0xF100, 0x9000)
  | .subDnEa _ _ _ => (0xF100, 0x9100)
  | .suba _ _ _ => (0xF0C0, 0x90C0)
  | .subx _ _ _ _ => (0xF130, 0x9100)
  | .cmp _ _ _ => (0xF100, 0xB000)
  | .cmpa _ _ _ => (0xF0C0, 0xB0C0)
  | .eor _ _ _ => (0xF100, 0xB100)
  | .cmpm _ _ _ => (0xF138, 0xB108)
  | .andEaDn _ _ _ => (0xF100, 0xC000)
  | .andDnEa _ _ _ => (0xF100, 0xC100)
  | .mulu _ _ => (0xF1C0, 0xC0C0)
  | .muls _ _ => (0xF1C0, 0xC1C0)
  | .abcd _ _ _ => (0xF1F0, 0xC100)
  | .exgDD _ _ => (0xF1F8, 0xC140)
  | .exgAA _ _ => (0xF1F8, 0xC148)
  | .exgDA _ _ => (0xF1F8, 0xC188)
  | .addEaDn _ _ _ => (0xF100, 0xD000)
  | .addDnEa _ _ _ => (0xF100, 0xD100)
  | .adda _ _ _ => (0xF0C0, 0xD0C0)
  | .addx _ _ _ _ => (0xF130, 0xD100)
  | .asrReg _ _ _ => (0xF118, 0xE000)
  | .asrMem _ => (0xFFC0, 0xE0C0)
  | .aslReg _ _ _ => (0xF118, 0xE100)
  | .aslMem _ => (0xFFC0, 0xE1C0)
  | .lsrReg _ _ _ => (0xF118, 0xE008)
  | .lsrMem _ => (0xFFC0, 0xE2C0)
  | .lslReg _ _ _ => (0xF118, 0xE108)
  | .lslMem _ => (0xFFC0, 0xE3C0)
  | .roxrReg _ _ _ => (0xF118, 0xE010)
  | .roxrMem _ => (0xFFC0, 0xE4C0)
  | .roxlReg _ _ _ => (0xF118, 0xE110)
  | .roxlMem _ => (0xFFC0, 0xE5C0)
  | .rorReg _ _ _ => (0xF118, 0xE018)
  | .rorMem _ => (0xFFC0, 0xE6C0)
  | .rolReg _ _ _ => (0xF118, 0xE118)
  | .rolMem _ => (0xFFC0, 0xE7C0)

/-! ## The table's numbering of bits -/

/-- Word `k` of an instruction numbered as spec/opcode_table.json numbers it: bit 0 is the least significant bit of the first word. -/
def tableWord (nbits w k : Nat) : Word := BitVec.ofNat 16 ((w % 2 ^ nbits) >>> (16 * k))

/-- The five words (the longest instruction, R101) of a table word, zeros above `nbits`. -/
def tableWords (nbits w : Nat) : List Word :=
  [tableWord nbits w 0, tableWord nbits w 1, tableWord nbits w 2, tableWord nbits w 3, tableWord nbits w 4]

/-- The instruction the decoder reads from a table word. -/
def decodeTableWord (nbits w : Nat) : Option Instr :=
  match decode (tableWords nbits w) with
  | .ok (i, _) => some i
  | .error _ => none

end Sys2Proof
end

