-- ==== Sys2Proof/Machine/Bits.lean ====
section
/-! DEFINITION. Operand-size helpers on long patterns (spec/00_scope.md R9): truncation, sign, sign extension, merge-write. -/

namespace Sys2Proof.Machine

/-- `v and mask(sz)` (R9). -/
def trunc (sz : Size) (v : Long) : Long := v &&& sz.mask

/-- `msb(v, sz)` (R9). -/
def msb (sz : Size) (v : Long) : Bool := v.getLsbD (sz.bits - 1)

/-- `sext_32` of the `bits(sz)`-bit value `v` (R9). -/
def sext (sz : Size) (v : Long) : Long :=
  match sz with
  | .b => (v.extractLsb' 0 8).signExtend 32
  | .w => (v.extractLsb' 0 16).signExtend 32
  | .l => v

/-- The low word of a long. -/
def lowWord (v : Long) : Word := v.extractLsb' 0 16

/-- The high word of a long. -/
def highWord (v : Long) : Word := v.extractLsb' 16 16

/-- A merge-write at a size (10_state.md R22): the low `bits(sz)` bits of `v`, the other bits of `old`. -/
def merge (sz : Size) (old v : Long) : Long := (old &&& ~~~sz.mask) ||| (v &&& sz.mask)

/-- 1 for a set flag. -/
def bitOf (b : Bool) : Long := if b then 1 else 0

/-- The data of a quick or immediate-count field (30_encoding.md R113): 0 means 8. -/
def quickData (q : BitVec 3) : Nat := if q = 0 then 8 else q.toNat

end Sys2Proof.Machine
end

