-- ==== Sys2Proof/Machine/Params.lean ====
section
/-! DEFINITION. The defaults of the OPEN parameters (spec/00_scope.md R6). -/

namespace Sys2Proof.Machine

/-- The defaults of R6: `TRACE_EXC` false (D2), `LINE_AF_VECTORS` false (D6), `INDEX_SCALE_ENABLED` true (D7). Log entry 4. -/
def defaultParams : Params := { traceExc := false, lineAfVectors := false, indexScale := true }

end Sys2Proof.Machine
end

