-- ==== Sys2Proof/Machine/State.lean ====
section
/-! DEFINITION. The state of the machine (spec/10_state.md R20), its reset value (R42, R43) and the reasons a step could stop. -/

namespace Sys2Proof.Machine

/-- Memory as the bytes that differ from what an unlisted address reads as, addresses strictly rising (20_memory.md R60). -/
abbrev Memory := List Host.Cell

/-- A pending interrupt request (R40, 60_exceptions.md R430): `vector` is `none` for "auto". -/
structure IrqRequest where
  level : BitVec 3
  vector : Option Byte
  deriving DecidableEq, Repr

/-- The complete state of R20, and the parameters of R6, which no step writes. `A7` is no cell of its own (R23). -/
structure State where
  /-- D0 to D7 (R21). -/
  d : Vector Long 8
  /-- A0 to A6 (R23). -/
  a : Vector Long 7
  /-- User stack pointer (R23). -/
  usp : Long
  /-- Supervisor stack pointer (R23). -/
  ssp : Long
  /-- Program counter (R28). -/
  pc : Long
  /-- Status register; its low byte is CCR (R32). -/
  sr : Word
  /-- The byte memory (R60). -/
  mem : Memory
  /-- Set by `Reset()`, consumed by the next `Step` (R38). -/
  resetPending : Bool
  /-- STOP was executed and the core waits (R39). -/
  stopped : Bool
  /-- A fault was raised inside exception entry (R39). -/
  halted : Bool
  /-- Pending interrupt requests, the one posted first at the head (R40, 60_exceptions.md R430). -/
  irqQueue : List IrqRequest
  /-- The OPEN parameters of this machine (00_scope.md R6), the model's own field. Log entry 4. -/
  params : Params
  deriving DecidableEq, Repr

/-- The reasons the machine could stop with a fault. It has none: every fault of the manual takes its exception entry, a next state
("No fault terminates the model", 60_exceptions.md R403), a double fault enters the halted state (R422), and a halted step is a next
state (R401). -/
inductive Fault where
  deriving DecidableEq, Repr

/-- The reasons the machine refuses an instruction. -/
inductive Refusal where
  /-- Raised by `exec` for an instruction that has no meaning yet. No arm raises it. Safe: the run stops. -/
  | notModelled (mnemonic : String)
  deriving DecidableEq, Repr

/-- The machine right after `ProcessReset` (R42, 70_reset_and_hazards.md R450) on blank memory: SR 0x2700, SSP and PC the longs at
addresses 0 and 4, which read 0 (log entry 2). The spec gives D0 to D7, A0 to A6 and USP no value at reset: DESIGN CHOICE 0, log entry 1. -/
def State.reset : State :=
  { d := Vector.replicate 8 0
    a := Vector.replicate 7 0
    usp := 0
    ssp := 0
    pc := 0
    sr := 0x2700
    mem := []
    resetPending := false
    stopped := false
    halted := false
    irqQueue := []
    params := defaultParams }

end Sys2Proof.Machine
end

