-- ==== Sys2Proof/Machine/Memory.lean ====
section
/-! DEFINITION. The byte memory (spec/20_memory.md R60 to R65): a list of cells in one canonical form, read and written byte by byte, wider
values big-endian (R63), each byte address masked to 24 bits separately (R61, R62). -/

namespace Sys2Proof.Machine

/-- What a byte that nothing has written reads as; the spec leaves the image to the host (10_state.md R43). DESIGN CHOICE, log entry 2. -/
def Memory.blank : Byte := 0

/-- The byte at an address. -/
def Memory.read (m : Memory) (a : Nat) : Byte :=
  match m with
  | [] => Memory.blank
  | (k, v) :: rest => if k = a then v else Memory.read rest a

/-- Write one byte, keeping the canonical form: writing the blank value removes the entry. -/
def Memory.write (m : Memory) (a : Nat) (b : Byte) : Memory :=
  match m with
  | [] => if b = Memory.blank then [] else [(a, b)]
  | (k, v) :: rest =>
    if a < k then (if b = Memory.blank then (k, v) :: rest else (a, b) :: (k, v) :: rest)
    else if a = k then (if b = Memory.blank then rest else (a, b) :: rest)
    else (k, v) :: Memory.write rest a b

/-- The canonical form above a bound: addresses rise strictly, lie in the address space, and no entry is blank. -/
def Memory.wfFrom (lo : Nat) (m : Memory) : Bool :=
  match m with
  | [] => true
  | (k, v) :: rest => decide (lo ≤ k) && decide (k < Config.memSize) && v != Memory.blank && Memory.wfFrom (k + 1) rest

/-- The canonical form of memory. -/
def Memory.wf (m : Memory) : Bool := Memory.wfFrom 0 m

/-- The address presented to memory: the low 24 bits (R61). -/
def phys (a : Long) : Nat := a.toNat % Config.memSize

/-- The byte `i` places above an address, its address masked (R62). -/
def Memory.byteAt (m : Memory) (a : Long) (i : Nat) : Byte := m.read (phys (a + BitVec.ofNat 32 i))

/-- The value of `bytes(sz)` bytes at an address, most significant byte first (R63, R64), zero-extended. -/
def Memory.load (m : Memory) (a : Long) (sz : Size) : Long :=
  match sz with
  | .b => (m.byteAt a 0).setWidth 32
  | .w => (m.byteAt a 0 ++ m.byteAt a 1).setWidth 32
  | .l => m.byteAt a 0 ++ m.byteAt a 1 ++ m.byteAt a 2 ++ m.byteAt a 3

/-- Write the byte `i` places above an address (R65). -/
def Memory.putAt (m : Memory) (a : Long) (i : Nat) (b : Byte) : Memory := m.write (phys (a + BitVec.ofNat 32 i)) b

/-- Write the low `8 * bytes(sz)` bits of a value, most significant byte first (R63, R65). -/
def Memory.store (m : Memory) (a : Long) (sz : Size) (v : Long) : Memory :=
  match sz with
  | .b => m.putAt a 0 (v.extractLsb' 0 8)
  | .w => (m.putAt a 0 (v.extractLsb' 8 8)).putAt a 1 (v.extractLsb' 0 8)
  | .l =>
    (((m.putAt a 0 (v.extractLsb' 24 8)).putAt a 1 (v.extractLsb' 16 8)).putAt a 2 (v.extractLsb' 8 8)).putAt a 3 (v.extractLsb' 0 8)

/-- A word or long access at an odd address (R64 to R66); masking keeps bit 0 (R61). -/
def misaligned (a : Long) (sz : Size) : Bool := sz != .b && a.getLsbD 0

end Sys2Proof.Machine
end

