-- ==== Sys2Proof/Machine/Registers.lean ====
section
/-! DEFINITION. The register file unit (spec/10_state.md R21 to R36): the one home of every register and its ports. -/

namespace Sys2Proof.Machine

/-! ## Status register -/

/-- `SR_IMPL_MASK` (R32, D1): T 15, S 13, I 10:8, X N Z V C 4:0. -/
def srImplMask : Word := 0xA71F

/-- `supervisor` (R34): S, SR bit 13. -/
def State.supervisor (s : State) : Bool := s.sr.getLsbD 13

/-- `trace_enabled` (R34): T, SR bit 15. -/
def State.traceEnabled (s : State) : Bool := s.sr.getLsbD 15

/-- The interrupt mask level, SR bits 10:8 (R32). -/
def State.irqMask (s : State) : BitVec 3 := s.sr.extractLsb' 8 3

/-- `ReadSR()` (R33). -/
def State.readSr (s : State) : Word := s.sr

/-- `WriteSR(v)` (R33): unimplemented bits are discarded. -/
def State.writeSr (s : State) (v : Word) : State := { s with sr := v &&& srImplMask }

/-- `ReadCCR()` (R33). -/
def State.readCcr (s : State) : Byte := s.sr.extractLsb' 0 8

/-- `WriteCCR(v)` (R33). -/
def State.writeCcr (s : State) (v : Byte) : State :=
  { s with sr := (s.sr &&& 0xFF00) ||| (v.setWidth 16 &&& 0x001F) }

/-- The five condition codes (R32). -/
structure Ccr where
  x : Bool
  n : Bool
  z : Bool
  v : Bool
  c : Bool
  deriving DecidableEq, Repr

/-- The condition codes as bits 4:0 (R32). -/
def Ccr.bits (f : Ccr) : BitVec 5 :=
  BitVec.ofBool f.x ++ BitVec.ofBool f.n ++ BitVec.ofBool f.z ++ BitVec.ofBool f.v ++ BitVec.ofBool f.c

/-- The condition codes of a state (R32). -/
def State.ccr (s : State) : Ccr :=
  { x := s.sr.getLsbD 4, n := s.sr.getLsbD 3, z := s.sr.getLsbD 2, v := s.sr.getLsbD 1, c := s.sr.getLsbD 0 }

/-- Set the condition codes, keeping SR bits 15:5. -/
def State.setCcr (s : State) (f : Ccr) : State := { s with sr := s.sr.extractLsb' 5 11 ++ f.bits }

/-- SR at exception entry: S set, T (bits 15:14) cleared (60_exceptions.md R405). -/
def enterSr (sr : Word) : Word := (sr &&& 0x3FFF) ||| 0x2000

/-- SR with the interrupt mask set to a level (60_exceptions.md R432). -/
def maskSr (sr : Word) (level : BitVec 3) : Word := (sr &&& 0xF8FF) ||| (level.setWidth 16 <<< 8)

/-! ## Data registers -/

/-- `D[n]` (R21). -/
def State.dreg (s : State) (n : Reg) : Long := s.d.get n

/-- `D[n] <- v`, all 32 bits (R10). -/
def State.setDreg (s : State) (n : Reg) (v : Long) : State := { s with d := s.d.set n.val v n.isLt }

/-- `RegRead(Dreg, n, sz)` (R22, R25), zero-extended. -/
def State.readD (s : State) (n : Reg) (sz : Size) : Long := trunc sz (s.dreg n)

/-- `RegWrite(Dreg, n, sz, v)`: the merge-write of R22. -/
def State.writeD (s : State) (n : Reg) (sz : Size) (v : Long) : State := s.setDreg n (merge sz (s.dreg n) v)

/-! ## Address registers -/

/-- The active stack pointer (R23): SSP in supervisor mode, USP in user mode. -/
def State.sp (s : State) : Long := if s.supervisor then s.ssp else s.usp

/-- Writing SP writes through to the active stack pointer (R24). -/
def State.setSp (s : State) (v : Long) : State := if s.supervisor then { s with ssp := v } else { s with usp := v }

/-- `A[n]`, `A[7]` resolved from S at this access (R23). -/
def State.areg (s : State) (n : Reg) : Long := if h : n.val < 7 then s.a[n.val] else s.sp

/-- `A[n] <- v`, all 32 bits, `A[7]` resolved from S at this access (R23, R26). -/
def State.setAreg (s : State) (n : Reg) (v : Long) : State :=
  if h : n.val < 7 then { s with a := s.a.set n.val v h } else s.setSp v

/-- `RegRead(Areg, n, sz)` (R25), zero-extended. -/
def State.readA (s : State) (n : Reg) (sz : Size) : Long := trunc sz (s.areg n)

/-- `R(k)` of MOVEM (42_data_movement.md R204): `D[k]` for `k < 8`, else `A[k-8]`. -/
def State.movemReg (s : State) (k : Fin 16) : Long :=
  if h : k.val < 8 then s.dreg ⟨k.val, h⟩ else s.areg ⟨k.val - 8, by omega⟩

/-- `R(k) <- v`, all 32 bits (42_data_movement.md R205). -/
def State.setMovemReg (s : State) (k : Fin 16) (v : Long) : State :=
  if h : k.val < 8 then s.setDreg ⟨k.val, h⟩ v else s.setAreg ⟨k.val - 8, by omega⟩ v

end Sys2Proof.Machine
end

