-- ==== Sys2Proof/Machine/Ops.lean ====
section
/-! DEFINITION. The named operations every meaning is built from: how an instruction's run ends (spec/00_scope.md R12), memory access with
the alignment check (20_memory.md R64, R65), the stack helpers (R72, R73), taking an exception (60_exceptions.md R405, R410) and returning
from one (R421), and completing an instruction (R401 item 5). -/

namespace Sys2Proof.Machine

/-- The typed exceptions and traps of R410. `next` is the saved PC "next instruction". -/
inductive Exc where
  /-- Word or long access at an odd address (R413). -/
  | addressError
  /-- No row, ILLEGAL, or an operand that no encoding has (R412). -/
  | illegalInstruction
  /-- DIVU or DIVS with divisor 0 (R414). -/
  | divideByZero (next : Long)
  /-- CHK out of bounds (R415). -/
  | chk (next : Long)
  /-- TRAPV with V set (R416). -/
  | trapv
  /-- A privileged instruction in user mode (R411). -/
  | privilegeViolation
  /-- `TRAP #n` (R417). -/
  | trap (n : BitVec 4)
  deriving DecidableEq, Repr

/-- How a part of an instruction ends: with a value, or by `raise`; the changes made so far stay (R409). -/
inductive Res (α : Type) where
  | ok (v : α) (s : State)
  | raise (e : Exc) (s : State)

/-- Go on after a part that ended without `raise` (00_scope.md R12). -/
def Res.bind {α β : Type} (r : Res α) (f : α → State → Res β) : Res β :=
  match r with
  | .ok v s => f v s
  | .raise e s => .raise e s

/-! ## Memory and stack -/

/-- `MemRead(addr, bytes(sz))` (20_memory.md R64). -/
def memRead (a : Long) (sz : Size) (s : State) : Res Long :=
  if misaligned a sz then .raise .addressError s else .ok (s.mem.load a sz) s

/-- `MemWrite(addr, bytes(sz), v)` (20_memory.md R65). -/
def memWrite (a : Long) (sz : Size) (v : Long) (s : State) : Res Unit :=
  if misaligned a sz then .raise .addressError s else .ok () { s with mem := s.mem.store a sz v }

/-- The step of a stack operation: `max(bytes(sz), 2)` (20_memory.md R72, R74). -/
def stackStep (sz : Size) : Long :=
  match sz with
  | .b | .w => 2
  | .l => 4

/-- `Push(sz, v)` (20_memory.md R72): SP stays decremented when the write faults. -/
def push (sz : Size) (v : Long) (s : State) : Res Unit :=
  let s1 := s.setSp (s.sp - stackStep sz)
  memWrite s1.sp sz v s1

/-- `Pop(sz)` (20_memory.md R73): SP is unchanged when the read faults. -/
def pop (sz : Size) (s : State) : Res Long :=
  (memRead s.sp sz s).bind fun v s1 => .ok v (s1.setSp (s1.sp + stackStep sz))

/-! ## Taking an exception -/

/-- The address of a vector's entry in the table (60_exceptions.md R404). -/
def vectorAddress (v : Byte) : Long := v.setWidth 32 * 4

/-- Exception entry: `RaiseVector` (R405) with `mask = none`, and the entry of `AcceptInterrupt` (R432) with the accepted level. The old SR is
saved; S is set, T cleared, the mask raised; the return PC and then the saved SR are pushed on SSP; PC comes from the vector; `stopped` is
cleared. A push at an odd SSP halts the core, the changes made so far staying (R422). -/
def enterException (v : Byte) (mask : Option (BitVec 3)) (retpc : Long) (s : State) : State :=
  let sr1 := enterSr s.sr
  let s1 := { s with
    sr := match mask with
      | none => sr1
      | some level => maskSr sr1 level
    ssp := s.ssp - 4 }
  match memWrite s1.ssp .l retpc s1 with
  | .raise _ s2 => { s2 with halted := true }
  | .ok _ s2 =>
    let s3 := { s2 with ssp := s2.ssp - 2 }
    match memWrite s3.ssp .w (s.sr.setWidth 32) s3 with
    | .raise _ s4 => { s4 with halted := true }
    | .ok _ s4 => { s4 with pc := s4.mem.load (vectorAddress v) .l, stopped := false }

/-- `RaiseVector(v, retpc)` (R405). -/
def raiseVector (v : Byte) (retpc : Long) (s : State) : State := enterException v none retpc s

/-- `Raise(typedException)` (R410): the vector and the saved PC of each cause. PC still holds `pc0` (10_state.md R30). -/
def takeException (e : Exc) (s : State) : State :=
  match e with
  | .addressError => raiseVector 3 s.pc s
  | .illegalInstruction => raiseVector 4 (s.pc + 2) s
  | .divideByZero next => raiseVector 5 next s
  | .chk next => raiseVector 6 next s
  | .trapv => raiseVector 7 (s.pc + 2) s
  | .privilegeViolation => raiseVector 8 s.pc s
  | .trap n => raiseVector (32 + n.setWidth 8) (s.pc + 2) s

/-- The vector of an opcode that satisfies no row (R412): 4, or 10 and 11 on lines A and F when `LINE_AF_VECTORS` is set. -/
def illegalVector (p : Params) (op : Word) : Byte :=
  if p.lineAfVectors then
    match (op.extractLsb' 12 4).toNat with
    | 10 => 10
    | 15 => 11
    | _ => 4
  else 4

/-- IllegalInstruction at decode (R412): saved PC `pc0 + 2`. -/
def raiseIllegal (op : Word) (s : State) : State := raiseVector (illegalVector s.params op) (s.pc + 2) s

/-- The return from an exception (R421, 48_system_control.md R375): the word and the long on SSP become SR and PC, SSP rises by 6, SR is
written last. -/
def returnFromException (s : State) : Res Unit :=
  (memRead s.ssp .w s).bind fun sr s1 =>
    (memRead (s1.ssp + 2) .l s1).bind fun pc s2 =>
      .ok () { ({ s2 with ssp := s2.ssp + 6 }.writeSr (lowWord sr)) with pc := pc }

/-! ## Privilege -/

/-- The privilege check of 48_system_control.md R362: before anything else. -/
def privileged (body : State → Res Unit) (s : State) : Res Unit :=
  if s.supervisor then body s else .raise .privilegeViolation s

/-! ## Completing an instruction -/

/-- Whether an instruction that begins in `s` is traced (R418): `TRACE_EXC` is set and T is 1 at its start. -/
def State.traced (s : State) : Bool := s.params.traceExc && s.traceEnabled

/-- The end of item 5 of R401 for an instruction that began in `s0`: what it raised is taken; if it ran to its end and was traced, vector 9
is taken with the updated PC (R418). Log entry 8. -/
def conclude (s0 : State) (r : Res Unit) : Host.Outcome State Fault Refusal :=
  .next (match r with
    | .raise e s => takeException e s
    | .ok _ s => if s0.traced then raiseVector 9 s.pc s else s)

/-- `PC <- cur` for an instruction of `n` bytes (10_state.md R29). -/
def advance (n : Nat) (s : State) : State := { s with pc := s.pc + BitVec.ofNat 32 n }

/-- The end of an instruction of `n` bytes that does not assign PC (10_state.md R29). -/
def retire (n : Nat) (s0 : State) (r : Res Unit) : Host.Outcome State Fault Refusal :=
  conclude s0 (r.bind fun _ s => .ok () (advance n s))

end Sys2Proof.Machine
end

