-- ==== Sys2Proof/Machine/Flags.lean ====
section
/-! DEFINITION. The flag computation unit (spec/41_alu_flags.md R170 to R179), the addition and subtraction of 43_integer_arithmetic.md R230,
`logic` of 44_logical.md R270, the shift steps of 45_shift_rotate.md R290 to R298, the decimal algorithm of 46_bit_bcd.md R320 and the
conditions of 47_program_control.md R330. -/

namespace Sys2Proof.Machine

/-- How Z follows a result (R172): plainly, or sticky (cleared by a non-zero result, else unchanged). -/
inductive ZMode where
  | plain | sticky
  deriving DecidableEq, Repr

/-! ## The flag functions -/

/-- `AlterN(v, sz)` (R171). -/
def Ccr.alterN (f : Ccr) (v : Long) (sz : Size) : Ccr := { f with n := msb sz v }

/-- `AlterZ(v, sz)` and `AlterZ_sticky(v, sz)` (R172). -/
def Ccr.alterZ (f : Ccr) (v : Long) (sz : Size) (mode : ZMode) : Ccr :=
  { f with
    z := match mode with
      | .plain => trunc sz v == 0
      | .sticky => f.z && trunc sz v == 0 }

/-- `AlterC(src, dst, sz, xin)` (R173): the exact sum exceeds the size's range. -/
def Ccr.alterC (f : Ccr) (src dst : Long) (sz : Size) (xin : Bool) : Ccr :=
  { f with c := decide ((trunc sz src).toNat + (trunc sz dst).toNat + xin.toNat > sz.mask.toNat) }

/-- `AlterCSub(src, dst, sz, xin)` (R174): the borrow of `dst - src - xin`. -/
def Ccr.alterCSub (f : Ccr) (src dst : Long) (sz : Size) (xin : Bool) : Ccr :=
  { f with c := decide ((trunc sz dst).toNat < (trunc sz src).toNat + xin.toNat) }

/-- `AlterV(src, dst, res, sz)` (R175). -/
def Ccr.alterV (f : Ccr) (src dst res : Long) (sz : Size) : Ccr :=
  { f with v := msb sz src == msb sz dst && msb sz res != msb sz dst }

/-- `AlterVSub(src, dst, res, sz)` (R176); `AlterVCmp` is the same function (R177). -/
def Ccr.alterVSub (f : Ccr) (src dst res : Long) (sz : Size) : Ccr :=
  { f with v := msb sz src != msb sz dst && msb sz res != msb sz dst }

/-- `X <- C` (R178). -/
def Ccr.copyCX (f : Ccr) : Ccr := { f with x := f.c }

/-- `V <- 0; C <- 0` (R179). -/
def Ccr.clearVC (f : Ccr) : Ccr := { f with v := false, c := false }

/-! ## Addition, subtraction, logic -/

/-- The result of an addition at a size (R181). -/
def addResult (src dst : Long) (xin : Bool) (sz : Size) : Long := trunc sz (dst + src + bitOf xin)

/-- `add(src, dst, xin, sz, zmode)` (R230): the result and the flags. -/
def addOp (src dst : Long) (xin : Bool) (sz : Size) (zmode : ZMode) (f : Ccr) : Long × Ccr :=
  let res := addResult src dst xin sz
  (res, ((((f.alterN res sz).alterZ res sz zmode).alterV src dst res sz).alterC src dst sz xin).copyCX)

/-- The result of a subtraction `dst - src - xin` at a size (R181). -/
def subResult (src dst : Long) (xin : Bool) (sz : Size) : Long := trunc sz (dst - src - bitOf xin)

/-- The flags of a subtraction without `X <- C`: those of the compare instructions (R230, R177). -/
def cmpFlags (src dst : Long) (xin : Bool) (sz : Size) (zmode : ZMode) (f : Ccr) : Ccr :=
  let res := subResult src dst xin sz
  (((f.alterN res sz).alterZ res sz zmode).alterVSub src dst res sz).alterCSub src dst sz xin

/-- `sub(src, dst, xin, sz, zmode, true)` (R230). -/
def subOp (src dst : Long) (xin : Bool) (sz : Size) (zmode : ZMode) (f : Ccr) : Long × Ccr :=
  (subResult src dst xin sz, (cmpFlags src dst xin sz zmode f).copyCX)

/-- The flags of moves, logical operations, TST, EXT, SWAP, MULU, MULS (R179, 44_logical.md R270): N and Z by the value, V and C cleared. -/
def moveFlags (v : Long) (sz : Size) (f : Ccr) : Ccr := ((f.alterN v sz).alterZ v sz .plain).clearVC

/-! ## Shifts and rotates -/

/-- The quantities the iteration of 45_shift_rotate.md R290 carries: operand, X, last bit out, sign changed. -/
structure ShiftState where
  v : Long
  x : Bool
  c : Bool
  vf : Bool
  deriving DecidableEq, Repr

/-- The most significant bit alone at a size. -/
def msbOnly (sz : Size) : Long :=
  match sz with
  | .b => 0x80
  | .w => 0x8000
  | .l => 0x80000000

/-- One step of ASL (R291). -/
def aslStep (sz : Size) (t : ShiftState) : ShiftState :=
  let nv := trunc sz (t.v <<< 1)
  { v := nv, x := msb sz t.v, c := msb sz t.v, vf := t.vf || (msb sz nv != msb sz t.v) }

/-- One step of ASR (R292). -/
def asrStep (sz : Size) (t : ShiftState) : ShiftState :=
  { v := (t.v >>> 1) ||| (t.v &&& msbOnly sz), x := t.v.getLsbD 0, c := t.v.getLsbD 0, vf := t.vf }

/-- One step of LSL (R293). -/
def lslStep (sz : Size) (t : ShiftState) : ShiftState :=
  { v := trunc sz (t.v <<< 1), x := msb sz t.v, c := msb sz t.v, vf := t.vf }

/-- One step of LSR (R294). -/
def lsrStep (_sz : Size) (t : ShiftState) : ShiftState :=
  { v := t.v >>> 1, x := t.v.getLsbD 0, c := t.v.getLsbD 0, vf := t.vf }

/-- One step of ROL (R295): X unchanged. -/
def rolStep (sz : Size) (t : ShiftState) : ShiftState :=
  { v := trunc sz ((t.v <<< 1) ||| bitOf (msb sz t.v)), x := t.x, c := msb sz t.v, vf := t.vf }

/-- One step of ROR (R296): X unchanged. -/
def rorStep (sz : Size) (t : ShiftState) : ShiftState :=
  { v := (t.v >>> 1) ||| (if t.v.getLsbD 0 then msbOnly sz else 0), x := t.x, c := t.v.getLsbD 0, vf := t.vf }

/-- One step of ROXL (R297): the old X enters at bit 0. -/
def roxlStep (sz : Size) (t : ShiftState) : ShiftState :=
  { v := trunc sz ((t.v <<< 1) ||| bitOf t.x), x := msb sz t.v, c := msb sz t.v, vf := t.vf }

/-- One step of ROXR (R298): the old X enters at the top. -/
def roxrStep (sz : Size) (t : ShiftState) : ShiftState :=
  { v := (t.v >>> 1) ||| (if t.x then msbOnly sz else 0), x := t.v.getLsbD 0, c := t.v.getLsbD 0, vf := t.vf }

/-- "repeat cnt times" (R290). -/
def shiftLoop (step : ShiftState → ShiftState) : Nat → ShiftState → ShiftState
  | 0, t => t
  | n + 1, t => shiftLoop step n (step t)

/-- The shift or rotate of `v` by `cnt` at a size (R290): `c0` is the carry for a count of 0 (X for ROXL and ROXR, else 0), `keepV` says
that V is the sign change (ASL), else V is cleared. -/
def shiftOp (step : Size → ShiftState → ShiftState) (c0 keepV : Bool) (sz : Size) (cnt : Nat) (v : Long) (f : Ccr) : Long × Ccr :=
  let t := shiftLoop (step sz) cnt { v := trunc sz v, x := f.x, c := c0, vf := false }
  (t.v, { x := t.x, n := msb sz t.v, z := t.v == 0, v := keepV && t.vf, c := t.c })

/-! ## Decimal arithmetic -/

/-- `bcd_add(src, dst, X)` (46_bit_bcd.md R320) on 16-bit values: the result byte and the flags. -/
def bcdAdd (src dst : Byte) (f : Ccr) : Byte × Ccr :=
  let s : Word := src.setWidth 16
  let d : Word := dst.setWidth 16
  let ss := s + d + (if f.x then 1 else 0)
  let bc := ((s &&& d) ||| (~~~ss &&& s) ||| (~~~ss &&& d)) &&& 0x88
  let dc := (((ss + 0x66) ^^^ ss) &&& 0x110) >>> 1
  let corf := (bc ||| dc) - ((bc ||| dc) >>> 2)
  let rr := ss + corf
  let carry := (bc ||| (ss &&& ~~~rr)).getLsbD 7
  let res : Byte := rr.extractLsb' 0 8
  (res, { x := carry, n := rr.getLsbD 7, z := f.z && res == 0, v := (~~~ss &&& rr).getLsbD 7, c := carry })

/-- `bcd_sub(src, dst, X)`, that is `dst - src - X` (46_bit_bcd.md R320). -/
def bcdSub (src dst : Byte) (f : Ccr) : Byte × Ccr :=
  let s : Word := src.setWidth 16
  let d : Word := dst.setWidth 16
  let dd := d - s - (if f.x then 1 else 0)
  let bc := ((~~~d &&& s) ||| (dd &&& ~~~d) ||| (dd &&& s)) &&& 0x88
  let corf := bc - (bc >>> 2)
  let rr := dd - corf
  let borrow := (bc ||| (~~~dd &&& rr)).getLsbD 7
  let res : Byte := rr.extractLsb' 0 8
  (res, { x := borrow, n := rr.getLsbD 7, z := f.z && res == 0, v := (dd &&& ~~~rr).getLsbD 7, c := borrow })

/-! ## Conditions -/

/-- `cond(cc)` (47_program_control.md R330). -/
def condHolds (cond : Cond) (f : Ccr) : Bool :=
  match cond with
  | .t => true
  | .f => false
  | .hi => !f.c && !f.z
  | .ls => f.c || f.z
  | .cc => !f.c
  | .cs => f.c
  | .ne => !f.z
  | .eq => f.z
  | .vc => !f.v
  | .vs => f.v
  | .pl => !f.n
  | .mi => f.n
  | .ge => f.n == f.v
  | .lt => f.n != f.v
  | .gt => !f.z && f.n == f.v
  | .le => f.z || f.n != f.v

end Sys2Proof.Machine
end

