-- ==== Sys2Proof/Machine/Operands.lean ====
section
/-! DEFINITION. The effective-address resolver (spec/40_ea_resolver.md): the location an operand names, the register side effects of the
modes, and the access through a location. `ext` is the address of the operand's first extension word (R152). -/

namespace Sys2Proof.Machine

/-- A resolved operand (R140). `pending` is the register and step of a post-increment not yet made (R146). -/
inductive Loc where
  | dreg (n : Reg)
  | areg (n : Reg)
  | mem (addr : Long) (pending : Option (Reg × Long))
  | imm (v : Long)
  deriving DecidableEq, Repr

/-- `step(reg, sz)` of R145: the operand's bytes, but 2 for a byte on `A7`. -/
def eaStep (n : Reg) (sz : Size) : Long :=
  match sz with
  | .b => if n = 7 then 2 else 1
  | .w => 2
  | .l => 4

/-- The index value of R150. -/
def indexValue (x : IndexWord) (s : State) : Long :=
  let r := if x.isAddr then s.areg x.reg else s.dreg x.reg
  let v := if x.isLong then r else sext .w r
  if s.params.indexScale then v <<< x.scale.toNat else v

/-- The location an operand names (R142 to R153). -/
def eaLoc (ea : Ea) (sz : Size) (ext : Long) (s : State) : Loc :=
  match ea with
  | .dn n => .dreg n
  | .an n => .areg n
  | .ind n => .mem (s.areg n) none
  | .postInc n => .mem (s.areg n) (some (n, eaStep n sz))
  | .preDec n => .mem (s.areg n - eaStep n sz) none
  | .disp n d => .mem (s.areg n + d.signExtend 32) none
  | .index n x => .mem (s.areg n + x.disp.signExtend 32 + indexValue x s) none
  | .absW w => .mem (w.signExtend 32) none
  | .absL a => .mem a none
  | .pcDisp d => .mem (ext + d.signExtend 32) none
  | .pcIndex x => .mem (ext + x.disp.signExtend 32 + indexValue x s) none
  | .imm v => .imm v

/-- The side effect of a resolution: the pre-decrement (R147). -/
def eaPre (ea : Ea) (sz : Size) (s : State) : State :=
  match ea with
  | .preDec n => s.setAreg n (s.areg n - eaStep n sz)
  | .dn _ | .an _ | .ind _ | .postInc _ | .disp _ _ | .index _ _ | .absW _ | .absL _ | .pcDisp _ | .pcIndex _ | .imm _ => s

/-- The location after its first access: the post-increment is made once (R146, R158). -/
def Loc.accessed : Loc → Loc
  | .mem a _ => .mem a none
  | .dreg n => .dreg n
  | .areg n => .areg n
  | .imm v => .imm v

/-- The pending post-increment of a location (R146). -/
def Loc.post (loc : Loc) (s : State) : State :=
  match loc with
  | .mem _ (some (n, k)) => s.setAreg n (s.areg n + k)
  | .mem _ none | .dreg _ | .areg _ | .imm _ => s

/-- `ReadLoc(loc, sz)` (R156): the value zero-extended; the post-increment follows the access. -/
def readLoc (loc : Loc) (sz : Size) (s : State) : Res Long :=
  match loc with
  | .dreg n => .ok (s.readD n sz) s
  | .areg n => .ok (s.readA n sz) s
  | .imm v => .ok (trunc sz v) s
  | .mem a pending => (memRead a sz s).bind fun v s1 => .ok v ((Loc.mem a pending).post s1)

/-- `WriteLoc(loc, sz, v)` (R157). `ImmLoc` is never written by an instruction of R116; a term that would is IllegalInstruction, as its
opcode would be (30_encoding.md R111), log entry 12. -/
def writeLoc (loc : Loc) (sz : Size) (v : Long) (s : State) : Res Unit :=
  match loc with
  | .dreg n => .ok () (s.writeD n sz v)
  | .areg n => .ok () (s.setAreg n v)
  | .imm _ => .raise .illegalInstruction s
  | .mem a pending => (memWrite a sz v s).bind fun _ s1 => .ok () ((Loc.mem a pending).post s1)

/-- Resolve an operand and read it (R141, R156). -/
def readEa (ea : Ea) (sz : Size) (ext : Long) (s : State) : Res Long := readLoc (eaLoc ea sz ext s) sz (eaPre ea sz s)

/-- Resolve an operand and write it without reading it (R141, R157). -/
def writeEa (ea : Ea) (sz : Size) (ext : Long) (v : Long) (s : State) : Res Unit := writeLoc (eaLoc ea sz ext s) sz v (eaPre ea sz s)

/-- Resolve an operand, set the flags, and write it without reading it (R141, R157, 42_data_movement.md R200). -/
def storeEa (ea : Ea) (sz : Size) (ext : Long) (v : Long) (f : Ccr) (s : State) : Res Unit :=
  writeLoc (eaLoc ea sz ext s) sz v ((eaPre ea sz s).setCcr f)

/-- Read-modify-write through one resolution (R158): `g` gives the new value and the flags, which are written before the store (R200). -/
def updateEa (ea : Ea) (sz : Size) (ext : Long) (g : Long → State → Long × Ccr) (s : State) : Res Unit :=
  let loc := eaLoc ea sz ext s
  (readLoc loc sz (eaPre ea sz s)).bind fun e s1 =>
    let r := g e s1
    writeLoc loc.accessed sz r.1 (s1.setCcr r.2)

/-- Read the operand and go on with its value in the state after its side effects. -/
def loadEa (ea : Ea) (sz : Size) (ext : Long) (g : Long → State → State) (s : State) : Res Unit :=
  (readEa ea sz ext s).bind fun e s1 => .ok () (g e s1)

/-- The address of an operand that is not loaded (R141): the full 32 bits, unchecked (R161). A term without an address is
IllegalInstruction, log entry 12. -/
def addressEa (ea : Ea) (ext : Long) (s : State) : Res Long :=
  match eaLoc ea .l ext s with
  | .mem a _ => .ok a s
  | .dreg _ | .areg _ | .imm _ => .raise .illegalInstruction s

/-- The bytes of an immediate's extension words (30_encoding.md R113). -/
def immBytes (sz : Size) : Nat :=
  match sz with
  | .b | .w => 2
  | .l => 4

/-- The number of bytes of an instruction whose extension words are those of one operand (30_encoding.md R100). -/
def eaLength (ea : Ea) (sz : Size) : Nat := 2 + ea.extBytes sz

end Sys2Proof.Machine
end

