-- ==== Sys2Proof/Machine/Arithmetic.lean ====
section
/-! DEFINITION. Integer arithmetic instructions (spec/43_integer_arithmetic.md). -/

namespace Sys2Proof.Machine

/-! ## Shared forms -/

/-- `<ea>,Dn` (R231): the operand is the source, the result goes to `D[n]`; `op src dst flags`. -/
def eaToDn (op : Long → Long → Ccr → Long × Ccr) (sz : Size) (ea : Ea) (n : Reg) (s : State) : Host.Outcome State Fault Refusal :=
  retire (eaLength ea sz) s (loadEa ea sz (s.pc + 2) (fun e s1 =>
    let r := op e (s1.readD n sz) s1.ccr
    (s1.setCcr r.2).writeD n sz r.1) s)

/-- `Dn,<ea>` (R231): `D[n]` is the source, the operand is the destination. -/
def dnToEa (op : Long → Long → Ccr → Long × Ccr) (sz : Size) (n : Reg) (ea : Ea) (s : State) : Host.Outcome State Fault Refusal :=
  retire (eaLength ea sz) s (updateEa ea sz (s.pc + 2) (fun e s1 => op (s1.readD n sz) e s1.ccr) s)

/-- `#<data>,<ea>` (R233): the immediate's extension words come before the operand's. -/
def immToEa (op : Long → Long → Ccr → Long × Ccr) (sz : Size) (imm : Long) (ea : Ea) (s : State) : Host.Outcome State Fault Refusal :=
  retire (eaLength ea sz + immBytes sz) s
    (updateEa ea sz (s.pc + 2 + BitVec.ofNat 32 (immBytes sz)) (fun e s1 => op (trunc sz imm) e s1.ccr) s)

/-- A one-operand read-modify-write (R245): `op e flags`. -/
def unaryEa (op : Long → Ccr → Long × Ccr) (sz : Size) (ea : Ea) (s : State) : Host.Outcome State Fault Refusal :=
  retire (eaLength ea sz) s (updateEa ea sz (s.pc + 2) (fun e s1 => op e s1.ccr) s)

/-- `<ea>,An` of ADDA and SUBA (R232): 32 bits wide, a word source sign-extended, no flag. -/
def eaToAn (op : Long → Long → Long) (sz : WordLong) (n : Reg) (ea : Ea) (s : State) : Host.Outcome State Fault Refusal :=
  retire (eaLength ea sz.size) s
    (loadEa ea sz.size (s.pc + 2) (fun e s1 => s1.setAreg n (op (sext sz.size e) (s1.areg n))) s)

/-- The quick forms (R234): to `An` 32 bits wide without flags, else as the immediate form. -/
def quickEa (op : Long → Long → Ccr → Long × Ccr) (opA : Long → Long → Long) (sz : Size) (q : BitVec 3) (ea : Ea) (s : State) :
    Host.Outcome State Fault Refusal :=
  let v := BitVec.ofNat 32 (quickData q)
  match ea with
  | .an n => retire 2 s (.ok () (s.setAreg n (opA v (s.areg n))))
  | .dn _ | .ind _ | .postInc _ | .preDec _ | .disp _ _ | .index _ _ | .absW _ | .absL _ | .pcDisp _ | .pcIndex _ | .imm _ =>
    retire (eaLength ea sz) s (updateEa ea sz (s.pc + 2) (fun e s1 => op v e s1.ccr) s)

/-- `Dy,Dx` and `-(Ay),-(Ax)` (R235): source first; `op src dst flags`. -/
def pairOp (op : Long → Long → Ccr → Long × Ccr) (sz : Size) (form : PairForm) (x y : Reg) (s : State) :
    Host.Outcome State Fault Refusal :=
  retire 2 s (match form with
    | .dregs =>
      let r := op (s.readD y sz) (s.readD x sz) s.ccr
      .ok () ((s.setCcr r.2).writeD x sz r.1)
    | .preDecs =>
      (readEa (.preDec y) sz (s.pc + 2) s).bind fun src s1 =>
        updateEa (.preDec x) sz (s.pc + 2) (fun dst s2 => op src dst s2.ccr) s1)

/-! ## Addition -/

/-- ADD with its flags (R230, plain Z, no carry in). -/
def addPlain (sz : Size) (src dst : Long) (f : Ccr) : Long × Ccr := addOp src dst false sz .plain f

/-- ADD `<ea>,Dn` (R231). -/
def execAddEaDn (sz : Size) (ea : Ea) (n : Reg) (s : State) : Host.Outcome State Fault Refusal := eaToDn (addPlain sz) sz ea n s

/-- ADD `Dn,<ea>` (R231). -/
def execAddDnEa (sz : Size) (n : Reg) (ea : Ea) (s : State) : Host.Outcome State Fault Refusal := dnToEa (addPlain sz) sz n ea s

/-- ADDA (R232). -/
def execAdda (sz : WordLong) (n : Reg) (ea : Ea) (s : State) : Host.Outcome State Fault Refusal :=
  eaToAn (fun e a => a + e) sz n ea s

/-- ADDI (R233). -/
def execAddi (sz : Size) (imm : Long) (ea : Ea) (s : State) : Host.Outcome State Fault Refusal := immToEa (addPlain sz) sz imm ea s

/-- ADDQ (R234). -/
def execAddq (sz : Size) (q : BitVec 3) (ea : Ea) (s : State) : Host.Outcome State Fault Refusal :=
  quickEa (addPlain sz) (fun v a => a + v) sz q ea s

/-- ADDX (R235). -/
def execAddx (sz : Size) (form : PairForm) (x y : Reg) (s : State) : Host.Outcome State Fault Refusal :=
  pairOp (fun src dst f => addOp src dst f.x sz .sticky f) sz form x y s

/-! ## Subtraction -/

/-- SUB with its flags (R230, plain Z, no borrow in). -/
def subPlain (sz : Size) (src dst : Long) (f : Ccr) : Long × Ccr := subOp src dst false sz .plain f

/-- SUB `<ea>,Dn` (R236). -/
def execSubEaDn (sz : Size) (ea : Ea) (n : Reg) (s : State) : Host.Outcome State Fault Refusal := eaToDn (subPlain sz) sz ea n s

/-- SUB `Dn,<ea>` (R236). -/
def execSubDnEa (sz : Size) (n : Reg) (ea : Ea) (s : State) : Host.Outcome State Fault Refusal := dnToEa (subPlain sz) sz n ea s

/-- SUBA (R237). -/
def execSuba (sz : WordLong) (n : Reg) (ea : Ea) (s : State) : Host.Outcome State Fault Refusal :=
  eaToAn (fun e a => a - e) sz n ea s

/-- SUBI (R238). -/
def execSubi (sz : Size) (imm : Long) (ea : Ea) (s : State) : Host.Outcome State Fault Refusal := immToEa (subPlain sz) sz imm ea s

/-- SUBQ (R239). -/
def execSubq (sz : Size) (q : BitVec 3) (ea : Ea) (s : State) : Host.Outcome State Fault Refusal :=
  quickEa (subPlain sz) (fun v a => a - v) sz q ea s

/-- SUBX (R240). -/
def execSubx (sz : Size) (form : PairForm) (x y : Reg) (s : State) : Host.Outcome State Fault Refusal :=
  pairOp (fun src dst f => subOp src dst f.x sz .sticky f) sz form x y s

/-! ## Comparison: the result is discarded, X unchanged -/

/-- CMP (R241): `Dn - <ea>`. -/
def execCmp (sz : Size) (ea : Ea) (n : Reg) (s : State) : Host.Outcome State Fault Refusal :=
  retire (eaLength ea sz) s
    (loadEa ea sz (s.pc + 2) (fun e s1 => s1.setCcr (cmpFlags e (s1.readD n sz) false sz .plain s1.ccr)) s)

/-- CMPA (R242): always 32 bits wide. -/
def execCmpa (sz : WordLong) (n : Reg) (ea : Ea) (s : State) : Host.Outcome State Fault Refusal :=
  retire (eaLength ea sz.size) s
    (loadEa ea sz.size (s.pc + 2) (fun e s1 => s1.setCcr (cmpFlags (sext sz.size e) (s1.areg n) false .l .plain s1.ccr)) s)

/-- CMPI (R243): `<ea> - #data`. -/
def execCmpi (sz : Size) (imm : Long) (ea : Ea) (s : State) : Host.Outcome State Fault Refusal :=
  retire (eaLength ea sz + immBytes sz) s
    (loadEa ea sz (s.pc + 2 + BitVec.ofNat 32 (immBytes sz))
      (fun e s1 => s1.setCcr (cmpFlags (trunc sz imm) e false sz .plain s1.ccr)) s)

/-- CMPM (R244): `(Ax) - (Ay)`, the source read and incremented first. -/
def execCmpm (sz : Size) (x y : Reg) (s : State) : Host.Outcome State Fault Refusal :=
  retire 2 s ((readEa (.postInc y) sz (s.pc + 2) s).bind fun src s1 =>
    loadEa (.postInc x) sz (s.pc + 2) (fun dst s2 => s2.setCcr (cmpFlags src dst false sz .plain s2.ccr)) s1)

/-! ## Negate, clear, extend, test -/

/-- NEG (R245). -/
def execNeg (sz : Size) (ea : Ea) (s : State) : Host.Outcome State Fault Refusal := unaryEa (fun e f => subPlain sz e 0 f) sz ea s

/-- NEGX (R246). -/
def execNegx (sz : Size) (ea : Ea) (s : State) : Host.Outcome State Fault Refusal :=
  unaryEa (fun e f => subOp e 0 f.x sz .sticky f) sz ea s

/-- CLR (R247): the operand is not read. -/
def execClr (sz : Size) (ea : Ea) (s : State) : Host.Outcome State Fault Refusal :=
  retire (eaLength ea sz) s
    (storeEa ea sz (s.pc + 2) 0 { s.ccr with n := false, z := true, v := false, c := false } s)

/-- EXT.W (R248): byte to word. -/
def execExtW (n : Reg) (s : State) : Host.Outcome State Fault Refusal :=
  let r := sext .b (s.dreg n)
  retire 2 s (.ok () ((s.setCcr (moveFlags r .w s.ccr)).writeD n .w r))

/-- EXT.L (R248): word to long. -/
def execExtL (n : Reg) (s : State) : Host.Outcome State Fault Refusal :=
  let r := sext .w (s.dreg n)
  retire 2 s (.ok () ((s.setCcr (moveFlags r .l s.ccr)).setDreg n r))

/-- TST (R249). -/
def execTst (sz : Size) (ea : Ea) (s : State) : Host.Outcome State Fault Refusal :=
  retire (eaLength ea sz) s (loadEa ea sz (s.pc + 2) (fun e s1 => s1.setCcr (moveFlags e sz s1.ccr)) s)

/-! ## Multiply and divide -/

/-- The unsigned product (R250). -/
def muluResult (e dn : Word) : Long := e.setWidth 32 * dn.setWidth 32

/-- The signed product (R251). -/
def mulsResult (e dn : Word) : Long := e.signExtend 32 * dn.signExtend 32

/-- A multiplication into `D[n]` (R250). -/
def mulToDn (op : Word → Word → Long) (n : Reg) (ea : Ea) (s : State) : Host.Outcome State Fault Refusal :=
  retire (eaLength ea .w) s (loadEa ea .w (s.pc + 2) (fun e s1 =>
    let r := op (lowWord e) (lowWord (s1.dreg n))
    (s1.setCcr (moveFlags r .l s1.ccr)).setDreg n r) s)

/-- MULU (R250). -/
def execMulu (n : Reg) (ea : Ea) (s : State) : Host.Outcome State Fault Refusal := mulToDn muluResult n ea s

/-- MULS (R251). -/
def execMuls (n : Reg) (ea : Ea) (s : State) : Host.Outcome State Fault Refusal := mulToDn mulsResult n ea s

/-- The unsigned quotient and remainder (R252), `none` when the quotient exceeds 16 bits. -/
def divuResult (dividend : Long) (divisor : Word) : Option (Word × Word) :=
  let q := dividend.toNat / divisor.toNat
  if q > 0xFFFF then none else some (BitVec.ofNat 16 q, BitVec.ofNat 16 (dividend.toNat % divisor.toNat))

/-- The signed quotient, truncated toward zero, and the remainder, with the dividend's sign (R253), `none` when the quotient is outside
the 16-bit signed range. -/
def divsResult (dividend : Long) (divisor : Word) : Option (Word × Word) :=
  let q := dividend.toInt.tdiv divisor.toInt
  if q < -32768 ∨ q > 32767 then none
  else some (BitVec.ofInt 16 q, BitVec.ofInt 16 (dividend.toInt - q * divisor.toInt))

/-- A division of `D[n]` (R252, R253): the trap on divisor 0 after the operand is read; on overflow `D[n]` is unchanged, V set, C cleared,
N and Z the free value `DIV_OVF_NZ` (log entry 5). -/
def divDn (signed : Bool) (op : Long → Word → Option (Word × Word)) (n : Reg) (ea : Ea) (s : State) :
    Host.Outcome State Fault Refusal :=
  retire (eaLength ea .w) s ((readEa ea .w (s.pc + 2) s).bind fun e s1 =>
    let d := lowWord e
    if d = 0 then .raise (.divideByZero (s1.pc + BitVec.ofNat 32 (eaLength ea .w))) s1
    else
      match op (s1.dreg n) d with
      | none =>
        let nz := Config.divOvfNZ signed (s1.dreg n) d
        .ok () (s1.setCcr { s1.ccr with n := nz.1, z := nz.2, v := true, c := false })
      | some (q, r) =>
        .ok () ((s1.setCcr (moveFlags (q.setWidth 32) .w s1.ccr)).setDreg n (r ++ q)))

/-- DIVU (R252). -/
def execDivu (n : Reg) (ea : Ea) (s : State) : Host.Outcome State Fault Refusal := divDn false divuResult n ea s

/-- DIVS (R253). -/
def execDivs (n : Reg) (ea : Ea) (s : State) : Host.Outcome State Fault Refusal := divDn true divsResult n ea s

end Sys2Proof.Machine
end

