-- ==== Sys2Proof/Machine/BitBcd.lean ====
section
/-! DEFINITION. Bit manipulation and binary-coded-decimal instructions (spec/46_bit_bcd.md). -/

namespace Sys2Proof.Machine

/-! ## Bit manipulation -/

/-- The bit number taken modulo the operand's width (R310): 32 for `Dn`, 8 for every other operand. -/
def bitIndex (ea : Ea) (num : Nat) : Nat := num % ea.bitSize.bits

/-- `Z <- (e[b] = 0)` (R310). -/
def bitFlags (e : Long) (b : Nat) (f : Ccr) : Ccr := { f with z := !e.getLsbD b }

/-- One bit set. -/
def oneBit (b : Nat) : Long := 1#32 <<< b

/-- BTST with bit number `num` (R310): nothing is written. `n` is the bytes before the operand's extension words. -/
def bitTest (n num : Nat) (ea : Ea) (s : State) : Host.Outcome State Fault Refusal :=
  retire (n + ea.extBytes ea.bitSize) s
    (loadEa ea ea.bitSize (s.pc + BitVec.ofNat 32 n) (fun e s1 => s1.setCcr (bitFlags e (bitIndex ea num) s1.ccr)) s)

/-- BCHG, BCLR, BSET with bit number `num` (R310): `op e bit` is written back. -/
def bitModify (op : Long → Long → Long) (n num : Nat) (ea : Ea) (s : State) : Host.Outcome State Fault Refusal :=
  retire (n + ea.extBytes ea.bitSize) s
    (updateEa ea ea.bitSize (s.pc + BitVec.ofNat 32 n)
      (fun e s1 => (op e (oneBit (bitIndex ea num)), bitFlags e (bitIndex ea num) s1.ccr)) s)

/-- BTST #n (R311). -/
def execBtstImm (num : Byte) (ea : Ea) (s : State) : Host.Outcome State Fault Refusal := bitTest 4 num.toNat ea s

/-- BTST Dn (R311). -/
def execBtstDyn (n : Reg) (ea : Ea) (s : State) : Host.Outcome State Fault Refusal := bitTest 2 (s.dreg n).toNat ea s

/-- BCHG #n (R312). -/
def execBchgImm (num : Byte) (ea : Ea) (s : State) : Host.Outcome State Fault Refusal :=
  bitModify (fun e b => e ^^^ b) 4 num.toNat ea s

/-- BCHG Dn (R312). -/
def execBchgDyn (n : Reg) (ea : Ea) (s : State) : Host.Outcome State Fault Refusal :=
  bitModify (fun e b => e ^^^ b) 2 (s.dreg n).toNat ea s

/-- BCLR #n (R313). -/
def execBclrImm (num : Byte) (ea : Ea) (s : State) : Host.Outcome State Fault Refusal :=
  bitModify (fun e b => e &&& ~~~b) 4 num.toNat ea s

/-- BCLR Dn (R313). -/
def execBclrDyn (n : Reg) (ea : Ea) (s : State) : Host.Outcome State Fault Refusal :=
  bitModify (fun e b => e &&& ~~~b) 2 (s.dreg n).toNat ea s

/-- BSET #n (R314). -/
def execBsetImm (num : Byte) (ea : Ea) (s : State) : Host.Outcome State Fault Refusal :=
  bitModify (fun e b => e ||| b) 4 num.toNat ea s

/-- BSET Dn (R314). -/
def execBsetDyn (n : Reg) (ea : Ea) (s : State) : Host.Outcome State Fault Refusal :=
  bitModify (fun e b => e ||| b) 2 (s.dreg n).toNat ea s

/-! ## Binary-coded decimal -/

/-- A decimal operation on the low bytes of two operands. -/
def bcdOp (op : Byte → Byte → Ccr → Byte × Ccr) (src dst : Long) (f : Ccr) : Long × Ccr :=
  let r := op (src.extractLsb' 0 8) (dst.extractLsb' 0 8) f
  (r.1.setWidth 32, r.2)

/-- ABCD (R321). -/
def execAbcd (form : PairForm) (x y : Reg) (s : State) : Host.Outcome State Fault Refusal := pairOp (bcdOp bcdAdd) .b form x y s

/-- SBCD (R322). -/
def execSbcd (form : PairForm) (x y : Reg) (s : State) : Host.Outcome State Fault Refusal := pairOp (bcdOp bcdSub) .b form x y s

/-- NBCD (R323). -/
def execNbcd (ea : Ea) (s : State) : Host.Outcome State Fault Refusal := unaryEa (fun e f => bcdOp bcdSub e 0 f) .b ea s

end Sys2Proof.Machine
end

