-- ==== Sys2Proof/Machine/Control.lean ====
section
/-! DEFINITION. Program control instructions (spec/47_program_control.md). -/

namespace Sys2Proof.Machine

/-- The displacement of a branch, sign-extended (R331). -/
def dispValue : BranchDisp → Long
  | .byte d => d.signExtend 32
  | .word d => d.signExtend 32

/-- The length of a branch (R331): 2 bytes, or 4 with the extension word. -/
def dispLength : BranchDisp → Nat
  | .byte _ => 2
  | .word _ => 4

/-- The target of a branch (R331): relative to `pc0 + 2` in both forms. -/
def branchTarget (disp : BranchDisp) (s : State) : Long := s.pc + 2 + dispValue disp

/-- `PC <- target`. -/
def jumpTo (target : Long) (s : State) : State := { s with pc := target }

/-- Bcc (R331). -/
def execBcc (cond : Cond) (disp : BranchDisp) (s : State) : Host.Outcome State Fault Refusal :=
  conclude s (.ok () (if condHolds cond s.ccr then jumpTo (branchTarget disp s) s else advance (dispLength disp) s))

/-- BRA (R332). -/
def execBra (disp : BranchDisp) (s : State) : Host.Outcome State Fault Refusal :=
  conclude s (.ok () (jumpTo (branchTarget disp s) s))

/-- BSR (R334): the address of the next instruction is pushed. -/
def execBsr (disp : BranchDisp) (s : State) : Host.Outcome State Fault Refusal :=
  conclude s ((push .l (s.pc + BitVec.ofNat 32 (dispLength disp)) s).bind fun _ s1 => .ok () (jumpTo (branchTarget disp s) s1))

/-- DBcc (R335). -/
def execDbcc (cond : Cond) (n : Reg) (d : Word) (s : State) : Host.Outcome State Fault Refusal :=
  conclude s (.ok ()
    (if condHolds cond s.ccr then advance 4 s
    else
      let c := lowWord (s.dreg n) - 1
      let s1 := s.writeD n .w (c.setWidth 32)
      if c = 0xFFFF then advance 4 s1 else jumpTo (s.pc + 2 + d.signExtend 32) s1))

/-- Scc (R336): the operand is not read, no flag changes. -/
def execScc (cond : Cond) (ea : Ea) (s : State) : Host.Outcome State Fault Refusal :=
  retire (eaLength ea .b) s (writeEa ea .b (s.pc + 2) (if condHolds cond s.ccr then 0xFF else 0) s)

/-- JMP (R337). -/
def execJmp (ea : Ea) (s : State) : Host.Outcome State Fault Refusal :=
  conclude s ((addressEa ea (s.pc + 2) s).bind fun a s1 => .ok () (jumpTo a s1))

/-- JSR (R338): the target is computed before the push. -/
def execJsr (ea : Ea) (s : State) : Host.Outcome State Fault Refusal :=
  conclude s ((addressEa ea (s.pc + 2) s).bind fun a s1 =>
    (push .l (s1.pc + BitVec.ofNat 32 (eaLength ea .l)) s1).bind fun _ s2 => .ok () (jumpTo a s2))

/-- RTS (R339). -/
def execRts (s : State) : Host.Outcome State Fault Refusal :=
  conclude s ((pop .l s).bind fun a s1 => .ok () (jumpTo a s1))

/-- RTR (R340): both pops precede the writes. -/
def execRtr (s : State) : Host.Outcome State Fault Refusal :=
  conclude s ((pop .w s).bind fun c s1 => (pop .l s1).bind fun a s2 =>
    .ok () (jumpTo a (s2.writeCcr (c.extractLsb' 0 8))))

/-- NOP (R343). -/
def execNop (s : State) : Host.Outcome State Fault Refusal := retire 2 s (.ok () s)

end Sys2Proof.Machine
end

