-- ==== Sys2Proof/Machine/DataMovement.lean ====
section
/-! DEFINITION. Data movement instructions (spec/42_data_movement.md). -/

namespace Sys2Proof.Machine

/-- MOVE (R201): the source is read with its side effects before the destination is resolved. -/
def execMove (sz : Size) (src dst : Ea) (s : State) : Host.Outcome State Fault Refusal :=
  retire (2 + src.extBytes sz + dst.extBytes sz) s
    ((readEa src sz (s.pc + 2) s).bind fun v s1 =>
      storeEa dst sz (s.pc + 2 + BitVec.ofNat 32 (src.extBytes sz)) v (moveFlags v sz s1.ccr) s1)

/-- MOVEA (R202): all 32 bits are written, a word source sign-extended. -/
def execMovea (sz : WordLong) (n : Reg) (src : Ea) (s : State) : Host.Outcome State Fault Refusal :=
  retire (eaLength src sz.size) s
    (loadEa src sz.size (s.pc + 2) (fun v s1 => s1.setAreg n (sext sz.size v)) s)

/-- MOVEQ (R203). -/
def execMoveq (n : Reg) (data : Byte) (s : State) : Host.Outcome State Fault Refusal :=
  let v : Long := data.signExtend 32
  retire 2 s (.ok () ((s.setCcr (moveFlags v .l s.ccr)).setDreg n v))

/-- The mask bits 0 to 15 in ascending order. -/
def maskBits : List (Fin 16) := [0, 1, 2, 3, 4, 5, 6, 7, 8, 9, 10, 11, 12, 13, 14, 15]

/-- The bits set in a register mask, ascending (R204, R205). -/
def maskList (m : Word) : List (Fin 16) := maskBits.filter fun k => m.getLsbD k.val

/-- The ascending stores of R204: the address after the last. -/
def movemStoreUp (sz : Size) : List (Fin 16) → Long → State → Res Long
  | [], a, s => .ok a s
  | k :: ks, a, s =>
    (memWrite a sz (s.movemReg k) s).bind fun _ s1 => movemStoreUp sz ks (a + BitVec.ofNat 32 sz.bytes) s1

/-- The descending stores of R204's `-(An)` form, where mask bit `i` selects `R(15 - i)`: the address of the last store. `A[n]` is written
after the last store, so a listed base register is stored with its initial value (D29). -/
def movemStoreDown (sz : Size) : List (Fin 16) → Long → State → Res Long
  | [], a, s => .ok a s
  | i :: is, a, s =>
    let a1 := a - BitVec.ofNat 32 sz.bytes
    (memWrite a1 sz (s.movemReg i.rev) s).bind fun _ s1 => movemStoreDown sz is a1 s1

/-- The ascending loads of R205, a word sign-extended into the whole register: the address after the last. -/
def movemLoad (sz : Size) : List (Fin 16) → Long → State → Res Long
  | [], a, s => .ok a s
  | k :: ks, a, s =>
    (memRead a sz s).bind fun v s1 => movemLoad sz ks (a + BitVec.ofNat 32 sz.bytes) (s1.setMovemReg k (sext sz v))

/-- The transfers of MOVEM registers to memory (R204). -/
def movemToMemBody (sz : Size) (mask : Word) (ea : Ea) (s : State) : Res Unit :=
  match ea with
  | .preDec n => (movemStoreDown sz (maskList mask) (s.areg n) s).bind fun a s1 => .ok () (s1.setAreg n a)
  | .dn _ | .an _ | .ind _ | .postInc _ | .disp _ _ | .index _ _ | .absW _ | .absL _ | .pcDisp _ | .pcIndex _ | .imm _ =>
    (addressEa ea (s.pc + 4) s).bind fun a s1 => (movemStoreUp sz (maskList mask) a s1).bind fun _ s2 => .ok () s2

/-- MOVEM, registers to memory (R204). -/
def execMovemToMem (sz : WordLong) (mask : Word) (ea : Ea) (s : State) : Host.Outcome State Fault Refusal :=
  retire (4 + ea.extBytes sz.size) s (movemToMemBody sz.size mask ea s)

/-- The transfers of MOVEM memory to registers (R205). -/
def movemToRegsBody (sz : Size) (mask : Word) (ea : Ea) (s : State) : Res Unit :=
  match ea with
  | .postInc n => (movemLoad sz (maskList mask) (s.areg n) s).bind fun a s1 => .ok () (s1.setAreg n a)
  | .dn _ | .an _ | .ind _ | .preDec _ | .disp _ _ | .index _ _ | .absW _ | .absL _ | .pcDisp _ | .pcIndex _ | .imm _ =>
    (addressEa ea (s.pc + 4) s).bind fun a s1 => (movemLoad sz (maskList mask) a s1).bind fun _ s2 => .ok () s2

/-- MOVEM, memory to registers (R205). -/
def execMovemToRegs (sz : WordLong) (mask : Word) (ea : Ea) (s : State) : Host.Outcome State Fault Refusal :=
  retire (4 + ea.extBytes sz.size) s (movemToRegsBody sz.size mask ea s)

/-- Write bytes to alternate addresses (R206). -/
def movepPut (m : Memory) (a : Long) : List Byte → Memory
  | [] => m
  | b :: bs => movepPut (m.putAt a 0 b) (a + 2) bs

/-- The bytes of MOVEP's register, most significant first (R206). -/
def movepBytes (sz : WordLong) (v : Long) : List Byte :=
  match sz with
  | .w => [v.extractLsb' 8 8, v.extractLsb' 0 8]
  | .l => [v.extractLsb' 24 8, v.extractLsb' 16 8, v.extractLsb' 8 8, v.extractLsb' 0 8]

/-- The value of MOVEP's bytes at alternate addresses (R206). -/
def movepGet (sz : WordLong) (m : Memory) (a : Long) : Long :=
  match sz with
  | .w => (m.byteAt a 0 ++ m.byteAt a 2).setWidth 32
  | .l => m.byteAt a 0 ++ m.byteAt a 2 ++ m.byteAt a 4 ++ m.byteAt a 6

/-- MOVEP (R206): byte accesses, which never fault. -/
def execMovep (dir : MovepDir) (sz : WordLong) (dx ay : Reg) (d : Word) (s : State) : Host.Outcome State Fault Refusal :=
  let a := s.areg ay + d.signExtend 32
  retire 4 s (.ok () (match dir with
    | .regToMem => { s with mem := movepPut s.mem a (movepBytes sz (s.dreg dx)) }
    | .memToReg => s.writeD dx sz.size (movepGet sz s.mem a)))

/-- LEA (R207). -/
def execLea (n : Reg) (ea : Ea) (s : State) : Host.Outcome State Fault Refusal :=
  retire (eaLength ea .l) s ((addressEa ea (s.pc + 2) s).bind fun a s1 => .ok () (s1.setAreg n a))

/-- PEA (R208): the address is resolved before the push. -/
def execPea (ea : Ea) (s : State) : Host.Outcome State Fault Refusal :=
  retire (eaLength ea .l) s ((addressEa ea (s.pc + 2) s).bind fun a s1 => push .l a s1)

/-- EXG Dx,Dy (R209). -/
def execExgDD (x y : Reg) (s : State) : Host.Outcome State Fault Refusal :=
  retire 2 s (.ok () ((s.setDreg x (s.dreg y)).setDreg y (s.dreg x)))

/-- EXG Ax,Ay (R209). -/
def execExgAA (x y : Reg) (s : State) : Host.Outcome State Fault Refusal :=
  retire 2 s (.ok () ((s.setAreg x (s.areg y)).setAreg y (s.areg x)))

/-- EXG Dx,Ay (R209). -/
def execExgDA (x y : Reg) (s : State) : Host.Outcome State Fault Refusal :=
  retire 2 s (.ok () ((s.setDreg x (s.areg y)).setAreg y (s.dreg x)))

/-- LINK (R210): for `A7` the stored value is the already decremented SP. -/
def execLink (n : Reg) (d : Word) (s : State) : Host.Outcome State Fault Refusal :=
  let s1 := s.setSp (s.sp - 4)
  retire 4 s ((memWrite s1.sp .l (s1.areg n) s1).bind fun _ s2 =>
    let s3 := s2.setAreg n s2.sp
    .ok () (s3.setSp (s3.sp + d.signExtend 32)))

/-- UNLK (R211): `A[n]` is written last. -/
def execUnlk (n : Reg) (s : State) : Host.Outcome State Fault Refusal :=
  let t := s.areg n
  retire 2 s ((memRead t .l s).bind fun v s1 => .ok () ((s1.setSp (t + 4)).setAreg n v))

end Sys2Proof.Machine
end

