-- ==== Sys2Proof/Machine/Logical.lean ====
section
/-! DEFINITION. Logical instructions (spec/44_logical.md). -/

namespace Sys2Proof.Machine

/-- A bitwise result with the flags of `logic(r, sz)` (R270). -/
def logicOp (op : Long → Long → Long) (sz : Size) (src dst : Long) (f : Ccr) : Long × Ccr :=
  let r := op dst src
  (r, moveFlags r sz f)

/-- AND (R271). -/
def andOp (sz : Size) : Long → Long → Ccr → Long × Ccr := logicOp (fun a b => a &&& b) sz

/-- OR (R273). -/
def orOp (sz : Size) : Long → Long → Ccr → Long × Ccr := logicOp (fun a b => a ||| b) sz

/-- EOR (R275). -/
def eorOp (sz : Size) : Long → Long → Ccr → Long × Ccr := logicOp (fun a b => a ^^^ b) sz

/-- AND `<ea>,Dn` (R271). -/
def execAndEaDn (sz : Size) (ea : Ea) (n : Reg) (s : State) : Host.Outcome State Fault Refusal := eaToDn (andOp sz) sz ea n s

/-- AND `Dn,<ea>` (R271). -/
def execAndDnEa (sz : Size) (n : Reg) (ea : Ea) (s : State) : Host.Outcome State Fault Refusal := dnToEa (andOp sz) sz n ea s

/-- ANDI (R272). -/
def execAndi (sz : Size) (imm : Long) (ea : Ea) (s : State) : Host.Outcome State Fault Refusal := immToEa (andOp sz) sz imm ea s

/-- OR `<ea>,Dn` (R273). -/
def execOrEaDn (sz : Size) (ea : Ea) (n : Reg) (s : State) : Host.Outcome State Fault Refusal := eaToDn (orOp sz) sz ea n s

/-- OR `Dn,<ea>` (R273). -/
def execOrDnEa (sz : Size) (n : Reg) (ea : Ea) (s : State) : Host.Outcome State Fault Refusal := dnToEa (orOp sz) sz n ea s

/-- ORI (R274). -/
def execOri (sz : Size) (imm : Long) (ea : Ea) (s : State) : Host.Outcome State Fault Refusal := immToEa (orOp sz) sz imm ea s

/-- EOR (R275). -/
def execEor (sz : Size) (n : Reg) (ea : Ea) (s : State) : Host.Outcome State Fault Refusal := dnToEa (eorOp sz) sz n ea s

/-- EORI (R276). -/
def execEori (sz : Size) (imm : Long) (ea : Ea) (s : State) : Host.Outcome State Fault Refusal := immToEa (eorOp sz) sz imm ea s

/-- NOT (R277). -/
def execNot (sz : Size) (ea : Ea) (s : State) : Host.Outcome State Fault Refusal :=
  unaryEa (fun e f => (trunc sz (~~~e), moveFlags (trunc sz (~~~e)) sz f)) sz ea s

end Sys2Proof.Machine
end

