-- ==== Sys2Proof/Machine/Shift.lean ====
section
/-! DEFINITION. Shift and rotate instructions (spec/45_shift_rotate.md). -/

namespace Sys2Proof.Machine

/-- The count of a register form (R290): the field, 0 meaning 8, or the register modulo 64. -/
def shiftCount (cnt : ShiftCount) (s : State) : Nat :=
  match cnt with
  | .field q => quickData q
  | .reg n => (s.dreg n).toNat % 64

/-- The register form (R290): the count is read first, flags are written before the store. `roxc` says that a count of 0 gives C = X. -/
def shiftDn (step : Size → ShiftState → ShiftState) (roxc keepV : Bool) (sz : Size) (cnt : ShiftCount) (y : Reg) (s : State) :
    Host.Outcome State Fault Refusal :=
  let r := shiftOp step (roxc && s.ccr.x) keepV sz (shiftCount cnt s) (s.readD y sz) s.ccr
  retire 2 s (.ok () ((s.setCcr r.2).writeD y sz r.1))

/-- The memory form (R290): a word, count 1. -/
def shiftEa (step : Size → ShiftState → ShiftState) (keepV : Bool) (ea : Ea) (s : State) : Host.Outcome State Fault Refusal :=
  retire (eaLength ea .w) s (updateEa ea .w (s.pc + 2) (fun e s1 => shiftOp step false keepV .w 1 e s1.ccr) s)

/-- ASL, register form (R291). -/
def execAslReg (sz : Size) (cnt : ShiftCount) (y : Reg) (s : State) : Host.Outcome State Fault Refusal :=
  shiftDn aslStep false true sz cnt y s

/-- ASL, memory form (R291). -/
def execAslMem (ea : Ea) (s : State) : Host.Outcome State Fault Refusal := shiftEa aslStep true ea s

/-- ASR, register form (R292). -/
def execAsrReg (sz : Size) (cnt : ShiftCount) (y : Reg) (s : State) : Host.Outcome State Fault Refusal :=
  shiftDn asrStep false false sz cnt y s

/-- ASR, memory form (R292). -/
def execAsrMem (ea : Ea) (s : State) : Host.Outcome State Fault Refusal := shiftEa asrStep false ea s

/-- LSL, register form (R293). -/
def execLslReg (sz : Size) (cnt : ShiftCount) (y : Reg) (s : State) : Host.Outcome State Fault Refusal :=
  shiftDn lslStep false false sz cnt y s

/-- LSL, memory form (R293). -/
def execLslMem (ea : Ea) (s : State) : Host.Outcome State Fault Refusal := shiftEa lslStep false ea s

/-- LSR, register form (R294). -/
def execLsrReg (sz : Size) (cnt : ShiftCount) (y : Reg) (s : State) : Host.Outcome State Fault Refusal :=
  shiftDn lsrStep false false sz cnt y s

/-- LSR, memory form (R294). -/
def execLsrMem (ea : Ea) (s : State) : Host.Outcome State Fault Refusal := shiftEa lsrStep false ea s

/-- ROL, register form (R295). -/
def execRolReg (sz : Size) (cnt : ShiftCount) (y : Reg) (s : State) : Host.Outcome State Fault Refusal :=
  shiftDn rolStep false false sz cnt y s

/-- ROL, memory form (R295). -/
def execRolMem (ea : Ea) (s : State) : Host.Outcome State Fault Refusal := shiftEa rolStep false ea s

/-- ROR, register form (R296). -/
def execRorReg (sz : Size) (cnt : ShiftCount) (y : Reg) (s : State) : Host.Outcome State Fault Refusal :=
  shiftDn rorStep false false sz cnt y s

/-- ROR, memory form (R296). -/
def execRorMem (ea : Ea) (s : State) : Host.Outcome State Fault Refusal := shiftEa rorStep false ea s

/-- ROXL, register form (R297). -/
def execRoxlReg (sz : Size) (cnt : ShiftCount) (y : Reg) (s : State) : Host.Outcome State Fault Refusal :=
  shiftDn roxlStep true false sz cnt y s

/-- ROXL, memory form (R297). -/
def execRoxlMem (ea : Ea) (s : State) : Host.Outcome State Fault Refusal := shiftEa roxlStep false ea s

/-- ROXR, register form (R298). -/
def execRoxrReg (sz : Size) (cnt : ShiftCount) (y : Reg) (s : State) : Host.Outcome State Fault Refusal :=
  shiftDn roxrStep true false sz cnt y s

/-- ROXR, memory form (R298). -/
def execRoxrMem (ea : Ea) (s : State) : Host.Outcome State Fault Refusal := shiftEa roxrStep false ea s

/-- SWAP (R299). -/
def execSwap (n : Reg) (s : State) : Host.Outcome State Fault Refusal :=
  let r : Long := lowWord (s.dreg n) ++ highWord (s.dreg n)
  retire 2 s (.ok () ((s.setCcr (moveFlags r .l s.ccr)).setDreg n r))

end Sys2Proof.Machine
end

