-- ==== Sys2Proof/Machine/System.lean ====
section
/-! DEFINITION. System control instructions (spec/48_system_control.md). -/

namespace Sys2Proof.Machine

/-! ## Condition-code register operations (not privileged) -/

/-- An immediate operation on CCR (R363 to R365). -/
def immToCcr (op : Byte → Byte → Byte) (imm : Byte) (s : State) : Host.Outcome State Fault Refusal :=
  retire 4 s (.ok () (s.writeCcr (op s.readCcr imm)))

/-- ANDI to CCR (R363). -/
def execAndiToCcr (imm : Byte) (s : State) : Host.Outcome State Fault Refusal := immToCcr (fun a b => a &&& b) imm s

/-- ORI to CCR (R364). -/
def execOriToCcr (imm : Byte) (s : State) : Host.Outcome State Fault Refusal := immToCcr (fun a b => a ||| b) imm s

/-- EORI to CCR (R365). -/
def execEoriToCcr (imm : Byte) (s : State) : Host.Outcome State Fault Refusal := immToCcr (fun a b => a ^^^ b) imm s

/-- MOVE to CCR (R369): the source is a word, its low byte is used. -/
def execMoveToCcr (ea : Ea) (s : State) : Host.Outcome State Fault Refusal :=
  retire (eaLength ea .w) s (loadEa ea .w (s.pc + 2) (fun e s1 => s1.writeCcr (e.extractLsb' 0 8)) s)

/-! ## Status register operations -/

/-- An immediate operation on SR (R366 to R368), privileged (R362). -/
def immToSr (op : Word → Word → Word) (imm : Word) (s : State) : Host.Outcome State Fault Refusal :=
  retire 4 s (privileged (fun s1 => .ok () (s1.writeSr (op s1.readSr imm))) s)

/-- ANDI to SR (R366). -/
def execAndiToSr (imm : Word) (s : State) : Host.Outcome State Fault Refusal := immToSr (fun a b => a &&& b) imm s

/-- ORI to SR (R367). -/
def execOriToSr (imm : Word) (s : State) : Host.Outcome State Fault Refusal := immToSr (fun a b => a ||| b) imm s

/-- EORI to SR (R368). -/
def execEoriToSr (imm : Word) (s : State) : Host.Outcome State Fault Refusal := immToSr (fun a b => a ^^^ b) imm s

/-- MOVE to SR (R370), privileged: the operand's side effects precede the write of SR. -/
def execMoveToSr (ea : Ea) (s : State) : Host.Outcome State Fault Refusal :=
  retire (eaLength ea .w) s (privileged (loadEa ea .w (s.pc + 2) (fun e s1 => s1.writeSr (lowWord e))) s)

/-- MOVE from SR (R371): not privileged, no flag changes. -/
def execMoveFromSr (ea : Ea) (s : State) : Host.Outcome State Fault Refusal :=
  retire (eaLength ea .w) s (writeEa ea .w (s.pc + 2) (s.readSr.setWidth 32) s)

/-- MOVE An,USP (R372), privileged. -/
def execMoveToUsp (n : Reg) (s : State) : Host.Outcome State Fault Refusal :=
  retire 2 s (privileged (fun s1 => .ok () { s1 with usp := s1.areg n }) s)

/-- MOVE USP,An (R373), privileged. -/
def execMoveFromUsp (n : Reg) (s : State) : Host.Outcome State Fault Refusal :=
  retire 2 s (privileged (fun s1 => .ok () (s1.setAreg n s1.usp)) s)

/-! ## Processor control -/

/-- RESET (R374), privileged: no state of the core changes. -/
def execReset (s : State) : Host.Outcome State Fault Refusal := retire 2 s (privileged (fun s1 => .ok () s1) s)

/-- RTE (R375), privileged. -/
def execRte (s : State) : Host.Outcome State Fault Refusal := conclude s (privileged returnFromException s)

/-- STOP (R376), privileged. -/
def execStop (imm : Word) (s : State) : Host.Outcome State Fault Refusal :=
  conclude s (privileged (fun s1 => .ok () { (advance 4 (s1.writeSr imm)) with stopped := true }) s)

/-- TRAP (R377). -/
def execTrap (v : BitVec 4) (s : State) : Host.Outcome State Fault Refusal := conclude s (.raise (.trap v) s)

/-- TRAPV (R378). -/
def execTrapv (s : State) : Host.Outcome State Fault Refusal := retire 2 s (if s.ccr.v then .raise .trapv s else .ok () s)

/-- CHK (R379): the free value `CHK_UNDEF` gives Z, V, C, and N when no trap is taken (log entry 6); the flags are written before the
trap, so the saved SR holds them. The lower bound is tested first. -/
def execChk (n : Reg) (ea : Ea) (s : State) : Host.Outcome State Fault Refusal :=
  retire (eaLength ea .w) s ((readEa ea .w (s.pc + 2) s).bind fun e s1 =>
    let dn := lowWord (s1.dreg n)
    let bound := lowWord e
    let u := Config.chkUndef dn bound s1.readCcr
    let next := s1.pc + BitVec.ofNat 32 (eaLength ea .w)
    let flags (negative : Bool) : State := s1.setCcr { s1.ccr with n := negative, z := u.z, v := u.v, c := u.c }
    if dn.slt 0 then .raise (.chk next) (flags true)
    else if bound.slt dn then .raise (.chk next) (flags false)
    else .ok () (flags u.n))

/-- ILLEGAL (R380). -/
def execIllegal (s : State) : Host.Outcome State Fault Refusal := conclude s (.raise .illegalInstruction s)

/-- TAS (R385): the flags follow the operand before the write. -/
def execTas (ea : Ea) (s : State) : Host.Outcome State Fault Refusal :=
  retire (eaLength ea .b) s (updateEa ea .b (s.pc + 2) (fun e s1 => (e ||| 0x80, moveFlags e .b s1.ccr)) s)

end Sys2Proof.Machine
end

