-- ==== Sys2Proof/Machine/Dispatch.lean ====
section
/-! DEFINITION. One arm per constructor of Instr, in the order of spec/opcode_table.json. -/

namespace Sys2Proof.Machine

def exec (i : Instr) (s : State) : Host.Outcome State Fault Refusal :=
  match i with
  | .oriToCcr imm => Sys2Proof.Machine.execOriToCcr imm s
  | .oriToSr imm => Sys2Proof.Machine.execOriToSr imm s
  | .andiToCcr imm => Sys2Proof.Machine.execAndiToCcr imm s
  | .andiToSr imm => Sys2Proof.Machine.execAndiToSr imm s
  | .eoriToCcr imm => Sys2Proof.Machine.execEoriToCcr imm s
  | .eoriToSr imm => Sys2Proof.Machine.execEoriToSr imm s
  | .ori sz imm ea => Sys2Proof.Machine.execOri sz imm ea s
  | .andi sz imm ea => Sys2Proof.Machine.execAndi sz imm ea s
  | .subi sz imm ea => Sys2Proof.Machine.execSubi sz imm ea s
  | .addi sz imm ea => Sys2Proof.Machine.execAddi sz imm ea s
  | .eori sz imm ea => Sys2Proof.Machine.execEori sz imm ea s
  | .cmpi sz imm ea => Sys2Proof.Machine.execCmpi sz imm ea s
  | .btstImm num ea => Sys2Proof.Machine.execBtstImm num ea s
  | .bchgImm num ea => Sys2Proof.Machine.execBchgImm num ea s
  | .bclrImm num ea => Sys2Proof.Machine.execBclrImm num ea s
  | .bsetImm num ea => Sys2Proof.Machine.execBsetImm num ea s
  | .btstDyn n ea => Sys2Proof.Machine.execBtstDyn n ea s
  | .bchgDyn n ea => Sys2Proof.Machine.execBchgDyn n ea s
  | .bclrDyn n ea => Sys2Proof.Machine.execBclrDyn n ea s
  | .bsetDyn n ea => Sys2Proof.Machine.execBsetDyn n ea s
  | .movep dir sz dx ay d => Sys2Proof.Machine.execMovep dir sz dx ay d s
  | .move sz src dst => Sys2Proof.Machine.execMove sz src dst s
  | .movea sz n src => Sys2Proof.Machine.execMovea sz n src s
  | .negx sz ea => Sys2Proof.Machine.execNegx sz ea s
  | .moveFromSr ea => Sys2Proof.Machine.execMoveFromSr ea s
  | .chk n ea => Sys2Proof.Machine.execChk n ea s
  | .lea n ea => Sys2Proof.Machine.execLea n ea s
  | .clr sz ea => Sys2Proof.Machine.execClr sz ea s
  | .neg sz ea => Sys2Proof.Machine.execNeg sz ea s
  | .moveToCcr ea => Sys2Proof.Machine.execMoveToCcr ea s
  | .not sz ea => Sys2Proof.Machine.execNot sz ea s
  | .moveToSr ea => Sys2Proof.Machine.execMoveToSr ea s
  | .nbcd ea => Sys2Proof.Machine.execNbcd ea s
  | .swap n => Sys2Proof.Machine.execSwap n s
  | .pea ea => Sys2Proof.Machine.execPea ea s
  | .extW n => Sys2Proof.Machine.execExtW n s
  | .extL n => Sys2Proof.Machine.execExtL n s
  | .movemToMem sz mask ea => Sys2Proof.Machine.execMovemToMem sz mask ea s
  | .tst sz ea => Sys2Proof.Machine.execTst sz ea s
  | .tas ea => Sys2Proof.Machine.execTas ea s
  | .illegal => Sys2Proof.Machine.execIllegal s
  | .movemToRegs sz mask ea => Sys2Proof.Machine.execMovemToRegs sz mask ea s
  | .trap v => Sys2Proof.Machine.execTrap v s
  | .link n d => Sys2Proof.Machine.execLink n d s
  | .unlk n => Sys2Proof.Machine.execUnlk n s
  | .moveToUsp n => Sys2Proof.Machine.execMoveToUsp n s
  | .moveFromUsp n => Sys2Proof.Machine.execMoveFromUsp n s
  | .reset => Sys2Proof.Machine.execReset s
  | .nop => Sys2Proof.Machine.execNop s
  | .stop imm => Sys2Proof.Machine.execStop imm s
  | .rte => Sys2Proof.Machine.execRte s
  | .rts => Sys2Proof.Machine.execRts s
  | .trapv => Sys2Proof.Machine.execTrapv s
  | .rtr => Sys2Proof.Machine.execRtr s
  | .jsr ea => Sys2Proof.Machine.execJsr ea s
  | .jmp ea => Sys2Proof.Machine.execJmp ea s
  | .addq sz q ea => Sys2Proof.Machine.execAddq sz q ea s
  | .subq sz q ea => Sys2Proof.Machine.execSubq sz q ea s
  | .scc cond ea => Sys2Proof.Machine.execScc cond ea s
  | .dbcc cond n d => Sys2Proof.Machine.execDbcc cond n d s
  | .bra disp => Sys2Proof.Machine.execBra disp s
  | .bsr disp => Sys2Proof.Machine.execBsr disp s
  | .bcc cond disp => Sys2Proof.Machine.execBcc cond disp s
  | .moveq n data => Sys2Proof.Machine.execMoveq n data s
  | .orEaDn sz ea n => Sys2Proof.Machine.execOrEaDn sz ea n s
  | .orDnEa sz n ea => Sys2Proof.Machine.execOrDnEa sz n ea s
  | .divu n ea => Sys2Proof.Machine.execDivu n ea s
  | .divs n ea => Sys2Proof.Machine.execDivs n ea s
  | .sbcd form x y => Sys2Proof.Machine.execSbcd form x y s
  | .subEaDn sz ea n => Sys2Proof.Machine.execSubEaDn sz ea n s
  | .subDnEa sz n ea => Sys2Proof.Machine.execSubDnEa sz n ea s
  | .suba sz n ea => Sys2Proof.Machine.execSuba sz n ea s
  | .subx sz form x y => Sys2Proof.Machine.execSubx sz form x y s
  | .cmp sz ea n => Sys2Proof.Machine.execCmp sz ea n s
  | .cmpa sz n ea => Sys2Proof.Machine.execCmpa sz n ea s
  | .eor sz n ea => Sys2Proof.Machine.execEor sz n ea s
  | .cmpm sz x y => Sys2Proof.Machine.execCmpm sz x y s
  | .andEaDn sz ea n => Sys2Proof.Machine.execAndEaDn sz ea n s
  | .andDnEa sz n ea => Sys2Proof.Machine.execAndDnEa sz n ea s
  | .mulu n ea => Sys2Proof.Machine.execMulu n ea s
  | .muls n ea => Sys2Proof.Machine.execMuls n ea s
  | .abcd form x y => Sys2Proof.Machine.execAbcd form x y s
  | .exgDD x y => Sys2Proof.Machine.execExgDD x y s
  | .exgAA x y => Sys2Proof.Machine.execExgAA x y s
  | .exgDA x y => Sys2Proof.Machine.execExgDA x y s
  | .addEaDn sz ea n => Sys2Proof.Machine.execAddEaDn sz ea n s
  | .addDnEa sz n ea => Sys2Proof.Machine.execAddDnEa sz n ea s
  | .adda sz n ea => Sys2Proof.Machine.execAdda sz n ea s
  | .addx sz form x y => Sys2Proof.Machine.execAddx sz form x y s
  | .asrReg sz cnt y => Sys2Proof.Machine.execAsrReg sz cnt y s
  | .asrMem ea => Sys2Proof.Machine.execAsrMem ea s
  | .aslReg sz cnt y => Sys2Proof.Machine.execAslReg sz cnt y s
  | .aslMem ea => Sys2Proof.Machine.execAslMem ea s
  | .lsrReg sz cnt y => Sys2Proof.Machine.execLsrReg sz cnt y s
  | .lsrMem ea => Sys2Proof.Machine.execLsrMem ea s
  | .lslReg sz cnt y => Sys2Proof.Machine.execLslReg sz cnt y s
  | .lslMem ea => Sys2Proof.Machine.execLslMem ea s
  | .roxrReg sz cnt y => Sys2Proof.Machine.execRoxrReg sz cnt y s
  | .roxrMem ea => Sys2Proof.Machine.execRoxrMem ea s
  | .roxlReg sz cnt y => Sys2Proof.Machine.execRoxlReg sz cnt y s
  | .roxlMem ea => Sys2Proof.Machine.execRoxlMem ea s
  | .rorReg sz cnt y => Sys2Proof.Machine.execRorReg sz cnt y s
  | .rorMem ea => Sys2Proof.Machine.execRorMem ea s
  | .rolReg sz cnt y => Sys2Proof.Machine.execRolReg sz cnt y s
  | .rolMem ea => Sys2Proof.Machine.execRolMem ea s

end Sys2Proof.Machine
end

