-- ==== Sys2Proof/Machine/Driver.lean ====
section
/-! DEFINITION. What the step driver is made of (spec/60_exceptions.md R401 to R403, R430 to R433; 70_reset_and_hazards.md R450, R451):
fetching and decoding, the reset sequence, interrupt acceptance, and the host's operations (00_scope.md R8). -/

namespace Sys2Proof.Machine

/-! ## Fetch -/

/-- What the fetch of an instruction gives. -/
inductive Fetched where
  /-- PC is odd: AddressError before anything is decoded (R402). -/
  | oddPc
  /-- The opcode satisfies no row (R412). -/
  | illegal (op : Word)
  | instr (i : Instr)
  deriving DecidableEq, Repr

/-- The word `k` places after PC, its address masked (20_memory.md R61, R71). -/
def fetchWord (s : State) (k : Nat) : Word := lowWord (s.mem.load (s.pc + BitVec.ofNat 32 (2 * k)) .w)

/-- The five words at PC, the longest instruction (30_encoding.md R100). Reading a word has no side effect and cannot fault at an even
PC (20_memory.md R64, R71), so the words an instruction does not use are not observed. Log entry 7. -/
def fetchWords (s : State) : List Word := [fetchWord s 0, fetchWord s 1, fetchWord s 2, fetchWord s 3, fetchWord s 4]

/-- Fetch and decode at PC (R401 item 5). -/
def fetch (s : State) : Fetched :=
  if misaligned s.pc .w then .oddPc
  else
    match decode (fetchWords s) with
    | .ok (i, _) => .instr i
    | .error _ => .illegal (fetchWord s 0)

/-! ## Reset -/

/-- `ProcessReset` (70_reset_and_hazards.md R450). -/
def processReset (s : State) : State :=
  { s with
    sr := 0x2700
    ssp := s.mem.load 0 .l
    pc := s.mem.load 4 .l
    resetPending := false
    stopped := false
    halted := false }

/-! ## Interrupts -/

/-- Acceptability of a request under a mask (R431). -/
def IrqRequest.acceptable (mask : BitVec 3) (r : IrqRequest) : Bool := mask < r.level || r.level == 7

/-- The request taken among the pending ones (R431): the highest acceptable level, and among equal levels the one posted first. -/
def bestRequest (mask : BitVec 3) : List IrqRequest → Option IrqRequest
  | [] => none
  | r :: rest =>
    match bestRequest mask rest with
    | none => if r.acceptable mask then some r else none
    | some b => if r.acceptable mask && b.level ≤ r.level then some r else some b

/-- The vector of a request: the posted number, or the autovector `24 + level` (R432). -/
def IrqRequest.vectorNumber (r : IrqRequest) : Byte :=
  match r.vector with
  | some v => v
  | none => 24 + r.level.setWidth 8

/-- `AcceptInterrupt()` for a chosen request (R432): it leaves the queue, then the entry with the mask raised to its level. -/
def acceptInterrupt (r : IrqRequest) (s : State) : State :=
  enterException r.vectorNumber (some r.level) s.pc { s with irqQueue := s.irqQueue.erase r }

/-! ## The host's operations (00_scope.md R8) -/

/-- `Reset()` (70_reset_and_hazards.md R451). -/
def State.hostReset (s : State) : State := { s with resetPending := true }

/-- `PostInterrupt(level, vector)` (R430), `vector = none` for "auto". Level 0 is outside the interface and posts nothing, log entry 9. -/
def State.postInterrupt (s : State) (level : BitVec 3) (vector : Option Byte) : State :=
  if level = 0 then s else { s with irqQueue := s.irqQueue ++ [{ level := level, vector := vector }] }

/-- `new(memory, registers)` (70_reset_and_hazards.md R452; 10_state.md R43): the host's memory and registers, SR stored masked, the
flags false and the queue empty; no reset is performed. -/
def State.construct (p : Params) (mem : Memory) (d : Vector Long 8) (a : Vector Long 7) (usp ssp pc : Long) (sr : Word) : State :=
  { d := d, a := a, usp := usp, ssp := ssp, pc := pc, sr := sr &&& srImplMask, mem := mem, resetPending := false, stopped := false,
    halted := false, irqQueue := [], params := p }

/-- The Boolean `Step` returns, of the state after the step (R401, D15): the core is neither halted nor stopped. Log entry 10. -/
def State.canContinue (s : State) : Bool := !s.halted && !s.stopped

/-! ## Placing an instruction where the next step fetches it -/

/-- Store words from an address upward. -/
def storeWords (m : Memory) (a : Long) : List Word → Memory
  | [] => m
  | w :: ws => storeWords (m.store a .w (w.setWidth 32)) (a + 2) ws

end Sys2Proof.Machine
end

