-- ==== Sys2Proof/Machine/Cycle.lean ====
section
/-! DEFINITION. The driver's cycle (spec/60_exceptions.md R401): reset, halted, interrupt, stopped, then one instruction; and the placing of
an instruction where the cycle fetches it. Step.lean only names the two. -/

namespace Sys2Proof.Machine

/-- Item 5 of R401: fetch, decode, execute, and take what was raised. -/
def runInstruction (s : State) : Host.Outcome State Fault Refusal :=
  match fetch s with
  | .oddPc => .next (takeException .addressError s)
  | .illegal op => .next (raiseIllegal op s)
  | .instr i => exec i s

/-- The body of `Step()` (R401). -/
def driverCycle (s : State) : Host.Outcome State Fault Refusal :=
  if s.resetPending then .next (processReset s)
  else if s.halted then .next s
  else
    match bestRequest s.irqMask s.irqQueue with
    | some r => .next (acceptInterrupt r s)
    | none => if s.stopped then .next s else runInstruction s

/-- `s` with the instruction of a table word stored where the next step fetches: at PC, made even, with no reset, interrupt, halt or stop
in the way of the fetch. It stands for the load of a program from outside the machine. Log entry 3. -/
def State.placeAtPc (s : State) (nbits w : Nat) : State :=
  let pc := s.pc &&& 0xFFFFFFFE
  { s with
    pc := pc
    mem := storeWords s.mem pc (tableWords nbits w)
    resetPending := false
    halted := false
    stopped := false
    irqQueue := s.irqQueue.filter fun r => !r.acceptable s.irqMask }

end Sys2Proof.Machine
end

