-- ==== Sys2Proof/Machine/Step.lean ====
section
/-! DEFINITION. The machine's step and the host's way of placing an instruction before it. -/

namespace Sys2Proof.Machine

/-- `Step()` (spec/60_exceptions.md R401). -/
def step (s : State) : Host.Outcome State Fault Refusal := driverCycle s

/-- `s` with the instruction of a table word stored where the next step fetches. Log entry 3. -/
def State.withFetchWord (s : State) (nbits w : Nat) : State := s.placeAtPc nbits w

end Sys2Proof.Machine
end

