-- ==== Sys2Proof/Safety.lean ====
section
/-! DEFINITION. The terms claims are stated in: the invariant of the state, and, for every instruction, when it runs to its end without an
exception, what it may change, and the operand it works on, said from the spec's rules and not from the meanings. -/

namespace Sys2Proof.Machine

/-! ## The invariant -/

/-- The bits of SR outside `SR_IMPL_MASK` read 0 (spec/10_state.md R32, R33). -/
def State.srReserved (s : State) : Bool := s.sr &&& ~~~srImplMask == 0

/-- Every pending request has a level 1 to 7 (10_state.md R40). -/
def State.queueLevels (s : State) : Bool := s.irqQueue.all fun r => r.level != 0

/-- The invariant every step keeps: memory in canonical form, SR reserved bits 0, the queue's levels legal. -/
def State.inv (s : State) : Bool := s.mem.wf && s.srReserved && s.queueLevels

/-! ## Operands -/

/-- The value an operand holds before the instruction touches it (40_ea_resolver.md R142 to R153, R156). -/
def operandValue (ea : Ea) (sz : Size) (ext : Long) (s : State) : Long :=
  match eaLoc ea sz ext s with
  | .dreg n => s.readD n sz
  | .areg n => s.readA n sz
  | .imm v => trunc sz v
  | .mem a _ => s.mem.load a sz

/-- An access of the operand does not fault (20_memory.md R64 to R66): it is no word or long at an odd address. -/
def operandReady (ea : Ea) (sz : Size) (ext : Long) (s : State) : Bool :=
  match eaLoc ea sz ext s with
  | .dreg _ | .areg _ | .imm _ => true
  | .mem a _ => !misaligned a sz

/-- The register side effect of an operand (R146, R147), made once whatever the number of accesses (R158). -/
def sideEffect (ea : Ea) (sz : Size) (s : State) : State :=
  match ea with
  | .postInc n => s.setAreg n (s.areg n + eaStep n sz)
  | .preDec n => s.setAreg n (s.areg n - eaStep n sz)
  | .dn _ | .an _ | .ind _ | .disp _ _ | .index _ _ | .absW _ | .absL _ | .pcDisp _ | .pcIndex _ | .imm _ => s

/-- What an operand whose first access faults leaves behind (R146, R147): the pre-decrement, and no post-increment. -/
def decremented (ea : Ea) (sz : Size) (s : State) : State :=
  match ea with
  | .preDec n => s.setAreg n (s.areg n - eaStep n sz)
  | .dn _ | .an _ | .ind _ | .postInc _ | .disp _ _ | .index _ _ | .absW _ | .absL _ | .pcDisp _ | .pcIndex _ | .imm _ => s

/-- A value stored at a location (R157). -/
def storeAt (loc : Loc) (sz : Size) (v : Long) (s : State) : State :=
  match loc with
  | .dreg n => s.writeD n sz v
  | .areg n => s.setAreg n v
  | .imm _ => s
  | .mem a _ => { s with mem := s.mem.store a sz v }

/-- An operand replaced by a value and the condition codes by `f`, with the operand's side effect. -/
def replaced (ea : Ea) (sz : Size) (ext : Long) (v : Long) (f : Ccr) (s : State) : State :=
  storeAt (eaLoc ea sz ext s) sz v ((sideEffect ea sz s).setCcr f)

/-- The address of an operand in memory, 0 for an operand that has none. -/
def operandAddress (ea : Ea) (ext : Long) (s : State) : Long :=
  match eaLoc ea .l ext s with
  | .mem a _ => a
  | .dreg _ | .areg _ | .imm _ => 0

/-- PC moved past the instruction (10_state.md R29). -/
def past (i : Instr) (s : State) : State := { s with pc := s.pc + BitVec.ofNat 32 i.length }

/-- An access of a long on the active stack does not fault. -/
def State.spEven (s : State) : Bool := !s.sp.getLsbD 0

/-- A long pushed on the active stack (20_memory.md R72). -/
def pushed (v : Long) (s : State) : State :=
  { s.setSp (s.sp - 4) with mem := s.mem.store (s.sp - 4) .l v }

/-! ## Arithmetic on mathematical integers -/

/-- `signed(v, sz)` (00_scope.md R9). -/
def signedAt (sz : Size) (v : Long) : Int := (sext sz v).toInt

/-- An integer is in the signed range of a size (41_alu_flags.md R175). -/
def inRange (sz : Size) (k : Int) : Bool := decide (-(2 : Int) ^ (sz.bits - 1) ≤ k) && decide (k < (2 : Int) ^ (sz.bits - 1))

/-- The condition codes of the exact sum `dst + src + xin` of two values of a size (R171 to R173, R175, R178). -/
def sumFlags (sz : Size) (src dst : Long) (xin : Bool) : Ccr :=
  let r := (src.toNat + dst.toNat + xin.toNat) % 2 ^ sz.bits
  let carry := decide (2 ^ sz.bits ≤ src.toNat + dst.toNat + xin.toNat)
  { x := carry, n := decide (2 ^ (sz.bits - 1) ≤ r), z := decide (r = 0),
    v := !inRange sz (signedAt sz src + signedAt sz dst + xin.toNat), c := carry }

/-- The condition codes of the exact difference `dst - src - xin` of two values of a size (R171, R172, R174, R176, R178). -/
def differenceFlags (sz : Size) (src dst : Long) (xin : Bool) : Ccr :=
  let r := ((dst.toNat : Int) - src.toNat - xin.toNat) % 2 ^ sz.bits
  let borrow := decide (dst.toNat < src.toNat + xin.toNat)
  { x := borrow, n := decide ((2 : Int) ^ (sz.bits - 1) ≤ r), z := decide (r = 0),
    v := !inRange sz (signedAt sz dst - signedAt sz src - xin.toNat), c := borrow }

/-- The condition codes of a value moved or computed bitwise at a size (R179, 44_logical.md R270): X stays. -/
def valueFlags (sz : Size) (v : Long) (f : Ccr) : Ccr :=
  { x := f.x, n := v.getLsbD (sz.bits - 1), z := decide (v.toNat % 2 ^ sz.bits = 0), v := false, c := false }

/-! ## When an instruction runs to its end -/

/-- An even address, or no transfer at all: what MOVEM needs (42_data_movement.md R204, R205). -/
def movemReady (sz : Size) (mask : Word) (a : Long) : Bool := mask == 0 || !misaligned a sz

/-- The address MOVEM's transfers start from (R204, R205). -/
def movemBase (ea : Ea) (s : State) : Long :=
  match ea with
  | .preDec n | .postInc n => s.areg n
  | .dn _ | .an _ | .ind _ | .disp _ _ | .index _ _ | .absW _ | .absL _ | .pcDisp _ | .pcIndex _ | .imm _ =>
    operandAddress ea (s.pc + 4) s

/-- The two memory operands of a pair instruction do not fault, the source first (43_integer_arithmetic.md R235, R244). -/
def pairReady (sz : Size) (src dst : Ea) (s : State) : Bool :=
  operandReady src sz (s.pc + 2) s && operandReady dst sz (s.pc + 2) (sideEffect src sz s)

end Sys2Proof.Machine

namespace Sys2Proof

open Sys2Proof.Machine

/-- The instruction runs to its end without raising an exception or trap (60_exceptions.md R410): its accesses are aligned, a privileged
instruction finds S set, a divisor is not 0, a bound holds. TRAP and ILLEGAL never do. -/
def Instr.completes (i : Instr) (s : State) : Bool :=
  match i with
  | .oriToCcr _ | .andiToCcr _ | .eoriToCcr _ => true
  | .oriToSr _ | .andiToSr _ | .eoriToSr _ => s.supervisor
  | .ori sz _ ea | .andi sz _ ea | .subi sz _ ea | .addi sz _ ea | .eori sz _ ea | .cmpi sz _ ea =>
    operandReady ea sz (s.pc + 2 + BitVec.ofNat 32 (immBytes sz)) s
  | .btstImm _ _ | .bchgImm _ _ | .bclrImm _ _ | .bsetImm _ _ | .btstDyn _ _ | .bchgDyn _ _ | .bclrDyn _ _ | .bsetDyn _ _ => true
  | .movep _ _ _ _ _ => true
  | .move sz src dst =>
    operandReady src sz (s.pc + 2) s &&
      operandReady dst sz (s.pc + 2 + BitVec.ofNat 32 (src.extBytes sz)) (sideEffect src sz s)
  | .movea sz _ ea | .adda sz _ ea | .suba sz _ ea | .cmpa sz _ ea => operandReady ea sz.size (s.pc + 2) s
  | .negx sz ea | .clr sz ea | .neg sz ea | .not sz ea | .tst sz ea | .addq sz _ ea | .subq sz _ ea => operandReady ea sz (s.pc + 2) s
  | .moveFromSr ea | .moveToCcr ea | .mulu _ ea | .muls _ ea => operandReady ea .w (s.pc + 2) s
  | .chk n ea =>
    operandReady ea .w (s.pc + 2) s && decide (0 ≤ signedAt .w (s.dreg n)) &&
      decide (signedAt .w (s.dreg n) ≤ signedAt .w (operandValue ea .w (s.pc + 2) s))
  | .lea _ _ | .jmp _ | .nbcd _ | .tas _ | .scc _ _ => true
  | .moveToSr ea => s.supervisor && operandReady ea .w (s.pc + 2) s
  | .swap _ | .extW _ | .extL _ | .moveq _ _ | .nop | .dbcc _ _ _ | .bra _ | .bcc _ _ => true
  | .pea _ | .jsr _ | .bsr _ | .link _ _ => s.spEven
  | .movemToMem sz mask ea | .movemToRegs sz mask ea => movemReady sz.size mask (movemBase ea s)
  | .illegal | .trap _ => false
  | .unlk n => !(s.areg n).getLsbD 0
  | .moveToUsp _ | .moveFromUsp _ | .reset | .stop _ => s.supervisor
  | .rte => s.supervisor && !s.ssp.getLsbD 0
  | .rts | .rtr => s.spEven
  | .trapv => !s.ccr.v
  | .orEaDn sz ea _ | .andEaDn sz ea _ | .addEaDn sz ea _ | .subEaDn sz ea _ | .cmp sz ea _ => operandReady ea sz (s.pc + 2) s
  | .orDnEa sz _ ea | .andDnEa sz _ ea | .addDnEa sz _ ea | .subDnEa sz _ ea | .eor sz _ ea => operandReady ea sz (s.pc + 2) s
  | .divu _ ea | .divs _ ea => operandReady ea .w (s.pc + 2) s && operandValue ea .w (s.pc + 2) s != 0
  | .sbcd _ _ _ | .abcd _ _ _ => true
  | .subx sz form x y | .addx sz form x y => form == .dregs || pairReady sz (.preDec y) (.preDec x) s
  | .cmpm sz x y => pairReady sz (.postInc y) (.postInc x) s
  | .exgDD _ _ | .exgAA _ _ | .exgDA _ _ => true
  | .asrReg _ _ _ | .aslReg _ _ _ | .lsrReg _ _ _ | .lslReg _ _ _ => true
  | .roxrReg _ _ _ | .roxlReg _ _ _ | .rorReg _ _ _ | .rolReg _ _ _ => true
  | .asrMem ea | .aslMem ea | .lsrMem ea | .lslMem ea | .roxrMem ea | .roxlMem ea | .rorMem ea | .rolMem ea =>
    operandReady ea .w (s.pc + 2) s

/-! ## What an instruction may change -/

/-- The operand names data register `n`. -/
def Ea.isDn (ea : Ea) (n : Reg) : Bool := ea == .dn n

/-- The operand's mode increments or decrements address register `n`. -/
def Ea.steps (ea : Ea) (n : Reg) : Bool := ea == .postInc n || ea == .preDec n

/-- Data register `n` is a destination of the instruction. -/
def Instr.dataDest (i : Instr) (n : Reg) : Bool :=
  match i with
  | .oriToCcr _ | .oriToSr _ | .andiToCcr _ | .andiToSr _ | .eoriToCcr _ | .eoriToSr _ => false
  | .ori _ _ ea | .andi _ _ ea | .subi _ _ ea | .addi _ _ ea | .eori _ _ ea => ea.isDn n
  | .cmpi _ _ _ | .btstImm _ _ | .btstDyn _ _ => false
  | .bchgImm _ ea | .bclrImm _ ea | .bsetImm _ ea | .bchgDyn _ ea | .bclrDyn _ ea | .bsetDyn _ ea => ea.isDn n
  | .movep dir _ dx _ _ => dir == .memToReg && dx == n
  | .move _ _ dst => dst.isDn n
  | .movea _ _ _ | .chk _ _ | .lea _ _ | .moveToCcr _ | .moveToSr _ | .pea _ | .movemToMem _ _ _ | .tst _ _ => false
  | .negx _ ea | .clr _ ea | .neg _ ea | .not _ ea | .moveFromSr ea | .nbcd ea | .tas ea | .scc _ ea => ea.isDn n
  | .swap m | .extW m | .extL m | .moveq m _ | .dbcc _ m _ => m == n
  | .illegal | .trap _ | .link _ _ | .unlk _ | .moveToUsp _ | .moveFromUsp _ => false
  | .movemToRegs _ mask _ => mask.getLsbD n.val
  | .reset | .nop | .stop _ | .rte | .rts | .trapv | .rtr | .jsr _ | .jmp _ | .bra _ | .bsr _ | .bcc _ _ => false
  | .addq _ _ ea | .subq _ _ ea => ea.isDn n
  | .orEaDn _ _ m | .subEaDn _ _ m | .andEaDn _ _ m | .addEaDn _ _ m => m == n
  | .orDnEa _ _ ea | .subDnEa _ _ ea | .eor _ _ ea | .andDnEa _ _ ea | .addDnEa _ _ ea => ea.isDn n
  | .divu m _ | .divs m _ | .mulu m _ | .muls m _ => m == n
  | .sbcd form x _ | .abcd form x _ | .subx _ form x _ | .addx _ form x _ => form == .dregs && x == n
  | .suba _ _ _ | .cmp _ _ _ | .cmpa _ _ _ | .cmpm _ _ _ | .exgAA _ _ | .adda _ _ _ => false
  | .exgDD x y => x == n || y == n
  | .exgDA x _ => x == n
  | .asrReg _ _ y | .aslReg _ _ y | .lsrReg _ _ y | .lslReg _ _ y => y == n
  | .roxrReg _ _ y | .roxlReg _ _ y | .rorReg _ _ y | .rolReg _ _ y => y == n
  | .asrMem _ | .aslMem _ | .lsrMem _ | .lslMem _ | .roxrMem _ | .roxlMem _ | .rorMem _ | .rolMem _ => false

/-- Address register `n` is a destination of the instruction, is moved by an addressing mode of it, or is the stack pointer it uses. -/
def Instr.addrDest (i : Instr) (n : Reg) : Bool :=
  match i with
  | .oriToCcr _ | .oriToSr _ | .andiToCcr _ | .andiToSr _ | .eoriToCcr _ | .eoriToSr _ => false
  | .ori _ _ ea | .andi _ _ ea | .subi _ _ ea | .addi _ _ ea | .eori _ _ ea | .cmpi _ _ ea => ea.steps n
  | .btstImm _ ea | .bchgImm _ ea | .bclrImm _ ea | .bsetImm _ ea => ea.steps n
  | .btstDyn _ ea | .bchgDyn _ ea | .bclrDyn _ ea | .bsetDyn _ ea => ea.steps n
  | .movep _ _ _ _ _ => false
  | .move _ src dst => src.steps n || dst.steps n
  | .movea _ m ea | .suba _ m ea | .adda _ m ea => m == n || ea.steps n
  | .negx _ ea | .clr _ ea | .neg _ ea | .not _ ea | .tst _ ea | .moveFromSr ea | .moveToCcr ea | .moveToSr ea => ea.steps n
  | .nbcd ea | .tas ea | .scc _ ea | .chk _ ea => ea.steps n
  | .lea m _ | .moveFromUsp m => m == n
  | .swap _ | .extW _ | .extL _ | .moveq _ _ | .dbcc _ _ _ | .illegal | .trap _ | .moveToUsp _ => false
  | .pea _ | .jsr _ | .bsr _ | .rts | .rtr => n == 7
  | .movemToMem _ _ ea => ea == .preDec n
  | .movemToRegs _ mask ea => mask.getLsbD (8 + n.val) || ea == .postInc n
  | .link m _ | .unlk m => m == n || n == 7
  | .reset | .nop | .stop _ | .rte | .trapv | .jmp _ | .bra _ | .bcc _ _ => false
  | .addq _ _ ea | .subq _ _ ea => ea == .an n || ea.steps n
  | .orEaDn _ ea _ | .subEaDn _ ea _ | .andEaDn _ ea _ | .addEaDn _ ea _ | .cmp _ ea _ => ea.steps n
  | .orDnEa _ _ ea | .subDnEa _ _ ea | .eor _ _ ea | .andDnEa _ _ ea | .addDnEa _ _ ea | .cmpa _ _ ea => ea.steps n
  | .divu _ ea | .divs _ ea | .mulu _ ea | .muls _ ea => ea.steps n
  | .sbcd form x y | .abcd form x y | .subx _ form x y | .addx _ form x y => form == .preDecs && (x == n || y == n)
  | .cmpm _ x y => x == n || y == n
  | .exgDD _ _ => false
  | .exgAA x y => x == n || y == n
  | .exgDA _ y => y == n
  | .asrReg _ _ _ | .aslReg _ _ _ | .lsrReg _ _ _ | .lslReg _ _ _ => false
  | .roxrReg _ _ _ | .roxlReg _ _ _ | .rorReg _ _ _ | .rolReg _ _ _ => false
  | .asrMem ea | .aslMem ea | .lsrMem ea | .lslMem ea | .roxrMem ea | .roxlMem ea | .rorMem ea | .rolMem ea => ea.steps n

/-- The instruction writes all of SR (60_exceptions.md R442). -/
def Instr.writesSr (i : Instr) : Bool :=
  match i with
  | .oriToSr _ | .andiToSr _ | .eoriToSr _ | .moveToSr _ | .stop _ | .rte => true
  | _ => false

/-- The condition codes each instruction may change (41_alu_flags.md R186): a flag that is false here stays as it was. -/
def Instr.flagDest (i : Instr) : Ccr :=
  let all : Ccr := { x := true, n := true, z := true, v := true, c := true }
  let nzvc : Ccr := { x := false, n := true, z := true, v := true, c := true }
  let none : Ccr := { x := false, n := false, z := false, v := false, c := false }
  match i with
  | .oriToCcr _ | .oriToSr _ | .andiToCcr _ | .andiToSr _ | .eoriToCcr _ | .eoriToSr _ => all
  | .moveToCcr _ | .moveToSr _ | .stop _ | .rte | .rtr => all
  | .ori _ _ _ | .andi _ _ _ | .eori _ _ _ | .cmpi _ _ _ => nzvc
  | .subi _ _ _ | .addi _ _ _ | .negx _ _ | .neg _ _ | .nbcd _ => all
  | .btstImm _ _ | .bchgImm _ _ | .bclrImm _ _ | .bsetImm _ _ | .btstDyn _ _ | .bchgDyn _ _ | .bclrDyn _ _ | .bsetDyn _ _ =>
    { none with z := true }
  | .movep _ _ _ _ _ | .movea _ _ _ | .moveFromSr _ | .lea _ _ | .pea _ | .movemToMem _ _ _ | .movemToRegs _ _ _ => none
  | .move _ _ _ | .moveq _ _ | .clr _ _ | .not _ _ | .swap _ | .extW _ | .extL _ | .tst _ _ | .tas _ | .chk _ _ => nzvc
  | .illegal | .trap _ | .link _ _ | .unlk _ | .moveToUsp _ | .moveFromUsp _ | .reset | .nop | .rts | .trapv => none
  | .jsr _ | .jmp _ | .scc _ _ | .dbcc _ _ _ | .bra _ | .bsr _ | .bcc _ _ => none
  | .addq _ _ ea | .subq _ _ ea => if ea.kind = .an then none else all
  | .orEaDn _ _ _ | .orDnEa _ _ _ | .andEaDn _ _ _ | .andDnEa _ _ _ | .eor _ _ _ => nzvc
  | .divu _ _ | .divs _ _ | .mulu _ _ | .muls _ _ | .cmp _ _ _ | .cmpa _ _ _ | .cmpm _ _ _ => nzvc
  | .sbcd _ _ _ | .abcd _ _ _ | .subx _ _ _ _ | .addx _ _ _ _ => all
  | .subEaDn _ _ _ | .subDnEa _ _ _ | .addEaDn _ _ _ | .addDnEa _ _ _ => all
  | .suba _ _ _ | .adda _ _ _ | .exgDD _ _ | .exgAA _ _ | .exgDA _ _ => none
  | .asrReg _ _ _ | .aslReg _ _ _ | .lsrReg _ _ _ | .lslReg _ _ _ | .roxrReg _ _ _ | .roxlReg _ _ _ => all
  | .asrMem _ | .aslMem _ | .lsrMem _ | .lslMem _ | .roxrMem _ | .roxlMem _ => all
  | .rorReg _ _ _ | .rolReg _ _ _ | .rorMem _ | .rolMem _ => nzvc

/-- The instruction assigns PC itself (10_state.md R29). -/
def Instr.assignsPc (i : Instr) : Bool :=
  match i with
  | .bra _ | .bsr _ | .bcc _ _ | .dbcc _ _ _ | .jmp _ | .jsr _ | .rts | .rtr | .rte | .trap _ | .illegal => true
  | _ => false

/-- The memory cells of `n` bytes from an address upward, each address masked (20_memory.md R62). -/
def Machine.cells (a : Long) (n : Nat) : List Nat := (List.range n).map fun k => phys (a + BitVec.ofNat 32 k)

/-- The cells of an operand that is stored to: those of its address and size, none for a register. -/
def Machine.operandCells (ea : Ea) (sz : Size) (ext : Long) (s : State) : List Nat :=
  match eaLoc ea sz ext s with
  | .mem a _ => cells a sz.bytes
  | .dreg _ | .areg _ | .imm _ => []

/-- The number of registers a MOVEM mask lists. -/
def Machine.maskCount (m : Word) : Nat := (maskList m).length

/-- The cells each instruction stores to, computed in the state before it. -/
def Instr.storeCells (i : Instr) (s : State) : List Nat :=
  match i with
  | .oriToCcr _ | .oriToSr _ | .andiToCcr _ | .andiToSr _ | .eoriToCcr _ | .eoriToSr _ => []
  | .ori sz _ ea | .andi sz _ ea | .subi sz _ ea | .addi sz _ ea | .eori sz _ ea =>
    operandCells ea sz (s.pc + 2 + BitVec.ofNat 32 (immBytes sz)) s
  | .cmpi _ _ _ | .btstImm _ _ | .btstDyn _ _ => []
  | .bchgImm _ ea | .bclrImm _ ea | .bsetImm _ ea => operandCells ea .b (s.pc + 4) s
  | .bchgDyn _ ea | .bclrDyn _ ea | .bsetDyn _ ea => operandCells ea .b (s.pc + 2) s
  | .movep dir sz _ ay d =>
    match dir with
    | .memToReg => []
    | .regToMem => (List.range sz.size.bytes).map fun k => phys (s.areg ay + d.signExtend 32 + BitVec.ofNat 32 (2 * k))
  | .move sz src dst => operandCells dst sz (s.pc + 2 + BitVec.ofNat 32 (src.extBytes sz)) (sideEffect src sz s)
  | .negx sz ea | .clr sz ea | .neg sz ea | .not sz ea | .addq sz _ ea | .subq sz _ ea => operandCells ea sz (s.pc + 2) s
  | .moveFromSr ea => operandCells ea .w (s.pc + 2) s
  | .nbcd ea | .tas ea | .scc _ ea => operandCells ea .b (s.pc + 2) s
  | .movea _ _ _ | .chk _ _ | .lea _ _ | .moveToCcr _ | .moveToSr _ | .swap _ | .extW _ | .extL _ | .tst _ _ => []
  | .pea _ | .jsr _ | .bsr _ | .link _ _ => cells (s.sp - 4) 4
  | .movemToMem sz mask ea =>
    match ea with
    | .preDec n => cells (s.areg n - BitVec.ofNat 32 (sz.size.bytes * maskCount mask)) (sz.size.bytes * maskCount mask)
    | .dn _ | .an _ | .ind _ | .postInc _ | .disp _ _ | .index _ _ | .absW _ | .absL _ | .pcDisp _ | .pcIndex _ | .imm _ =>
      cells (operandAddress ea (s.pc + 4) s) (sz.size.bytes * maskCount mask)
  | .illegal | .trap _ | .movemToRegs _ _ _ | .unlk _ | .moveToUsp _ | .moveFromUsp _ | .reset | .nop | .stop _ | .rte => []
  | .rts | .trapv | .rtr | .jmp _ | .dbcc _ _ _ | .bra _ | .bcc _ _ | .moveq _ _ => []
  | .orEaDn _ _ _ | .subEaDn _ _ _ | .andEaDn _ _ _ | .addEaDn _ _ _ => []
  | .orDnEa sz _ ea | .subDnEa sz _ ea | .eor sz _ ea | .andDnEa sz _ ea | .addDnEa sz _ ea => operandCells ea sz (s.pc + 2) s
  | .divu _ _ | .divs _ _ | .mulu _ _ | .muls _ _ | .suba _ _ _ | .adda _ _ _ | .cmp _ _ _ | .cmpa _ _ _ | .cmpm _ _ _ => []
  | .sbcd form x y | .abcd form x y =>
    match form with
    | .dregs => []
    | .preDecs => operandCells (.preDec x) .b (s.pc + 2) (sideEffect (.preDec y) .b s)
  | .subx sz form x y | .addx sz form x y =>
    match form with
    | .dregs => []
    | .preDecs => operandCells (.preDec x) sz (s.pc + 2) (sideEffect (.preDec y) sz s)
  | .exgDD _ _ | .exgAA _ _ | .exgDA _ _ => []
  | .asrReg _ _ _ | .aslReg _ _ _ | .lsrReg _ _ _ | .lslReg _ _ _ => []
  | .roxrReg _ _ _ | .roxlReg _ _ _ | .rorReg _ _ _ | .rolReg _ _ _ => []
  | .asrMem ea | .aslMem ea | .lsrMem ea | .lslMem ea | .roxrMem ea | .roxlMem ea | .rorMem ea | .rolMem ea =>
    operandCells ea .w (s.pc + 2) s

end Sys2Proof
end

