-- ==== Sys2Proof/Certificates/Slice0/Obligations.lean ====
section
/-! DEFINITION. The statements for the provers, from the numbered rules of spec/. The words they use (operands, side effects, exact flags,
when an instruction runs to its end, what it may change) are those of Sys2Proof/Safety.lean. -/

open Sys2Proof Sys2Proof.Machine

/-- For every well-formed instruction of every family, with every operand at every value its encoding admits, and every list of
following words, the decoder reads exactly that instruction from its encoding and leaves the following words. An index word is encoded
with bit 8 clear and a byte immediate with a zero high byte (log entry 14). Rules: R100, R101, R106, R110, R113, R114, R116. -/
def Obligations.DecodeOfEncodeIsTheInstruction : Prop :=
  ∀ (i : Instr) (rest : List Word), i.wellFormed = true → decode (encode i ++ rest) = .ok (i, rest)

/-- Whenever the decoder reads an instruction, the instruction meets the constraints of its row (EA class, size, immediate width), the
opcode word masked by the row mask equals the row match value, encoding it gives the same opcode word, and the words consumed are as
many as its encoding has. Rules: R115, R116, R120, R111, R112, R100. -/
def Obligations.DecodedOpcodeMatchesItsRow : Prop :=
  ∀ (op : Word) (ws rest : List Word) (i : Instr), decode (op :: ws) = .ok (i, rest) →
    i.wellFormed = true ∧ op &&& i.row.1 = i.row.2 ∧ (encode i).head? = some op ∧
      ws.length + 1 = (encode i).length + rest.length

/-- The spec examples MOVE.W #0x8000,D2, MOVEQ #-1,D3, ADDI.B #1,D0, MOVEM.L D0/A7,-(A6), LEA (8,A1),A2, DIVU D1,D0, ABCD D1,D0, ROR.W
#4,D0, BCLR #0,(A0), DBF D0,*-2, STOP #0x2000, TRAP #15 and the opcode 0x02BC, which is illegal. Rules: R116, R201, R203, R204, R207,
R233, R252, R296, R313, R321, R335, R376. -/
def Obligations.DecodeOfSpecWords : Prop :=
  decode [0x343C, 0x8000] = .ok (.move .w (.imm 0x8000) (.dn 2), []) ∧
  decode [0x76FF] = .ok (.moveq 3 0xFF, []) ∧
  decode [0x0600, 0x0001] = .ok (.addi .b 1 (.dn 0), []) ∧
  decode [0x48E6, 0x8001] = .ok (.movemToMem .l 0x8001 (.preDec 6), []) ∧
  decode [0x45E9, 0x0008] = .ok (.lea 2 (.disp 1 8), []) ∧
  decode [0x80C1] = .ok (.divu 0 (.dn 1), []) ∧
  decode [0xC101] = .ok (.abcd .dregs 0 1, []) ∧
  decode [0xE858] = .ok (.rorReg .w (.field 4) 0, []) ∧
  decode [0x0890, 0x0000] = .ok (.bclrImm 0 (.ind 0), []) ∧
  decode [0x51C8, 0xFFFC] = .ok (.dbcc .f 0 0xFFFC, []) ∧
  decode [0x4E72, 0x2000] = .ok (.stop 0x2000, []) ∧
  decode [0x4E4F] = .ok (.trap 15, []) ∧
  decode [0x02BC, 0x0000, 0x0000] = .error (.illegalOpcode 0x02BC)

/-- When no reset is pending, the core is neither halted nor stopped, no request is acceptable, PC is even and the words at PC are
those of a well-formed instruction, a step is exec of that instruction in that state; nothing is added around exec (PC is moved by
exec itself). The words are fetched before exec runs (log entry 7). Rules: R401, R100, R63, R71. -/
def Obligations.StepRunsTheDecodedInstruction : Prop :=
  ∀ (s : State) (i : Instr), s.resetPending = false → s.halted = false → s.stopped = false →
    bestRequest s.irqMask s.irqQueue = none → s.pc.getLsbD 0 = false → i.wellFormed = true →
    (∀ k, (h : k < (encode i).length) →
      s.mem.byteAt s.pc (2 * k) ++ s.mem.byteAt s.pc (2 * k + 1) = (encode i)[k]) →
    step s = exec i s

/-- A step performs ProcessReset when a reset is pending, in any state; else a halted core does not change; else an acceptable request
is accepted; else a stopped core does not change. Rules: R401, R447, R451, R420. -/
def Obligations.StepPriority : Prop :=
  ∀ (s : State),
    (s.resetPending = true → step s = .next (processReset s)) ∧
    (s.resetPending = false → s.halted = true → step s = .next s) ∧
    (∀ r, s.resetPending = false → s.halted = false → bestRequest s.irqMask s.irqQueue = some r →
      step s = .next (acceptInterrupt r s)) ∧
    (s.resetPending = false → s.halted = false → bestRequest s.irqMask s.irqQueue = none → s.stopped = true → step s = .next s)

/-- ProcessReset sets SR to 0x2700, SSP to the long at address 0, PC to the long at address 4, clears reset_pending, stopped and
halted, and leaves data and address registers, USP, memory and the interrupt queue as they were (the last by the spec decision D12).
The model reset state has SR 0x2700, SSP and PC equal to the longs at addresses 0 and 4 of its memory, the three flags clear and no
request pending, and ProcessReset leaves it as it is. The zero in the other registers and in unlisted memory is the model choice (log
entries 1 and 2) and no part of this statement. Rules: R450, R42, R43. -/
def Obligations.ProcessResetReloadsSspPcAndSr : Prop :=
  (∀ (s : State),
    (processReset s).sr = 0x2700 ∧
    (processReset s).ssp = s.mem.read 0 ++ s.mem.read 1 ++ s.mem.read 2 ++ s.mem.read 3 ∧
    (processReset s).pc = s.mem.read 4 ++ s.mem.read 5 ++ s.mem.read 6 ++ s.mem.read 7 ∧
    (processReset s).resetPending = false ∧ (processReset s).stopped = false ∧ (processReset s).halted = false ∧
    (processReset s).d = s.d ∧ (processReset s).a = s.a ∧ (processReset s).usp = s.usp ∧ (processReset s).mem = s.mem ∧
    (processReset s).irqQueue = s.irqQueue) ∧
  (State.reset.sr = 0x2700 ∧ State.reset.ssp = State.reset.mem.load 0 .l ∧ State.reset.pc = State.reset.mem.load 4 .l ∧
  State.reset.resetPending = false ∧ State.reset.stopped = false ∧ State.reset.halted = false ∧ State.reset.irqQueue = [] ∧
  processReset State.reset = State.reset)

/-- The reset state has canonical memory, SR inside the implemented bits, and legal request levels. Rules: R32, R40, R42, R60. -/
def Obligations.ResetMeetsTheInvariant : Prop :=
  State.reset.inv = true

/-- From every state that meets the invariant, whether reached or not, every step answers a next state that meets it: memory lists
rising addresses below 2^24 and no blank byte, SR bits 14, 12, 11 and 7 to 5 read 0, and pending requests have levels 1 to 7. Rules:
R32, R33, R40, R60, R405, R432. -/
def Obligations.StepKeepsTheInvariant : Prop :=
  ∀ (s : State), s.inv = true → ∃ t, step s = .next t ∧ t.inv = true

/-- Every instruction term in every state, and every step, answers a next state. Of this the rules say that no fault terminates the
model and that no opcode is unimplemented; that exec of a term no encoding has also answers a next state is the model choice (log
entry 12), and that the parameters are never written is the model choice (log entry 4). Rules: R403, R122. -/
def Obligations.EveryStepAnswersANextState : Prop :=
  (∀ (i : Instr) (s : State), ∃ t, exec i s = .next t ∧ t.params = s.params) ∧
  (∀ (s : State), ∃ t, step s = .next t ∧ t.params = s.params)

/-- In a canonical memory, loading a byte, word or long from the address it was just stored at gives the low 8, 16 or 32 bits of the
value, at every address including the last bytes of the space. Rules: R62, R63, R65. -/
def Obligations.LoadAfterStoreReturnsTheValue : Prop :=
  ∀ (m : Memory) (a : Long) (sz : Size) (v : Long), m.wf = true → (m.store a sz v).load a sz = trunc sz v

/-- A byte read always succeeds; a word or long read at an odd address raises AddressError; otherwise the bytes at the masked
addresses, the lowest most significant, are read; the state does not change in either case. Rules: R64. -/
def Obligations.MemReadChecksAlignmentAndReadsBigEndian : Prop :=
  ∀ (a : Long) (s : State),
    memRead a .b s = .ok ((s.mem.read (a.toNat % 2 ^ 24)).setWidth 32) s ∧
    (a.getLsbD 0 = true → memRead a .w s = .raise .addressError s ∧ memRead a .l s = .raise .addressError s) ∧
    (a.getLsbD 0 = false →
      memRead a .w s = .ok ((s.mem.read (a.toNat % 2 ^ 24) ++ s.mem.read ((a.toNat + 1) % 2 ^ 24)).setWidth 32) s ∧
      memRead a .l s = .ok (s.mem.read (a.toNat % 2 ^ 24) ++ s.mem.read ((a.toNat + 1) % 2 ^ 24) ++
        s.mem.read ((a.toNat + 2) % 2 ^ 24) ++ s.mem.read ((a.toNat + 3) % 2 ^ 24)) s)

/-- A word or long write at an odd address raises AddressError and the state is unchanged; otherwise only memory changes, the byte at
masked address a + i holds bits 8(n-i)-1 to 8(n-i-1) of the value, higher bits of the value are discarded, and every other byte is
unchanged. Rules: R65. -/
def Obligations.MemWriteChecksAlignmentAndWritesBigEndian : Prop :=
  ∀ (a : Long) (sz : Size) (v : Long) (s : State), s.mem.wf = true →
    (sz ≠ .b → a.getLsbD 0 = true → memWrite a sz v s = .raise .addressError s) ∧
    ((sz = .b ∨ a.getLsbD 0 = false) →
      ∃ m : Memory, memWrite a sz v s = .ok () { s with mem := m } ∧
        (∀ i, i < sz.bytes → m.read ((a.toNat + i) % 2 ^ 24) = v.extractLsb' (8 * (sz.bytes - 1 - i)) 8) ∧
        (∀ k, k ∉ Machine.cells a sz.bytes → m.read k = s.mem.read k))

/-- Reading a data register at a size gives its low 8, 16 or 32 bits; writing it at a size replaces exactly those bits of that
register, the others of that register and every other register keep their values. Rules: R22. -/
def Obligations.DataRegisterMergeWrite : Prop :=
  ∀ (s : State) (n : Reg) (sz : Size) (v : Long),
    (s.readD n sz).toNat = (s.dreg n).toNat % 2 ^ sz.bits ∧
    (∀ k, k < 32 → ((s.writeD n sz v).dreg n).getLsbD k = if k < sz.bits then v.getLsbD k else (s.dreg n).getLsbD k) ∧
    (∀ m, m ≠ n → (s.writeD n sz v).dreg m = s.dreg m)

/-- Register number 7 of the address file reads and writes SSP when S is 1 and USP when S is 0; the inactive stack pointer, the other
address registers and everything else are unchanged by the write. Rules: R23, R24. -/
def Obligations.A7IsTheStackPointerOfTheMode : Prop :=
  ∀ (s : State) (v : Long),
    (s.sr.getLsbD 13 = true → s.areg 7 = s.ssp ∧ s.setAreg 7 v = { s with ssp := v }) ∧
    (s.sr.getLsbD 13 = false → s.areg 7 = s.usp ∧ s.setAreg 7 v = { s with usp := v }) ∧
    (∀ n : Reg, n ≠ 7 → (s.setAreg 7 v).areg n = s.areg n ∧ (s.setAreg n v).areg n = v ∧ (s.setAreg n v).areg 7 = s.areg 7)

/-- A write of SR stores the value with bits 14, 12, 11 and 7:5 cleared and a write of CCR stores bits 4:0 of the value below the
unchanged upper byte; nothing else changes. The mask 0xA71F is the spec decision D1. Rules: R32, R33. -/
def Obligations.SrAndCcrPortsMaskTheirBits : Prop :=
  ∀ (s : State) (v : Word) (c : Byte),
    (∃ w, s.writeSr v = { s with sr := w } ∧
      ∀ k, k < 16 → w.getLsbD k = (v.getLsbD k && decide (k = 15 ∨ k = 13 ∨ k = 10 ∨ k = 9 ∨ k = 8 ∨ k < 5))) ∧
    (∃ w, s.writeCcr c = { s with sr := w } ∧
      ∀ k, k < 16 → w.getLsbD k = if k < 8 then c.getLsbD k && decide (k < 5) else s.sr.getLsbD k)

/-- For every size, operands of that size and carry in, the addition gives the sum modulo 2^bits, C and X set exactly when the sum
exceeds the unsigned range, V exactly when the signed sum is outside the signed range, N and Z by the result. Rules: R171, R172, R173,
R175, R178, R181. -/
def Obligations.AdditionFlagsAreExact : Prop :=
  ∀ (sz : Size) (src dst : Long) (xin : Bool) (f : Ccr), sz.fits src = true → sz.fits dst = true →
    (addOp src dst xin sz .plain f).1.toNat = (src.toNat + dst.toNat + xin.toNat) % 2 ^ sz.bits ∧
    (addOp src dst xin sz .plain f).2 = sumFlags sz src dst xin

/-- For every size, operands of that size and borrow in, the subtraction gives dst - src - xin modulo 2^bits, C and X set exactly when
the unsigned difference is negative, V exactly when the signed difference is outside the signed range, N and Z by the result; a
compare leaves X. For all 32-bit pairs a, b and every size, subtracting b from the sum of a and b gives a at that size. Rules: R171,
R172, R174, R176, R177, R181. -/
def Obligations.SubtractionFlagsAreExact : Prop :=
  (∀ (sz : Size) (src dst : Long) (xin : Bool) (f : Ccr), sz.fits src = true → sz.fits dst = true →
    ((subOp src dst xin sz .plain f).1.toNat : Int) = ((dst.toNat : Int) - src.toNat - xin.toNat) % 2 ^ sz.bits ∧
    (subOp src dst xin sz .plain f).2 = differenceFlags sz src dst xin ∧
    cmpFlags src dst xin sz .plain f = { differenceFlags sz src dst xin with x := f.x }) ∧
  (∀ (a b : Long) (sz : Size), subResult b (addResult b a false sz) false sz = trunc sz a)

/-- For every size, operand of the size and count of at least 1, the iterated shift gives the closed form: left shifts the product by
2^cnt modulo 2^w with C = X bit w - cnt (0 above w), LSR the quotient with C = X bit cnt - 1 (0 above w), ASR the floor quotient of
the signed value with C = X bit cnt - 1 or the sign above w; V is 0 except for ASL, where it is 1 exactly when the signed product is
outside the signed range. With a count of 0 every shift and rotate leaves the operand and X, sets N and Z from the operand, clears V,
and clears C, except ROXL and ROXR, which set C to X. Rules: R290, R291, R292, R293, R294. -/
def Obligations.ShiftClosedForms : Prop :=
  (∀ (sz : Size) (v : Long) (cnt : Nat) (f : Ccr), sz.fits v = true → 1 ≤ cnt →
    let left := v.toNat * 2 ^ cnt % 2 ^ sz.bits
    let leftOut := decide (cnt ≤ sz.bits) && v.getLsbD (sz.bits - cnt)
    let right := v.toNat / 2 ^ cnt
    let rightOut := decide (cnt ≤ sz.bits) && v.getLsbD (cnt - 1)
    let arith := signedAt sz v / 2 ^ cnt
    let arithOut := if cnt ≤ sz.bits then v.getLsbD (cnt - 1) else v.getLsbD (sz.bits - 1)
    ((shiftOp lslStep false false sz cnt v f).1.toNat = left ∧
      (shiftOp lslStep false false sz cnt v f).2 =
        { x := leftOut, n := decide (2 ^ (sz.bits - 1) ≤ left), z := decide (left = 0), v := false, c := leftOut }) ∧
    ((shiftOp aslStep false true sz cnt v f).1.toNat = left ∧
      (shiftOp aslStep false true sz cnt v f).2 =
        { x := leftOut, n := decide (2 ^ (sz.bits - 1) ≤ left), z := decide (left = 0),
          v := !inRange sz (signedAt sz v * 2 ^ cnt), c := leftOut }) ∧
    ((shiftOp lsrStep false false sz cnt v f).1.toNat = right ∧
      (shiftOp lsrStep false false sz cnt v f).2 =
        { x := rightOut, n := false, z := decide (right = 0), v := false, c := rightOut }) ∧
    (((shiftOp asrStep false false sz cnt v f).1.toNat : Int) = arith % 2 ^ sz.bits ∧
      (shiftOp asrStep false false sz cnt v f).2 =
        { x := arithOut, n := v.getLsbD (sz.bits - 1), z := decide (arith = 0), v := false, c := arithOut })) ∧
  (∀ (sz : Size) (v : Long) (f : Ccr) (st : Size → ShiftState → ShiftState) (c0 keepV : Bool), sz.fits v = true →
    shiftOp st c0 keepV sz 0 v f =
      (v, { x := f.x, n := v.getLsbD (sz.bits - 1), z := decide (v = 0), v := false, c := c0 }))

/-- For every size, operand of the size and count of at least 1, bit k of the result of ROL is bit k - cnt of the operand modulo the
width, C is bit 0 of the result; bit k of the result of ROR is bit k + cnt, C is the top bit of the result; X is unchanged and V is 0.
Rules: R290, R295, R296. -/
def Obligations.RotateClosedForms : Prop :=
  ∀ (sz : Size) (v : Long) (cnt k : Nat) (f : Ccr), sz.fits v = true → 1 ≤ cnt → k < sz.bits →
    let l := shiftOp rolStep false false sz cnt v f
    let r := shiftOp rorStep false false sz cnt v f
    l.1.getLsbD k = v.getLsbD ((k + sz.bits - cnt % sz.bits) % sz.bits) ∧ l.2.c = l.1.getLsbD 0 ∧
    r.1.getLsbD k = v.getLsbD ((k + cnt) % sz.bits) ∧ r.2.c = r.1.getLsbD (sz.bits - 1) ∧
    l.2.x = f.x ∧ r.2.x = f.x ∧ l.2.v = false ∧ r.2.v = false ∧ l.2.z = decide (v = 0) ∧ r.2.z = decide (v = 0) ∧
    l.2.n = l.1.getLsbD (sz.bits - 1) ∧ r.2.n = r.1.getLsbD (sz.bits - 1)

/-- Of the w + 1 bits X ++ operand, with bit w being X, bit k after ROXL by a count is bit k - count before, and after ROXR bit k +
count, the places taken modulo w + 1; bits of the result above w are 0; C equals the X left, also for a count of 0; N and Z follow the
result and V is 0. ROXR by the count of the result of ROXL by the count, with the X it left, gives back the operand and X. Rules:
R297, R298, R290. -/
def Obligations.ExtendRotateRoundTrip : Prop :=
  ∀ (sz : Size) (v : Long) (cnt : Nat) (f : Ccr), sz.fits v = true →
    let ring := fun (x : Bool) (u : Long) (k : Nat) => if k = sz.bits then x else u.getLsbD k
    let l := shiftOp roxlStep f.x false sz cnt v f
    let r := shiftOp roxrStep f.x false sz cnt v f
    (∀ k, k ≤ sz.bits →
      ring l.2.x l.1 k = ring f.x v ((k + (sz.bits + 1) - cnt % (sz.bits + 1)) % (sz.bits + 1)) ∧
      ring r.2.x r.1 k = ring f.x v ((k + cnt) % (sz.bits + 1))) ∧
    (∀ k, sz.bits ≤ k → l.1.getLsbD k = false ∧ r.1.getLsbD k = false) ∧
    l.2 = { x := l.2.x, n := l.1.getLsbD (sz.bits - 1), z := decide (l.1 = 0), v := false, c := l.2.x } ∧
    r.2 = { x := r.2.x, n := r.1.getLsbD (sz.bits - 1), z := decide (r.1 = 0), v := false, c := r.2.x } ∧
    (shiftOp roxrStep l.2.x false sz cnt l.1 l.2).1 = v ∧ (shiftOp roxrStep l.2.x false sz cnt l.1 l.2).2.x = f.x

/-- For operands whose nibbles are 0 to 9, decimal addition gives the two-digit sum of both and X modulo 100 with C = X the decimal
carry, and subtraction the difference modulo 100 with C = X the decimal borrow; Z is sticky. Rules: R320. -/
def Obligations.DecimalArithmeticOfValidDigits : Prop :=
  ∀ (p q u w : Nat) (f : Ccr), p < 10 → q < 10 → u < 10 → w < 10 →
    let src := BitVec.ofNat 8 (16 * p + q)
    let dst := BitVec.ofNat 8 (16 * u + w)
    let sum := 10 * p + q + (10 * u + w) + f.x.toNat
    let dif := 100 + (10 * u + w) - (10 * p + q) - f.x.toNat
    (bcdAdd src dst f).1 = BitVec.ofNat 8 (16 * (sum % 100 / 10) + sum % 10) ∧
    (bcdAdd src dst f).2.c = decide (100 ≤ sum) ∧ (bcdAdd src dst f).2.x = decide (100 ≤ sum) ∧
    (bcdAdd src dst f).2.z = (f.z && decide (sum % 100 = 0)) ∧
    (bcdSub src dst f).1 = BitVec.ofNat 8 (16 * (dif % 100 / 10) + dif % 10) ∧
    (bcdSub src dst f).2.c = decide (dif < 100) ∧ (bcdSub src dst f).2.x = decide (dif < 100) ∧
    (bcdSub src dst f).2.z = (f.z && decide (dif % 100 = 0))

/-- For a non-zero divisor the unsigned and the signed division give a quotient and a remainder with dividend = quotient * divisor +
remainder, remainder smaller than the divisor in magnitude and, signed, zero or of the sign of the dividend; they give nothing exactly
when no 16-bit quotient does so. Rules: R184, R252, R253. -/
def Obligations.DivisionSatisfiesTheDivisionLaw : Prop :=
  ∀ (a : Long) (d : Word), d ≠ 0 →
    (∀ q r, divuResult a d = some (q, r) → a.toNat = q.toNat * d.toNat + r.toNat ∧ r.toNat < d.toNat) ∧
    (divuResult a d = none ↔ 65536 * d.toNat ≤ a.toNat) ∧
    (∀ q r, divsResult a d = some (q, r) →
      a.toInt = q.toInt * d.toInt + r.toInt ∧ |r.toInt| < |d.toInt| ∧ (r.toInt = 0 ∨ (r.toInt < 0 ↔ a.toInt < 0))) ∧
    (divsResult a d = none ↔ a.toInt.tdiv d.toInt < -32768 ∨ 32767 < a.toInt.tdiv d.toInt)

/-- T always and F never holds; HI, LS, CC, CS, NE, EQ, VC, VS, PL, MI, GE, LT, GT and LE are their tests of C, Z, V and N. With the
flags of the comparison dst - src of two values of a size, EQ holds exactly when they are equal, CS and HI say the unsigned order, LT,
GE, GT and LE the signed order; the conditions with opposite names are complements. Rules: R330, R174, R177. -/
def Obligations.ConditionsFollowTheSignedAndUnsignedOrder : Prop :=
  (∀ (f : Ccr),
    condHolds .t f = true ∧ condHolds .f f = false ∧
    condHolds .hi f = (!f.c && !f.z) ∧ condHolds .ls f = (f.c || f.z) ∧ condHolds .cc f = !f.c ∧ condHolds .cs f = f.c ∧
    condHolds .ne f = !f.z ∧ condHolds .eq f = f.z ∧ condHolds .vc f = !f.v ∧ condHolds .vs f = f.v ∧
    condHolds .pl f = !f.n ∧ condHolds .mi f = f.n ∧ condHolds .ge f = (f.n == f.v) ∧ condHolds .lt f = (f.n != f.v) ∧
    condHolds .gt f = (!f.z && f.n == f.v) ∧ condHolds .le f = (f.z || f.n != f.v)) ∧
  (∀ (sz : Size) (src dst : Long) (f : Ccr), sz.fits src = true → sz.fits dst = true →
    let g := cmpFlags src dst false sz .plain f
    condHolds .eq g = decide (dst = src) ∧ condHolds .ne g = !decide (dst = src) ∧
    condHolds .cs g = decide (dst.toNat < src.toNat) ∧ condHolds .cc g = !decide (dst.toNat < src.toNat) ∧
    condHolds .hi g = decide (src.toNat < dst.toNat) ∧ condHolds .ls g = !decide (src.toNat < dst.toNat) ∧
    condHolds .lt g = decide (signedAt sz dst < signedAt sz src) ∧ condHolds .ge g = !decide (signedAt sz dst < signedAt sz src) ∧
    condHolds .gt g = decide (signedAt sz src < signedAt sz dst) ∧ condHolds .le g = !decide (signedAt sz src < signedAt sz dst))

/-- The step is 1 for a byte, 2 for a byte on A7 whichever stack pointer is active, 2 for a word and 4 for a long: (An)+ names the
address An and then adds the step to An, -(An) subtracts it from An and names the address so made. For every address register, SP
included, and every size, the address of -(An) resolved after the side effect of (An)+ is the address of (An)+, and the two side
effects leave the state as it was. Rules: R160, R145, R146, R147. -/
def Obligations.PostincrementThenPredecrementIsSymmetric : Prop :=
  ∀ (s : State) (n : Reg) (sz : Size) (ext : Long),
    let step : Long := match sz with
      | .b => if n = 7 then 2 else 1
      | .w => 2
      | .l => 4
    eaLoc (.postInc n) sz ext s = .mem (s.areg n) (some (n, step)) ∧ sideEffect (.postInc n) sz s = s.setAreg n (s.areg n + step) ∧
    eaLoc (.preDec n) sz ext s = .mem (s.areg n - step) none ∧ sideEffect (.preDec n) sz s = s.setAreg n (s.areg n - step) ∧
    eaLoc (.preDec n) sz ext (sideEffect (.postInc n) sz s) = .mem (s.areg n) none ∧
    sideEffect (.preDec n) sz (sideEffect (.postInc n) sz s) = s

/-- The address LEA, PEA, JMP and JSR take from each control mode: An, An plus displacement, An plus displacement plus index, the
sign-extended short or the long absolute address, and the two PC-relative forms based on the address of their extension word; the
index is the register or its sign-extended low word, times 2^scale when INDEX_SCALE_ENABLED is true. Rules: R144, R148, R149, R150,
R151, R152. -/
def Obligations.EffectiveAddressOfEachMode : Prop :=
  ∀ (s : State) (n : Reg) (d w : Word) (l ext : Long) (x : IndexWord),
    let reg := if x.isAddr then s.areg x.reg else s.dreg x.reg
    let val := if x.isLong then reg else (reg.setWidth 16).signExtend 32
    let idx := if s.params.indexScale then val * BitVec.ofNat 32 (2 ^ x.scale.toNat) else val
    operandAddress (.ind n) ext s = s.areg n ∧
    operandAddress (.disp n d) ext s = s.areg n + d.signExtend 32 ∧
    operandAddress (.index n x) ext s = s.areg n + x.disp.signExtend 32 + idx ∧
    operandAddress (.absW w) ext s = w.signExtend 32 ∧
    operandAddress (.absL l) ext s = l ∧
    operandAddress (.pcDisp d) ext s = ext + d.signExtend 32 ∧
    operandAddress (.pcIndex x) ext s = ext + x.disp.signExtend 32 + idx

/-- For every well-formed MOVE whose two accesses are aligned, exec answers the state in which the source side effect was made first,
the destination, resolved after it, holds the source value at the operand size, N and Z follow the value, V and C are 0, X is
unchanged, and PC has moved past the instruction. For every MOVEA whose source access is aligned, exec answers the state with the
source side effect made and then the whole address register replaced by the source, a word sign-extended; no flag and no memory byte
changes. Rules: R201, R202, R159, R147, R146, R179, R182. -/
def Obligations.MoveAndMoveaResults : Prop :=
  (∀ (sz : Size) (src dst : Ea) (s : State),
      (Instr.move sz src dst).wellFormed = true →
      s.traced = false →
      operandReady src sz (s.pc + 2) s = true →
      operandReady dst sz (s.pc + 2 + BitVec.ofNat 32 (src.extBytes sz)) (sideEffect src sz s) = true →
      exec (.move sz src dst) s =
        .next (past (.move sz src dst) (replaced dst sz (s.pc + 2 + BitVec.ofNat 32 (src.extBytes sz)) (operandValue src sz (s.pc + 2) s)
          (valueFlags sz (operandValue src sz (s.pc + 2) s) s.ccr) (sideEffect src sz s)))) ∧
  (∀ (sz : WordLong) (n : Reg) (src : Ea) (s : State),
      (Instr.movea sz n src).wellFormed = true →
      s.traced = false →
      operandReady src sz.size (s.pc + 2) s = true →
      exec (.movea sz n src) s =
        .next (past (.movea sz n src) ((sideEffect src sz.size s).setAreg n (sext sz.size (operandValue src sz.size (s.pc + 2) s)))))

/-- MOVEQ is one word with bits 15:12 = 7, bit 8 = 0, the register in bits 11:9 and the data in bits 7:0; it writes the sign-extended
data to all 32 bits of the register, sets N and Z from the 32-bit value, clears V and C, leaves X, and raises nothing. Rules: R203. -/
def Obligations.MoveqLoadsTheSignExtendedByte : Prop :=
  (∀ (n : Reg) (data : Byte) (s : State), s.traced = false →
      exec (.moveq n data) s = .next (past (.moveq n data) ((s.setDreg n (data.signExtend 32)).setCcr (valueFlags .l (data.signExtend 32) s.ccr)))) ∧
  (∀ (n : Reg) (data : Byte), encode (.moveq n data) = [0x7000#16 ||| (BitVec.ofNat 16 n.val <<< 9) ||| data.setWidth 16])

/-- For every well-formed ADD, SUB, AND, OR with a data register destination whose operand access is aligned, exec answers the state
in which the operand side effect was made and the low bits of Dn hold the exact sum, difference Dn - operand, conjunction or
disjunction at the operand size, the flags those of the exact result, the rest of Dn and everything else unchanged. Rules: R231, R236,
R271, R273, R230, R22. -/
def Obligations.OperandToDataRegisterResults : Prop :=
  (∀ (sz : Size) (ea : Ea) (n : Reg) (s : State),
      (Instr.addEaDn sz ea n).wellFormed = true →
      s.traced = false →
      operandReady ea sz (s.pc + 2) s = true →
      exec (.addEaDn sz ea n) s =
        .next (past (.addEaDn sz ea n) (((sideEffect ea sz s).setCcr (sumFlags sz (operandValue ea sz (s.pc + 2) s) (s.readD n sz) false)).writeD n sz ((s.readD n sz) + (operandValue ea sz (s.pc + 2) s))))) ∧
  (∀ (sz : Size) (ea : Ea) (n : Reg) (s : State),
      (Instr.subEaDn sz ea n).wellFormed = true →
      s.traced = false →
      operandReady ea sz (s.pc + 2) s = true →
      exec (.subEaDn sz ea n) s =
        .next (past (.subEaDn sz ea n) (((sideEffect ea sz s).setCcr (differenceFlags sz (operandValue ea sz (s.pc + 2) s) (s.readD n sz) false)).writeD n sz ((s.readD n sz) - (operandValue ea sz (s.pc + 2) s))))) ∧
  (∀ (sz : Size) (ea : Ea) (n : Reg) (s : State),
      (Instr.andEaDn sz ea n).wellFormed = true →
      s.traced = false →
      operandReady ea sz (s.pc + 2) s = true →
      exec (.andEaDn sz ea n) s =
        .next (past (.andEaDn sz ea n) (((sideEffect ea sz s).setCcr (valueFlags sz ((s.readD n sz) &&& (operandValue ea sz (s.pc + 2) s)) s.ccr)).writeD n sz ((s.readD n sz) &&& (operandValue ea sz (s.pc + 2) s))))) ∧
  (∀ (sz : Size) (ea : Ea) (n : Reg) (s : State),
      (Instr.orEaDn sz ea n).wellFormed = true →
      s.traced = false →
      operandReady ea sz (s.pc + 2) s = true →
      exec (.orEaDn sz ea n) s =
        .next (past (.orEaDn sz ea n) (((sideEffect ea sz s).setCcr (valueFlags sz ((s.readD n sz) ||| (operandValue ea sz (s.pc + 2) s)) s.ccr)).writeD n sz ((s.readD n sz) ||| (operandValue ea sz (s.pc + 2) s)))))

/-- For every well-formed ADD, SUB, AND, OR, EOR with an operand destination whose access is aligned, exec answers the state in which
the operand side effect was made once and the operand holds the exact result at the operand size, the flags those of the exact result.
For every well-formed ADDI, SUBI, ANDI, ORI, EORI whose operand access is aligned, the operand is resolved after the immediate words,
its side effect is made once, it holds the exact result at the operand size, and the flags are those of the exact result. Rules: R231,
R236, R271, R273, R275, R233, R238, R272, R274, R276, R158. -/
def Obligations.OperandDestinationResults : Prop :=
  (∀ (sz : Size) (n : Reg) (ea : Ea) (s : State),
      (Instr.addDnEa sz n ea).wellFormed = true →
      s.traced = false →
      operandReady ea sz (s.pc + 2) s = true →
      exec (.addDnEa sz n ea) s =
        .next (past (.addDnEa sz n ea) (replaced ea sz (s.pc + 2) ((operandValue ea sz (s.pc + 2) s) + (s.readD n sz)) (sumFlags sz (s.readD n sz) (operandValue ea sz (s.pc + 2) s) false) s))) ∧
  (∀ (sz : Size) (n : Reg) (ea : Ea) (s : State),
      (Instr.subDnEa sz n ea).wellFormed = true →
      s.traced = false →
      operandReady ea sz (s.pc + 2) s = true →
      exec (.subDnEa sz n ea) s =
        .next (past (.subDnEa sz n ea) (replaced ea sz (s.pc + 2) ((operandValue ea sz (s.pc + 2) s) - (s.readD n sz)) (differenceFlags sz (s.readD n sz) (operandValue ea sz (s.pc + 2) s) false) s))) ∧
  (∀ (sz : Size) (n : Reg) (ea : Ea) (s : State),
      (Instr.andDnEa sz n ea).wellFormed = true →
      s.traced = false →
      operandReady ea sz (s.pc + 2) s = true →
      exec (.andDnEa sz n ea) s =
        .next (past (.andDnEa sz n ea) (replaced ea sz (s.pc + 2) ((operandValue ea sz (s.pc + 2) s) &&& (s.readD n sz)) (valueFlags sz ((operandValue ea sz (s.pc + 2) s) &&& (s.readD n sz)) s.ccr) s))) ∧
  (∀ (sz : Size) (n : Reg) (ea : Ea) (s : State),
      (Instr.orDnEa sz n ea).wellFormed = true →
      s.traced = false →
      operandReady ea sz (s.pc + 2) s = true →
      exec (.orDnEa sz n ea) s =
        .next (past (.orDnEa sz n ea) (replaced ea sz (s.pc + 2) ((operandValue ea sz (s.pc + 2) s) ||| (s.readD n sz)) (valueFlags sz ((operandValue ea sz (s.pc + 2) s) ||| (s.readD n sz)) s.ccr) s))) ∧
  (∀ (sz : Size) (n : Reg) (ea : Ea) (s : State),
      (Instr.eor sz n ea).wellFormed = true →
      s.traced = false →
      operandReady ea sz (s.pc + 2) s = true →
      exec (.eor sz n ea) s =
        .next (past (.eor sz n ea) (replaced ea sz (s.pc + 2) ((operandValue ea sz (s.pc + 2) s) ^^^ (s.readD n sz)) (valueFlags sz ((operandValue ea sz (s.pc + 2) s) ^^^ (s.readD n sz)) s.ccr) s))) ∧
  (∀ (sz : Size) (imm : Long) (ea : Ea) (s : State),
      (Instr.addi sz imm ea).wellFormed = true →
      s.traced = false →
      operandReady ea sz (s.pc + 2 + BitVec.ofNat 32 (immBytes sz)) s = true →
      exec (.addi sz imm ea) s =
        .next (past (.addi sz imm ea) (replaced ea sz (s.pc + 2 + BitVec.ofNat 32 (immBytes sz)) ((operandValue ea sz (s.pc + 2 + BitVec.ofNat 32 (immBytes sz)) s) + imm) (sumFlags sz imm (operandValue ea sz (s.pc + 2 + BitVec.ofNat 32 (immBytes sz)) s) false) s))) ∧
  (∀ (sz : Size) (imm : Long) (ea : Ea) (s : State),
      (Instr.subi sz imm ea).wellFormed = true →
      s.traced = false →
      operandReady ea sz (s.pc + 2 + BitVec.ofNat 32 (immBytes sz)) s = true →
      exec (.subi sz imm ea) s =
        .next (past (.subi sz imm ea) (replaced ea sz (s.pc + 2 + BitVec.ofNat 32 (immBytes sz)) ((operandValue ea sz (s.pc + 2 + BitVec.ofNat 32 (immBytes sz)) s) - imm) (differenceFlags sz imm (operandValue ea sz (s.pc + 2 + BitVec.ofNat 32 (immBytes sz)) s) false) s))) ∧
  (∀ (sz : Size) (imm : Long) (ea : Ea) (s : State),
      (Instr.andi sz imm ea).wellFormed = true →
      s.traced = false →
      operandReady ea sz (s.pc + 2 + BitVec.ofNat 32 (immBytes sz)) s = true →
      exec (.andi sz imm ea) s =
        .next (past (.andi sz imm ea) (replaced ea sz (s.pc + 2 + BitVec.ofNat 32 (immBytes sz)) ((operandValue ea sz (s.pc + 2 + BitVec.ofNat 32 (immBytes sz)) s) &&& imm) (valueFlags sz ((operandValue ea sz (s.pc + 2 + BitVec.ofNat 32 (immBytes sz)) s) &&& imm) s.ccr) s))) ∧
  (∀ (sz : Size) (imm : Long) (ea : Ea) (s : State),
      (Instr.ori sz imm ea).wellFormed = true →
      s.traced = false →
      operandReady ea sz (s.pc + 2 + BitVec.ofNat 32 (immBytes sz)) s = true →
      exec (.ori sz imm ea) s =
        .next (past (.ori sz imm ea) (replaced ea sz (s.pc + 2 + BitVec.ofNat 32 (immBytes sz)) ((operandValue ea sz (s.pc + 2 + BitVec.ofNat 32 (immBytes sz)) s) ||| imm) (valueFlags sz ((operandValue ea sz (s.pc + 2 + BitVec.ofNat 32 (immBytes sz)) s) ||| imm) s.ccr) s))) ∧
  (∀ (sz : Size) (imm : Long) (ea : Ea) (s : State),
      (Instr.eori sz imm ea).wellFormed = true →
      s.traced = false →
      operandReady ea sz (s.pc + 2 + BitVec.ofNat 32 (immBytes sz)) s = true →
      exec (.eori sz imm ea) s =
        .next (past (.eori sz imm ea) (replaced ea sz (s.pc + 2 + BitVec.ofNat 32 (immBytes sz)) ((operandValue ea sz (s.pc + 2 + BitVec.ofNat 32 (immBytes sz)) s) ^^^ imm) (valueFlags sz ((operandValue ea sz (s.pc + 2 + BitVec.ofNat 32 (immBytes sz)) s) ^^^ imm) s.ccr) s)))

/-- For every well-formed compare or TST whose accesses are aligned, exec answers the state with the side effects of its operands and
the flags of the exact difference (of the operand itself for TST), X unchanged, no register, memory byte or result written; CMPA
compares 32 bits, a word sign-extended; CMPM reads and increments the source first. Rules: R241, R242, R243, R244, R249, R178. -/
def Obligations.CompareResults : Prop :=
  (∀ (sz : Size) (ea : Ea) (n : Reg) (s : State),
      (Instr.cmp sz ea n).wellFormed = true →
      s.traced = false →
      operandReady ea sz (s.pc + 2) s = true →
      exec (.cmp sz ea n) s =
        .next (past (.cmp sz ea n) ((sideEffect ea sz s).setCcr { differenceFlags sz (operandValue ea sz (s.pc + 2) s) (s.readD n sz) false with x := s.ccr.x }))) ∧
  (∀ (sz : Size) (imm : Long) (ea : Ea) (s : State),
      (Instr.cmpi sz imm ea).wellFormed = true →
      s.traced = false →
      operandReady ea sz (s.pc + 2 + BitVec.ofNat 32 (immBytes sz)) s = true →
      exec (.cmpi sz imm ea) s =
        .next (past (.cmpi sz imm ea) ((sideEffect ea sz s).setCcr { differenceFlags sz imm (operandValue ea sz (s.pc + 2 + BitVec.ofNat 32 (immBytes sz)) s) false with x := s.ccr.x }))) ∧
  (∀ (sz : WordLong) (n : Reg) (ea : Ea) (s : State),
      (Instr.cmpa sz n ea).wellFormed = true →
      s.traced = false →
      operandReady ea sz.size (s.pc + 2) s = true →
      exec (.cmpa sz n ea) s =
        .next (past (.cmpa sz n ea) ((sideEffect ea sz.size s).setCcr
          { differenceFlags .l (sext sz.size (operandValue ea sz.size (s.pc + 2) s)) ((sideEffect ea sz.size s).areg n) false with x := s.ccr.x }))) ∧
  (∀ (sz : Size) (x y : Reg) (s : State), s.traced = false → pairReady sz (.postInc y) (.postInc x) s = true →
      exec (.cmpm sz x y) s = .next (past (.cmpm sz x y) ((sideEffect (.postInc x) sz (sideEffect (.postInc y) sz s)).setCcr
          { differenceFlags sz (operandValue (.postInc y) sz (s.pc + 2) s)
              (operandValue (.postInc x) sz (s.pc + 2) (sideEffect (.postInc y) sz s)) false with x := s.ccr.x }))) ∧
  (∀ (sz : Size) (ea : Ea) (s : State),
      (Instr.tst sz ea).wellFormed = true →
      s.traced = false →
      operandReady ea sz (s.pc + 2) s = true →
      exec (.tst sz ea) s =
        .next (past (.tst sz ea) ((sideEffect ea sz s).setCcr (valueFlags sz (operandValue ea sz (s.pc + 2) s) s.ccr))))

/-- For every ADDA and SUBA whose operand access is aligned, the operand side effect is made and then the whole address register is
increased or decreased by the operand, a word sign-extended; no flag changes. ADDQ and SUBQ add or subtract the field 1 to 7, or 8 for
a field of 0; an address register is changed as a whole and no flag changes; any other operand whose access is aligned is replaced
through one resolution with the exact flags. Rules: R232, R237, R234, R239, R182. -/
def Obligations.AddressAndQuickArithmeticResults : Prop :=
  (∀ (sz : WordLong) (n : Reg) (ea : Ea) (s : State),
      (Instr.adda sz n ea).wellFormed = true →
      s.traced = false →
      operandReady ea sz.size (s.pc + 2) s = true →
      exec (.adda sz n ea) s =
        .next (past (.adda sz n ea) ((sideEffect ea sz.size s).setAreg n ((sideEffect ea sz.size s).areg n + sext sz.size (operandValue ea sz.size (s.pc + 2) s))))) ∧
  (∀ (sz : WordLong) (n : Reg) (ea : Ea) (s : State),
      (Instr.suba sz n ea).wellFormed = true →
      s.traced = false →
      operandReady ea sz.size (s.pc + 2) s = true →
      exec (.suba sz n ea) s =
        .next (past (.suba sz n ea) ((sideEffect ea sz.size s).setAreg n ((sideEffect ea sz.size s).areg n - sext sz.size (operandValue ea sz.size (s.pc + 2) s))))) ∧
  (∀ (sz : Size) (q : BitVec 3) (n : Reg) (s : State), (Instr.addq sz q (.an n)).wellFormed = true → s.traced = false →
      exec (.addq sz q (.an n)) s = .next (past (.addq sz q (.an n)) (s.setAreg n (s.areg n + (if q = 0 then 8 else q.setWidth 32))))) ∧
  (∀ (sz : Size) (q : BitVec 3) (ea : Ea) (s : State),
      (Instr.addq sz q ea).wellFormed = true →
      s.traced = false →
      ea.kind ≠ .an →
      operandReady ea sz (s.pc + 2) s = true →
      exec (.addq sz q ea) s =
        .next (past (.addq sz q ea) (replaced ea sz (s.pc + 2) ((operandValue ea sz (s.pc + 2) s) + (if q = 0 then 8 else q.setWidth 32)) (sumFlags sz (if q = 0 then 8 else q.setWidth 32) (operandValue ea sz (s.pc + 2) s) false) s))) ∧
  (∀ (sz : Size) (q : BitVec 3) (n : Reg) (s : State), (Instr.subq sz q (.an n)).wellFormed = true → s.traced = false →
      exec (.subq sz q (.an n)) s = .next (past (.subq sz q (.an n)) (s.setAreg n (s.areg n - (if q = 0 then 8 else q.setWidth 32))))) ∧
  (∀ (sz : Size) (q : BitVec 3) (ea : Ea) (s : State),
      (Instr.subq sz q ea).wellFormed = true →
      s.traced = false →
      ea.kind ≠ .an →
      operandReady ea sz (s.pc + 2) s = true →
      exec (.subq sz q ea) s =
        .next (past (.subq sz q ea) (replaced ea sz (s.pc + 2) ((operandValue ea sz (s.pc + 2) s) - (if q = 0 then 8 else q.setWidth 32)) (differenceFlags sz (if q = 0 then 8 else q.setWidth 32) (operandValue ea sz (s.pc + 2) s) false) s)))

/-- ADDX and SUBX write the exact sum or difference with the old X as carry or borrow in; X and C are the carry, Z is cleared by a
non-zero result and else kept; the memory form decrements and reads the source first, then the destination, through one resolution
each. ABCD, SBCD and NBCD replace the low byte of the destination register, or the byte in memory, by the result of the decimal
addition, or subtraction destination - source - X, and take its flags; the memory form decrements and reads the source first; byte
accesses never fault. Rules: R235, R240, R172, R321, R322, R323, R158. -/
def Obligations.ExtendedAndDecimalResults : Prop :=
  (∀ (sz : Size) (x y : Reg) (s : State), s.traced = false →
      exec (.addx sz .dregs x y) s = .next (past (.addx sz .dregs x y)
          ((s.setCcr { sumFlags sz (s.readD y sz) (s.readD x sz) s.ccr.x with z := s.ccr.z && (sumFlags sz (s.readD y sz) (s.readD x sz) s.ccr.x).z }).writeD x sz ((s.readD x sz) + (s.readD y sz) + bitOf s.ccr.x)))) ∧
  (∀ (sz : Size) (x y : Reg) (s : State), s.traced = false → pairReady sz (.preDec y) (.preDec x) s = true →
      exec (.addx sz .preDecs x y) s = .next (past (.addx sz .preDecs x y) (replaced (.preDec x) sz (s.pc + 2)
          ((operandValue (.preDec x) sz (s.pc + 2) (sideEffect (.preDec y) sz s)) + (operandValue (.preDec y) sz (s.pc + 2) s) + bitOf s.ccr.x)
          { sumFlags sz (operandValue (.preDec y) sz (s.pc + 2) s) (operandValue (.preDec x) sz (s.pc + 2) (sideEffect (.preDec y) sz s)) s.ccr.x with z := s.ccr.z && (sumFlags sz (operandValue (.preDec y) sz (s.pc + 2) s) (operandValue (.preDec x) sz (s.pc + 2) (sideEffect (.preDec y) sz s)) s.ccr.x).z }
          (sideEffect (.preDec y) sz s)))) ∧
  (∀ (sz : Size) (x y : Reg) (s : State), s.traced = false →
      exec (.subx sz .dregs x y) s = .next (past (.subx sz .dregs x y)
          ((s.setCcr { differenceFlags sz (s.readD y sz) (s.readD x sz) s.ccr.x with z := s.ccr.z && (differenceFlags sz (s.readD y sz) (s.readD x sz) s.ccr.x).z }).writeD x sz ((s.readD x sz) - (s.readD y sz) - bitOf s.ccr.x)))) ∧
  (∀ (sz : Size) (x y : Reg) (s : State), s.traced = false → pairReady sz (.preDec y) (.preDec x) s = true →
      exec (.subx sz .preDecs x y) s = .next (past (.subx sz .preDecs x y) (replaced (.preDec x) sz (s.pc + 2)
          ((operandValue (.preDec x) sz (s.pc + 2) (sideEffect (.preDec y) sz s)) - (operandValue (.preDec y) sz (s.pc + 2) s) - bitOf s.ccr.x)
          { differenceFlags sz (operandValue (.preDec y) sz (s.pc + 2) s) (operandValue (.preDec x) sz (s.pc + 2) (sideEffect (.preDec y) sz s)) s.ccr.x with z := s.ccr.z && (differenceFlags sz (operandValue (.preDec y) sz (s.pc + 2) s) (operandValue (.preDec x) sz (s.pc + 2) (sideEffect (.preDec y) sz s)) s.ccr.x).z }
          (sideEffect (.preDec y) sz s)))) ∧
  (∀ (x y : Reg) (s : State), s.traced = false →
      exec (.abcd .dregs x y) s = .next (past (.abcd .dregs x y) ((s.setCcr (bcdAdd ((s.dreg y).extractLsb' 0 8) ((s.dreg x).extractLsb' 0 8) s.ccr).2).writeD x .b ((bcdAdd ((s.dreg y).extractLsb' 0 8) ((s.dreg x).extractLsb' 0 8) s.ccr).1.setWidth 32)))) ∧
  (∀ (x y : Reg) (s : State), s.traced = false →
      exec (.abcd .preDecs x y) s = .next (past (.abcd .preDecs x y) (replaced (.preDec x) .b (s.pc + 2)
          ((bcdAdd ((operandValue (.preDec y) .b (s.pc + 2) s).extractLsb' 0 8)
            ((operandValue (.preDec x) .b (s.pc + 2) (sideEffect (.preDec y) .b s)).extractLsb' 0 8) s.ccr).1.setWidth 32)
          (bcdAdd ((operandValue (.preDec y) .b (s.pc + 2) s).extractLsb' 0 8)
            ((operandValue (.preDec x) .b (s.pc + 2) (sideEffect (.preDec y) .b s)).extractLsb' 0 8) s.ccr).2
          (sideEffect (.preDec y) .b s)))) ∧
  (∀ (x y : Reg) (s : State), s.traced = false →
      exec (.sbcd .dregs x y) s = .next (past (.sbcd .dregs x y) ((s.setCcr (bcdSub ((s.dreg y).extractLsb' 0 8) ((s.dreg x).extractLsb' 0 8) s.ccr).2).writeD x .b ((bcdSub ((s.dreg y).extractLsb' 0 8) ((s.dreg x).extractLsb' 0 8) s.ccr).1.setWidth 32)))) ∧
  (∀ (x y : Reg) (s : State), s.traced = false →
      exec (.sbcd .preDecs x y) s = .next (past (.sbcd .preDecs x y) (replaced (.preDec x) .b (s.pc + 2)
          ((bcdSub ((operandValue (.preDec y) .b (s.pc + 2) s).extractLsb' 0 8)
            ((operandValue (.preDec x) .b (s.pc + 2) (sideEffect (.preDec y) .b s)).extractLsb' 0 8) s.ccr).1.setWidth 32)
          (bcdSub ((operandValue (.preDec y) .b (s.pc + 2) s).extractLsb' 0 8)
            ((operandValue (.preDec x) .b (s.pc + 2) (sideEffect (.preDec y) .b s)).extractLsb' 0 8) s.ccr).2
          (sideEffect (.preDec y) .b s)))) ∧
  (∀ (ea : Ea) (s : State), (Instr.nbcd ea).wellFormed = true → s.traced = false →
      exec (.nbcd ea) s = .next (past (.nbcd ea) (replaced ea .b (s.pc + 2) ((bcdSub ((operandValue ea .b (s.pc + 2) s).extractLsb' 0 8) 0 s.ccr).1.setWidth 32) (bcdSub ((operandValue ea .b (s.pc + 2) s).extractLsb' 0 8) 0 s.ccr).2 s)))

/-- For every well-formed NEG, NEGX, NOT, CLR, TAS and Scc whose access is aligned, the operand side effect is made once and the
operand holds 0 - e, 0 - e - X, the complement, 0, e with bit 7 set, or 0xFF or 0 by the condition; the flags are those of the exact
result (Z sticky for NEGX, those of the operand before the write for TAS, none for Scc). Rules: R245, R246, R277, R247, R385, R336,
R158. -/
def Obligations.OneOperandResults : Prop :=
  (∀ (sz : Size) (ea : Ea) (s : State),
      (Instr.neg sz ea).wellFormed = true →
      s.traced = false →
      operandReady ea sz (s.pc + 2) s = true →
      exec (.neg sz ea) s =
        .next (past (.neg sz ea) (replaced ea sz (s.pc + 2) (0 - (operandValue ea sz (s.pc + 2) s)) (differenceFlags sz (operandValue ea sz (s.pc + 2) s) 0 false) s))) ∧
  (∀ (sz : Size) (ea : Ea) (s : State),
      (Instr.negx sz ea).wellFormed = true →
      s.traced = false →
      operandReady ea sz (s.pc + 2) s = true →
      exec (.negx sz ea) s =
        .next (past (.negx sz ea) (replaced ea sz (s.pc + 2) (0 - (operandValue ea sz (s.pc + 2) s) - bitOf s.ccr.x) 
          { differenceFlags sz (operandValue ea sz (s.pc + 2) s) 0 s.ccr.x with z := s.ccr.z && (differenceFlags sz (operandValue ea sz (s.pc + 2) s) 0 s.ccr.x).z } s))) ∧
  (∀ (sz : Size) (ea : Ea) (s : State),
      (Instr.not sz ea).wellFormed = true →
      s.traced = false →
      operandReady ea sz (s.pc + 2) s = true →
      exec (.not sz ea) s =
        .next (past (.not sz ea) (replaced ea sz (s.pc + 2) (~~~(operandValue ea sz (s.pc + 2) s)) (valueFlags sz (~~~(operandValue ea sz (s.pc + 2) s)) s.ccr) s))) ∧
  (∀ (sz : Size) (ea : Ea) (s : State),
      (Instr.clr sz ea).wellFormed = true →
      s.traced = false →
      operandReady ea sz (s.pc + 2) s = true →
      exec (.clr sz ea) s =
        .next (past (.clr sz ea) (replaced ea sz (s.pc + 2) 0 { x := s.ccr.x, n := false, z := true, v := false, c := false } s))) ∧
  (∀ (ea : Ea) (s : State), (Instr.tas ea).wellFormed = true → s.traced = false →
      exec (.tas ea) s = .next (past (.tas ea) (replaced ea .b (s.pc + 2) (operandValue ea .b (s.pc + 2) s ||| 0x80) (valueFlags .b (operandValue ea .b (s.pc + 2) s) s.ccr) s))) ∧
  (∀ (cond : Cond) (ea : Ea) (s : State), (Instr.scc cond ea).wellFormed = true → s.traced = false →
      exec (.scc cond ea) s = .next (past (.scc cond ea) (storeAt (eaLoc ea .b (s.pc + 2) s) .b (if condHolds cond s.ccr then 0xFF else 0) (sideEffect ea .b s))))

/-- EXT.W and EXT.L sign-extend the low byte or word of Dn, SWAP rotates Dn by 16 bits, each with N and Z by the result, V and C 0, X
kept; EXG exchanges all 32 bits of the two registers and changes no flag; nothing else changes. Rules: R248, R299, R209. -/
def Obligations.RegisterOnlyResults : Prop :=
  (∀ (n : Reg) (s : State), s.traced = false →
      exec (.extW n) s = .next (past (.extW n) ((s.writeD n .w (sext .b (s.dreg n))).setCcr (valueFlags .w (sext .b (s.dreg n)) s.ccr)))) ∧
  (∀ (n : Reg) (s : State), s.traced = false →
      exec (.extL n) s = .next (past (.extL n) ((s.setDreg n (sext .w (s.dreg n))).setCcr (valueFlags .l (sext .w (s.dreg n)) s.ccr)))) ∧
  (∀ (n : Reg) (s : State), s.traced = false →
      exec (.swap n) s = .next (past (.swap n) ((s.setDreg n ((s.dreg n).rotateLeft 16)).setCcr (valueFlags .l ((s.dreg n).rotateLeft 16) s.ccr)))) ∧
  (∀ (x y : Reg) (s : State), s.traced = false →
      exec (.exgDD x y) s = .next (past (.exgDD x y) ((s.setDreg y (s.dreg x)).setDreg x (s.dreg y)))) ∧
  (∀ (x y : Reg) (s : State), s.traced = false →
      exec (.exgAA x y) s = .next (past (.exgAA x y) ((s.setAreg y (s.areg x)).setAreg x (s.areg y)))) ∧
  (∀ (x y : Reg) (s : State), s.traced = false →
      exec (.exgDA x y) s = .next (past (.exgDA x y) ((s.setAreg y (s.dreg x)).setDreg x (s.areg y))))

/-- For every well-formed MULU and MULS whose operand access is aligned, Dn is replaced by the product of the operand word and its own
low word, unsigned or signed, as a mathematical integer; N and Z follow the product, V and C are 0, X is kept, the operand side effect
is made. For every well-formed DIVU and DIVS whose operand access is aligned and whose divisor is not 0: when the quotient fits 16
bits Dn holds the remainder in its high word and the quotient, truncated toward zero, in its low word, N and Z follow the quotient, V
and C are 0; when it does not fit Dn is unchanged, V is 1, C is 0 and N and Z are the free value DIV_OVF_NZ (log entry 5); X is kept.
Rules: R250, R251, R183, R252, R253, R184. -/
def Obligations.MultiplyAndDivideResults : Prop :=
  (∀ (n : Reg) (ea : Ea) (s : State),
      (Instr.mulu n ea).wellFormed = true →
      s.traced = false →
      operandReady ea .w (s.pc + 2) s = true →
      exec (.mulu n ea) s =
        .next (past (.mulu n ea) (((sideEffect ea .w s).setCcr
          (valueFlags .l (BitVec.ofNat 32 ((operandValue ea .w (s.pc + 2) s).toNat * ((s.dreg n).toNat % 65536))) s.ccr)).setDreg n (BitVec.ofNat 32 ((operandValue ea .w (s.pc + 2) s).toNat * ((s.dreg n).toNat % 65536)))))) ∧
  (∀ (n : Reg) (ea : Ea) (s : State),
      (Instr.muls n ea).wellFormed = true →
      s.traced = false →
      operandReady ea .w (s.pc + 2) s = true →
      exec (.muls n ea) s =
        .next (past (.muls n ea) (((sideEffect ea .w s).setCcr
          (valueFlags .l (BitVec.ofInt 32 (signedAt .w (operandValue ea .w (s.pc + 2) s) * signedAt .w (s.dreg n))) s.ccr)).setDreg n
          (BitVec.ofInt 32 (signedAt .w (operandValue ea .w (s.pc + 2) s) * signedAt .w (s.dreg n)))))) ∧
  (∀ (n : Reg) (ea : Ea) (s : State),
      (Instr.divu n ea).wellFormed = true →
      s.traced = false →
      operandReady ea .w (s.pc + 2) s = true →
      (operandValue ea .w (s.pc + 2) s) ≠ 0 →
      ((s.dreg n).toNat / (operandValue ea .w (s.pc + 2) s).toNat) ≤ 0xFFFF →
      exec (.divu n ea) s =
        .next (past (.divu n ea) (((sideEffect ea .w s).setCcr (valueFlags .w (BitVec.ofNat 32 ((s.dreg n).toNat / (operandValue ea .w (s.pc + 2) s).toNat)) s.ccr)).setDreg n
          (BitVec.ofNat 16 ((s.dreg n).toNat % (operandValue ea .w (s.pc + 2) s).toNat) ++ BitVec.ofNat 16 ((s.dreg n).toNat / (operandValue ea .w (s.pc + 2) s).toNat))))) ∧
  (∀ (n : Reg) (ea : Ea) (s : State),
      (Instr.divu n ea).wellFormed = true →
      s.traced = false →
      operandReady ea .w (s.pc + 2) s = true →
      (operandValue ea .w (s.pc + 2) s) ≠ 0 →
      0xFFFF < ((s.dreg n).toNat / (operandValue ea .w (s.pc + 2) s).toNat) →
      exec (.divu n ea) s =
        .next (past (.divu n ea) ((sideEffect ea .w s).setCcr
          { x := s.ccr.x, n := (Config.divOvfNZ false (s.dreg n) (lowWord (operandValue ea .w (s.pc + 2) s))).1,
            z := (Config.divOvfNZ false (s.dreg n) (lowWord (operandValue ea .w (s.pc + 2) s))).2, v := true, c := false }))) ∧
  (∀ (n : Reg) (ea : Ea) (s : State),
      (Instr.divs n ea).wellFormed = true →
      s.traced = false →
      operandReady ea .w (s.pc + 2) s = true →
      (operandValue ea .w (s.pc + 2) s) ≠ 0 →
      -32768 ≤ ((s.dreg n).toInt.tdiv (signedAt .w (operandValue ea .w (s.pc + 2) s))) →
      ((s.dreg n).toInt.tdiv (signedAt .w (operandValue ea .w (s.pc + 2) s))) ≤ 32767 →
      exec (.divs n ea) s =
        .next (past (.divs n ea) (((sideEffect ea .w s).setCcr (valueFlags .w (BitVec.ofInt 32 ((s.dreg n).toInt.tdiv (signedAt .w (operandValue ea .w (s.pc + 2) s)))) s.ccr)).setDreg n
          (BitVec.ofInt 16 ((s.dreg n).toInt.tmod (signedAt .w (operandValue ea .w (s.pc + 2) s))) ++ BitVec.ofInt 16 ((s.dreg n).toInt.tdiv (signedAt .w (operandValue ea .w (s.pc + 2) s))))))) ∧
  (∀ (n : Reg) (ea : Ea) (s : State),
      (Instr.divs n ea).wellFormed = true →
      s.traced = false →
      operandReady ea .w (s.pc + 2) s = true →
      (operandValue ea .w (s.pc + 2) s) ≠ 0 →
      ((s.dreg n).toInt.tdiv (signedAt .w (operandValue ea .w (s.pc + 2) s))) < -32768 ∨ 32767 < ((s.dreg n).toInt.tdiv (signedAt .w (operandValue ea .w (s.pc + 2) s))) →
      exec (.divs n ea) s =
        .next (past (.divs n ea) ((sideEffect ea .w s).setCcr
          { x := s.ccr.x, n := (Config.divOvfNZ true (s.dreg n) (lowWord (operandValue ea .w (s.pc + 2) s))).1,
            z := (Config.divOvfNZ true (s.dreg n) (lowWord (operandValue ea .w (s.pc + 2) s))).2, v := true, c := false })))

/-- ASL, ASR, LSL, LSR, ROL, ROR, ROXL, ROXR of a data register iterate their step by the count field (0 meaning 8) or by the count
register modulo 64, write the low bits of the register at the size and the flags of the iteration; a count of 0 gives C = X for ROXL
and ROXR, else C = 0; nothing else changes. For every well-formed memory shift whose word access is aligned, the operand side effect
is made once and the word is replaced by one step of the shift, X and C as the step gives them, N and Z by the result, V the sign
change for ASL and 0 for the others. Rules: R290, R22, R158. -/
def Obligations.ShiftResults : Prop :=
  (∀ (sz : Size) (q : BitVec 3) (y : Reg) (s : State), s.traced = false →
      exec (.aslReg sz (.field q) y) s = .next (past (.aslReg sz (.field q) y) ((s.setCcr (shiftOp aslStep false true sz (if q = 0 then 8 else q.toNat) (s.readD y sz) s.ccr).2).writeD y sz (shiftOp aslStep false true sz (if q = 0 then 8 else q.toNat) (s.readD y sz) s.ccr).1))) ∧
  (∀ (sz : Size) (m y : Reg) (s : State), s.traced = false →
      exec (.aslReg sz (.reg m) y) s = .next (past (.aslReg sz (.reg m) y) ((s.setCcr (shiftOp aslStep false true sz ((s.dreg m).toNat % 64) (s.readD y sz) s.ccr).2).writeD y sz (shiftOp aslStep false true sz ((s.dreg m).toNat % 64) (s.readD y sz) s.ccr).1))) ∧
  (∀ (sz : Size) (q : BitVec 3) (y : Reg) (s : State), s.traced = false →
      exec (.asrReg sz (.field q) y) s = .next (past (.asrReg sz (.field q) y) ((s.setCcr (shiftOp asrStep false false sz (if q = 0 then 8 else q.toNat) (s.readD y sz) s.ccr).2).writeD y sz (shiftOp asrStep false false sz (if q = 0 then 8 else q.toNat) (s.readD y sz) s.ccr).1))) ∧
  (∀ (sz : Size) (m y : Reg) (s : State), s.traced = false →
      exec (.asrReg sz (.reg m) y) s = .next (past (.asrReg sz (.reg m) y) ((s.setCcr (shiftOp asrStep false false sz ((s.dreg m).toNat % 64) (s.readD y sz) s.ccr).2).writeD y sz (shiftOp asrStep false false sz ((s.dreg m).toNat % 64) (s.readD y sz) s.ccr).1))) ∧
  (∀ (sz : Size) (q : BitVec 3) (y : Reg) (s : State), s.traced = false →
      exec (.lslReg sz (.field q) y) s = .next (past (.lslReg sz (.field q) y) ((s.setCcr (shiftOp lslStep false false sz (if q = 0 then 8 else q.toNat) (s.readD y sz) s.ccr).2).writeD y sz (shiftOp lslStep false false sz (if q = 0 then 8 else q.toNat) (s.readD y sz) s.ccr).1))) ∧
  (∀ (sz : Size) (m y : Reg) (s : State), s.traced = false →
      exec (.lslReg sz (.reg m) y) s = .next (past (.lslReg sz (.reg m) y) ((s.setCcr (shiftOp lslStep false false sz ((s.dreg m).toNat % 64) (s.readD y sz) s.ccr).2).writeD y sz (shiftOp lslStep false false sz ((s.dreg m).toNat % 64) (s.readD y sz) s.ccr).1))) ∧
  (∀ (sz : Size) (q : BitVec 3) (y : Reg) (s : State), s.traced = false →
      exec (.lsrReg sz (.field q) y) s = .next (past (.lsrReg sz (.field q) y) ((s.setCcr (shiftOp lsrStep false false sz (if q = 0 then 8 else q.toNat) (s.readD y sz) s.ccr).2).writeD y sz (shiftOp lsrStep false false sz (if q = 0 then 8 else q.toNat) (s.readD y sz) s.ccr).1))) ∧
  (∀ (sz : Size) (m y : Reg) (s : State), s.traced = false →
      exec (.lsrReg sz (.reg m) y) s = .next (past (.lsrReg sz (.reg m) y) ((s.setCcr (shiftOp lsrStep false false sz ((s.dreg m).toNat % 64) (s.readD y sz) s.ccr).2).writeD y sz (shiftOp lsrStep false false sz ((s.dreg m).toNat % 64) (s.readD y sz) s.ccr).1))) ∧
  (∀ (sz : Size) (q : BitVec 3) (y : Reg) (s : State), s.traced = false →
      exec (.rolReg sz (.field q) y) s = .next (past (.rolReg sz (.field q) y) ((s.setCcr (shiftOp rolStep false false sz (if q = 0 then 8 else q.toNat) (s.readD y sz) s.ccr).2).writeD y sz (shiftOp rolStep false false sz (if q = 0 then 8 else q.toNat) (s.readD y sz) s.ccr).1))) ∧
  (∀ (sz : Size) (m y : Reg) (s : State), s.traced = false →
      exec (.rolReg sz (.reg m) y) s = .next (past (.rolReg sz (.reg m) y) ((s.setCcr (shiftOp rolStep false false sz ((s.dreg m).toNat % 64) (s.readD y sz) s.ccr).2).writeD y sz (shiftOp rolStep false false sz ((s.dreg m).toNat % 64) (s.readD y sz) s.ccr).1))) ∧
  (∀ (sz : Size) (q : BitVec 3) (y : Reg) (s : State), s.traced = false →
      exec (.rorReg sz (.field q) y) s = .next (past (.rorReg sz (.field q) y) ((s.setCcr (shiftOp rorStep false false sz (if q = 0 then 8 else q.toNat) (s.readD y sz) s.ccr).2).writeD y sz (shiftOp rorStep false false sz (if q = 0 then 8 else q.toNat) (s.readD y sz) s.ccr).1))) ∧
  (∀ (sz : Size) (m y : Reg) (s : State), s.traced = false →
      exec (.rorReg sz (.reg m) y) s = .next (past (.rorReg sz (.reg m) y) ((s.setCcr (shiftOp rorStep false false sz ((s.dreg m).toNat % 64) (s.readD y sz) s.ccr).2).writeD y sz (shiftOp rorStep false false sz ((s.dreg m).toNat % 64) (s.readD y sz) s.ccr).1))) ∧
  (∀ (sz : Size) (q : BitVec 3) (y : Reg) (s : State), s.traced = false →
      exec (.roxlReg sz (.field q) y) s = .next (past (.roxlReg sz (.field q) y) ((s.setCcr (shiftOp roxlStep s.ccr.x false sz (if q = 0 then 8 else q.toNat) (s.readD y sz) s.ccr).2).writeD y sz (shiftOp roxlStep s.ccr.x false sz (if q = 0 then 8 else q.toNat) (s.readD y sz) s.ccr).1))) ∧
  (∀ (sz : Size) (m y : Reg) (s : State), s.traced = false →
      exec (.roxlReg sz (.reg m) y) s = .next (past (.roxlReg sz (.reg m) y) ((s.setCcr (shiftOp roxlStep s.ccr.x false sz ((s.dreg m).toNat % 64) (s.readD y sz) s.ccr).2).writeD y sz (shiftOp roxlStep s.ccr.x false sz ((s.dreg m).toNat % 64) (s.readD y sz) s.ccr).1))) ∧
  (∀ (sz : Size) (q : BitVec 3) (y : Reg) (s : State), s.traced = false →
      exec (.roxrReg sz (.field q) y) s = .next (past (.roxrReg sz (.field q) y) ((s.setCcr (shiftOp roxrStep s.ccr.x false sz (if q = 0 then 8 else q.toNat) (s.readD y sz) s.ccr).2).writeD y sz (shiftOp roxrStep s.ccr.x false sz (if q = 0 then 8 else q.toNat) (s.readD y sz) s.ccr).1))) ∧
  (∀ (sz : Size) (m y : Reg) (s : State), s.traced = false →
      exec (.roxrReg sz (.reg m) y) s = .next (past (.roxrReg sz (.reg m) y) ((s.setCcr (shiftOp roxrStep s.ccr.x false sz ((s.dreg m).toNat % 64) (s.readD y sz) s.ccr).2).writeD y sz (shiftOp roxrStep s.ccr.x false sz ((s.dreg m).toNat % 64) (s.readD y sz) s.ccr).1))) ∧
  (∀ (ea : Ea) (s : State),
      (Instr.aslMem ea).wellFormed = true →
      s.traced = false →
      operandReady ea .w (s.pc + 2) s = true →
      exec (.aslMem ea) s =
        .next (past (.aslMem ea) (replaced ea .w (s.pc + 2) (aslStep .w { v := (operandValue ea .w (s.pc + 2) s), x := s.ccr.x, c := false, vf := false }).v
          { x := (aslStep .w { v := (operandValue ea .w (s.pc + 2) s), x := s.ccr.x, c := false, vf := false }).x,
            n := (aslStep .w { v := (operandValue ea .w (s.pc + 2) s), x := s.ccr.x, c := false, vf := false }).v.getLsbD 15,
            z := decide ((aslStep .w { v := (operandValue ea .w (s.pc + 2) s), x := s.ccr.x, c := false, vf := false }).v = 0),
            v := (aslStep .w { v := (operandValue ea .w (s.pc + 2) s), x := s.ccr.x, c := false, vf := false }).vf,
            c := (aslStep .w { v := (operandValue ea .w (s.pc + 2) s), x := s.ccr.x, c := false, vf := false }).c } s))) ∧
  (∀ (ea : Ea) (s : State),
      (Instr.asrMem ea).wellFormed = true →
      s.traced = false →
      operandReady ea .w (s.pc + 2) s = true →
      exec (.asrMem ea) s =
        .next (past (.asrMem ea) (replaced ea .w (s.pc + 2) (asrStep .w { v := (operandValue ea .w (s.pc + 2) s), x := s.ccr.x, c := false, vf := false }).v
          { x := (asrStep .w { v := (operandValue ea .w (s.pc + 2) s), x := s.ccr.x, c := false, vf := false }).x,
            n := (asrStep .w { v := (operandValue ea .w (s.pc + 2) s), x := s.ccr.x, c := false, vf := false }).v.getLsbD 15,
            z := decide ((asrStep .w { v := (operandValue ea .w (s.pc + 2) s), x := s.ccr.x, c := false, vf := false }).v = 0),
            v := false,
            c := (asrStep .w { v := (operandValue ea .w (s.pc + 2) s), x := s.ccr.x, c := false, vf := false }).c } s))) ∧
  (∀ (ea : Ea) (s : State),
      (Instr.lslMem ea).wellFormed = true →
      s.traced = false →
      operandReady ea .w (s.pc + 2) s = true →
      exec (.lslMem ea) s =
        .next (past (.lslMem ea) (replaced ea .w (s.pc + 2) (lslStep .w { v := (operandValue ea .w (s.pc + 2) s), x := s.ccr.x, c := false, vf := false }).v
          { x := (lslStep .w { v := (operandValue ea .w (s.pc + 2) s), x := s.ccr.x, c := false, vf := false }).x,
            n := (lslStep .w { v := (operandValue ea .w (s.pc + 2) s), x := s.ccr.x, c := false, vf := false }).v.getLsbD 15,
            z := decide ((lslStep .w { v := (operandValue ea .w (s.pc + 2) s), x := s.ccr.x, c := false, vf := false }).v = 0),
            v := false,
            c := (lslStep .w { v := (operandValue ea .w (s.pc + 2) s), x := s.ccr.x, c := false, vf := false }).c } s))) ∧
  (∀ (ea : Ea) (s : State),
      (Instr.lsrMem ea).wellFormed = true →
      s.traced = false →
      operandReady ea .w (s.pc + 2) s = true →
      exec (.lsrMem ea) s =
        .next (past (.lsrMem ea) (replaced ea .w (s.pc + 2) (lsrStep .w { v := (operandValue ea .w (s.pc + 2) s), x := s.ccr.x, c := false, vf := false }).v
          { x := (lsrStep .w { v := (operandValue ea .w (s.pc + 2) s), x := s.ccr.x, c := false, vf := false }).x,
            n := (lsrStep .w { v := (operandValue ea .w (s.pc + 2) s), x := s.ccr.x, c := false, vf := false }).v.getLsbD 15,
            z := decide ((lsrStep .w { v := (operandValue ea .w (s.pc + 2) s), x := s.ccr.x, c := false, vf := false }).v = 0),
            v := false,
            c := (lsrStep .w { v := (operandValue ea .w (s.pc + 2) s), x := s.ccr.x, c := false, vf := false }).c } s))) ∧
  (∀ (ea : Ea) (s : State),
      (Instr.rolMem ea).wellFormed = true →
      s.traced = false →
      operandReady ea .w (s.pc + 2) s = true →
      exec (.rolMem ea) s =
        .next (past (.rolMem ea) (replaced ea .w (s.pc + 2) (rolStep .w { v := (operandValue ea .w (s.pc + 2) s), x := s.ccr.x, c := false, vf := false }).v
          { x := (rolStep .w { v := (operandValue ea .w (s.pc + 2) s), x := s.ccr.x, c := false, vf := false }).x,
            n := (rolStep .w { v := (operandValue ea .w (s.pc + 2) s), x := s.ccr.x, c := false, vf := false }).v.getLsbD 15,
            z := decide ((rolStep .w { v := (operandValue ea .w (s.pc + 2) s), x := s.ccr.x, c := false, vf := false }).v = 0),
            v := false,
            c := (rolStep .w { v := (operandValue ea .w (s.pc + 2) s), x := s.ccr.x, c := false, vf := false }).c } s))) ∧
  (∀ (ea : Ea) (s : State),
      (Instr.rorMem ea).wellFormed = true →
      s.traced = false →
      operandReady ea .w (s.pc + 2) s = true →
      exec (.rorMem ea) s =
        .next (past (.rorMem ea) (replaced ea .w (s.pc + 2) (rorStep .w { v := (operandValue ea .w (s.pc + 2) s), x := s.ccr.x, c := false, vf := false }).v
          { x := (rorStep .w { v := (operandValue ea .w (s.pc + 2) s), x := s.ccr.x, c := false, vf := false }).x,
            n := (rorStep .w { v := (operandValue ea .w (s.pc + 2) s), x := s.ccr.x, c := false, vf := false }).v.getLsbD 15,
            z := decide ((rorStep .w { v := (operandValue ea .w (s.pc + 2) s), x := s.ccr.x, c := false, vf := false }).v = 0),
            v := false,
            c := (rorStep .w { v := (operandValue ea .w (s.pc + 2) s), x := s.ccr.x, c := false, vf := false }).c } s))) ∧
  (∀ (ea : Ea) (s : State),
      (Instr.roxlMem ea).wellFormed = true →
      s.traced = false →
      operandReady ea .w (s.pc + 2) s = true →
      exec (.roxlMem ea) s =
        .next (past (.roxlMem ea) (replaced ea .w (s.pc + 2) (roxlStep .w { v := (operandValue ea .w (s.pc + 2) s), x := s.ccr.x, c := false, vf := false }).v
          { x := (roxlStep .w { v := (operandValue ea .w (s.pc + 2) s), x := s.ccr.x, c := false, vf := false }).x,
            n := (roxlStep .w { v := (operandValue ea .w (s.pc + 2) s), x := s.ccr.x, c := false, vf := false }).v.getLsbD 15,
            z := decide ((roxlStep .w { v := (operandValue ea .w (s.pc + 2) s), x := s.ccr.x, c := false, vf := false }).v = 0),
            v := false,
            c := (roxlStep .w { v := (operandValue ea .w (s.pc + 2) s), x := s.ccr.x, c := false, vf := false }).c } s))) ∧
  (∀ (ea : Ea) (s : State),
      (Instr.roxrMem ea).wellFormed = true →
      s.traced = false →
      operandReady ea .w (s.pc + 2) s = true →
      exec (.roxrMem ea) s =
        .next (past (.roxrMem ea) (replaced ea .w (s.pc + 2) (roxrStep .w { v := (operandValue ea .w (s.pc + 2) s), x := s.ccr.x, c := false, vf := false }).v
          { x := (roxrStep .w { v := (operandValue ea .w (s.pc + 2) s), x := s.ccr.x, c := false, vf := false }).x,
            n := (roxrStep .w { v := (operandValue ea .w (s.pc + 2) s), x := s.ccr.x, c := false, vf := false }).v.getLsbD 15,
            z := decide ((roxrStep .w { v := (operandValue ea .w (s.pc + 2) s), x := s.ccr.x, c := false, vf := false }).v = 0),
            v := false,
            c := (roxrStep .w { v := (operandValue ea .w (s.pc + 2) s), x := s.ccr.x, c := false, vf := false }).c } s)))

/-- Each bit operation takes the bit number modulo 32 for a data register and modulo 8 for a byte operand, sets Z to the complement of
the bit as it was, leaves the other flags, and inverts, clears or sets that bit of the operand (BTST writes nothing); it never faults;
the bit-number word precedes the operand words. Rules: R310, R311, R312, R313, R314. -/
def Obligations.BitOperationResults : Prop :=
  (∀ (num : Byte) (ea : Ea) (s : State), (Instr.btstImm num ea).wellFormed = true → s.traced = false →
      exec (.btstImm num ea) s = .next (past (.btstImm num ea) ((sideEffect ea ea.bitSize s).setCcr { s.ccr with z := !(operandValue ea ea.bitSize (s.pc + 4) s).getLsbD (num.toNat % ea.bitSize.bits) }))) ∧
  (∀ (n : Reg) (ea : Ea) (s : State), (Instr.btstDyn n ea).wellFormed = true → s.traced = false →
      exec (.btstDyn n ea) s = .next (past (.btstDyn n ea) ((sideEffect ea ea.bitSize s).setCcr { s.ccr with z := !(operandValue ea ea.bitSize (s.pc + 2) s).getLsbD ((s.dreg n).toNat % ea.bitSize.bits) }))) ∧
  (∀ (num : Byte) (ea : Ea) (s : State), (Instr.bchgImm num ea).wellFormed = true → s.traced = false →
      exec (.bchgImm num ea) s = .next (past (.bchgImm num ea) (replaced ea ea.bitSize (s.pc + 4) ((operandValue ea ea.bitSize (s.pc + 4) s) ^^^ (1#32 <<< (num.toNat % ea.bitSize.bits)))
          { s.ccr with z := !(operandValue ea ea.bitSize (s.pc + 4) s).getLsbD (num.toNat % ea.bitSize.bits) } s))) ∧
  (∀ (n : Reg) (ea : Ea) (s : State), (Instr.bchgDyn n ea).wellFormed = true → s.traced = false →
      exec (.bchgDyn n ea) s = .next (past (.bchgDyn n ea) (replaced ea ea.bitSize (s.pc + 2) ((operandValue ea ea.bitSize (s.pc + 2) s) ^^^ (1#32 <<< ((s.dreg n).toNat % ea.bitSize.bits)))
          { s.ccr with z := !(operandValue ea ea.bitSize (s.pc + 2) s).getLsbD ((s.dreg n).toNat % ea.bitSize.bits) } s))) ∧
  (∀ (num : Byte) (ea : Ea) (s : State), (Instr.bclrImm num ea).wellFormed = true → s.traced = false →
      exec (.bclrImm num ea) s = .next (past (.bclrImm num ea) (replaced ea ea.bitSize (s.pc + 4) ((operandValue ea ea.bitSize (s.pc + 4) s) &&& ~~~(1#32 <<< (num.toNat % ea.bitSize.bits)))
          { s.ccr with z := !(operandValue ea ea.bitSize (s.pc + 4) s).getLsbD (num.toNat % ea.bitSize.bits) } s))) ∧
  (∀ (n : Reg) (ea : Ea) (s : State), (Instr.bclrDyn n ea).wellFormed = true → s.traced = false →
      exec (.bclrDyn n ea) s = .next (past (.bclrDyn n ea) (replaced ea ea.bitSize (s.pc + 2) ((operandValue ea ea.bitSize (s.pc + 2) s) &&& ~~~(1#32 <<< ((s.dreg n).toNat % ea.bitSize.bits)))
          { s.ccr with z := !(operandValue ea ea.bitSize (s.pc + 2) s).getLsbD ((s.dreg n).toNat % ea.bitSize.bits) } s))) ∧
  (∀ (num : Byte) (ea : Ea) (s : State), (Instr.bsetImm num ea).wellFormed = true → s.traced = false →
      exec (.bsetImm num ea) s = .next (past (.bsetImm num ea) (replaced ea ea.bitSize (s.pc + 4) ((operandValue ea ea.bitSize (s.pc + 4) s) ||| (1#32 <<< (num.toNat % ea.bitSize.bits)))
          { s.ccr with z := !(operandValue ea ea.bitSize (s.pc + 4) s).getLsbD (num.toNat % ea.bitSize.bits) } s))) ∧
  (∀ (n : Reg) (ea : Ea) (s : State), (Instr.bsetDyn n ea).wellFormed = true → s.traced = false →
      exec (.bsetDyn n ea) s = .next (past (.bsetDyn n ea) (replaced ea ea.bitSize (s.pc + 2) ((operandValue ea ea.bitSize (s.pc + 2) s) ||| (1#32 <<< ((s.dreg n).toNat % ea.bitSize.bits)))
          { s.ccr with z := !(operandValue ea ea.bitSize (s.pc + 2) s).getLsbD ((s.dreg n).toNat % ea.bitSize.bits) } s)))

/-- For every well-formed MOVEM memory to registers whose address is even (or whose mask is empty), the listed registers in the order
D0 to D7, A0 to A7 are replaced by the longs or sign-extended words at ascending addresses, and in the (An)+ form An is then the
address after the last, overwriting a loaded value; no flag and no memory byte changes. MOVEP stores the 2 or 4 low bytes of Dx to the
bytes at a, a+2, a+4, a+6, or loads them merged into Dx at the size, most significant first, for any address; no flag changes. Rules:
R205, R206. -/
def Obligations.MovemLoadAndMovepResults : Prop :=
  (∀ (sz : WordLong) (mask : Word) (ea : Ea) (s : State),
      (Instr.movemToRegs sz mask ea).wellFormed = true →
      s.traced = false →
      ea.kind ≠ .postInc →
      movemReady sz.size mask (movemBase ea s) = true →
      exec (.movemToRegs sz mask ea) s =
        .next (past (.movemToRegs sz mask ea) ((maskList mask).zipIdx.foldl
          (fun t p => t.setMovemReg p.1 (sext sz.size (s.mem.load (movemBase ea s + BitVec.ofNat 32 (sz.size.bytes * p.2)) sz.size))) s))) ∧
  (∀ (sz : WordLong) (mask : Word) (n : Reg) (s : State), s.traced = false → movemReady sz.size mask (s.areg n) = true →
      exec (.movemToRegs sz mask (.postInc n)) s = .next (past (.movemToRegs sz mask (.postInc n)) (((maskList mask).zipIdx.foldl
          (fun t p => t.setMovemReg p.1 (sext sz.size (s.mem.load (s.areg n + BitVec.ofNat 32 (sz.size.bytes * p.2)) sz.size))) s).setAreg n
          (s.areg n + BitVec.ofNat 32 (sz.size.bytes * maskCount mask))))) ∧
  (∀ (dx ay : Reg) (d : Word) (s : State), s.traced = false →
      exec (.movep .regToMem .w dx ay d) s = .next (past (.movep .regToMem .w dx ay d)
          { s with mem := (s.mem.putAt (s.areg ay + d.signExtend 32) 0 ((s.dreg dx).extractLsb' 8 8)).putAt ((s.areg ay + d.signExtend 32) + 2) 0 ((s.dreg dx).extractLsb' 0 8) })) ∧
  (∀ (dx ay : Reg) (d : Word) (s : State), s.traced = false →
      exec (.movep .regToMem .l dx ay d) s = .next (past (.movep .regToMem .l dx ay d)
          { s with mem := (((s.mem.putAt (s.areg ay + d.signExtend 32) 0 ((s.dreg dx).extractLsb' 24 8)).putAt ((s.areg ay + d.signExtend 32) + 2) 0 ((s.dreg dx).extractLsb' 16 8)).putAt
            ((s.areg ay + d.signExtend 32) + 4) 0 ((s.dreg dx).extractLsb' 8 8)).putAt ((s.areg ay + d.signExtend 32) + 6) 0 ((s.dreg dx).extractLsb' 0 8) })) ∧
  (∀ (dx ay : Reg) (d : Word) (s : State), s.traced = false →
      exec (.movep .memToReg .w dx ay d) s = .next (past (.movep .memToReg .w dx ay d)
          (s.writeD dx .w ((s.mem.byteAt (s.areg ay + d.signExtend 32) 0 ++ s.mem.byteAt (s.areg ay + d.signExtend 32) 2).setWidth 32)))) ∧
  (∀ (dx ay : Reg) (d : Word) (s : State), s.traced = false →
      exec (.movep .memToReg .l dx ay d) s = .next (past (.movep .memToReg .l dx ay d)
          (s.setDreg dx (s.mem.byteAt (s.areg ay + d.signExtend 32) 0 ++ s.mem.byteAt (s.areg ay + d.signExtend 32) 2 ++ s.mem.byteAt (s.areg ay + d.signExtend 32) 4 ++ s.mem.byteAt (s.areg ay + d.signExtend 32) 6))))

/-- For every well-formed MOVEM registers to memory with an even address (or an empty mask) over canonical memory, exec answers a
state in which only memory, PC and, in the -(An) form, An changed; in the -(An) form, whose mask is read reversed, An is lowered by
the bytes stored; and from the lowest address upward the listed registers, with the values they had before the instruction (the base
register too), stand in the order D0 to D7, A0 to A7. Rules: R204. -/
def Obligations.MovemStoresTheRegisterImage : Prop :=
  ∀ (sz : WordLong) (mask : Word) (ea : Ea) (s : State), (Instr.movemToMem sz mask ea).wellFormed = true → s.traced = false →
    s.mem.wf = true → movemReady sz.size mask (movemBase ea s) = true →
    let down : Bool := ea.kind == .preDec
    let regs : List (Fin 16) := maskBits.filter fun k => if down then mask.getLsbD (15 - k.val) else mask.getLsbD k.val
    let low : Long := if down then movemBase ea s - BitVec.ofNat 32 (sz.size.bytes * regs.length) else movemBase ea s
    let moved : State := match ea with
      | .preDec n => s.setAreg n low
      | _ => s
    ∃ m : Memory, exec (.movemToMem sz mask ea) s = .next (past (.movemToMem sz mask ea) { moved with mem := m }) ∧
      ∀ j, (h : j < regs.length) →
        m.load (low + BitVec.ofNat 32 (sz.size.bytes * j)) sz.size = trunc sz.size (s.movemReg regs[j])

/-- LEA writes the full address of its operand to An without reading it; PEA pushes it, resolved before the push; LINK pushes An (the
decremented SP for A7), puts SP in An and adds the displacement to SP; UNLK sets SP to An + 4 and An to the long at the old An,
written last; PEA and LINK for an even SP, UNLK for an even An; no flag changes. Rules: R207, R208, R210, R211, R72, R161. -/
def Obligations.AddressAndFrameResults : Prop :=
  (∀ (n : Reg) (ea : Ea) (s : State), (Instr.lea n ea).wellFormed = true → s.traced = false →
      exec (.lea n ea) s = .next (past (.lea n ea) (s.setAreg n (operandAddress ea (s.pc + 2) s)))) ∧
  (∀ (ea : Ea) (s : State), (Instr.pea ea).wellFormed = true → s.traced = false → s.spEven = true →
      exec (.pea ea) s = .next (past (.pea ea) (pushed (operandAddress ea (s.pc + 2) s) s))) ∧
  (∀ (n : Reg) (d : Word) (s : State), s.traced = false → s.spEven = true →
      exec (.link n d) s = .next (past (.link n d) ((({ s.setSp (s.sp - 4) with
          mem := s.mem.store (s.sp - 4) .l (if n = 7 then s.sp - 4 else s.areg n) }).setAreg n (s.sp - 4)).setSp (s.sp - 4 + d.signExtend 32)))) ∧
  (∀ (n : Reg) (s : State), s.traced = false → (s.areg n).getLsbD 0 = false →
      exec (.unlk n) s = .next (past (.unlk n) ((s.setSp (s.areg n + 4)).setAreg n (s.mem.load (s.areg n) .l))))

/-- Branch targets are pc0 + 2 plus the displacement, sign-extended from 8 or from 16 bits (a byte displacement of 0 and the
conditions T and F of Bcc are terms the decoder never answers, log entry 12); Bcc and DBcc test the flags as they stand; DBcc
decrements the low word of Dn and loops unless it was 0; BSR and JSR push the address of the next instruction for an even SP, the
target of JSR computed first; RTS pops PC, RTR the CCR and PC; JMP loads the full address; NOP only moves PC on; no other flag,
register or memory byte changes. Rules: R331, R332, R334, R335, R337, R338, R339, R340, R343, R28. -/
def Obligations.ProgramControlResults : Prop :=
  (∀ (disp : BranchDisp) (s : State), s.traced = false →
      exec (.bra disp) s = .next ({ s with pc := s.pc + 2 + (match disp with | .byte d => d.signExtend 32 | .word d => d.signExtend 32) })) ∧
  (∀ (disp : BranchDisp) (s : State), s.traced = false → s.spEven = true →
      exec (.bsr disp) s = .next ({ pushed (s.pc + BitVec.ofNat 32 (Instr.bsr disp).length) s with pc := s.pc + 2 + (match disp with | .byte d => d.signExtend 32 | .word d => d.signExtend 32) })) ∧
  (∀ (cond : Cond) (disp : BranchDisp) (s : State), s.traced = false → condHolds cond s.ccr = true →
      exec (.bcc cond disp) s = .next ({ s with pc := s.pc + 2 + (match disp with | .byte d => d.signExtend 32 | .word d => d.signExtend 32) })) ∧
  (∀ (cond : Cond) (disp : BranchDisp) (s : State), s.traced = false → condHolds cond s.ccr = false →
      exec (.bcc cond disp) s = .next (past (.bcc cond disp) s)) ∧
  (∀ (cond : Cond) (n : Reg) (d : Word) (s : State), s.traced = false → condHolds cond s.ccr = true →
      exec (.dbcc cond n d) s = .next (past (.dbcc cond n d) s)) ∧
  (∀ (cond : Cond) (n : Reg) (d : Word) (s : State),
      s.traced = false →
      condHolds cond s.ccr = false →
      lowWord (s.dreg n) = 0 →
      exec (.dbcc cond n d) s =
        .next (past (.dbcc cond n d) (s.writeD n .w 0xFFFF))) ∧
  (∀ (cond : Cond) (n : Reg) (d : Word) (s : State),
      s.traced = false →
      condHolds cond s.ccr = false →
      lowWord (s.dreg n) ≠ 0 →
      exec (.dbcc cond n d) s =
        .next ({ s.writeD n .w (s.dreg n - 1) with pc := s.pc + 2 + d.signExtend 32 })) ∧
  (∀ (ea : Ea) (s : State), (Instr.jmp ea).wellFormed = true → s.traced = false →
      exec (.jmp ea) s = .next ({ s with pc := operandAddress ea (s.pc + 2) s })) ∧
  (∀ (ea : Ea) (s : State), (Instr.jsr ea).wellFormed = true → s.traced = false → s.spEven = true →
      exec (.jsr ea) s = .next ({ pushed (s.pc + BitVec.ofNat 32 (Instr.jsr ea).length) s with pc := operandAddress ea (s.pc + 2) s })) ∧
  (∀ (s : State), s.traced = false → s.spEven = true →
      exec .rts s = .next ({ s.setSp (s.sp + 4) with pc := s.mem.load s.sp .l })) ∧
  (∀ (s : State), s.traced = false → s.spEven = true →
      exec .rtr s = .next ({ (s.setSp (s.sp + 6)).writeCcr ((s.mem.load s.sp .w).extractLsb' 0 8) with pc := s.mem.load (s.sp + 2) .l })) ∧
  (∀ (s : State), s.traced = false →
      exec .nop s = .next (past .nop s))

/-- ANDI, ORI and EORI to CCR combine the low byte of SR with the immediate and MOVE to CCR takes the low byte of its word operand;
bits 4:0 of the result are kept and the upper byte of SR is unchanged; MOVE from SR stores all of SR in its word operand and changes
no flag; none of them depends on the privilege mode. Rules: R363, R364, R365, R369, R371, R33. -/
def Obligations.ConditionCodeRegisterResults : Prop :=
  (∀ (imm : Byte) (s : State), s.traced = false →
      exec (.andiToCcr imm) s = .next (past (.andiToCcr imm) { s with sr := (s.sr &&& 0xFF00) ||| ((s.sr.extractLsb' 0 8 &&& imm).setWidth 16 &&& 0x1F) })) ∧
  (∀ (imm : Byte) (s : State), s.traced = false →
      exec (.oriToCcr imm) s = .next (past (.oriToCcr imm) { s with sr := (s.sr &&& 0xFF00) ||| ((s.sr.extractLsb' 0 8 ||| imm).setWidth 16 &&& 0x1F) })) ∧
  (∀ (imm : Byte) (s : State), s.traced = false →
      exec (.eoriToCcr imm) s = .next (past (.eoriToCcr imm) { s with sr := (s.sr &&& 0xFF00) ||| ((s.sr.extractLsb' 0 8 ^^^ imm).setWidth 16 &&& 0x1F) })) ∧
  (∀ (ea : Ea) (s : State),
      (Instr.moveToCcr ea).wellFormed = true →
      s.traced = false →
      operandReady ea .w (s.pc + 2) s = true →
      exec (.moveToCcr ea) s =
        .next (past (.moveToCcr ea) { sideEffect ea .w s with sr := (s.sr &&& 0xFF00) ||| ((operandValue ea .w (s.pc + 2) s).setWidth 16 &&& 0x1F) })) ∧
  (∀ (ea : Ea) (s : State),
      (Instr.moveFromSr ea).wellFormed = true →
      s.traced = false →
      operandReady ea .w (s.pc + 2) s = true →
      exec (.moveFromSr ea) s =
        .next (past (.moveFromSr ea) (storeAt (eaLoc ea .w (s.pc + 2) s) .w (s.sr.setWidth 32) (sideEffect ea .w s))))

/-- In supervisor mode ANDI, ORI, EORI and MOVE to SR write SR through the implemented-bit mask, the operand side effect of MOVE
before; MOVE USP copies between An and USP; RESET changes nothing; STOP loads SR and sets stopped, PC past it; RTE takes SR and PC
from the supervisor stack, SSP rising by 6. Rules: R366, R367, R368, R370, R372, R373, R374, R375, R376, R33. -/
def Obligations.PrivilegedResultsInSupervisorMode : Prop :=
  (∀ (imm : Word) (s : State), s.traced = false → s.supervisor = true →
      exec (.andiToSr imm) s = .next (past (.andiToSr imm) { s with sr := (s.sr &&& imm) &&& 0xA71F })) ∧
  (∀ (imm : Word) (s : State), s.traced = false → s.supervisor = true →
      exec (.oriToSr imm) s = .next (past (.oriToSr imm) { s with sr := (s.sr ||| imm) &&& 0xA71F })) ∧
  (∀ (imm : Word) (s : State), s.traced = false → s.supervisor = true →
      exec (.eoriToSr imm) s = .next (past (.eoriToSr imm) { s with sr := (s.sr ^^^ imm) &&& 0xA71F })) ∧
  (∀ (ea : Ea) (s : State),
      (Instr.moveToSr ea).wellFormed = true →
      s.traced = false →
      s.supervisor = true →
      operandReady ea .w (s.pc + 2) s = true →
      exec (.moveToSr ea) s =
        .next (past (.moveToSr ea) { sideEffect ea .w s with sr := (operandValue ea .w (s.pc + 2) s).setWidth 16 &&& 0xA71F })) ∧
  (∀ (n : Reg) (s : State), s.traced = false → s.supervisor = true →
      exec (.moveToUsp n) s = .next (past (.moveToUsp n) { s with usp := s.areg n })) ∧
  (∀ (n : Reg) (s : State), s.traced = false → s.supervisor = true →
      exec (.moveFromUsp n) s = .next (past (.moveFromUsp n) (s.setAreg n s.usp))) ∧
  (∀ (s : State), s.traced = false → s.supervisor = true →
      exec .reset s = .next (past .reset s)) ∧
  (∀ (imm : Word) (s : State), s.traced = false → s.supervisor = true →
      exec (.stop imm) s = .next (past (.stop imm) { s with sr := imm &&& 0xA71F, stopped := true })) ∧
  (∀ (s : State), s.traced = false → s.supervisor = true → s.ssp.getLsbD 0 = false →
      exec .rte s = .next ({ s with
          sr := (s.mem.load s.ssp .w).setWidth 16 &&& 0xA71F
          pc := s.mem.load (s.ssp + 2) .l
          ssp := s.ssp + 6 }))

/-- TRAP n enters vector 32 + n and ILLEGAL vector 4 with pc0 + 2 saved; TRAPV enters vector 7 with pc0 + 2 when V is set and else
only moves PC on; CHK enters vector 6 with the next address saved when Dn.W is negative (N = 1) or above the bound (N = 0) and else
moves on, the flags the rule leaves open being the free value CHK_UNDEF (log entry 6); DIVU and DIVS enter vector 5 with the next
address saved for a divisor of 0, Dn and CCR unchanged. The traps are stated for a traced instruction too: it raised, so no trace
follows in the same step, which is the model inference (log entry 8). Rules: R377, R380, R378, R379, R252, R253, R414, R415, R416,
R417, R412, R410. -/
def Obligations.TrapResults : Prop :=
  (∀ (v : BitVec 4) (s : State),
      exec (.trap v) s = .next (raiseVector (32 + v.setWidth 8) (s.pc + 2) s)) ∧
  (∀ (s : State),
      exec .illegal s = .next (raiseVector 4 (s.pc + 2) s)) ∧
  (∀ (s : State), s.ccr.v = true →
      exec .trapv s = .next (raiseVector 7 (s.pc + 2) s)) ∧
  (∀ (s : State), s.traced = false → s.ccr.v = false →
      exec .trapv s = .next (past .trapv s)) ∧
  (∀ (n : Reg) (ea : Ea) (s : State),
      (Instr.chk n ea).wellFormed = true →
      s.traced = false →
      operandReady ea .w (s.pc + 2) s = true →
      0 ≤ signedAt .w (s.dreg n) →
      signedAt .w (s.dreg n) ≤ signedAt .w (operandValue ea .w (s.pc + 2) s) →
      exec (.chk n ea) s =
        .next (past (.chk n ea) ((sideEffect ea .w s).setCcr
          { x := s.ccr.x, n := (Config.chkUndef (lowWord (s.dreg n)) (lowWord (operandValue ea .w (s.pc + 2) s)) s.readCcr).n, z := (Config.chkUndef (lowWord (s.dreg n)) (lowWord (operandValue ea .w (s.pc + 2) s)) s.readCcr).z,
            v := (Config.chkUndef (lowWord (s.dreg n)) (lowWord (operandValue ea .w (s.pc + 2) s)) s.readCcr).v, c := (Config.chkUndef (lowWord (s.dreg n)) (lowWord (operandValue ea .w (s.pc + 2) s)) s.readCcr).c }))) ∧
  (∀ (n : Reg) (ea : Ea) (s : State),
      (Instr.chk n ea).wellFormed = true →
      operandReady ea .w (s.pc + 2) s = true →
      signedAt .w (s.dreg n) < 0 →
      exec (.chk n ea) s =
        .next (raiseVector 6 (s.pc + BitVec.ofNat 32 (Instr.chk n ea).length) ((sideEffect ea .w s).setCcr
          { x := s.ccr.x, n := true, z := (Config.chkUndef (lowWord (s.dreg n)) (lowWord (operandValue ea .w (s.pc + 2) s)) s.readCcr).z,
            v := (Config.chkUndef (lowWord (s.dreg n)) (lowWord (operandValue ea .w (s.pc + 2) s)) s.readCcr).v, c := (Config.chkUndef (lowWord (s.dreg n)) (lowWord (operandValue ea .w (s.pc + 2) s)) s.readCcr).c }))) ∧
  (∀ (n : Reg) (ea : Ea) (s : State),
      (Instr.chk n ea).wellFormed = true →
      operandReady ea .w (s.pc + 2) s = true →
      0 ≤ signedAt .w (s.dreg n) →
      signedAt .w (operandValue ea .w (s.pc + 2) s) < signedAt .w (s.dreg n) →
      exec (.chk n ea) s =
        .next (raiseVector 6 (s.pc + BitVec.ofNat 32 (Instr.chk n ea).length) ((sideEffect ea .w s).setCcr
          { x := s.ccr.x, n := false, z := (Config.chkUndef (lowWord (s.dreg n)) (lowWord (operandValue ea .w (s.pc + 2) s)) s.readCcr).z,
            v := (Config.chkUndef (lowWord (s.dreg n)) (lowWord (operandValue ea .w (s.pc + 2) s)) s.readCcr).v, c := (Config.chkUndef (lowWord (s.dreg n)) (lowWord (operandValue ea .w (s.pc + 2) s)) s.readCcr).c }))) ∧
  (∀ (n : Reg) (ea : Ea) (s : State),
      (Instr.divu n ea).wellFormed = true →
      operandReady ea .w (s.pc + 2) s = true →
      (operandValue ea .w (s.pc + 2) s) = 0 →
      exec (.divu n ea) s =
        .next (raiseVector 5 (s.pc + BitVec.ofNat 32 (Instr.divu n ea).length) (sideEffect ea .w s))) ∧
  (∀ (n : Reg) (ea : Ea) (s : State),
      (Instr.divs n ea).wellFormed = true →
      operandReady ea .w (s.pc + 2) s = true →
      (operandValue ea .w (s.pc + 2) s) = 0 →
      exec (.divs n ea) s =
        .next (raiseVector 5 (s.pc + BitVec.ofNat 32 (Instr.divs n ea).length) (sideEffect ea .w s)))

/-- For every well-formed instruction that runs to its end, every byte of memory outside the cells computed for it from the state
before (the operand address and size, the stack slot, the MOVEM or MOVEP block; none for a form that stores nothing) reads as before.
Rules: R65, R66, R72, R157, R204, R206. -/
def Obligations.InstructionsStoreOnlyToTheirCells : Prop :=
  ∀ (i : Instr) (s t : State), i.wellFormed = true → s.traced = false → i.completes s = true → exec i s = .next t →
    ∀ k, k ∉ i.storeCells s → t.mem.read k = s.mem.read k

/-- For every well-formed instruction that runs to its end: a data register that is no destination is unchanged; A0 to A6 are
unchanged unless a destination or moved by an addressing mode; USP changes only as A7 of user mode or by MOVE An,USP; SSP only as A7
of supervisor mode or by RTE. Rules: R10, R23, R24, R26, R145, R35. -/
def Obligations.InstructionsChangeOnlyTheirRegisters : Prop :=
  ∀ (i : Instr) (s t : State), i.wellFormed = true → s.traced = false → i.completes s = true → exec i s = .next t →
    (∀ n, i.dataDest n = false → t.dreg n = s.dreg n) ∧
    (∀ n : Reg, (h : n.val < 7) → i.addrDest n = false → t.a[n.val] = s.a[n.val]) ∧
    ((s.supervisor = true ∨ i.addrDest 7 = false) → (∀ n, i ≠ .moveToUsp n) → t.usp = s.usp) ∧
    ((s.supervisor = false ∨ i.addrDest 7 = false) → i ≠ .rte → t.ssp = s.ssp)

/-- For every well-formed instruction that runs to its end, each of X, N, Z, V, C that the table of flag outcomes marks unchanged is
unchanged, and SR bits 15 to 5 are unchanged unless the instruction is ANDI, ORI, EORI or MOVE to SR, STOP or RTE. For every
well-formed instruction that runs to its end, PC is moved past the instruction unless it is a branch, jump or return; reset_pending,
halted and the interrupt queue are unchanged, and stopped is unchanged unless it is STOP, which sets it. Rules: R186, R35, R178, R179,
R29, R38, R39, R40, R447. -/
def Obligations.InstructionsChangeOnlyTheirStatus : Prop :=
  (∀ (i : Instr) (s t : State), i.wellFormed = true → s.traced = false → i.completes s = true → exec i s = .next t →
    (i.flagDest.x = false → t.ccr.x = s.ccr.x) ∧ (i.flagDest.n = false → t.ccr.n = s.ccr.n) ∧
    (i.flagDest.z = false → t.ccr.z = s.ccr.z) ∧ (i.flagDest.v = false → t.ccr.v = s.ccr.v) ∧
    (i.flagDest.c = false → t.ccr.c = s.ccr.c) ∧
    (i.writesSr = false → s.sr &&& 0xE0 = 0 → t.sr &&& 0xFFE0 = s.sr &&& 0xFFE0)) ∧
  (∀ (i : Instr) (s t : State), i.wellFormed = true → s.traced = false → i.completes s = true → exec i s = .next t →
    (i.assignsPc = false → t.pc = s.pc + BitVec.ofNat 32 i.length) ∧ t.resetPending = s.resetPending ∧ t.halted = s.halted ∧
    t.irqQueue = s.irqQueue ∧ t.stopped = (match i with | .stop _ => true | _ => s.stopped))

/-- With an even SSP the entry lowers SSP by 6, stores the return PC at SSP + 2 and the old SR at SSP, sets S and clears bits 15 and
14 of SR, loads PC from four times the vector number after the pushes, clears stopped, and changes nothing else; with an odd SSP it
sets halted, S = 1 and T = 0 and lowers SSP by 4, writes no memory and leaves PC; that it leaves stopped as it was is the model choice
(log entry 13). With an even SSP, accepting a request removes it from the queue, sets S, clears T, sets the mask to its level, pushes
PC and the SR before those changes, loads PC from the posted vector or the autovector 24 + level, and clears stopped; nothing else
changes. With an odd SSP the request has left the queue, S is set, T cleared and the mask raised, SSP is lowered by 4 and halted is
set; memory and PC do not change, and stopped is left as it was (log entry 13, the model choice). Rules: R405, R404, R422, R432. -/
def Obligations.ExceptionEntrySavesAndVectors : Prop :=
  (∀ (v : Byte) (retpc : Long) (s : State),
    let m := (s.mem.store (s.ssp - 4) .l retpc).store (s.ssp - 6) .w (s.sr.setWidth 32)
    (s.ssp.getLsbD 0 = false →
      raiseVector v retpc s =
        { s with sr := (s.sr &&& 0x3FFF) ||| 0x2000, ssp := s.ssp - 6, mem := m,
                 pc := m.load (BitVec.ofNat 32 (4 * v.toNat)) .l, stopped := false }) ∧
    (s.ssp.getLsbD 0 = true →
      raiseVector v retpc s = { s with sr := (s.sr &&& 0x3FFF) ||| 0x2000, ssp := s.ssp - 4, halted := true })) ∧
  (∀ (r : IrqRequest) (s : State),
    let m := (s.mem.store (s.ssp - 4) .l s.pc).store (s.ssp - 6) .w (s.sr.setWidth 32)
    let v := match r.vector with
      | some v => v.toNat
      | none => 24 + r.level.toNat
    let sr : Word := (s.sr &&& 0x38FF) ||| 0x2000 ||| (r.level.setWidth 16 <<< 8)
    (s.ssp.getLsbD 0 = false →
      acceptInterrupt r s =
        { s with irqQueue := s.irqQueue.erase r, sr := sr, ssp := s.ssp - 6, mem := m, pc := m.load (BitVec.ofNat 32 (4 * v)) .l,
                 stopped := false }) ∧
    (s.ssp.getLsbD 0 = true →
      acceptInterrupt r s = { s with irqQueue := s.irqQueue.erase r, sr := sr, ssp := s.ssp - 4, halted := true }))

/-- With an even SSP and canonical memory, after exception entry the word at SSP reads as the SR before entry and the long at SSP + 2
as the return PC; every byte outside those six reads as before; the interrupt mask and the condition codes are unchanged and the core
is in supervisor mode with tracing off. Rules: R406, R405. -/
def Obligations.ExceptionFrameHoldsSrAndReturnPc : Prop :=
  ∀ (v : Byte) (retpc : Long) (s : State), s.ssp.getLsbD 0 = false → s.mem.wf = true →
    let t := raiseVector v retpc s
    t.mem.load t.ssp .w = s.sr.setWidth 32 ∧ t.mem.load (t.ssp + 2) .l = retpc ∧
    (∀ k, k ∉ Machine.cells t.ssp 6 → t.mem.read k = s.mem.read k) ∧
    t.supervisor = true ∧ t.traceEnabled = false ∧ t.irqMask = s.irqMask ∧ t.ccr = s.ccr ∧ t.usp = s.usp ∧ t.d = s.d ∧ t.a = s.a

/-- From a state with an even SSP that meets the invariant, RTE executed in the state an exception entry leaves answers that state
with SR, PC and SSP as they were before the entry (PC the return address that was saved), so mode, mask, trace bit and flags are
restored. Rules: R421, R375, R405. -/
def Obligations.RteUndoesExceptionEntry : Prop :=
  ∀ (v : Byte) (retpc : Long) (s : State), s.ssp.getLsbD 0 = false → s.inv = true →
    exec .rte (raiseVector v retpc s) = .next { raiseVector v retpc s with sr := s.sr, pc := retpc, ssp := s.ssp }

/-- In user mode ANDI, ORI, EORI and MOVE to SR, both MOVE USP, RESET, RTE and STOP, with any operand, take the privilege violation
entry through vector 8 with pc0 saved; no operand side effect or other change happens before it. Rules: R362, R411, R366, R367, R368,
R370, R372, R373, R374, R375, R376. -/
def Obligations.PrivilegedInstructionsTrapInUserMode : Prop :=
  ∀ (s : State) (imm : Word) (ea : Ea) (n : Reg), s.supervisor = false →
    exec (.andiToSr imm) s = .next (raiseVector 8 s.pc s) ∧ exec (.oriToSr imm) s = .next (raiseVector 8 s.pc s) ∧
    exec (.eoriToSr imm) s = .next (raiseVector 8 s.pc s) ∧ exec (.moveToSr ea) s = .next (raiseVector 8 s.pc s) ∧
    exec (.moveToUsp n) s = .next (raiseVector 8 s.pc s) ∧ exec (.moveFromUsp n) s = .next (raiseVector 8 s.pc s) ∧
    exec .reset s = .next (raiseVector 8 s.pc s) ∧ exec .rte s = .next (raiseVector 8 s.pc s) ∧
    exec (.stop imm) s = .next (raiseVector 8 s.pc s)

/-- In a step that reaches the fetch: an odd PC takes the address error entry with the odd PC saved; at an even PC an opcode word that
the decoder rejects takes vector 4 with pc0 + 2 saved, or vector 10 or 11 on lines A and F when LINE_AF_VECTORS is set. Rules: R402,
R412, R413, R121. -/
def Obligations.IllegalOpcodeAndOddPcTakeTheirVectors : Prop :=
  ∀ (s : State), s.resetPending = false → s.halted = false → s.stopped = false → bestRequest s.irqMask s.irqQueue = none →
    (s.pc.getLsbD 0 = true → step s = .next (raiseVector 3 s.pc s)) ∧
    (∀ (op : Word) (e : DecodeReject), s.pc.getLsbD 0 = false → s.mem.byteAt s.pc 0 ++ s.mem.byteAt s.pc 1 = op → decode (fetchWords s) = .error e →
      step s = .next (raiseVector
        (if s.params.lineAfVectors = true ∧ op.extractLsb' 12 4 = 10 then 10
         else if s.params.lineAfVectors = true ∧ op.extractLsb' 12 4 = 15 then 11 else 4) (s.pc + 2) s))

/-- For ADD, SUB, AND and OR in both directions, CMP, EOR, NEG, NEGX, NOT and TST an odd word or long operand takes vector 3 with pc0
saved in the state with only the pre-decrement made (no post-increment, no flag, no result); CLR has already set its flags; MOVE with
an odd source stops before its destination, and with an odd destination keeps the source side effect, the destination pre-decrement
and the flags. The other forms are in OddOperandOfTheOtherFormsTakesTheAddressError. Operands outside the class of the row are terms
the decoder never answers (log entry 12). Rules: R409, R413, R146, R147, R200, R66. -/
def Obligations.OddOperandTakesTheAddressError : Prop :=
  ∀ (sz : Size) (ea src dst : Ea) (n : Reg) (s : State),
    let trap := fun (u : State) => Host.Outcome.next (φ := Fault) (ρ := Refusal) (raiseVector 3 s.pc u)
    let taken := trap (decremented ea sz s)
    (operandReady ea sz (s.pc + 2) s = false →
      exec (.addEaDn sz ea n) s = taken ∧ exec (.subEaDn sz ea n) s = taken ∧ exec (.andEaDn sz ea n) s = taken ∧
      exec (.orEaDn sz ea n) s = taken ∧ exec (.cmp sz ea n) s = taken ∧ exec (.addDnEa sz n ea) s = taken ∧
      exec (.subDnEa sz n ea) s = taken ∧ exec (.andDnEa sz n ea) s = taken ∧ exec (.orDnEa sz n ea) s = taken ∧
      exec (.eor sz n ea) s = taken ∧ exec (.neg sz ea) s = taken ∧ exec (.negx sz ea) s = taken ∧
      exec (.not sz ea) s = taken ∧ exec (.tst sz ea) s = taken ∧
      exec (.clr sz ea) s =
        trap ((decremented ea sz s).setCcr { x := s.ccr.x, n := false, z := true, v := false, c := false })) ∧
    (operandReady src sz (s.pc + 2) s = false → exec (.move sz src dst) s = trap (decremented src sz s)) ∧
    (operandReady src sz (s.pc + 2) s = true →
      operandReady dst sz (s.pc + 2 + BitVec.ofNat 32 (src.extBytes sz)) (sideEffect src sz s) = false →
      exec (.move sz src dst) s =
        trap ((decremented dst sz (sideEffect src sz s)).setCcr (valueFlags sz (operandValue src sz (s.pc + 2) s) s.ccr)))

/-- With an odd active SP, PEA, JSR, BSR and LINK take vector 3 with pc0 saved after SP was lowered by 4, RTS and RTR with nothing
changed; UNLK with an odd An and RTE in supervisor mode with an odd SSP likewise with nothing changed. Rules: R72, R73, R208, R210,
R211, R334, R338, R339, R340, R375, R413. -/
def Obligations.OddStackTakesTheAddressError : Prop :=
  ∀ (s : State) (ea : Ea) (disp : BranchDisp) (n : Reg) (d : Word),
    (s.sp.getLsbD 0 = true →
      ((Instr.pea ea).wellFormed = true → exec (.pea ea) s = .next (raiseVector 3 s.pc (s.setSp (s.sp - 4)))) ∧
      ((Instr.jsr ea).wellFormed = true → exec (.jsr ea) s = .next (raiseVector 3 s.pc (s.setSp (s.sp - 4)))) ∧
      exec (.bsr disp) s = .next (raiseVector 3 s.pc (s.setSp (s.sp - 4))) ∧
      exec (.link n d) s = .next (raiseVector 3 s.pc (s.setSp (s.sp - 4))) ∧
      exec .rts s = .next (raiseVector 3 s.pc s) ∧ exec .rtr s = .next (raiseVector 3 s.pc s)) ∧
    ((s.areg n).getLsbD 0 = true → exec (.unlk n) s = .next (raiseVector 3 s.pc s)) ∧
    (s.supervisor = true → s.ssp.getLsbD 0 = true → exec .rte s = .next (raiseVector 3 s.pc s))

/-- If T was 1 when a well-formed instruction began, the parameter TRACE_EXC is true and the instruction runs to its end, exec answers
the entry through vector 9, saving the PC the instruction left, of the state it answers with TRACE_EXC false; an instruction that
raised, TRAP, ILLEGAL and the traps of TRAPV, CHK and division among them (log entry 8), answers the same with both settings. Rules:
R418, R405. -/
def Obligations.TracedInstructionTakesVectorNine : Prop :=
  ∀ (i : Instr) (s t : State), i.wellFormed = true → s.params.traceExc = true → s.sr.getLsbD 15 = true →
    exec i { s with params := { s.params with traceExc := false } } = .next t →
    (i.completes s = true → exec i s = .next (raiseVector 9 t.pc { t with params := s.params })) ∧
    (i.completes s = false → exec i s = .next { t with params := s.params })

/-- The request chosen from the queue under a mask is in it at some place, its level exceeds the mask or is 7, no acceptable request
has a higher level, and none before it has its level; nothing is chosen exactly when every request is unacceptable. Rules: R431. -/
def Obligations.HighestAcceptableRequestIsTaken : Prop :=
  ∀ (mask : BitVec 3) (q : List IrqRequest),
    (∀ r, bestRequest mask q = some r →
      ∃ before after, q = before ++ r :: after ∧ (mask.toNat < r.level.toNat ∨ r.level = 7) ∧
        (∀ p ∈ before, (mask.toNat < p.level.toNat ∨ p.level = 7) → p.level.toNat < r.level.toNat) ∧
        (∀ p ∈ after, (mask.toNat < p.level.toNat ∨ p.level = 7) → p.level.toNat ≤ r.level.toNat)) ∧
    (bestRequest mask q = none ↔ ∀ p ∈ q, ¬(mask.toNat < p.level.toNat ∨ p.level = 7))

/-- For every instruction term executed in user mode (a term no encoding has included, log entry 12): either the state it answers is
in user mode and SSP, the whole upper byte of SR, stopped, halted, reset_pending and the interrupt queue are as they were, or the
state it answers is the exception entry, through one of the vectors 3 to 9 and 32 to 47, of a state in which all of these are as they
were. An instruction executed in supervisor mode that answers a user mode state is MOVE to SR, ANDI to SR, EORI to SR, RTE or STOP.
Rules: R441, R442, R24. -/
def Obligations.PrivilegeModeChangesOnlyByItsDoors : Prop :=
  (∀ (i : Instr) (s t : State), s.supervisor = false → exec i s = .next t →
    let kept := fun (u : State) => u.ssp = s.ssp ∧ u.sr &&& 0xFF00 = s.sr &&& 0xFF00 ∧ u.stopped = s.stopped ∧ u.halted = s.halted ∧
      u.resetPending = s.resetPending ∧ u.irqQueue = s.irqQueue
    (t.supervisor = false ∧ kept t) ∨
    ∃ (v : Byte) (retpc : Long) (u : State),
      ((3 ≤ v.toNat ∧ v.toNat ≤ 9) ∨ (32 ≤ v.toNat ∧ v.toNat ≤ 47)) ∧ t = raiseVector v retpc u ∧ kept u) ∧
  (∀ (i : Instr) (s t : State), s.supervisor = true → exec i s = .next t → t.supervisor = false →
    (∃ ea, i = .moveToSr ea) ∨ (∃ v, i = .andiToSr v) ∨ (∃ v, i = .eoriToSr v) ∨ i = .rte ∨ ∃ v, i = .stop v)

/-- An odd word or long operand takes vector 3 with pc0 saved in the state with only what came before the access: for ADDI, SUBI,
ANDI, ORI, EORI, CMPI, MOVEA, ADDA, SUBA, CMPA, ADDQ, SUBQ, MULU, MULS, DIVU, DIVS, CHK, the eight memory shifts, MOVE to CCR, MOVE
from SR and, in supervisor mode, MOVE to SR, the pre-decrement and nothing else; for ADDX and SUBX -(Ay),-(Ax) the decrement of Ay
and, when the odd address is that of Ax, of Ax too; for CMPM (Ay)+,(Ax)+ the increment of Ay when the odd address is that of Ax; for a
well-formed MOVEM with a register listed nothing at all, An included. Operands outside the class of the row are terms the decoder
never answers (log entry 12). Rules: R413, R409, R146, R147, R66, R158, R204, R205, R235, R240, R244. -/
def Obligations.OddOperandOfTheOtherFormsTakesTheAddressError : Prop :=
  ∀ (sz : Size) (wl : WordLong) (imm : Long) (q : BitVec 3) (mask : Word) (ea : Ea) (n x y : Reg) (s : State),
    let trap := fun (u : State) => Host.Outcome.next (φ := Fault) (ρ := Refusal) (raiseVector 3 s.pc u)
    (operandReady ea sz (s.pc + 2 + BitVec.ofNat 32 (immBytes sz)) s = false →
      let taken := trap (decremented ea sz s)
      exec (.addi sz imm ea) s = taken ∧ exec (.subi sz imm ea) s = taken ∧ exec (.andi sz imm ea) s = taken ∧
      exec (.ori sz imm ea) s = taken ∧ exec (.eori sz imm ea) s = taken ∧ exec (.cmpi sz imm ea) s = taken) ∧
    (operandReady ea wl.size (s.pc + 2) s = false →
      let taken := trap (decremented ea wl.size s)
      exec (.movea wl n ea) s = taken ∧ exec (.adda wl n ea) s = taken ∧ exec (.suba wl n ea) s = taken ∧
      exec (.cmpa wl n ea) s = taken) ∧
    (operandReady ea sz (s.pc + 2) s = false →
      exec (.addq sz q ea) s = trap (decremented ea sz s) ∧ exec (.subq sz q ea) s = trap (decremented ea sz s)) ∧
    (operandReady ea .w (s.pc + 2) s = false →
      let taken := trap (decremented ea .w s)
      exec (.mulu n ea) s = taken ∧ exec (.muls n ea) s = taken ∧ exec (.divu n ea) s = taken ∧ exec (.divs n ea) s = taken ∧
      exec (.chk n ea) s = taken ∧ exec (.moveToCcr ea) s = taken ∧ exec (.moveFromSr ea) s = taken ∧
      (s.supervisor = true → exec (.moveToSr ea) s = taken) ∧
      exec (.asrMem ea) s = taken ∧ exec (.aslMem ea) s = taken ∧ exec (.lsrMem ea) s = taken ∧ exec (.lslMem ea) s = taken ∧
      exec (.roxrMem ea) s = taken ∧ exec (.roxlMem ea) s = taken ∧ exec (.rorMem ea) s = taken ∧ exec (.rolMem ea) s = taken) ∧
    (operandReady (.preDec y) sz (s.pc + 2) s = false →
      let taken := trap (decremented (.preDec y) sz s)
      exec (.addx sz .preDecs x y) s = taken ∧ exec (.subx sz .preDecs x y) s = taken) ∧
    (operandReady (.preDec y) sz (s.pc + 2) s = true →
      operandReady (.preDec x) sz (s.pc + 2) (sideEffect (.preDec y) sz s) = false →
      let taken := trap (decremented (.preDec x) sz (sideEffect (.preDec y) sz s))
      exec (.addx sz .preDecs x y) s = taken ∧ exec (.subx sz .preDecs x y) s = taken) ∧
    (operandReady (.postInc y) sz (s.pc + 2) s = false → exec (.cmpm sz x y) s = trap s) ∧
    (operandReady (.postInc y) sz (s.pc + 2) s = true →
      operandReady (.postInc x) sz (s.pc + 2) (sideEffect (.postInc y) sz s) = false →
      exec (.cmpm sz x y) s = trap (sideEffect (.postInc y) sz s)) ∧
    (movemReady wl.size mask (movemBase ea s) = false →
      ((Instr.movemToMem wl mask ea).wellFormed = true → exec (.movemToMem wl mask ea) s = trap s) ∧
      ((Instr.movemToRegs wl mask ea).wellFormed = true → exec (.movemToRegs wl mask ea) s = trap s))
end

