-- ==== Sys2Proof/Laws/Decode.lean ====
section
/-! SUPPORT. Each field the decoder reads gives back what the encoder wrote. -/

namespace Sys2Proof

/-! ## Fields -/

/-- The five fields of an opcode word, joined and split again (30_encoding.md R106). -/
@[simp] theorem splitOp_joinOp (f : OpFields) : splitOp (joinOp f) = f := by
  obtain ⟨line, rx, opm, mode, ry⟩ := f
  simp only [splitOp, joinOp, OpFields.mk.injEq]
  refine ⟨?_, ?_, ?_, ?_, ?_⟩ <;>
  · ext k hk
    simp only [← BitVec.getLsbD_eq_getElem, BitVec.getLsbD_extractLsb', BitVec.getLsbD_append]
    repeat' split
    all_goals first
      | (exfalso; omega)
      | (have : decide (k < 4) = true := by simpa using hk
         simp only [this, Bool.true_and]; congr 1; omega)
      | (have : decide (k < 3) = true := by simpa using hk
         simp only [this, Bool.true_and]; congr 1; omega)

@[simp] theorem regOf_regBits (r : Reg) : regOf (regBits r) = r := rfl

@[simp] theorem regBits_regOf (b : BitVec 3) : regBits (regOf b) = b := rfl

@[simp] theorem sizeOf2_sizeBits (sz : Size) : sizeOf2 (sizeBits sz) = some sz := by cases sz <;> rfl

@[simp] theorem condOf_condBits (c : Cond) : condOf (condBits c) = c := by cases c <;> rfl

@[simp] theorem indexOf_indexBits (x : IndexWord) : indexOf (indexBits x) = x := by
  obtain ⟨ia, r, il, sc, d⟩ := x
  have hr : ∀ (r : BitVec 3) (sc : BitVec 2) (ia il : Bool) (d : Byte),
      let w : Word := BitVec.ofBool ia ++ r ++ BitVec.ofBool il ++ sc ++ 0#1 ++ d
      w.getLsbD 15 = ia ∧ w.extractLsb' 12 3 = r ∧ w.getLsbD 11 = il ∧ w.extractLsb' 9 2 = sc ∧ w.extractLsb' 0 8 = d := by
    intro r sc ia il d
    refine ⟨?_, ?_, ?_, ?_, ?_⟩
    · simp only [BitVec.getLsbD_append]; simp
    · ext k hk
      have hd : decide (k < 3) = true := by simpa using hk
      simp only [← BitVec.getLsbD_eq_getElem, BitVec.getLsbD_extractLsb', BitVec.getLsbD_append, hd, Bool.true_and]
      repeat' split
      all_goals first
        | (exfalso; omega)
        | (congr 1; omega)
    · simp only [BitVec.getLsbD_append]; simp
    · ext k hk
      have hd : decide (k < 2) = true := by simpa using hk
      simp only [← BitVec.getLsbD_eq_getElem, BitVec.getLsbD_extractLsb', BitVec.getLsbD_append, hd, Bool.true_and]
      repeat' split
      all_goals first
        | (exfalso; omega)
        | (congr 1; omega)
    · ext k hk
      have hd : decide (k < 8) = true := by simpa using hk
      simp only [← BitVec.getLsbD_eq_getElem, BitVec.getLsbD_extractLsb', BitVec.getLsbD_append, hd, Bool.true_and]
      repeat' split
      all_goals first
        | (exfalso; omega)
        | (congr 1; omega)
  obtain ⟨h1, h2, h3, h4, h5⟩ := hr (regBits r) sc ia il d
  simp only [indexOf, indexBits, h1, h2, h3, h4, h5, regOf_regBits]

/-! ## Extension words -/

@[simp] theorem takeWord_cons (w : Word) (ws : List Word) : takeWord (w :: ws) = .ok (w, ws) := rfl

@[simp] theorem takeLong_longWords (v : Long) (ws : List Word) : takeLong (longWords v ++ ws) = .ok (v, ws) := by
  have : v.extractLsb' 16 16 ++ v.extractLsb' 0 16 = v := by
    ext k hk
    simp only [← BitVec.getLsbD_eq_getElem, BitVec.getLsbD_append, BitVec.getLsbD_extractLsb']
    split
    · simp [*]
    · have h : 16 + (k - 16) = k := by omega
      have h2 : k - 16 < 16 := by omega
      simp [h, h2]
  simp only [longWords, List.cons_append, List.nil_append, takeLong]
  exact congrArg (fun x => Except.ok (x, ws)) this

@[simp] theorem takeByte_setWidth (b : Byte) (ws : List Word) : takeByte (b.setWidth 16 :: ws) = .ok (b, ws) := by
  have : (b.setWidth 16).extractLsb' 0 8 = b := by
    ext k hk
    simp [← BitVec.getLsbD_eq_getElem, BitVec.getLsbD_setWidth, hk]
    omega
  simp only [takeByte, takeWord_cons, this]

/-- A long that fits a size is its low part, zero-extended. -/
theorem setWidth_extract_of_fits {v : Long} {sz : Size} (h : sz.fits v = true) :
    (v.extractLsb' 0 sz.bits).setWidth 32 = v := by
  have hv : v &&& sz.mask = v := by simpa [Size.fits] using h
  have hm : ∀ sz : Size, ∀ k : Fin 32, sz.mask.getLsbD k.val = decide (k.val < sz.bits) := by
    intro sz; cases sz <;> decide
  ext k hk
  have e : v.getLsbD k = (v.getLsbD k && decide (k < sz.bits)) := by
    conv => lhs; rw [← hv]
    rw [BitVec.getLsbD_and, hm sz ⟨k, hk⟩]
  simp only [← BitVec.getLsbD_eq_getElem, BitVec.getLsbD_setWidth, BitVec.getLsbD_extractLsb', hk, decide_true, Bool.true_and,
    Nat.zero_add]
  rw [Bool.and_comm]
  exact e.symm

/-- An immediate that fits its size is read back (30_encoding.md R113). -/
@[simp] theorem takeImm_immWords {sz : Size} {v : Long} (h : sz.fits v = true) (ws : List Word) :
    takeImm sz (immWords sz v ++ ws) = .ok (v, ws) := by
  have hv := setWidth_extract_of_fits h
  cases sz with
  | b => simp only [Size.bits] at hv; simp [takeImm, immWords, hv]
  | w => simp only [Size.bits] at hv; simp [takeImm, immWords, hv]
  | l => simp [takeImm, immWords]

/-- The operand's fields and extension words give the operand back (R110). -/
theorem takeEa_extWords {c : EaClass} {sz : Size} {ea : Ea} (h : ea.ok c sz = true) (ws : List Word) :
    takeEa sz ea.modeBits ea.regField (ea.extWords sz ++ ws) = .ok (some ea, ws) := by
  cases ea with
  | absL a =>
    have := takeLong_longWords a ws
    simp [takeEa, Ea.modeBits, Ea.regField, Ea.extWords, this, Parsed.map]
  | imm v =>
    have hf : sz.fits v = true := by simp [Ea.ok] at h; exact h.2
    have := takeImm_immWords hf ws
    simp [takeEa, Ea.modeBits, Ea.regField, Ea.extWords, this, Parsed.map]
  | _ => simp [takeEa, Ea.modeBits, Ea.regField, Ea.extWords, Parsed.map]

/-! ## Lengths -/

theorem Ea.extWords_length_le (sz : Size) (ea : Ea) : (ea.extWords sz).length ≤ 2 := by
  cases ea <;> simp [Ea.extWords, longWords, immWords]
  cases sz <;> simp

theorem immWords_length (sz : Size) (v : Long) : 1 ≤ (immWords sz v).length ∧ (immWords sz v).length ≤ 2 := by
  cases sz <;> simp [immWords, longWords]

@[simp] theorem encEa_length (line : BitVec 4) (rx opm : BitVec 3) (sz : Size) (ea : Ea) :
    (encEa line rx opm sz ea).length = 1 + (ea.extWords sz).length := by
  simp [encEa]; omega

@[simp] theorem encImm_length (rx : BitVec 3) (sz : Size) (v : Long) (ea : Ea) :
    (encImm rx sz v ea).length = 1 + (immWords sz v).length + (ea.extWords sz).length := by
  simp [encImm]; omega

end Sys2Proof
end

