-- ==== Sys2Proof/Laws/Memory.lean ====
section
/-! SUPPORT. The laws of memory: the canonical form is kept by every operation, a byte written reads back, and a write leaves every other
byte alone. -/

namespace Sys2Proof.Machine

/-! ## The canonical form -/

@[simp] theorem Memory.wf_nil : Memory.wf [] = true := rfl

theorem Memory.wfFrom_mono {lo lo' : Nat} {m : Memory} (h : Memory.wfFrom lo m = true) (hle : lo' ≤ lo) : Memory.wfFrom lo' m = true := by
  cases m with
  | nil => rfl
  | cons c rest =>
    obtain ⟨k, v⟩ := c
    simp only [Memory.wfFrom, Bool.and_eq_true, decide_eq_true_eq, bne_iff_ne] at h ⊢
    exact ⟨⟨⟨by omega, h.1.1.2⟩, h.1.2⟩, h.2⟩

theorem Memory.wfFrom_write {lo a : Nat} {b : Byte} (m : Memory) (h : Memory.wfFrom lo m = true) (hlo : lo ≤ a)
    (ha : a < Config.memSize) : Memory.wfFrom lo (m.write a b) = true := by
  induction m generalizing lo with
  | nil => by_cases hb : b = Memory.blank <;> simp [Memory.write, Memory.wfFrom, hb, hlo, ha]
  | cons c rest ih =>
    obtain ⟨k, v⟩ := c
    simp only [Memory.wfFrom, Bool.and_eq_true, decide_eq_true_eq, bne_iff_ne] at h
    obtain ⟨⟨⟨h1, h2⟩, h3⟩, h4⟩ := h
    simp only [Memory.write]
    by_cases hak : a < k
    · by_cases hb : b = Memory.blank
      · simp [hak, hb, Memory.wfFrom, h1, h2, h3, h4]
      · simp [hak, hb, Memory.wfFrom, h2, h3, h4, hlo, ha]
    · by_cases hek : a = k
      · subst hek
        by_cases hb : b = Memory.blank
        · simpa [hb] using Memory.wfFrom_mono h4 (by omega)
        · simp [hb, Memory.wfFrom, h4, hlo, ha]
      · simp only [hak, hek, if_false, Memory.wfFrom, Bool.and_eq_true, decide_eq_true_eq, bne_iff_ne]
        exact ⟨⟨⟨h1, h2⟩, h3⟩, ih h4 (by omega)⟩

/-- Writing a byte inside the address space keeps the canonical form. -/
theorem Memory.wf_write {m : Memory} (h : m.wf = true) {a : Nat} (ha : a < Config.memSize) (b : Byte) : (m.write a b).wf = true :=
  Memory.wfFrom_write m h (Nat.zero_le a) ha

theorem phys_lt (a : Long) : phys a < Config.memSize := Nat.mod_lt _ (by decide)

theorem Memory.wf_putAt {m : Memory} (h : m.wf = true) (a : Long) (i : Nat) (b : Byte) : (m.putAt a i b).wf = true :=
  Memory.wf_write h (phys_lt _) b

/-- A store at any size keeps the canonical form. -/
theorem Memory.wf_store {m : Memory} (h : m.wf = true) (a : Long) (sz : Size) (v : Long) : (m.store a sz v).wf = true := by
  cases sz <;> simp only [Memory.store]
  · exact Memory.wf_putAt h ..
  · exact Memory.wf_putAt (Memory.wf_putAt h ..) ..
  · exact Memory.wf_putAt (Memory.wf_putAt (Memory.wf_putAt (Memory.wf_putAt h ..) ..) ..) ..

/-- Below its first entry a canonical memory is blank. -/
theorem Memory.wfFrom_read_below {lo a : Nat} {m : Memory} (h : Memory.wfFrom lo m = true) (ha : a < lo) : m.read a = Memory.blank := by
  induction m generalizing lo with
  | nil => rfl
  | cons c rest ih =>
    obtain ⟨k, v⟩ := c
    simp only [Memory.wfFrom, Bool.and_eq_true, decide_eq_true_eq, bne_iff_ne] at h
    have hk : k ≠ a := by omega
    simp only [Memory.read, hk, if_false]
    exact ih h.2 (by omega)

/-! ## Reading after writing -/

/-- A write leaves every other byte alone, in every memory. -/
theorem Memory.read_write_other (m : Memory) {a k : Nat} (b : Byte) (hk : k ≠ a) : (m.write a b).read k = m.read k := by
  have hk' : a ≠ k := fun e => hk e.symm
  induction m with
  | nil => by_cases hb : b = Memory.blank <;> simp [Memory.write, Memory.read, hb, hk']
  | cons c rest ih =>
    obtain ⟨j, v⟩ := c
    simp only [Memory.write]
    by_cases haj : a < j
    · by_cases hb : b = Memory.blank <;> simp [haj, hb, Memory.read, hk']
    · by_cases hej : a = j
      · subst hej
        by_cases hb : b = Memory.blank <;> simp [hb, Memory.read, hk']
      · simp only [haj, hej, if_false, Memory.read, ih]

/-- A byte written reads back, in a canonical memory. -/
theorem Memory.read_write_same_from {lo : Nat} (m : Memory) (h : Memory.wfFrom lo m = true) (a : Nat) (b : Byte) :
    (m.write a b).read a = b := by
  induction m generalizing lo with
  | nil => by_cases hb : b = Memory.blank <;> simp [Memory.write, Memory.read, hb]
  | cons c rest ih =>
    obtain ⟨j, v⟩ := c
    simp only [Memory.wfFrom, Bool.and_eq_true, decide_eq_true_eq, bne_iff_ne] at h
    obtain ⟨_, h4⟩ := h
    simp only [Memory.write]
    by_cases haj : a < j
    · by_cases hb : b = Memory.blank
      · have hj : j ≠ a := by omega
        simp [haj, hb, Memory.read, hj, Memory.wfFrom_read_below h4 (show a < j + 1 by omega)]
      · simp [haj, hb, Memory.read]
    · by_cases hej : a = j
      · subst hej
        by_cases hb : b = Memory.blank
        · simp [hb, Memory.wfFrom_read_below h4 (show a < a + 1 by omega)]
        · simp [hb, Memory.read]
      · have hj : j ≠ a := fun e => hej e.symm
        simp [haj, hej, Memory.read, hj, ih h4]

/-- A byte written reads back. -/
@[simp] theorem Memory.read_write_same {m : Memory} (h : m.wf = true) (a : Nat) (b : Byte) : (m.write a b).read a = b :=
  Memory.read_write_same_from m h a b

/-- Reading after writing, in one equation. -/
theorem Memory.read_write {m : Memory} (h : m.wf = true) (a k : Nat) (b : Byte) :
    (m.write a b).read k = if k = a then b else m.read k := by
  by_cases hk : k = a
  · subst hk; simp [h]
  · simp [hk, Memory.read_write_other m b hk]

/-! ## Wider accesses -/

/-- The byte addresses of a store (20_memory.md R62). -/
theorem Memory.read_putAt {m : Memory} (h : m.wf = true) (a : Long) (i k : Nat) (b : Byte) :
    (m.putAt a i b).read k = if k = phys (a + BitVec.ofNat 32 i) then b else m.read k := Memory.read_write h ..

/-- Two bytes less than 2^24 apart have different masked addresses (R62). -/
theorem phys_add_ne (a : Long) {i j : Nat} (hi : i < 64) (hj : j < 64) (hij : i ≠ j) :
    phys (a + BitVec.ofNat 32 i) ≠ phys (a + BitVec.ofNat 32 j) := by
  simp only [phys, Config.memSize, BitVec.toNat_add, BitVec.toNat_ofNat]
  omega

/-- A store leaves every byte outside its own alone, in every memory. -/
theorem Memory.read_store_other (m : Memory) (a : Long) (sz : Size) (v : Long) {k : Nat}
    (h : ∀ i, i < sz.bytes → k ≠ phys (a + BitVec.ofNat 32 i)) : (m.store a sz v).read k = m.read k := by
  cases sz <;> simp only [Size.bytes] at h <;>
    simp only [Memory.store, Memory.putAt]
  · rw [Memory.read_write_other _ _ (h 0 (by omega))]
  · rw [Memory.read_write_other _ _ (h 1 (by omega)), Memory.read_write_other _ _ (h 0 (by omega))]
  · rw [Memory.read_write_other _ _ (h 3 (by omega)), Memory.read_write_other _ _ (h 2 (by omega)),
      Memory.read_write_other _ _ (h 1 (by omega)), Memory.read_write_other _ _ (h 0 (by omega))]

end Sys2Proof.Machine
end

