-- ==== Sys2Proof/Laws/State.lean ====
section
/-! SUPPORT. One lemma per field of State and per named update, and the read-after-write laws of the registers. -/

namespace Sys2Proof.Machine

/-! ## `setDreg` -/

@[simp] theorem State.a_setDreg (s : State) (n : Reg) (v : Long) : (s.setDreg n v).a = s.a := rfl
@[simp] theorem State.usp_setDreg (s : State) (n : Reg) (v : Long) : (s.setDreg n v).usp = s.usp := rfl
@[simp] theorem State.ssp_setDreg (s : State) (n : Reg) (v : Long) : (s.setDreg n v).ssp = s.ssp := rfl
@[simp] theorem State.pc_setDreg (s : State) (n : Reg) (v : Long) : (s.setDreg n v).pc = s.pc := rfl
@[simp] theorem State.sr_setDreg (s : State) (n : Reg) (v : Long) : (s.setDreg n v).sr = s.sr := rfl
@[simp] theorem State.mem_setDreg (s : State) (n : Reg) (v : Long) : (s.setDreg n v).mem = s.mem := rfl
@[simp] theorem State.resetPending_setDreg (s : State) (n : Reg) (v : Long) : (s.setDreg n v).resetPending = s.resetPending := rfl
@[simp] theorem State.stopped_setDreg (s : State) (n : Reg) (v : Long) : (s.setDreg n v).stopped = s.stopped := rfl
@[simp] theorem State.halted_setDreg (s : State) (n : Reg) (v : Long) : (s.setDreg n v).halted = s.halted := rfl
@[simp] theorem State.irqQueue_setDreg (s : State) (n : Reg) (v : Long) : (s.setDreg n v).irqQueue = s.irqQueue := rfl
@[simp] theorem State.params_setDreg (s : State) (n : Reg) (v : Long) : (s.setDreg n v).params = s.params := rfl

/-! ## `writeD` -/

@[simp] theorem State.a_writeD (s : State) (n : Reg) (sz : Size) (v : Long) : (s.writeD n sz v).a = s.a := rfl
@[simp] theorem State.usp_writeD (s : State) (n : Reg) (sz : Size) (v : Long) : (s.writeD n sz v).usp = s.usp := rfl
@[simp] theorem State.ssp_writeD (s : State) (n : Reg) (sz : Size) (v : Long) : (s.writeD n sz v).ssp = s.ssp := rfl
@[simp] theorem State.pc_writeD (s : State) (n : Reg) (sz : Size) (v : Long) : (s.writeD n sz v).pc = s.pc := rfl
@[simp] theorem State.sr_writeD (s : State) (n : Reg) (sz : Size) (v : Long) : (s.writeD n sz v).sr = s.sr := rfl
@[simp] theorem State.mem_writeD (s : State) (n : Reg) (sz : Size) (v : Long) : (s.writeD n sz v).mem = s.mem := rfl
@[simp] theorem State.resetPending_writeD (s : State) (n : Reg) (sz : Size) (v : Long) : (s.writeD n sz v).resetPending = s.resetPending := rfl
@[simp] theorem State.stopped_writeD (s : State) (n : Reg) (sz : Size) (v : Long) : (s.writeD n sz v).stopped = s.stopped := rfl
@[simp] theorem State.halted_writeD (s : State) (n : Reg) (sz : Size) (v : Long) : (s.writeD n sz v).halted = s.halted := rfl
@[simp] theorem State.irqQueue_writeD (s : State) (n : Reg) (sz : Size) (v : Long) : (s.writeD n sz v).irqQueue = s.irqQueue := rfl
@[simp] theorem State.params_writeD (s : State) (n : Reg) (sz : Size) (v : Long) : (s.writeD n sz v).params = s.params := rfl

/-! ## `setCcr` -/

@[simp] theorem State.d_setCcr (s : State) (f : Ccr) : (s.setCcr f).d = s.d := rfl
@[simp] theorem State.a_setCcr (s : State) (f : Ccr) : (s.setCcr f).a = s.a := rfl
@[simp] theorem State.usp_setCcr (s : State) (f : Ccr) : (s.setCcr f).usp = s.usp := rfl
@[simp] theorem State.ssp_setCcr (s : State) (f : Ccr) : (s.setCcr f).ssp = s.ssp := rfl
@[simp] theorem State.pc_setCcr (s : State) (f : Ccr) : (s.setCcr f).pc = s.pc := rfl
@[simp] theorem State.mem_setCcr (s : State) (f : Ccr) : (s.setCcr f).mem = s.mem := rfl
@[simp] theorem State.resetPending_setCcr (s : State) (f : Ccr) : (s.setCcr f).resetPending = s.resetPending := rfl
@[simp] theorem State.stopped_setCcr (s : State) (f : Ccr) : (s.setCcr f).stopped = s.stopped := rfl
@[simp] theorem State.halted_setCcr (s : State) (f : Ccr) : (s.setCcr f).halted = s.halted := rfl
@[simp] theorem State.irqQueue_setCcr (s : State) (f : Ccr) : (s.setCcr f).irqQueue = s.irqQueue := rfl
@[simp] theorem State.params_setCcr (s : State) (f : Ccr) : (s.setCcr f).params = s.params := rfl

/-! ## `writeSr` -/

@[simp] theorem State.d_writeSr (s : State) (v : Word) : (s.writeSr v).d = s.d := rfl
@[simp] theorem State.a_writeSr (s : State) (v : Word) : (s.writeSr v).a = s.a := rfl
@[simp] theorem State.usp_writeSr (s : State) (v : Word) : (s.writeSr v).usp = s.usp := rfl
@[simp] theorem State.ssp_writeSr (s : State) (v : Word) : (s.writeSr v).ssp = s.ssp := rfl
@[simp] theorem State.pc_writeSr (s : State) (v : Word) : (s.writeSr v).pc = s.pc := rfl
@[simp] theorem State.mem_writeSr (s : State) (v : Word) : (s.writeSr v).mem = s.mem := rfl
@[simp] theorem State.resetPending_writeSr (s : State) (v : Word) : (s.writeSr v).resetPending = s.resetPending := rfl
@[simp] theorem State.stopped_writeSr (s : State) (v : Word) : (s.writeSr v).stopped = s.stopped := rfl
@[simp] theorem State.halted_writeSr (s : State) (v : Word) : (s.writeSr v).halted = s.halted := rfl
@[simp] theorem State.irqQueue_writeSr (s : State) (v : Word) : (s.writeSr v).irqQueue = s.irqQueue := rfl
@[simp] theorem State.params_writeSr (s : State) (v : Word) : (s.writeSr v).params = s.params := rfl

/-! ## `writeCcr` -/

@[simp] theorem State.d_writeCcr (s : State) (v : Byte) : (s.writeCcr v).d = s.d := rfl
@[simp] theorem State.a_writeCcr (s : State) (v : Byte) : (s.writeCcr v).a = s.a := rfl
@[simp] theorem State.usp_writeCcr (s : State) (v : Byte) : (s.writeCcr v).usp = s.usp := rfl
@[simp] theorem State.ssp_writeCcr (s : State) (v : Byte) : (s.writeCcr v).ssp = s.ssp := rfl
@[simp] theorem State.pc_writeCcr (s : State) (v : Byte) : (s.writeCcr v).pc = s.pc := rfl
@[simp] theorem State.mem_writeCcr (s : State) (v : Byte) : (s.writeCcr v).mem = s.mem := rfl
@[simp] theorem State.resetPending_writeCcr (s : State) (v : Byte) : (s.writeCcr v).resetPending = s.resetPending := rfl
@[simp] theorem State.stopped_writeCcr (s : State) (v : Byte) : (s.writeCcr v).stopped = s.stopped := rfl
@[simp] theorem State.halted_writeCcr (s : State) (v : Byte) : (s.writeCcr v).halted = s.halted := rfl
@[simp] theorem State.irqQueue_writeCcr (s : State) (v : Byte) : (s.writeCcr v).irqQueue = s.irqQueue := rfl
@[simp] theorem State.params_writeCcr (s : State) (v : Byte) : (s.writeCcr v).params = s.params := rfl

/-! ## `setSp` -/

@[simp] theorem State.d_setSp (s : State) (v : Long) : (s.setSp v).d = s.d := by unfold State.setSp; split <;> rfl
@[simp] theorem State.a_setSp (s : State) (v : Long) : (s.setSp v).a = s.a := by unfold State.setSp; split <;> rfl
@[simp] theorem State.pc_setSp (s : State) (v : Long) : (s.setSp v).pc = s.pc := by unfold State.setSp; split <;> rfl
@[simp] theorem State.sr_setSp (s : State) (v : Long) : (s.setSp v).sr = s.sr := by unfold State.setSp; split <;> rfl
@[simp] theorem State.mem_setSp (s : State) (v : Long) : (s.setSp v).mem = s.mem := by unfold State.setSp; split <;> rfl
@[simp] theorem State.resetPending_setSp (s : State) (v : Long) : (s.setSp v).resetPending = s.resetPending := by unfold State.setSp; split <;> rfl
@[simp] theorem State.stopped_setSp (s : State) (v : Long) : (s.setSp v).stopped = s.stopped := by unfold State.setSp; split <;> rfl
@[simp] theorem State.halted_setSp (s : State) (v : Long) : (s.setSp v).halted = s.halted := by unfold State.setSp; split <;> rfl
@[simp] theorem State.irqQueue_setSp (s : State) (v : Long) : (s.setSp v).irqQueue = s.irqQueue := by unfold State.setSp; split <;> rfl
@[simp] theorem State.params_setSp (s : State) (v : Long) : (s.setSp v).params = s.params := by unfold State.setSp; split <;> rfl

/-! ## `setAreg` -/

@[simp] theorem State.d_setAreg (s : State) (n : Reg) (v : Long) : (s.setAreg n v).d = s.d := by unfold State.setAreg; split <;> simp
@[simp] theorem State.pc_setAreg (s : State) (n : Reg) (v : Long) : (s.setAreg n v).pc = s.pc := by unfold State.setAreg; split <;> simp
@[simp] theorem State.sr_setAreg (s : State) (n : Reg) (v : Long) : (s.setAreg n v).sr = s.sr := by unfold State.setAreg; split <;> simp
@[simp] theorem State.mem_setAreg (s : State) (n : Reg) (v : Long) : (s.setAreg n v).mem = s.mem := by unfold State.setAreg; split <;> simp
@[simp] theorem State.resetPending_setAreg (s : State) (n : Reg) (v : Long) : (s.setAreg n v).resetPending = s.resetPending := by unfold State.setAreg; split <;> simp
@[simp] theorem State.stopped_setAreg (s : State) (n : Reg) (v : Long) : (s.setAreg n v).stopped = s.stopped := by unfold State.setAreg; split <;> simp
@[simp] theorem State.halted_setAreg (s : State) (n : Reg) (v : Long) : (s.setAreg n v).halted = s.halted := by unfold State.setAreg; split <;> simp
@[simp] theorem State.irqQueue_setAreg (s : State) (n : Reg) (v : Long) : (s.setAreg n v).irqQueue = s.irqQueue := by unfold State.setAreg; split <;> simp
@[simp] theorem State.params_setAreg (s : State) (n : Reg) (v : Long) : (s.setAreg n v).params = s.params := by unfold State.setAreg; split <;> simp

/-! ## `setMovemReg` -/

@[simp] theorem State.pc_setMovemReg (s : State) (k : Fin 16) (v : Long) : (s.setMovemReg k v).pc = s.pc := by unfold State.setMovemReg; split <;> simp
@[simp] theorem State.sr_setMovemReg (s : State) (k : Fin 16) (v : Long) : (s.setMovemReg k v).sr = s.sr := by unfold State.setMovemReg; split <;> simp
@[simp] theorem State.mem_setMovemReg (s : State) (k : Fin 16) (v : Long) : (s.setMovemReg k v).mem = s.mem := by unfold State.setMovemReg; split <;> simp
@[simp] theorem State.resetPending_setMovemReg (s : State) (k : Fin 16) (v : Long) : (s.setMovemReg k v).resetPending = s.resetPending := by unfold State.setMovemReg; split <;> simp
@[simp] theorem State.stopped_setMovemReg (s : State) (k : Fin 16) (v : Long) : (s.setMovemReg k v).stopped = s.stopped := by unfold State.setMovemReg; split <;> simp
@[simp] theorem State.halted_setMovemReg (s : State) (k : Fin 16) (v : Long) : (s.setMovemReg k v).halted = s.halted := by unfold State.setMovemReg; split <;> simp
@[simp] theorem State.irqQueue_setMovemReg (s : State) (k : Fin 16) (v : Long) : (s.setMovemReg k v).irqQueue = s.irqQueue := by unfold State.setMovemReg; split <;> simp
@[simp] theorem State.params_setMovemReg (s : State) (k : Fin 16) (v : Long) : (s.setMovemReg k v).params = s.params := by unfold State.setMovemReg; split <;> simp

/-! ## `advance` -/

@[simp] theorem State.d_advance (s : State) (n : Nat) : (advance n s).d = s.d := rfl
@[simp] theorem State.a_advance (s : State) (n : Nat) : (advance n s).a = s.a := rfl
@[simp] theorem State.usp_advance (s : State) (n : Nat) : (advance n s).usp = s.usp := rfl
@[simp] theorem State.ssp_advance (s : State) (n : Nat) : (advance n s).ssp = s.ssp := rfl
@[simp] theorem State.sr_advance (s : State) (n : Nat) : (advance n s).sr = s.sr := rfl
@[simp] theorem State.mem_advance (s : State) (n : Nat) : (advance n s).mem = s.mem := rfl
@[simp] theorem State.resetPending_advance (s : State) (n : Nat) : (advance n s).resetPending = s.resetPending := rfl
@[simp] theorem State.stopped_advance (s : State) (n : Nat) : (advance n s).stopped = s.stopped := rfl
@[simp] theorem State.halted_advance (s : State) (n : Nat) : (advance n s).halted = s.halted := rfl
@[simp] theorem State.irqQueue_advance (s : State) (n : Nat) : (advance n s).irqQueue = s.irqQueue := rfl
@[simp] theorem State.params_advance (s : State) (n : Nat) : (advance n s).params = s.params := rfl

/-! ## `jumpTo` -/

@[simp] theorem State.d_jumpTo (s : State) (t : Long) : (jumpTo t s).d = s.d := rfl
@[simp] theorem State.a_jumpTo (s : State) (t : Long) : (jumpTo t s).a = s.a := rfl
@[simp] theorem State.usp_jumpTo (s : State) (t : Long) : (jumpTo t s).usp = s.usp := rfl
@[simp] theorem State.ssp_jumpTo (s : State) (t : Long) : (jumpTo t s).ssp = s.ssp := rfl
@[simp] theorem State.sr_jumpTo (s : State) (t : Long) : (jumpTo t s).sr = s.sr := rfl
@[simp] theorem State.mem_jumpTo (s : State) (t : Long) : (jumpTo t s).mem = s.mem := rfl
@[simp] theorem State.resetPending_jumpTo (s : State) (t : Long) : (jumpTo t s).resetPending = s.resetPending := rfl
@[simp] theorem State.stopped_jumpTo (s : State) (t : Long) : (jumpTo t s).stopped = s.stopped := rfl
@[simp] theorem State.halted_jumpTo (s : State) (t : Long) : (jumpTo t s).halted = s.halted := rfl
@[simp] theorem State.irqQueue_jumpTo (s : State) (t : Long) : (jumpTo t s).irqQueue = s.irqQueue := rfl
@[simp] theorem State.params_jumpTo (s : State) (t : Long) : (jumpTo t s).params = s.params := rfl

/-! ## `hostReset` -/

@[simp] theorem State.d_hostReset (s : State)  : (s.hostReset).d = s.d := rfl
@[simp] theorem State.a_hostReset (s : State)  : (s.hostReset).a = s.a := rfl
@[simp] theorem State.usp_hostReset (s : State)  : (s.hostReset).usp = s.usp := rfl
@[simp] theorem State.ssp_hostReset (s : State)  : (s.hostReset).ssp = s.ssp := rfl
@[simp] theorem State.pc_hostReset (s : State)  : (s.hostReset).pc = s.pc := rfl
@[simp] theorem State.sr_hostReset (s : State)  : (s.hostReset).sr = s.sr := rfl
@[simp] theorem State.mem_hostReset (s : State)  : (s.hostReset).mem = s.mem := rfl
@[simp] theorem State.stopped_hostReset (s : State)  : (s.hostReset).stopped = s.stopped := rfl
@[simp] theorem State.halted_hostReset (s : State)  : (s.hostReset).halted = s.halted := rfl
@[simp] theorem State.irqQueue_hostReset (s : State)  : (s.hostReset).irqQueue = s.irqQueue := rfl
@[simp] theorem State.params_hostReset (s : State)  : (s.hostReset).params = s.params := rfl

/-! ## Written values -/

@[simp] theorem State.d_setDreg (s : State) (n : Reg) (v : Long) : (s.setDreg n v).d = s.d.set n.val v n.isLt := rfl
@[simp] theorem State.pc_advance (s : State) (n : Nat) : (advance n s).pc = s.pc + BitVec.ofNat 32 n := rfl
@[simp] theorem State.pc_jumpTo (s : State) (t : Long) : (jumpTo t s).pc = t := rfl
@[simp] theorem State.sr_writeSr (s : State) (v : Word) : (s.writeSr v).sr = v &&& srImplMask := rfl
@[simp] theorem State.resetPending_hostReset (s : State) : s.hostReset.resetPending = true := rfl

theorem State.dreg_setDreg (s : State) (n m : Reg) (v : Long) : (s.setDreg n v).dreg m = if m = n then v else s.dreg m := by
  show (s.d.set n.val v n.isLt)[m.val] = if m = n then v else s.d[m.val]
  rw [Vector.getElem_set]
  simp only [Fin.ext_iff, eq_comm]

@[simp] theorem State.dreg_setDreg_same (s : State) (n : Reg) (v : Long) : (s.setDreg n v).dreg n = v := by simp [State.dreg_setDreg]

/-! ## Reads that an update leaves -/

@[simp] theorem State.dreg_setCcr (s : State) (f : Ccr) (n : Reg) : (s.setCcr f).dreg n = s.dreg n := by simp [State.dreg]
@[simp] theorem State.dreg_setAreg (s : State) (m : Reg) (v : Long) (n : Reg) : (s.setAreg m v).dreg n = s.dreg n := by simp [State.dreg]
@[simp] theorem State.dreg_setSp (s : State) (v : Long) (n : Reg) : (s.setSp v).dreg n = s.dreg n := by simp [State.dreg]
@[simp] theorem State.dreg_writeSr (s : State) (v : Word) (n : Reg) : (s.writeSr v).dreg n = s.dreg n := by simp [State.dreg]
@[simp] theorem State.dreg_writeCcr (s : State) (v : Byte) (n : Reg) : (s.writeCcr v).dreg n = s.dreg n := by simp [State.dreg]
@[simp] theorem State.dreg_advance (s : State) (k : Nat) (n : Reg) : (advance k s).dreg n = s.dreg n := by simp [State.dreg]
@[simp] theorem State.areg_advance (s : State) (k : Nat) (n : Reg) : (advance k s).areg n = s.areg n := rfl
@[simp] theorem State.dreg_jumpTo (s : State) (t : Long) (n : Reg) : (jumpTo t s).dreg n = s.dreg n := by simp [State.dreg]
@[simp] theorem State.areg_jumpTo (s : State) (t : Long) (n : Reg) : (jumpTo t s).areg n = s.areg n := rfl
@[simp] theorem State.areg_setDreg (s : State) (m : Reg) (v : Long) (n : Reg) : (s.setDreg m v).areg n = s.areg n := rfl
@[simp] theorem State.areg_writeD (s : State) (m : Reg) (sz : Size) (v : Long) (n : Reg) : (s.writeD m sz v).areg n = s.areg n := rfl

@[simp] theorem State.supervisor_setDreg (s : State) (n : Reg) (v : Long) : (s.setDreg n v).supervisor = s.supervisor := by simp [State.supervisor]
@[simp] theorem State.ccr_setDreg (s : State) (n : Reg) (v : Long) : (s.setDreg n v).ccr = s.ccr := by simp [State.ccr]
@[simp] theorem State.readSr_setDreg (s : State) (n : Reg) (v : Long) : (s.setDreg n v).readSr = s.readSr := by simp [State.readSr]
@[simp] theorem State.readCcr_setDreg (s : State) (n : Reg) (v : Long) : (s.setDreg n v).readCcr = s.readCcr := by simp [State.readCcr]
@[simp] theorem State.irqMask_setDreg (s : State) (n : Reg) (v : Long) : (s.setDreg n v).irqMask = s.irqMask := by simp [State.irqMask]
@[simp] theorem State.traced_setDreg (s : State) (n : Reg) (v : Long) : (s.setDreg n v).traced = s.traced := by simp [State.traced, State.traceEnabled]
@[simp] theorem State.supervisor_writeD (s : State) (n : Reg) (sz : Size) (v : Long) : (s.writeD n sz v).supervisor = s.supervisor := by simp [State.supervisor]
@[simp] theorem State.ccr_writeD (s : State) (n : Reg) (sz : Size) (v : Long) : (s.writeD n sz v).ccr = s.ccr := by simp [State.ccr]
@[simp] theorem State.readSr_writeD (s : State) (n : Reg) (sz : Size) (v : Long) : (s.writeD n sz v).readSr = s.readSr := by simp [State.readSr]
@[simp] theorem State.readCcr_writeD (s : State) (n : Reg) (sz : Size) (v : Long) : (s.writeD n sz v).readCcr = s.readCcr := by simp [State.readCcr]
@[simp] theorem State.irqMask_writeD (s : State) (n : Reg) (sz : Size) (v : Long) : (s.writeD n sz v).irqMask = s.irqMask := by simp [State.irqMask]
@[simp] theorem State.traced_writeD (s : State) (n : Reg) (sz : Size) (v : Long) : (s.writeD n sz v).traced = s.traced := by simp [State.traced, State.traceEnabled]
@[simp] theorem State.supervisor_setAreg (s : State) (n : Reg) (v : Long) : (s.setAreg n v).supervisor = s.supervisor := by simp [State.supervisor]
@[simp] theorem State.ccr_setAreg (s : State) (n : Reg) (v : Long) : (s.setAreg n v).ccr = s.ccr := by simp [State.ccr]
@[simp] theorem State.readSr_setAreg (s : State) (n : Reg) (v : Long) : (s.setAreg n v).readSr = s.readSr := by simp [State.readSr]
@[simp] theorem State.readCcr_setAreg (s : State) (n : Reg) (v : Long) : (s.setAreg n v).readCcr = s.readCcr := by simp [State.readCcr]
@[simp] theorem State.irqMask_setAreg (s : State) (n : Reg) (v : Long) : (s.setAreg n v).irqMask = s.irqMask := by simp [State.irqMask]
@[simp] theorem State.traced_setAreg (s : State) (n : Reg) (v : Long) : (s.setAreg n v).traced = s.traced := by simp [State.traced, State.traceEnabled]
@[simp] theorem State.supervisor_setSp (s : State) (v : Long) : (s.setSp v).supervisor = s.supervisor := by simp [State.supervisor]
@[simp] theorem State.ccr_setSp (s : State) (v : Long) : (s.setSp v).ccr = s.ccr := by simp [State.ccr]
@[simp] theorem State.readSr_setSp (s : State) (v : Long) : (s.setSp v).readSr = s.readSr := by simp [State.readSr]
@[simp] theorem State.readCcr_setSp (s : State) (v : Long) : (s.setSp v).readCcr = s.readCcr := by simp [State.readCcr]
@[simp] theorem State.irqMask_setSp (s : State) (v : Long) : (s.setSp v).irqMask = s.irqMask := by simp [State.irqMask]
@[simp] theorem State.traced_setSp (s : State) (v : Long) : (s.setSp v).traced = s.traced := by simp [State.traced, State.traceEnabled]
@[simp] theorem State.supervisor_advance (s : State) (n : Nat) : (advance n s).supervisor = s.supervisor := by simp [State.supervisor]
@[simp] theorem State.ccr_advance (s : State) (n : Nat) : (advance n s).ccr = s.ccr := by simp [State.ccr]
@[simp] theorem State.readSr_advance (s : State) (n : Nat) : (advance n s).readSr = s.readSr := by simp [State.readSr]
@[simp] theorem State.readCcr_advance (s : State) (n : Nat) : (advance n s).readCcr = s.readCcr := by simp [State.readCcr]
@[simp] theorem State.irqMask_advance (s : State) (n : Nat) : (advance n s).irqMask = s.irqMask := by simp [State.irqMask]
@[simp] theorem State.traced_advance (s : State) (n : Nat) : (advance n s).traced = s.traced := by simp [State.traced, State.traceEnabled]
@[simp] theorem State.supervisor_jumpTo (s : State) (t : Long) : (jumpTo t s).supervisor = s.supervisor := by simp [State.supervisor]
@[simp] theorem State.ccr_jumpTo (s : State) (t : Long) : (jumpTo t s).ccr = s.ccr := by simp [State.ccr]
@[simp] theorem State.readSr_jumpTo (s : State) (t : Long) : (jumpTo t s).readSr = s.readSr := by simp [State.readSr]
@[simp] theorem State.readCcr_jumpTo (s : State) (t : Long) : (jumpTo t s).readCcr = s.readCcr := by simp [State.readCcr]
@[simp] theorem State.irqMask_jumpTo (s : State) (t : Long) : (jumpTo t s).irqMask = s.irqMask := by simp [State.irqMask]
@[simp] theorem State.traced_jumpTo (s : State) (t : Long) : (jumpTo t s).traced = s.traced := by simp [State.traced, State.traceEnabled]

/-! ## Condition codes -/

/-- Bits 15:5 of SR stay, bits 4:0 are the flags. -/
theorem State.getLsbD_sr_setCcr (s : State) (f : Ccr) (k : Nat) :
    (s.setCcr f).sr.getLsbD k = if k < 5 then f.bits.getLsbD k else s.sr.getLsbD k := by
  by_cases h : k < 5
  · simp only [State.setCcr, BitVec.getLsbD_append, h, if_true]
  · have h2 : 5 + (k - 5) = k := by omega
    simp only [State.setCcr, BitVec.getLsbD_append, h, if_false, BitVec.getLsbD_extractLsb', h2]
    by_cases h3 : k - 5 < 11
    · simp [h3]
    · have : ¬ k < 16 := by omega
      simp [h3, BitVec.getLsbD_of_ge s.sr k (by omega)]

@[simp] theorem State.ccr_setCcr (s : State) (f : Ccr) : (s.setCcr f).ccr = f := by
  have h : ∀ x n z v c : Bool, let g : Ccr := { x := x, n := n, z := z, v := v, c := c }
      (g.bits.getLsbD 4 = x ∧ g.bits.getLsbD 3 = n ∧ g.bits.getLsbD 2 = z ∧ g.bits.getLsbD 1 = v ∧ g.bits.getLsbD 0 = c) := by
    decide
  obtain ⟨h4, h3, h2, h1, h0⟩ := h f.x f.n f.z f.v f.c
  simp only [State.ccr, State.getLsbD_sr_setCcr, Nat.lt_add_one, Nat.reduceLT, if_true, h4, h3, h2, h1, h0]

@[simp] theorem State.supervisor_setCcr (s : State) (f : Ccr) : (s.setCcr f).supervisor = s.supervisor := by
  simp only [State.supervisor, State.getLsbD_sr_setCcr, Nat.reduceLT, if_false]

@[simp] theorem State.traced_setCcr (s : State) (f : Ccr) : (s.setCcr f).traced = s.traced := by
  simp only [State.traced, State.traceEnabled, State.getLsbD_sr_setCcr, State.params_setCcr, Nat.reduceLT, if_false]

@[simp] theorem State.supervisor_writeCcr (s : State) (v : Byte) : (s.writeCcr v).supervisor = s.supervisor := by
  simp [State.supervisor, State.writeCcr]

@[simp] theorem State.setCcr_setCcr (s : State) (f g : Ccr) : (s.setCcr f).setCcr g = s.setCcr g := by
  have h : (s.setCcr f).sr.extractLsb' 5 11 = s.sr.extractLsb' 5 11 := by
    ext k hk
    simp [← BitVec.getLsbD_eq_getElem, State.getLsbD_sr_setCcr]
  show ({ s.setCcr f with sr := (s.setCcr f).sr.extractLsb' 5 11 ++ g.bits } : State) = _
  rw [h]; rfl

/-! ## Address registers -/

@[simp] theorem State.sp_setCcr (s : State) (f : Ccr) : (s.setCcr f).sp = s.sp := by simp [State.sp]

@[simp] theorem State.areg_setCcr (s : State) (f : Ccr) (n : Reg) : (s.setCcr f).areg n = s.areg n := by simp [State.areg]

@[simp] theorem State.sp_setSp (s : State) (v : Long) : (s.setSp v).sp = v := by
  simp only [State.sp, State.supervisor_setSp]
  cases h : s.supervisor <;> simp [State.setSp, h]

@[simp] theorem State.setSp_setSp (s : State) (v w : Long) : (s.setSp v).setSp w = s.setSp w := by
  rw [State.setSp, State.supervisor_setSp]
  cases h : s.supervisor <;> simp [State.setSp, h]

theorem State.areg_seven (s : State) : s.areg 7 = s.sp := by simp [State.areg]

theorem State.setAreg_seven (s : State) (v : Long) : s.setAreg 7 v = s.setSp v := by simp [State.setAreg]

@[simp] theorem State.sp_setAreg_low (s : State) (n : Reg) (v : Long) (h : n.val < 7) : (s.setAreg n v).sp = s.sp := by
  simp [State.setAreg, h, State.sp, State.supervisor]

theorem State.areg_setAreg (s : State) (n m : Reg) (v : Long) : (s.setAreg n v).areg m = if m = n then v else s.areg m := by
  by_cases hn : n.val < 7
  · by_cases h : m = n
    · subst h; simp [State.setAreg, State.areg, hn]
    · have hne : ¬ n.val = m.val := fun e => h (Fin.ext e.symm)
      by_cases hm : m.val < 7
      · simp [State.setAreg, State.areg, hn, hm, h, hne]
      · simp only [State.areg, hm, dite_false, h, if_false, State.sp_setAreg_low s n v hn]
  · by_cases h : m = n
    · subst h; simp [State.setAreg, State.areg, hn]
    · have hm : m.val < 7 := by
        rcases Nat.lt_or_ge m.val 7 with h7 | h7
        · exact h7
        · exact absurd (Fin.ext (by omega)) h
      simp [State.setAreg, State.areg, hn, hm, h]

@[simp] theorem State.areg_setAreg_same (s : State) (n : Reg) (v : Long) : (s.setAreg n v).areg n = v := by
  simp [State.areg_setAreg]

@[simp] theorem State.setAreg_setAreg (s : State) (n : Reg) (v w : Long) : (s.setAreg n v).setAreg n w = s.setAreg n w := by
  by_cases h : n.val < 7 <;> simp [State.setAreg, h]

/-- Writing a register back what it holds changes nothing. -/
theorem State.setAreg_areg (s : State) (n : Reg) : s.setAreg n (s.areg n) = s := by
  by_cases h : n.val < 7
  · simp [State.setAreg, State.areg, h]
  · cases hs : s.supervisor <;> simp [State.setAreg, State.areg, h, State.setSp, State.sp, hs]

theorem State.setAreg_setCcr (s : State) (n : Reg) (v : Long) (f : Ccr) : (s.setAreg n v).setCcr f = (s.setCcr f).setAreg n v := by
  by_cases h : n.val < 7
  · simp [State.setAreg, h, State.setCcr]
  · have hs := State.supervisor_setCcr s f
    cases hv : s.supervisor <;> rw [hv] at hs <;> simp [State.setAreg, h, State.setSp, hv, hs] <;> rfl

end Sys2Proof.Machine
end

