-- ==== Sys2Proof/Laws/Operands.lean ====
section
/-! SUPPORT. What each shared operation can do, said once: memory and stack access, completing an instruction, and the access through an
operand, which for an aligned operand is its value, its side effect and its replacement. -/

namespace Sys2Proof.Machine

/-! ## Sequencing and completing -/

@[simp] theorem Res.bind_ok {α β : Type} (v : α) (s : State) (f : α → State → Res β) : (Res.ok v s).bind f = f v s := rfl

@[simp] theorem Res.bind_raise {α β : Type} (e : Exc) (s : State) (f : α → State → Res β) : (Res.raise e s).bind f = .raise e s := rfl

@[simp] theorem conclude_raise (s0 : State) (e : Exc) (s : State) : conclude s0 (.raise e s) = .next (takeException e s) := rfl

@[simp] theorem retire_raise (n : Nat) (s0 : State) (e : Exc) (s : State) : retire n s0 (.raise e s) = .next (takeException e s) := rfl

/-- An untraced instruction that ran to its end leaves its state (60_exceptions.md R401 item 5). -/
theorem conclude_ok {s0 : State} (h : s0.traced = false) (s : State) : conclude s0 (.ok () s) = .next s := by
  simp [conclude, h]

/-- A traced instruction that ran to its end takes vector 9 with the PC it left (R418). -/
theorem conclude_ok_traced {s0 : State} (h : s0.traced = true) (s : State) :
    conclude s0 (.ok () s) = .next (raiseVector 9 s.pc s) := by
  simp [conclude, h]

theorem retire_ok {s0 : State} (h : s0.traced = false) (n : Nat) (s : State) : retire n s0 (.ok () s) = .next (advance n s) :=
  conclude_ok h _

/-- Every way an instruction can end is a next state (R403). -/
theorem conclude_next (s0 : State) (r : Res Unit) : ∃ t, conclude s0 r = .next t := ⟨_, rfl⟩

theorem retire_next (n : Nat) (s0 : State) (r : Res Unit) : ∃ t, retire n s0 r = .next t := ⟨_, rfl⟩

/-- Everything the end of an instruction can be: what it raised is taken, its state is left, or the trace is taken (R401 item 5, R418). -/
theorem conclude_cases (s0 : State) (r : Res Unit) :
    (∃ e s, r = .raise e s ∧ conclude s0 r = .next (takeException e s)) ∨
    (∃ s, r = .ok () s ∧ s0.traced = false ∧ conclude s0 r = .next s) ∨
    (∃ s, r = .ok () s ∧ s0.traced = true ∧ conclude s0 r = .next (raiseVector 9 s.pc s)) := by
  cases r with
  | raise e s => exact .inl ⟨e, s, rfl, rfl⟩
  | ok u s =>
    cases h : s0.traced
    · exact .inr (.inl ⟨s, rfl, rfl, conclude_ok h s⟩)
    · exact .inr (.inr ⟨s, rfl, rfl, conclude_ok_traced h s⟩)

@[simp] theorem privileged_supervisor (body : State → Res Unit) (s : State) (h : s.supervisor = true) : privileged body s = body s := by
  simp [privileged, h]

@[simp] theorem privileged_user (body : State → Res Unit) (s : State) (h : s.supervisor = false) :
    privileged body s = .raise .privilegeViolation s := by
  simp [privileged, h]

/-! ## Memory and stack -/

theorem memRead_aligned {a : Long} {sz : Size} (h : misaligned a sz = false) (s : State) : memRead a sz s = .ok (s.mem.load a sz) s := by
  simp [memRead, h]

theorem memRead_misaligned {a : Long} {sz : Size} (h : misaligned a sz = true) (s : State) :
    memRead a sz s = .raise .addressError s := by
  simp [memRead, h]

theorem memWrite_aligned {a : Long} {sz : Size} (h : misaligned a sz = false) (v : Long) (s : State) :
    memWrite a sz v s = .ok () { s with mem := s.mem.store a sz v } := by
  simp [memWrite, h]

theorem memWrite_misaligned {a : Long} {sz : Size} (h : misaligned a sz = true) (v : Long) (s : State) :
    memWrite a sz v s = .raise .addressError s := by
  simp [memWrite, h]

@[simp] theorem misaligned_byte (a : Long) : misaligned a .b = false := rfl

theorem misaligned_of_even {a : Long} (h : a.getLsbD 0 = false) (sz : Size) : misaligned a sz = false := by
  simp only [misaligned, h, Bool.and_false]

/-- Adding an even number keeps the parity of an address. -/
theorem getLsbD_zero_add (a b : Long) (h : b.getLsbD 0 = false) : (a + b).getLsbD 0 = a.getLsbD 0 := by
  simp only [BitVec.getLsbD, Nat.testBit_zero, BitVec.toNat_add] at *
  simp only [decide_eq_false_iff_not] at h
  congr 1
  rw [eq_iff_iff]
  omega

/-- Subtracting an even number keeps the parity of an address. -/
theorem getLsbD_zero_sub (a b : Long) (h : b.getLsbD 0 = false) : (a - b).getLsbD 0 = a.getLsbD 0 := by
  have := getLsbD_zero_add (a - b) b h
  rw [BitVec.sub_add_cancel] at this
  exact this.symm

/-! ## Registers of a state whose memory is replaced -/

@[simp] theorem State.areg_with_mem (s : State) (m : Memory) (n : Reg) : ({ s with mem := m } : State).areg n = s.areg n := rfl

@[simp] theorem State.dreg_with_mem (s : State) (m : Memory) (n : Reg) : ({ s with mem := m } : State).dreg n = s.dreg n := rfl

@[simp] theorem State.ccr_with_mem (s : State) (m : Memory) : ({ s with mem := m } : State).ccr = s.ccr := rfl

theorem State.setSp_with_mem (s : State) (m : Memory) (v : Long) :
    ({ s with mem := m } : State).setSp v = { s.setSp v with mem := m } := by
  cases h : s.supervisor <;> simp [State.setSp, State.supervisor] <;> simp_all [State.supervisor]

theorem State.setAreg_with_mem (s : State) (m : Memory) (n : Reg) (v : Long) :
    ({ s with mem := m } : State).setAreg n v = { s.setAreg n v with mem := m } := by
  by_cases h : n.val < 7
  · simp [State.setAreg, h]
  · simp [State.setAreg, h, State.setSp_with_mem]

theorem State.setCcr_with_mem (s : State) (m : Memory) (f : Ccr) :
    ({ s with mem := m } : State).setCcr f = { s.setCcr f with mem := m } := rfl

/-! ## Operands -/

@[simp] theorem sideEffect_mem (ea : Ea) (sz : Size) (s : State) : (sideEffect ea sz s).mem = s.mem := by
  cases ea <;> simp [sideEffect]

@[simp] theorem sideEffect_pc (ea : Ea) (sz : Size) (s : State) : (sideEffect ea sz s).pc = s.pc := by
  cases ea <;> simp [sideEffect]

@[simp] theorem sideEffect_sr (ea : Ea) (sz : Size) (s : State) : (sideEffect ea sz s).sr = s.sr := by
  cases ea <;> simp [sideEffect]

@[simp] theorem sideEffect_ccr (ea : Ea) (sz : Size) (s : State) : (sideEffect ea sz s).ccr = s.ccr := by
  simp [State.ccr]

@[simp] theorem sideEffect_d (ea : Ea) (sz : Size) (s : State) : (sideEffect ea sz s).d = s.d := by
  cases ea <;> simp [sideEffect]

@[simp] theorem sideEffect_dreg (ea : Ea) (sz : Size) (s : State) (n : Reg) : (sideEffect ea sz s).dreg n = s.dreg n := by
  simp [State.dreg]

@[simp] theorem sideEffect_readD (ea : Ea) (sz sz' : Size) (s : State) (n : Reg) :
    (sideEffect ea sz s).readD n sz' = s.readD n sz' := by
  simp [State.readD]

@[simp] theorem decremented_mem (ea : Ea) (sz : Size) (s : State) : (decremented ea sz s).mem = s.mem := by
  cases ea <;> simp [decremented]

@[simp] theorem decremented_pc (ea : Ea) (sz : Size) (s : State) : (decremented ea sz s).pc = s.pc := by
  cases ea <;> simp [decremented]

@[simp] theorem decremented_sr (ea : Ea) (sz : Size) (s : State) : (decremented ea sz s).sr = s.sr := by
  cases ea <;> simp [decremented]

@[simp] theorem decremented_d (ea : Ea) (sz : Size) (s : State) : (decremented ea sz s).d = s.d := by
  cases ea <;> simp [decremented]

/-- The resolver's side effect before an access is the pre-decrement (R147). -/
theorem eaPre_eq_decremented (ea : Ea) (sz : Size) (s : State) : eaPre ea sz s = decremented ea sz s := by
  cases ea <;> rfl

/-- An aligned operand reads as its value and leaves its side effect (R156, R146, R147). -/
theorem readEa_ready {ea : Ea} {sz : Size} {ext : Long} {s : State} (h : operandReady ea sz ext s = true) :
    readEa ea sz ext s = .ok (operandValue ea sz ext s) (sideEffect ea sz s) := by
  cases ea <;> simp only [operandReady, eaLoc, Bool.not_eq_true'] at h <;>
    simp [readEa, eaLoc, eaPre, readLoc, operandValue, sideEffect, Loc.post, memRead, h]

/-- An odd word or long operand raises AddressError with only the pre-decrement made (R146, R147, R66). -/
theorem readEa_odd {ea : Ea} {sz : Size} {ext : Long} {s : State} (h : operandReady ea sz ext s = false) :
    readEa ea sz ext s = .raise .addressError (eaPre ea sz s) := by
  cases ea <;> simp only [operandReady, eaLoc, Bool.not_eq_false', Bool.true_eq_false] at h <;>
    simp [readEa, eaLoc, eaPre, readLoc, memRead, h]

/-- Reading an aligned operand and going on. -/
theorem loadEa_ready {ea : Ea} {sz : Size} {ext : Long} {s : State} (g : Long → State → State)
    (h : operandReady ea sz ext s = true) :
    loadEa ea sz ext g s = .ok () (g (operandValue ea sz ext s) (sideEffect ea sz s)) := by
  simp [loadEa, readEa_ready h]

theorem loadEa_odd {ea : Ea} {sz : Size} {ext : Long} {s : State} (g : Long → State → State)
    (h : operandReady ea sz ext s = false) : loadEa ea sz ext g s = .raise .addressError (eaPre ea sz s) := by
  simp [loadEa, readEa_odd h]

/-- Writing an aligned operand with its flags replaces it (R157, R200). -/
theorem storeEa_ready {ea : Ea} {sz : Size} {ext : Long} {s : State} (v : Long) (f : Ccr)
    (h : operandReady ea sz ext s = true) (hi : ea.kind ≠ .imm) :
    storeEa ea sz ext v f s = .ok () (replaced ea sz ext v f s) := by
  by_cases hp : ∃ n, ea = .postInc n
  · obtain ⟨n, rfl⟩ := hp
    simp only [operandReady, eaLoc, Bool.not_eq_true'] at h
    simp only [storeEa, eaLoc, eaPre, writeLoc, replaced, storeAt, sideEffect, Loc.post, memWrite, h, Bool.false_eq_true, if_false,
      Res.bind_ok, State.areg_with_mem, State.setAreg_with_mem, State.areg_setCcr, State.setAreg_setCcr, State.mem_setCcr,
      State.mem_setAreg]
  · cases ea <;> simp only [operandReady, eaLoc, Bool.not_eq_true', Ea.kind, ne_eq, not_true_eq_false] at h hi <;>
      simp [storeEa, eaLoc, eaPre, writeLoc, replaced, storeAt, sideEffect, memWrite, h, Loc.post, State.setAreg_setCcr]
    exact absurd ⟨_, rfl⟩ hp

theorem storeEa_odd {ea : Ea} {sz : Size} {ext : Long} {s : State} (v : Long) (f : Ccr)
    (h : operandReady ea sz ext s = false) : storeEa ea sz ext v f s = .raise .addressError ((eaPre ea sz s).setCcr f) := by
  cases ea <;> simp only [operandReady, eaLoc, Bool.not_eq_false', Bool.true_eq_false] at h <;>
    simp [storeEa, eaLoc, eaPre, writeLoc, memWrite, h]

/-- Writing an aligned operand without touching the flags. -/
theorem writeEa_ready {ea : Ea} {sz : Size} {ext : Long} {s : State} (v : Long)
    (h : operandReady ea sz ext s = true) (hi : ea.kind ≠ .imm) :
    writeEa ea sz ext v s = .ok () (storeAt (eaLoc ea sz ext s) sz v (sideEffect ea sz s)) := by
  cases ea <;> simp only [operandReady, eaLoc, Bool.not_eq_true', Ea.kind, ne_eq, not_true_eq_false] at h hi <;>
    simp [writeEa, eaLoc, eaPre, writeLoc, storeAt, sideEffect, Loc.post, memWrite, h, State.setAreg_with_mem]

/-- A store that is not preceded by a read raises at an odd address with only the pre-decrement made (R147, R65). -/
theorem writeEa_odd {ea : Ea} {sz : Size} {ext : Long} {s : State} (v : Long)
    (h : operandReady ea sz ext s = false) : writeEa ea sz ext v s = .raise .addressError (eaPre ea sz s) := by
  cases ea <;> simp only [operandReady, eaLoc, Bool.not_eq_false', Bool.true_eq_false] at h <;>
    simp [writeEa, eaLoc, eaPre, writeLoc, memWrite, h]

/-- Read-modify-write of an aligned operand replaces it once, with one side effect (R158). -/
theorem updateEa_ready {ea : Ea} {sz : Size} {ext : Long} {s : State} (g : Long → State → Long × Ccr)
    (h : operandReady ea sz ext s = true) (hi : ea.kind ≠ .imm) :
    updateEa ea sz ext g s = .ok () (replaced ea sz ext (g (operandValue ea sz ext s) (sideEffect ea sz s)).1
      (g (operandValue ea sz ext s) (sideEffect ea sz s)).2 s) := by
  cases ea <;> simp only [operandReady, eaLoc, Bool.not_eq_true', Ea.kind, ne_eq, not_true_eq_false] at h hi <;>
    simp [updateEa, eaLoc, eaPre, readLoc, writeLoc, replaced, storeAt, sideEffect, operandValue, Loc.post, Loc.accessed, memRead,
      memWrite, h]

theorem updateEa_odd {ea : Ea} {sz : Size} {ext : Long} {s : State} (g : Long → State → Long × Ccr)
    (h : operandReady ea sz ext s = false) : updateEa ea sz ext g s = .raise .addressError (eaPre ea sz s) := by
  have := readEa_odd h
  simp only [readEa] at this
  simp [updateEa, this]

/-- A control operand has an address, taken without side effect (R141). -/
theorem addressEa_control {ea : Ea} (h : ea.kind.isControl = true) (ext : Long) (s : State) :
    addressEa ea ext s = .ok (operandAddress ea ext s) s := by
  cases ea <;> simp [Ea.kind, EaKind.isControl] at h <;> simp [addressEa, operandAddress, eaLoc]

/-- Bytes are never misaligned (R66). -/
theorem operandReady_byte (ea : Ea) (ext : Long) (s : State) : operandReady ea .b ext s = true := by
  cases ea <;> rfl

end Sys2Proof.Machine
end

