-- ==== Sys2Proof/Laws/Exceptions.lean ====
section
/-! SUPPORT. What exception entry can do, said once: its two outcomes, what it leaves, and that it keeps the invariant. -/

namespace Sys2Proof.Machine

/-- SR after exception entry (60_exceptions.md R405, R432). -/
def entrySr (mask : Option (BitVec 3)) (sr : Word) : Word :=
  match mask with
  | none => enterSr sr
  | some level => maskSr (enterSr sr) level

theorem even_sub_six {a : Long} (h : a.getLsbD 0 = false) : (a - 4 - 2).getLsbD 0 = false := by
  rw [getLsbD_zero_sub _ _ (by decide), getLsbD_zero_sub _ _ (by decide), h]

/-- Entry with an even SSP: both pushes and the vector fetch happen (R405). -/
theorem enterException_even (v : Byte) (mask : Option (BitVec 3)) (retpc : Long) {s : State} (h : s.ssp.getLsbD 0 = false) :
    enterException v mask retpc s =
      { s with
        sr := entrySr mask s.sr
        ssp := s.ssp - 4 - 2
        mem := (s.mem.store (s.ssp - 4) .l retpc).store (s.ssp - 4 - 2) .w (s.sr.setWidth 32)
        pc := ((s.mem.store (s.ssp - 4) .l retpc).store (s.ssp - 4 - 2) .w (s.sr.setWidth 32)).load (vectorAddress v) .l
        stopped := false } := by
  have h4 : (s.ssp - 4).getLsbD 0 = false := by rw [getLsbD_zero_sub _ _ (by decide), h]
  simp only [enterException, memWrite_aligned (misaligned_of_even h4 .l), memWrite_aligned (misaligned_of_even (even_sub_six h) .w)]
  cases mask <;> rfl

/-- Entry with an odd SSP: the core halts, with the changes made so far (R422). -/
theorem enterException_odd (v : Byte) (mask : Option (BitVec 3)) (retpc : Long) {s : State} (h : s.ssp.getLsbD 0 = true) :
    enterException v mask retpc s = { s with sr := entrySr mask s.sr, ssp := s.ssp - 4, halted := true } := by
  have h4 : misaligned (s.ssp - 4) .l = true := by
    rw [misaligned, getLsbD_zero_sub _ _ (by decide), h]; rfl
  simp only [enterException, memWrite_misaligned h4]
  cases mask <;> rfl

/-- Everything exception entry can answer: halted, or entered. -/
theorem enterException_cases (v : Byte) (mask : Option (BitVec 3)) (retpc : Long) (s : State) :
    enterException v mask retpc s = { s with sr := entrySr mask s.sr, ssp := s.ssp - 4, halted := true } ∨
    ∃ m : Memory, m = (s.mem.store (s.ssp - 4) .l retpc).store (s.ssp - 4 - 2) .w (s.sr.setWidth 32) ∧
      enterException v mask retpc s =
        { s with sr := entrySr mask s.sr, ssp := s.ssp - 4 - 2, mem := m, pc := m.load (vectorAddress v) .l, stopped := false } := by
  cases h : s.ssp.getLsbD 0
  · exact .inr ⟨_, rfl, enterException_even v mask retpc h⟩
  · exact .inl (enterException_odd v mask retpc h)

section Fields
variable (v : Byte) (mask : Option (BitVec 3)) (retpc : Long) (s : State)

@[simp] theorem enterException_d : (enterException v mask retpc s).d = s.d := by
  rcases enterException_cases v mask retpc s with h | ⟨m, _, h⟩ <;> rw [h]

@[simp] theorem enterException_a : (enterException v mask retpc s).a = s.a := by
  rcases enterException_cases v mask retpc s with h | ⟨m, _, h⟩ <;> rw [h]

@[simp] theorem enterException_usp : (enterException v mask retpc s).usp = s.usp := by
  rcases enterException_cases v mask retpc s with h | ⟨m, _, h⟩ <;> rw [h]

@[simp] theorem enterException_sr : (enterException v mask retpc s).sr = entrySr mask s.sr := by
  rcases enterException_cases v mask retpc s with h | ⟨m, _, h⟩ <;> rw [h]

@[simp] theorem enterException_resetPending : (enterException v mask retpc s).resetPending = s.resetPending := by
  rcases enterException_cases v mask retpc s with h | ⟨m, _, h⟩ <;> rw [h]

@[simp] theorem enterException_irqQueue : (enterException v mask retpc s).irqQueue = s.irqQueue := by
  rcases enterException_cases v mask retpc s with h | ⟨m, _, h⟩ <;> rw [h]

@[simp] theorem enterException_params : (enterException v mask retpc s).params = s.params := by
  rcases enterException_cases v mask retpc s with h | ⟨m, _, h⟩ <;> rw [h]

theorem enterException_mem_wf (hm : s.mem.wf = true) : (enterException v mask retpc s).mem.wf = true := by
  rcases enterException_cases v mask retpc s with h | ⟨m, rfl, h⟩ <;> rw [h]
  · exact hm
  · exact Memory.wf_store (Memory.wf_store hm (s.ssp - 4) .l retpc) (s.ssp - 4 - 2) .w (s.sr.setWidth 32)

end Fields

/-- Entry always leaves the core in supervisor mode with tracing off (R405). -/
theorem entrySr_bits (mask : Option (BitVec 3)) (sr : Word) : (entrySr mask sr).getLsbD 13 = true ∧ (entrySr mask sr).getLsbD 15 = false := by
  cases mask with
  | none => constructor <;> simp [entrySr, enterSr]
  | some level =>
    constructor <;> simp [entrySr, maskSr, enterSr]

@[simp] theorem enterException_supervisor (v : Byte) (mask : Option (BitVec 3)) (retpc : Long) (s : State) :
    (enterException v mask retpc s).supervisor = true := by
  rw [State.supervisor, enterException_sr]; exact (entrySr_bits mask s.sr).1

/-- What an instruction raises enters through one of the vectors 3 to 8 and 32 to 47 (R410). -/
theorem takeException_eq_raiseVector (e : Exc) (s : State) :
    ∃ (v : Byte) (retpc : Long), ((3 ≤ v.toNat ∧ v.toNat ≤ 8) ∨ (32 ≤ v.toNat ∧ v.toNat ≤ 47)) ∧ takeException e s = raiseVector v retpc s := by
  cases e with
  | trap n =>
    have h : ∀ n : BitVec 4, 32 ≤ (32 + n.setWidth 8 : Byte).toNat ∧ (32 + n.setWidth 8 : Byte).toNat ≤ 47 := by decide
    exact ⟨_, s.pc + 2, .inr (h n), rfl⟩
  | _ => exact ⟨_, _, .inl (by decide), rfl⟩

/-- Interrupt acceptance with an odd SSP: the request is gone, the mask raised, the core halted (R432, R422). -/
theorem acceptInterrupt_odd (r : IrqRequest) {s : State} (h : s.ssp.getLsbD 0 = true) :
    acceptInterrupt r s =
      { s with irqQueue := s.irqQueue.erase r, sr := entrySr (some r.level) s.sr, ssp := s.ssp - 4, halted := true } :=
  enterException_odd _ _ _ h

/-- Entry keeps the reserved bits of SR at 0 (10_state.md R32). -/
theorem entrySr_reserved (mask : Option (BitVec 3)) {sr : Word} (h : sr &&& ~~~srImplMask = 0) :
    entrySr mask sr &&& ~~~srImplMask = 0 := by
  cases mask with
  | none =>
    have : entrySr none sr &&& ~~~srImplMask = (sr &&& ~~~srImplMask) &&& 0x3FFF := by
      simp only [entrySr, enterSr, srImplMask]
      ext k hk
      have hc : k = 0 ∨ k = 1 ∨ k = 2 ∨ k = 3 ∨ k = 4 ∨ k = 5 ∨ k = 6 ∨ k = 7 ∨ k = 8 ∨ k = 9 ∨ k = 10 ∨ k = 11 ∨ k = 12 ∨
        k = 13 ∨ k = 14 ∨ k = 15 := by omega
      rcases hc with rfl | rfl | rfl | rfl | rfl | rfl | rfl | rfl | rfl | rfl | rfl | rfl | rfl | rfl | rfl | rfl <;> simp
    rw [this, h]; simp
  | some level =>
    have : entrySr (some level) sr &&& ~~~srImplMask = (sr &&& ~~~srImplMask) &&& 0x38FF := by
      simp only [entrySr, maskSr, enterSr, srImplMask]
      ext k hk
      have hc : k = 0 ∨ k = 1 ∨ k = 2 ∨ k = 3 ∨ k = 4 ∨ k = 5 ∨ k = 6 ∨ k = 7 ∨ k = 8 ∨ k = 9 ∨ k = 10 ∨ k = 11 ∨ k = 12 ∨
        k = 13 ∨ k = 14 ∨ k = 15 := by omega
      rcases hc with rfl | rfl | rfl | rfl | rfl | rfl | rfl | rfl | rfl | rfl | rfl | rfl | rfl | rfl | rfl | rfl <;> simp
    rw [this, h]; simp

end Sys2Proof.Machine
end

