-- ==== Sys2Proof/Laws/Flags.lean ====
section
/-! SUPPORT. The bits of a truncated value, and how the iteration of a shift unfolds. -/

namespace Sys2Proof.Machine

/-- The mask of a size has exactly the low bits set. -/
theorem getLsbD_mask (sz : Size) (k : Nat) : sz.mask.getLsbD k = decide (k < sz.bits) := by
  by_cases hk : k < 32
  · have h : ∀ j : Fin 32, sz.mask.getLsbD j.val = decide (j.val < sz.bits) := by cases sz <;> decide
    exact h ⟨k, hk⟩
  · have : ¬ k < sz.bits := by cases sz <;> simp only [Size.bits] <;> omega
    rw [BitVec.getLsbD_of_ge _ _ (by omega)]; simp [this]

/-- The bits of a truncated value (00_scope.md R9). -/
@[simp] theorem getLsbD_trunc (sz : Size) (v : Long) (k : Nat) : (trunc sz v).getLsbD k = (v.getLsbD k && decide (k < sz.bits)) := by
  rw [trunc, BitVec.getLsbD_and, getLsbD_mask]

/-- A value that fits its size is its own truncation. -/
theorem trunc_of_fits {sz : Size} {v : Long} (h : sz.fits v = true) : trunc sz v = v := by
  simpa [Size.fits, trunc] using h

@[simp] theorem shiftLoop_zero (step : ShiftState → ShiftState) (t : ShiftState) : shiftLoop step 0 t = t := rfl

@[simp] theorem shiftLoop_succ (step : ShiftState → ShiftState) (n : Nat) (t : ShiftState) :
    shiftLoop step (n + 1) t = shiftLoop step n (step t) := rfl

/-- Counts add up (45_shift_rotate.md R290 "repeat cnt times"). -/
theorem shiftLoop_add (step : ShiftState → ShiftState) (m n : Nat) (t : ShiftState) :
    shiftLoop step (m + n) t = shiftLoop step n (shiftLoop step m t) := by
  induction m generalizing t with
  | zero => simp
  | succ m ih => rw [Nat.succ_add, shiftLoop_succ, ih, shiftLoop_succ]

/-- The last step of an iteration, for an induction on the count. -/
theorem shiftLoop_last (step : ShiftState → ShiftState) (n : Nat) (t : ShiftState) :
    shiftLoop step (n + 1) t = step (shiftLoop step n t) := by
  rw [shiftLoop_add]; rfl

end Sys2Proof.Machine
end

