-- ==== Sys2Proof/Laws/Movem.lean ====
section
/-! SUPPORT. MOVEM's transfers at an odd address: the first one faults and nothing has changed (60_exceptions.md R409). -/

namespace Sys2Proof.Machine

theorem movemStoreUp_odd {sz : Size} {a : Long} (h : misaligned a sz = true) (k : Fin 16) (ks : List (Fin 16)) (s : State) :
    movemStoreUp sz (k :: ks) a s = .raise .addressError s := by
  simp [movemStoreUp, memWrite_misaligned h]

theorem movemLoad_odd {sz : Size} {a : Long} (h : misaligned a sz = true) (k : Fin 16) (ks : List (Fin 16)) (s : State) :
    movemLoad sz (k :: ks) a s = .raise .addressError s := by
  simp [movemLoad, memRead_misaligned h]

/-- The descending form's first address has the parity of the base. -/
theorem misaligned_sub_bytes (sz : Size) (a : Long) : misaligned (a - BitVec.ofNat 32 sz.bytes) sz = misaligned a sz := by
  cases sz with
  | b => rfl
  | _ => simp only [misaligned]; rw [getLsbD_zero_sub _ _ (by decide)]

theorem movemStoreDown_odd {sz : Size} {a : Long} (h : misaligned a sz = true) (k : Fin 16) (ks : List (Fin 16)) (s : State) :
    movemStoreDown sz (k :: ks) a s = .raise .addressError s := by
  have h' : misaligned (a - BitVec.ofNat 32 sz.bytes) sz = true := by rw [misaligned_sub_bytes, h]
  simp [movemStoreDown, memWrite_misaligned h']

end Sys2Proof.Machine
end

