-- ==== Sys2Proof/Laws/PerInstr.lean ====
section
/-! SUPPORT. The family EncodedLength: every instruction has one to five words (spec/30_encoding.md R100 to R102), one lemma per
constructor. -/

namespace Sys2Proof.Laws.EncodedLength

/-- The encoding has at least one and at most five words. -/
def Statement (i : Instr) : Prop := 1 ≤ (encode i).length ∧ (encode i).length ≤ 5

/-- Every instruction of the model, in one case analysis. -/
theorem encode_length (i : Instr) : Statement i := by
  cases i with
  | oriToCcr imm =>
    simp [Statement, encode, encStatus]
  | oriToSr imm =>
    simp [Statement, encode, encStatus]
  | andiToCcr imm =>
    simp [Statement, encode, encStatus]
  | andiToSr imm =>
    simp [Statement, encode, encStatus]
  | eoriToCcr imm =>
    simp [Statement, encode, encStatus]
  | eoriToSr imm =>
    simp [Statement, encode, encStatus]
  | ori sz imm ea =>
    have := Ea.extWords_length_le sz ea
    have := immWords_length sz imm
    simp only [Statement, encode, encImm_length]
    omega
  | andi sz imm ea =>
    have := Ea.extWords_length_le sz ea
    have := immWords_length sz imm
    simp only [Statement, encode, encImm_length]
    omega
  | subi sz imm ea =>
    have := Ea.extWords_length_le sz ea
    have := immWords_length sz imm
    simp only [Statement, encode, encImm_length]
    omega
  | addi sz imm ea =>
    have := Ea.extWords_length_le sz ea
    have := immWords_length sz imm
    simp only [Statement, encode, encImm_length]
    omega
  | eori sz imm ea =>
    have := Ea.extWords_length_le sz ea
    have := immWords_length sz imm
    simp only [Statement, encode, encImm_length]
    omega
  | cmpi sz imm ea =>
    have := Ea.extWords_length_le sz ea
    have := immWords_length sz imm
    simp only [Statement, encode, encImm_length]
    omega
  | btstImm num ea =>
    have := Ea.extWords_length_le .b ea
    have := Ea.extWords_length_le .w ea
    have := Ea.extWords_length_le .l ea
    have := Ea.extWords_length_le ea.bitSize ea
    simp only [Statement, encode, encBit, List.length_cons]
    omega
  | bchgImm num ea =>
    have := Ea.extWords_length_le .b ea
    have := Ea.extWords_length_le .w ea
    have := Ea.extWords_length_le .l ea
    have := Ea.extWords_length_le ea.bitSize ea
    simp only [Statement, encode, encBit, List.length_cons]
    omega
  | bclrImm num ea =>
    have := Ea.extWords_length_le .b ea
    have := Ea.extWords_length_le .w ea
    have := Ea.extWords_length_le .l ea
    have := Ea.extWords_length_le ea.bitSize ea
    simp only [Statement, encode, encBit, List.length_cons]
    omega
  | bsetImm num ea =>
    have := Ea.extWords_length_le .b ea
    have := Ea.extWords_length_le .w ea
    have := Ea.extWords_length_le .l ea
    have := Ea.extWords_length_le ea.bitSize ea
    simp only [Statement, encode, encBit, List.length_cons]
    omega
  | btstDyn n ea =>
    have := Ea.extWords_length_le .b ea
    have := Ea.extWords_length_le .w ea
    have := Ea.extWords_length_le .l ea
    have := Ea.extWords_length_le ea.bitSize ea
    simp only [Statement, encode, encBitDyn, encEa_length]
    omega
  | bchgDyn n ea =>
    have := Ea.extWords_length_le .b ea
    have := Ea.extWords_length_le .w ea
    have := Ea.extWords_length_le .l ea
    have := Ea.extWords_length_le ea.bitSize ea
    simp only [Statement, encode, encBitDyn, encEa_length]
    omega
  | bclrDyn n ea =>
    have := Ea.extWords_length_le .b ea
    have := Ea.extWords_length_le .w ea
    have := Ea.extWords_length_le .l ea
    have := Ea.extWords_length_le ea.bitSize ea
    simp only [Statement, encode, encBitDyn, encEa_length]
    omega
  | bsetDyn n ea =>
    have := Ea.extWords_length_le .b ea
    have := Ea.extWords_length_le .w ea
    have := Ea.extWords_length_le .l ea
    have := Ea.extWords_length_le ea.bitSize ea
    simp only [Statement, encode, encBitDyn, encEa_length]
    omega
  | movep dir sz dx ay d =>
    simp [Statement, encode]
  | move sz src dst =>
    have := Ea.extWords_length_le sz src
    have := Ea.extWords_length_le sz dst
    simp only [Statement, encode, List.length_cons, List.length_append]
    omega
  | movea sz n src =>
    have := Ea.extWords_length_le sz.size src
    simp only [Statement, encode, List.length_cons]
    omega
  | negx sz ea =>
    have := Ea.extWords_length_le sz ea
    simp only [Statement, encode, encEa_length]
    omega
  | moveFromSr ea =>
    have := Ea.extWords_length_le .b ea
    have := Ea.extWords_length_le .w ea
    have := Ea.extWords_length_le .l ea
    have := Ea.extWords_length_le ea.bitSize ea
    simp only [Statement, encode, encEa_length]
    omega
  | chk n ea =>
    have := Ea.extWords_length_le .b ea
    have := Ea.extWords_length_le .w ea
    have := Ea.extWords_length_le .l ea
    have := Ea.extWords_length_le ea.bitSize ea
    simp only [Statement, encode, encEa_length]
    omega
  | lea n ea =>
    have := Ea.extWords_length_le .b ea
    have := Ea.extWords_length_le .w ea
    have := Ea.extWords_length_le .l ea
    have := Ea.extWords_length_le ea.bitSize ea
    simp only [Statement, encode, encEa_length]
    omega
  | clr sz ea =>
    have := Ea.extWords_length_le sz ea
    simp only [Statement, encode, encEa_length]
    omega
  | neg sz ea =>
    have := Ea.extWords_length_le sz ea
    simp only [Statement, encode, encEa_length]
    omega
  | moveToCcr ea =>
    have := Ea.extWords_length_le .b ea
    have := Ea.extWords_length_le .w ea
    have := Ea.extWords_length_le .l ea
    have := Ea.extWords_length_le ea.bitSize ea
    simp only [Statement, encode, encEa_length]
    omega
  | not sz ea =>
    have := Ea.extWords_length_le sz ea
    simp only [Statement, encode, encEa_length]
    omega
  | moveToSr ea =>
    have := Ea.extWords_length_le .b ea
    have := Ea.extWords_length_le .w ea
    have := Ea.extWords_length_le .l ea
    have := Ea.extWords_length_le ea.bitSize ea
    simp only [Statement, encode, encEa_length]
    omega
  | nbcd ea =>
    have := Ea.extWords_length_le .b ea
    have := Ea.extWords_length_le .w ea
    have := Ea.extWords_length_le .l ea
    have := Ea.extWords_length_le ea.bitSize ea
    simp only [Statement, encode, encEa_length]
    omega
  | swap n =>
    simp [Statement, encode]
  | pea ea =>
    have := Ea.extWords_length_le .b ea
    have := Ea.extWords_length_le .w ea
    have := Ea.extWords_length_le .l ea
    have := Ea.extWords_length_le ea.bitSize ea
    simp only [Statement, encode, encEa_length]
    omega
  | extW n =>
    simp [Statement, encode]
  | extL n =>
    simp [Statement, encode]
  | movemToMem sz mask ea =>
    have := Ea.extWords_length_le sz.size ea
    simp only [Statement, encode, List.length_cons]
    omega
  | tst sz ea =>
    have := Ea.extWords_length_le sz ea
    simp only [Statement, encode, encEa_length]
    omega
  | tas ea =>
    have := Ea.extWords_length_le .b ea
    have := Ea.extWords_length_le .w ea
    have := Ea.extWords_length_le .l ea
    have := Ea.extWords_length_le ea.bitSize ea
    simp only [Statement, encode, encEa_length]
    omega
  | illegal =>
    simp [Statement, encode]
  | movemToRegs sz mask ea =>
    have := Ea.extWords_length_le sz.size ea
    simp only [Statement, encode, List.length_cons]
    omega
  | trap =>
    simp [Statement, encode]
  | link n d =>
    simp [Statement, encode]
  | unlk n =>
    simp [Statement, encode]
  | moveToUsp n =>
    simp [Statement, encode]
  | moveFromUsp n =>
    simp [Statement, encode]
  | reset =>
    simp [Statement, encode]
  | nop =>
    simp [Statement, encode]
  | stop imm =>
    simp [Statement, encode]
  | rte =>
    simp [Statement, encode]
  | rts =>
    simp [Statement, encode]
  | trapv =>
    simp [Statement, encode]
  | rtr =>
    simp [Statement, encode]
  | jsr ea =>
    have := Ea.extWords_length_le .b ea
    have := Ea.extWords_length_le .w ea
    have := Ea.extWords_length_le .l ea
    have := Ea.extWords_length_le ea.bitSize ea
    simp only [Statement, encode, encEa_length]
    omega
  | jmp ea =>
    have := Ea.extWords_length_le .b ea
    have := Ea.extWords_length_le .w ea
    have := Ea.extWords_length_le .l ea
    have := Ea.extWords_length_le ea.bitSize ea
    simp only [Statement, encode, encEa_length]
    omega
  | addq sz data ea =>
    have := Ea.extWords_length_le sz ea
    simp only [Statement, encode, encEa_length]
    omega
  | subq sz data ea =>
    have := Ea.extWords_length_le sz ea
    simp only [Statement, encode, encEa_length]
    omega
  | scc cond ea =>
    have := Ea.extWords_length_le .b ea
    have := Ea.extWords_length_le .w ea
    have := Ea.extWords_length_le .l ea
    have := Ea.extWords_length_le ea.bitSize ea
    simp only [Statement, encode, encEa_length]
    omega
  | dbcc cond n d =>
    simp [Statement, encode]
  | bra disp =>
    cases disp <;> simp [Statement, encode, encBranch]
  | bsr disp =>
    cases disp <;> simp [Statement, encode, encBranch]
  | bcc cond disp =>
    cases disp <;> simp [Statement, encode, encBranch]
  | moveq n data =>
    simp [Statement, encode]
  | orEaDn sz ea n =>
    have := Ea.extWords_length_le sz ea
    simp only [Statement, encode, encEa_length]
    omega
  | orDnEa sz n ea =>
    have := Ea.extWords_length_le sz ea
    simp only [Statement, encode, encEa_length]
    omega
  | divu n ea =>
    have := Ea.extWords_length_le .b ea
    have := Ea.extWords_length_le .w ea
    have := Ea.extWords_length_le .l ea
    have := Ea.extWords_length_le ea.bitSize ea
    simp only [Statement, encode, encEa_length]
    omega
  | divs n ea =>
    have := Ea.extWords_length_le .b ea
    have := Ea.extWords_length_le .w ea
    have := Ea.extWords_length_le .l ea
    have := Ea.extWords_length_le ea.bitSize ea
    simp only [Statement, encode, encEa_length]
    omega
  | sbcd form x y =>
    simp [Statement, encode, encPair]
  | subEaDn sz ea n =>
    have := Ea.extWords_length_le sz ea
    simp only [Statement, encode, encEa_length]
    omega
  | subDnEa sz n ea =>
    have := Ea.extWords_length_le sz ea
    simp only [Statement, encode, encEa_length]
    omega
  | suba sz n ea =>
    have := Ea.extWords_length_le sz.size ea
    simp only [Statement, encode, encEa_length]
    omega
  | subx sz form x y =>
    simp [Statement, encode, encPair]
  | cmp sz ea n =>
    have := Ea.extWords_length_le sz ea
    simp only [Statement, encode, encEa_length]
    omega
  | cmpa sz n ea =>
    have := Ea.extWords_length_le sz.size ea
    simp only [Statement, encode, encEa_length]
    omega
  | eor sz n ea =>
    have := Ea.extWords_length_le sz ea
    simp only [Statement, encode, encEa_length]
    omega
  | cmpm sz x y =>
    simp [Statement, encode, encPair]
  | andEaDn sz ea n =>
    have := Ea.extWords_length_le sz ea
    simp only [Statement, encode, encEa_length]
    omega
  | andDnEa sz n ea =>
    have := Ea.extWords_length_le sz ea
    simp only [Statement, encode, encEa_length]
    omega
  | mulu n ea =>
    have := Ea.extWords_length_le .b ea
    have := Ea.extWords_length_le .w ea
    have := Ea.extWords_length_le .l ea
    have := Ea.extWords_length_le ea.bitSize ea
    simp only [Statement, encode, encEa_length]
    omega
  | muls n ea =>
    have := Ea.extWords_length_le .b ea
    have := Ea.extWords_length_le .w ea
    have := Ea.extWords_length_le .l ea
    have := Ea.extWords_length_le ea.bitSize ea
    simp only [Statement, encode, encEa_length]
    omega
  | abcd form x y =>
    simp [Statement, encode, encPair]
  | exgDD x y =>
    simp [Statement, encode]
  | exgAA x y =>
    simp [Statement, encode]
  | exgDA x y =>
    simp [Statement, encode]
  | addEaDn sz ea n =>
    have := Ea.extWords_length_le sz ea
    simp only [Statement, encode, encEa_length]
    omega
  | addDnEa sz n ea =>
    have := Ea.extWords_length_le sz ea
    simp only [Statement, encode, encEa_length]
    omega
  | adda sz n ea =>
    have := Ea.extWords_length_le sz.size ea
    simp only [Statement, encode, encEa_length]
    omega
  | addx sz form x y =>
    simp [Statement, encode, encPair]
  | asrReg sz cnt y =>
    simp [Statement, encode, encShift]
  | asrMem ea =>
    have := Ea.extWords_length_le .b ea
    have := Ea.extWords_length_le .w ea
    have := Ea.extWords_length_le .l ea
    have := Ea.extWords_length_le ea.bitSize ea
    simp only [Statement, encode, encShiftMem, encEa_length]
    omega
  | aslReg sz cnt y =>
    simp [Statement, encode, encShift]
  | aslMem ea =>
    have := Ea.extWords_length_le .b ea
    have := Ea.extWords_length_le .w ea
    have := Ea.extWords_length_le .l ea
    have := Ea.extWords_length_le ea.bitSize ea
    simp only [Statement, encode, encShiftMem, encEa_length]
    omega
  | lsrReg sz cnt y =>
    simp [Statement, encode, encShift]
  | lsrMem ea =>
    have := Ea.extWords_length_le .b ea
    have := Ea.extWords_length_le .w ea
    have := Ea.extWords_length_le .l ea
    have := Ea.extWords_length_le ea.bitSize ea
    simp only [Statement, encode, encShiftMem, encEa_length]
    omega
  | lslReg sz cnt y =>
    simp [Statement, encode, encShift]
  | lslMem ea =>
    have := Ea.extWords_length_le .b ea
    have := Ea.extWords_length_le .w ea
    have := Ea.extWords_length_le .l ea
    have := Ea.extWords_length_le ea.bitSize ea
    simp only [Statement, encode, encShiftMem, encEa_length]
    omega
  | roxrReg sz cnt y =>
    simp [Statement, encode, encShift]
  | roxrMem ea =>
    have := Ea.extWords_length_le .b ea
    have := Ea.extWords_length_le .w ea
    have := Ea.extWords_length_le .l ea
    have := Ea.extWords_length_le ea.bitSize ea
    simp only [Statement, encode, encShiftMem, encEa_length]
    omega
  | roxlReg sz cnt y =>
    simp [Statement, encode, encShift]
  | roxlMem ea =>
    have := Ea.extWords_length_le .b ea
    have := Ea.extWords_length_le .w ea
    have := Ea.extWords_length_le .l ea
    have := Ea.extWords_length_le ea.bitSize ea
    simp only [Statement, encode, encShiftMem, encEa_length]
    omega
  | rorReg sz cnt y =>
    simp [Statement, encode, encShift]
  | rorMem ea =>
    have := Ea.extWords_length_le .b ea
    have := Ea.extWords_length_le .w ea
    have := Ea.extWords_length_le .l ea
    have := Ea.extWords_length_le ea.bitSize ea
    simp only [Statement, encode, encShiftMem, encEa_length]
    omega
  | rolReg sz cnt y =>
    simp [Statement, encode, encShift]
  | rolMem ea =>
    have := Ea.extWords_length_le .b ea
    have := Ea.extWords_length_le .w ea
    have := Ea.extWords_length_le .l ea
    have := Ea.extWords_length_le ea.bitSize ea
    simp only [Statement, encode, encShiftMem, encEa_length]
    omega

theorem oriToCcr (imm : Byte) : Statement (.oriToCcr imm) := encode_length _
theorem oriToSr (imm : Word) : Statement (.oriToSr imm) := encode_length _
theorem andiToCcr (imm : Byte) : Statement (.andiToCcr imm) := encode_length _
theorem andiToSr (imm : Word) : Statement (.andiToSr imm) := encode_length _
theorem eoriToCcr (imm : Byte) : Statement (.eoriToCcr imm) := encode_length _
theorem eoriToSr (imm : Word) : Statement (.eoriToSr imm) := encode_length _
theorem ori (sz : Size) (imm : Long) (ea : Ea) : Statement (.ori sz imm ea) := encode_length _
theorem andi (sz : Size) (imm : Long) (ea : Ea) : Statement (.andi sz imm ea) := encode_length _
theorem subi (sz : Size) (imm : Long) (ea : Ea) : Statement (.subi sz imm ea) := encode_length _
theorem addi (sz : Size) (imm : Long) (ea : Ea) : Statement (.addi sz imm ea) := encode_length _
theorem eori (sz : Size) (imm : Long) (ea : Ea) : Statement (.eori sz imm ea) := encode_length _
theorem cmpi (sz : Size) (imm : Long) (ea : Ea) : Statement (.cmpi sz imm ea) := encode_length _
theorem btstImm (num : Byte) (ea : Ea) : Statement (.btstImm num ea) := encode_length _
theorem bchgImm (num : Byte) (ea : Ea) : Statement (.bchgImm num ea) := encode_length _
theorem bclrImm (num : Byte) (ea : Ea) : Statement (.bclrImm num ea) := encode_length _
theorem bsetImm (num : Byte) (ea : Ea) : Statement (.bsetImm num ea) := encode_length _
theorem btstDyn (n : Reg) (ea : Ea) : Statement (.btstDyn n ea) := encode_length _
theorem bchgDyn (n : Reg) (ea : Ea) : Statement (.bchgDyn n ea) := encode_length _
theorem bclrDyn (n : Reg) (ea : Ea) : Statement (.bclrDyn n ea) := encode_length _
theorem bsetDyn (n : Reg) (ea : Ea) : Statement (.bsetDyn n ea) := encode_length _
theorem movep (dir : MovepDir) (sz : WordLong) (dx : Reg) (ay : Reg) (d : Word) : Statement (.movep dir sz dx ay d) := encode_length _
theorem move (sz : Size) (src : Ea) (dst : Ea) : Statement (.move sz src dst) := encode_length _
theorem movea (sz : WordLong) (n : Reg) (src : Ea) : Statement (.movea sz n src) := encode_length _
theorem negx (sz : Size) (ea : Ea) : Statement (.negx sz ea) := encode_length _
theorem moveFromSr (ea : Ea) : Statement (.moveFromSr ea) := encode_length _
theorem chk (n : Reg) (ea : Ea) : Statement (.chk n ea) := encode_length _
theorem lea (n : Reg) (ea : Ea) : Statement (.lea n ea) := encode_length _
theorem clr (sz : Size) (ea : Ea) : Statement (.clr sz ea) := encode_length _
theorem neg (sz : Size) (ea : Ea) : Statement (.neg sz ea) := encode_length _
theorem moveToCcr (ea : Ea) : Statement (.moveToCcr ea) := encode_length _
theorem not (sz : Size) (ea : Ea) : Statement (.not sz ea) := encode_length _
theorem moveToSr (ea : Ea) : Statement (.moveToSr ea) := encode_length _
theorem nbcd (ea : Ea) : Statement (.nbcd ea) := encode_length _
theorem swap (n : Reg) : Statement (.swap n) := encode_length _
theorem pea (ea : Ea) : Statement (.pea ea) := encode_length _
theorem extW (n : Reg) : Statement (.extW n) := encode_length _
theorem extL (n : Reg) : Statement (.extL n) := encode_length _
theorem movemToMem (sz : WordLong) (mask : Word) (ea : Ea) : Statement (.movemToMem sz mask ea) := encode_length _
theorem tst (sz : Size) (ea : Ea) : Statement (.tst sz ea) := encode_length _
theorem tas (ea : Ea) : Statement (.tas ea) := encode_length _
theorem illegal : Statement .illegal := encode_length _
theorem movemToRegs (sz : WordLong) (mask : Word) (ea : Ea) : Statement (.movemToRegs sz mask ea) := encode_length _
theorem trap (v : BitVec 4) : Statement (.trap v) := encode_length _
theorem link (n : Reg) (d : Word) : Statement (.link n d) := encode_length _
theorem unlk (n : Reg) : Statement (.unlk n) := encode_length _
theorem moveToUsp (n : Reg) : Statement (.moveToUsp n) := encode_length _
theorem moveFromUsp (n : Reg) : Statement (.moveFromUsp n) := encode_length _
theorem reset : Statement .reset := encode_length _
theorem nop : Statement .nop := encode_length _
theorem stop (imm : Word) : Statement (.stop imm) := encode_length _
theorem rte : Statement .rte := encode_length _
theorem rts : Statement .rts := encode_length _
theorem trapv : Statement .trapv := encode_length _
theorem rtr : Statement .rtr := encode_length _
theorem jsr (ea : Ea) : Statement (.jsr ea) := encode_length _
theorem jmp (ea : Ea) : Statement (.jmp ea) := encode_length _
theorem addq (sz : Size) (q : BitVec 3) (ea : Ea) : Statement (.addq sz q ea) := encode_length _
theorem subq (sz : Size) (q : BitVec 3) (ea : Ea) : Statement (.subq sz q ea) := encode_length _
theorem scc (cond : Cond) (ea : Ea) : Statement (.scc cond ea) := encode_length _
theorem dbcc (cond : Cond) (n : Reg) (d : Word) : Statement (.dbcc cond n d) := encode_length _
theorem bra (disp : BranchDisp) : Statement (.bra disp) := encode_length _
theorem bsr (disp : BranchDisp) : Statement (.bsr disp) := encode_length _
theorem bcc (cond : Cond) (disp : BranchDisp) : Statement (.bcc cond disp) := encode_length _
theorem moveq (n : Reg) (data : Byte) : Statement (.moveq n data) := encode_length _
theorem orEaDn (sz : Size) (ea : Ea) (n : Reg) : Statement (.orEaDn sz ea n) := encode_length _
theorem orDnEa (sz : Size) (n : Reg) (ea : Ea) : Statement (.orDnEa sz n ea) := encode_length _
theorem divu (n : Reg) (ea : Ea) : Statement (.divu n ea) := encode_length _
theorem divs (n : Reg) (ea : Ea) : Statement (.divs n ea) := encode_length _
theorem sbcd (form : PairForm) (x : Reg) (y : Reg) : Statement (.sbcd form x y) := encode_length _
theorem subEaDn (sz : Size) (ea : Ea) (n : Reg) : Statement (.subEaDn sz ea n) := encode_length _
theorem subDnEa (sz : Size) (n : Reg) (ea : Ea) : Statement (.subDnEa sz n ea) := encode_length _
theorem suba (sz : WordLong) (n : Reg) (ea : Ea) : Statement (.suba sz n ea) := encode_length _
theorem subx (sz : Size) (form : PairForm) (x : Reg) (y : Reg) : Statement (.subx sz form x y) := encode_length _
theorem cmp (sz : Size) (ea : Ea) (n : Reg) : Statement (.cmp sz ea n) := encode_length _
theorem cmpa (sz : WordLong) (n : Reg) (ea : Ea) : Statement (.cmpa sz n ea) := encode_length _
theorem eor (sz : Size) (n : Reg) (ea : Ea) : Statement (.eor sz n ea) := encode_length _
theorem cmpm (sz : Size) (x : Reg) (y : Reg) : Statement (.cmpm sz x y) := encode_length _
theorem andEaDn (sz : Size) (ea : Ea) (n : Reg) : Statement (.andEaDn sz ea n) := encode_length _
theorem andDnEa (sz : Size) (n : Reg) (ea : Ea) : Statement (.andDnEa sz n ea) := encode_length _
theorem mulu (n : Reg) (ea : Ea) : Statement (.mulu n ea) := encode_length _
theorem muls (n : Reg) (ea : Ea) : Statement (.muls n ea) := encode_length _
theorem abcd (form : PairForm) (x : Reg) (y : Reg) : Statement (.abcd form x y) := encode_length _
theorem exgDD (x : Reg) (y : Reg) : Statement (.exgDD x y) := encode_length _
theorem exgAA (x : Reg) (y : Reg) : Statement (.exgAA x y) := encode_length _
theorem exgDA (x : Reg) (y : Reg) : Statement (.exgDA x y) := encode_length _
theorem addEaDn (sz : Size) (ea : Ea) (n : Reg) : Statement (.addEaDn sz ea n) := encode_length _
theorem addDnEa (sz : Size) (n : Reg) (ea : Ea) : Statement (.addDnEa sz n ea) := encode_length _
theorem adda (sz : WordLong) (n : Reg) (ea : Ea) : Statement (.adda sz n ea) := encode_length _
theorem addx (sz : Size) (form : PairForm) (x : Reg) (y : Reg) : Statement (.addx sz form x y) := encode_length _
theorem asrReg (sz : Size) (cnt : ShiftCount) (y : Reg) : Statement (.asrReg sz cnt y) := encode_length _
theorem asrMem (ea : Ea) : Statement (.asrMem ea) := encode_length _
theorem aslReg (sz : Size) (cnt : ShiftCount) (y : Reg) : Statement (.aslReg sz cnt y) := encode_length _
theorem aslMem (ea : Ea) : Statement (.aslMem ea) := encode_length _
theorem lsrReg (sz : Size) (cnt : ShiftCount) (y : Reg) : Statement (.lsrReg sz cnt y) := encode_length _
theorem lsrMem (ea : Ea) : Statement (.lsrMem ea) := encode_length _
theorem lslReg (sz : Size) (cnt : ShiftCount) (y : Reg) : Statement (.lslReg sz cnt y) := encode_length _
theorem lslMem (ea : Ea) : Statement (.lslMem ea) := encode_length _
theorem roxrReg (sz : Size) (cnt : ShiftCount) (y : Reg) : Statement (.roxrReg sz cnt y) := encode_length _
theorem roxrMem (ea : Ea) : Statement (.roxrMem ea) := encode_length _
theorem roxlReg (sz : Size) (cnt : ShiftCount) (y : Reg) : Statement (.roxlReg sz cnt y) := encode_length _
theorem roxlMem (ea : Ea) : Statement (.roxlMem ea) := encode_length _
theorem rorReg (sz : Size) (cnt : ShiftCount) (y : Reg) : Statement (.rorReg sz cnt y) := encode_length _
theorem rorMem (ea : Ea) : Statement (.rorMem ea) := encode_length _
theorem rolReg (sz : Size) (cnt : ShiftCount) (y : Reg) : Statement (.rolReg sz cnt y) := encode_length _
theorem rolMem (ea : Ea) : Statement (.rolMem ea) := encode_length _

end Sys2Proof.Laws.EncodedLength
end

