-- ==== Sys2Proof/Laws/Step.lean ====
section
/-! SUPPORT. What one step can do, said once. -/

namespace Sys2Proof.Machine

/-- A step that answers a next state performed the reset, changed nothing, accepted a request, or ran the instruction at PC. -/
theorem step_cases {s t : State} (h : step s = .next t) :
    (s.resetPending = true ∧ t = processReset s) ∨
    (s.resetPending = false ∧ (s.halted = true ∨ s.stopped = true) ∧ t = s) ∨
    (s.resetPending = false ∧ s.halted = false ∧ ∃ r, bestRequest s.irqMask s.irqQueue = some r ∧ t = acceptInterrupt r s) ∨
    (s.resetPending = false ∧ s.halted = false ∧ s.stopped = false ∧ bestRequest s.irqMask s.irqQueue = none ∧
      runInstruction s = .next t) := by
  unfold step driverCycle at h
  split at h
  · next hr => exact .inl ⟨hr, by injection h with h; exact h.symm⟩
  · next hr =>
    split at h
    · next hh => exact .inr (.inl ⟨by simpa using hr, .inl hh, by injection h with h; exact h.symm⟩)
    · next hh =>
      split at h
      · next r hb => exact .inr (.inr (.inl ⟨by simpa using hr, by simpa using hh, r, hb, by injection h with h; exact h.symm⟩))
      · next hb =>
        split at h
        · next hs => exact .inr (.inl ⟨by simpa using hr, .inr hs, by injection h with h; exact h.symm⟩)
        · next hs => exact .inr (.inr (.inr ⟨by simpa using hr, by simpa using hh, by simpa using hs, hb, h⟩))

/-- The instruction at PC takes the address error, the illegal instruction entry, or runs `exec`. -/
theorem runInstruction_cases (s : State) :
    (fetch s = .oddPc ∧ runInstruction s = .next (takeException .addressError s)) ∨
    (∃ op, fetch s = .illegal op ∧ runInstruction s = .next (raiseIllegal op s)) ∨
    (∃ i, fetch s = .instr i ∧ runInstruction s = exec i s) := by
  unfold runInstruction
  split
  · next h => exact .inl ⟨h, rfl⟩
  · next op h => exact .inr (.inl ⟨op, h, rfl⟩)
  · next i h => exact .inr (.inr ⟨i, h, rfl⟩)

end Sys2Proof.Machine
end

