-- ==== Sys2Proof/Tests/Slice0.lean ====
section
/-! SUPPORT. The model's own tests. Expected values come from the spec: words from spec/opcode_table.json and 30_encoding.md R106 to R116,
results from 95_test_vectors.md (the vector is named). After them, one witness per obligation that has hypotheses: a state and operands
that meet all of them. -/

namespace Sys2Proof.Tests

open Sys2Proof.Machine

/-! ## Ill-formed terms are refused (R111 to R113, R116, R123) -/

theorem test_wf_immediate_fits : (Instr.addi .b 0x100 (.dn 0)).wellFormed = false ∧ (Instr.addi .b 0xFF (.dn 0)).wellFormed = true := by
  decide
theorem test_wf_operand_immediate_fits : (Instr.move .w (.imm 0x10000) (.dn 0)).wellFormed = false := by decide
theorem test_wf_no_byte_access_to_address_register :
    (Instr.move .b (.an 0) (.dn 0)).wellFormed = false ∧ (Instr.addq .b 1 (.an 0)).wellFormed = false ∧
    (Instr.addq .w 1 (.an 0)).wellFormed = true := by decide
theorem test_wf_data : (Instr.mulu 0 (.an 1)).wellFormed = false := by decide
theorem test_wf_data_no_imm : (Instr.btstImm 0 (.imm 1)).wellFormed = false ∧ (Instr.btstDyn 0 (.imm 1)).wellFormed = true := by decide
theorem test_wf_alterable : (Instr.subq .w 1 (.pcDisp 0)).wellFormed = false := by decide
theorem test_wf_data_alterable :
    (Instr.move .w (.dn 0) (.an 0)).wellFormed = false ∧ (Instr.clr .w (.imm 0)).wellFormed = false ∧
    (Instr.tst .w (.pcDisp 0)).wellFormed = false := by decide
theorem test_wf_memory_alterable : (Instr.addDnEa .w 0 (.dn 0)).wellFormed = false ∧ (Instr.aslMem (.dn 0)).wellFormed = false := by decide
theorem test_wf_control : (Instr.lea 0 (.postInc 0)).wellFormed = false ∧ (Instr.jmp (.dn 0)).wellFormed = false := by decide
theorem test_wf_movem :
    (Instr.movemToMem .w 1 (.postInc 0)).wellFormed = false ∧ (Instr.movemToMem .w 1 (.pcDisp 0)).wellFormed = false ∧
    (Instr.movemToRegs .w 1 (.preDec 0)).wellFormed = false ∧ (Instr.movemToRegs .w 1 (.pcDisp 0)).wellFormed = true := by decide
theorem test_wf_byte_displacement : (Instr.bra (.byte 0)).wellFormed = false := by decide
theorem test_wf_condition : (Instr.bcc .t (.word 0)).wellFormed = false ∧ (Instr.bcc .f (.word 0)).wellFormed = false := by decide

/-! ## Words of the spec decode to their instruction, and leave the word after them -/

/-- The words are read as the instruction and the word after them is left. -/
def reads (ws : List Word) (i : Instr) : Bool :=
  match decode (ws ++ [0xBEEF]) with
  | .ok (j, [w]) => i == j && w == 0xBEEF
  | _ => false

/-- The opcode is rejected as illegal. -/
def rejects (w : Word) : Bool :=
  match decode [w, 0, 0, 0, 0] with
  | .error (.illegalOpcode v) => v == w
  | _ => false

theorem test_decode_status :
    reads [0x003C, 0x0010] (.oriToCcr 0x10) ∧ reads [0x007C, 0x0700] (.oriToSr 0x0700) ∧
    reads [0x023C, 0x001B] (.andiToCcr 0x1B) ∧ reads [0x027C, 0xF8FF] (.andiToSr 0xF8FF) ∧
    reads [0x0A3C, 0x0001] (.eoriToCcr 1) ∧ reads [0x0A7C, 0x2000] (.eoriToSr 0x2000) ∧
    reads [0x40C0] (.moveFromSr (.dn 0)) ∧ reads [0x44C0] (.moveToCcr (.dn 0)) ∧ reads [0x46FC, 0xFFFF] (.moveToSr (.imm 0xFFFF)) := by
  decide

theorem test_decode_immediate :
    reads [0x0043, 0x8000] (.ori .w 0x8000 (.dn 3)) ∧ reads [0x0280, 0x0001, 0x0002] (.andi .l 0x10002 (.dn 0)) ∧
    reads [0x0450, 0x1234] (.subi .w 0x1234 (.ind 0)) ∧ reads [0x0600, 0x0001] (.addi .b 1 (.dn 0)) ∧
    reads [0x0A01, 0x00FF] (.eori .b 0xFF (.dn 1)) ∧ reads [0x0CB9, 0, 5, 0x0001, 0x2345] (.cmpi .l 5 (.absL 0x12345)) := by decide

theorem test_decode_bits :
    reads [0x0800, 0x0007] (.btstImm 7 (.dn 0)) ∧ reads [0x0850, 1] (.bchgImm 1 (.ind 0)) ∧ reads [0x0890, 0] (.bclrImm 0 (.ind 0)) ∧
    reads [0x08C2, 0x001F] (.bsetImm 31 (.dn 2)) ∧ reads [0x0310] (.btstDyn 1 (.ind 0)) ∧ reads [0x0340] (.bchgDyn 1 (.dn 0)) ∧
    reads [0x05A7] (.bclrDyn 2 (.preDec 7)) ∧ reads [0x0FDE] (.bsetDyn 7 (.postInc 6)) := by decide

theorem test_decode_move :
    reads [0x01C8, 0x0000] (.movep .regToMem .l 0 0 0) ∧ reads [0x0B0E, 0x0004] (.movep .memToReg .w 5 6 4) ∧
    reads [0x1F18] (.move .b (.postInc 0) (.preDec 7)) ∧ reads [0x3240] (.movea .w 1 (.dn 0)) ∧
    reads [0x23F0, 0x1404, 0x0000, 0x2000] (.move .l (.index 0 ⟨false, 1, false, 2, 4⟩) (.absL 0x2000)) ∧
    reads [0x303A, 0x0010] (.move .w (.pcDisp 0x10) (.dn 0)) ∧ reads [0x31FB, 0x98FE, 0x8000] (.move .w (.pcIndex ⟨true, 1, true, 0, 0xFE⟩) (.absW 0x8000)) ∧
    reads [0x747F] (.moveq 2 0x7F) ∧ reads [0x45E9, 0x0008] (.lea 2 (.disp 1 8)) ∧ reads [0x4878, 0x1234] (.pea (.absW 0x1234)) ∧
    reads [0x48E6, 0x8001] (.movemToMem .l 0x8001 (.preDec 6)) ∧ reads [0x4C98, 0x0003] (.movemToRegs .w 3 (.postInc 0)) ∧
    reads [0x4E56, 0xFFF8] (.link 6 0xFFF8) ∧ reads [0x4E5E] (.unlk 6) ∧
    reads [0xC141] (.exgDD 0 1) ∧ reads [0xC149] (.exgAA 0 1) ∧ reads [0xC189] (.exgDA 0 1) := by decide

theorem test_decode_one_operand :
    reads [0x4040] (.negx .w (.dn 0)) ∧ reads [0x4281] (.clr .l (.dn 1)) ∧ reads [0x4400] (.neg .b (.dn 0)) ∧
    reads [0x4610] (.not .b (.ind 0)) ∧ reads [0x4A00] (.tst .b (.dn 0)) ∧ reads [0x4AC0] (.tas (.dn 0)) ∧
    reads [0x4800] (.nbcd (.dn 0)) ∧ reads [0x4840] (.swap 0) ∧ reads [0x4880] (.extW 0) ∧ reads [0x48C0] (.extL 0) := by decide

theorem test_decode_control :
    reads [0x4181] (.chk 0 (.dn 1)) ∧ reads [0x4AFC] .illegal ∧ reads [0x4E4F] (.trap 15) ∧ reads [0x4E60] (.moveToUsp 0) ∧
    reads [0x4E69] (.moveFromUsp 1) ∧ reads [0x4E70] .reset ∧ reads [0x4E71] .nop ∧ reads [0x4E72, 0x2000] (.stop 0x2000) ∧
    reads [0x4E73] .rte ∧ reads [0x4E75] .rts ∧ reads [0x4E76] .trapv ∧ reads [0x4E77] .rtr ∧
    reads [0x4EB9, 0x0000, 0x2000] (.jsr (.absL 0x2000)) ∧ reads [0x4ED0] (.jmp (.ind 0)) := by decide

theorem test_decode_branch :
    reads [0x57C0] (.scc .eq (.dn 0)) ∧ reads [0x51C8, 0xFFFC] (.dbcc .f 0 0xFFFC) ∧ reads [0x60FF] (.bra (.byte 0xFF)) ∧
    reads [0x6000, 0xFFFE] (.bra (.word 0xFFFE)) ∧ reads [0x6100, 0x0100] (.bsr (.word 0x100)) ∧
    reads [0x6700, 0x0010] (.bcc .eq (.word 0x10)) ∧ reads [0x6604] (.bcc .ne (.byte 4)) := by decide

theorem test_decode_arithmetic :
    reads [0x5248] (.addq .w 1 (.an 0)) ∧ reads [0x5182] (.subq .l 0 (.dn 2)) ∧ reads [0xD058] (.addEaDn .w (.postInc 0) 0) ∧
    reads [0xD390] (.addDnEa .l 1 (.ind 0)) ∧ reads [0xD2C0] (.adda .w 1 (.dn 0)) ∧ reads [0xD583] (.addx .l .dregs 2 3) ∧
    reads [0x9041] (.subEaDn .w (.dn 1) 0) ∧ reads [0x9118] (.subDnEa .b 0 (.postInc 0)) ∧ reads [0x93C8] (.suba .l 1 (.an 0)) ∧
    reads [0x9308] (.subx .b .preDecs 1 0) ∧ reads [0xB240] (.cmp .w (.dn 0) 1) ∧ reads [0xB0C0] (.cmpa .w 0 (.dn 0)) ∧
    reads [0xB308] (.cmpm .b 1 0) ∧ reads [0xC6C1] (.mulu 3 (.dn 1)) ∧ reads [0xC7FC, 0xFFFF] (.muls 3 (.imm 0xFFFF)) ∧
    reads [0x80C1] (.divu 0 (.dn 1)) ∧ reads [0x81C1] (.divs 0 (.dn 1)) ∧ reads [0xC101] (.abcd .dregs 0 1) ∧
    reads [0x8308] (.sbcd .preDecs 1 0) := by decide

theorem test_decode_logical :
    reads [0xC001] (.andEaDn .b (.dn 1) 0) ∧ reads [0xC151] (.andDnEa .w 0 (.ind 1)) ∧ reads [0x8041] (.orEaDn .w (.dn 1) 0) ∧
    reads [0x8391] (.orDnEa .l 1 (.ind 1)) ∧ reads [0xB180] (.eor .l 0 (.dn 0)) := by decide

theorem test_decode_shift :
    reads [0xE240] (.asrReg .w (.field 1) 0) ∧ reads [0xE320] (.aslReg .b (.reg 1) 0) ∧ reads [0xE089] (.lsrReg .l (.field 0) 1) ∧
    reads [0xE3A8] (.lslReg .l (.reg 1) 0) ∧ reads [0xE250] (.roxrReg .w (.field 1) 0) ∧ reads [0xE332] (.roxlReg .b (.reg 1) 2) ∧
    reads [0xE858] (.rorReg .w (.field 4) 0) ∧ reads [0xE9B8] (.rolReg .l (.reg 4) 0) ∧ reads [0xE0D0] (.asrMem (.ind 0)) ∧
    reads [0xE1D0] (.aslMem (.ind 0)) ∧ reads [0xE2D8] (.lsrMem (.postInc 0)) ∧ reads [0xE3E0] (.lslMem (.preDec 0)) ∧
    reads [0xE4D1] (.roxrMem (.ind 1)) ∧ reads [0xE5D1] (.roxlMem (.ind 1)) ∧ reads [0xE6D1] (.rorMem (.ind 1)) ∧
    reads [0xE7D1] (.rolMem (.ind 1)) := by decide

/-- The corner cases of section 2.9 and one word of each hole. -/
theorem test_decode_corners :
    reads [0xC100] (.abcd .dregs 0 0) ∧ reads [0xC140] (.exgDD 0 0) ∧ reads [0xD100] (.addx .b .dregs 0 0) ∧
    reads [0xB108] (.cmpm .b 0 0) ∧ reads [0x50C8, 0] (.dbcc .t 0 0) ∧ rejects 0x00C0 ∧ rejects 0x4AC8 ∧ rejects 0x1040 ∧
    rejects 0x4E7A ∧ rejects 0x4E74 ∧ rejects 0xA000 ∧ rejects 0xF123 ∧ rejects 0x4AFA ∧ rejects 0xC188 = false ∧ rejects 0xE8C0 := by
  decide

/-- The host's two entry points, on STOP and its operand word as the opcode table numbers them, and with the operand word left out. -/
theorem test_table_words :
    decodeTableWord 32 0x20004E72 = some (.stop 0x2000) ∧ decodeTableWord 16 0x4E72 = some (.stop 0) ∧
    decodeTableWord 16 0xA000 = none ∧ fetch (State.reset.withFetchWord 32 0x20004E72) = .instr (.stop 0x2000) := by decide

/-! ## One step -/

/-- A machine in supervisor mode with SR 0x2000, PC 0x1000 and SSP 0x8000, as the vectors start. -/
def bench (sr : Word) (mem : Memory) : State := { State.reset with sr := sr, pc := 0x1000, ssp := 0x8000, usp := 0x6000, mem := mem }

/-- A property of the next state. -/
def gives (i : Instr) (s : State) (p : State → Bool) : Bool :=
  match exec i s with
  | .next t => p t
  | .fault _ | .refused _ => false

/-- E12, S4, R409: the decrement stays, MOVE's flags stay, memory is unchanged and vector 3 is taken. -/
theorem test_move_odd_predecrement :
    gives (.move .w (.dn 0) (.preDec 0)) ((bench 0x2000 []).setAreg 0 0x2003)
      (fun t => t.areg 0 == 0x2001 && t.mem.load 0x7FFA .w == 0x2004 && t.mem.load 0x7FFC .l == 0x1000) = true := by decide
/-- M9, M10: a base register in the MOVEM list. -/
theorem test_movem_base_in_list :
    gives (.movemToMem .l 0x0080 (.preDec 0)) ((bench 0x2000 []).setAreg 0 0x2000) (fun t => t.areg 0 == 0x1FFC && t.mem.load 0x1FFC .l == 0x2000) = true ∧
    gives (.movemToRegs .l 0x0100 (.postInc 0)) ((bench 0x2000 [(0x2000, 0x12)]).setAreg 0 0x2000) (fun t => t.areg 0 == 0x2004) = true := by
  decide
/-- M7: A7 is stored above D0. -/
theorem test_movem_predecrement_order :
    gives (.movemToMem .l 0x8001 (.preDec 6)) (((bench 0x2000 []).setAreg 6 0x2000).setDreg 0 0xD0D0D0D0)
      (fun t => t.mem.load 0x1FFC .l == 0x8000 && t.mem.load 0x1FF8 .l == 0xD0D0D0D0 && t.areg 6 == 0x1FF8) = true := by decide
/-- M11. -/
theorem test_movep_odd :
    gives (.movep .regToMem .l 0 0 0) (((bench 0x2000 []).setAreg 0 0x2001).setDreg 0 0x11223344)
      (fun t => t.mem == [(0x2001, 0x11), (0x2003, 0x22), (0x2005, 0x33), (0x2007, 0x44)]) = true := by decide
/-- M17. -/
theorem test_link_a7 :
    gives (.link 7 0) (bench 0x2000 []) (fun t => t.ssp == 0x7FFC && t.mem.load 0x7FFC .l == 0x7FFC) = true := by decide
/-- A2, A6. -/
theorem test_addq_address_and_addx_zero :
    gives (.addq .w 1 (.an 0)) ((bench 0x2000 []).setAreg 0 0xFFFF) (fun t => t.areg 0 == 0x10000 && t.sr == 0x2000) = true ∧
    gives (.addx .l .dregs 2 3) (bench 0x2000 []) (fun t => t.sr == 0x2000) = true := by decide
/-- DIVS: -7 / 2. -/
theorem test_divs_negative :
    gives (.divs 0 (.imm 2)) ((bench 0x2000 []).setDreg 0 0xFFFFFFF9) (fun t => t.dreg 0 == 0xFFFFFFFD && t.sr == 0x2008) = true := by
  decide
/-- ROXL.B of 0x80 by 9 (register count), ASL.B of 0x01 by 8 (field 0). -/
theorem test_shift_counts :
    gives (.roxlReg .b (.reg 1) 0) (((bench 0x2000 []).setDreg 0 0x80).setDreg 1 73) (fun t => t.dreg 0 == 0x80 && t.sr == 0x2008) = true ∧
    gives (.aslReg .b (.field 0) 0) ((bench 0x2000 []).setDreg 0 1) (fun t => t.dreg 0 == 0 && t.sr == 0x2017) = true := by decide
/-- ABCD 0x01 + 0x99 + 1 and NBCD of 0x01. -/
theorem test_decimal :
    gives (.abcd .dregs 0 1) (((bench 0x2010 []).setDreg 0 0x99).setDreg 1 1) (fun t => t.dreg 0 == 0x01 && t.ccr.c && t.ccr.x) = true ∧
    gives (.nbcd (.dn 0)) ((bench 0x2000 []).setDreg 0 1) (fun t => t.dreg 0 == 0x99 && t.ccr.c) = true := by decide
/-- T9, T10: DBF counts the low word only. -/
theorem test_dbf :
    gives (.dbcc .f 0 0xFFFC) ((bench 0x2000 []).setDreg 0 0x10000) (fun t => t.dreg 0 == 0x1FFFF && t.pc == 0x1004) = true ∧
    gives (.dbcc .f 0 0xFFFC) ((bench 0x2000 []).setDreg 0 1) (fun t => t.dreg 0 == 0 && t.pc == 0xFFE) = true := by decide
/-- T17: RTR keeps the upper byte of SR. -/
theorem test_rtr :
    gives .rtr { bench 0x2000 [(0x7FFA, 0xFF), (0x7FFB, 0x1F), (0x7FFE, 0x12), (0x7FFF, 0x34)] with ssp := 0x7FFA }
      (fun t => t.sr == 0x201F && t.pc == 0x1234 && t.ssp == 0x8000) = true := by decide
/-- Y15: RTE to user mode. Y5: MOVE to SR masks. -/
theorem test_rte_and_move_to_sr :
    gives .rte { bench 0x2000 [(0x7FFB, 0x04), (0x7FFE, 0x12), (0x7FFF, 0x34)] with ssp := 0x7FFA }
      (fun t => t.sr == 0x0004 && t.pc == 0x1234 && t.ssp == 0x8000 && t.areg 7 == 0x6000) = true ∧
    gives (.moveToSr (.imm 0xFFFF)) (bench 0x2000 []) (fun t => t.sr == 0xA71F) = true := by decide
/-- The next state of a step, with a property. -/
def stepGives (s : State) (p : State → Bool) : Bool :=
  match step s with
  | .next t => p t
  | .fault _ | .refused _ => false

/-- X10: the trace exception under TRACE_EXC, and its absence without. -/
theorem test_trace :
    stepGives { bench 0xA000 [(0x26, 0x30), (0x1000, 0x4E), (0x1001, 0x71)] with params := { defaultParams with traceExc := true } }
      (fun t => t.pc == 0x3000 && t.sr == 0x2000 && t.mem.load 0x7FFA .w == 0xA000 && t.mem.load 0x7FFC .l == 0x1002) = true ∧
    stepGives (bench 0xA000 [(0x26, 0x30), (0x1000, 0x4E), (0x1001, 0x71)]) (fun t => t.pc == 0x1002 && t.sr == 0xA000) = true := by
  decide
/-- X4: the first request of level 5 is taken through vector 64. -/
theorem test_interrupt :
    stepGives { bench 0x2000 [(0x102, 0x30)] with irqQueue := [⟨2, none⟩, ⟨5, some 0x40⟩, ⟨5, none⟩] }
      (fun t => t.pc == 0x3000 && t.sr == 0x2500 && t.irqQueue == [⟨2, none⟩, ⟨5, none⟩]) = true := by decide
/-- X8, P5d: an odd SSP at exception entry halts. -/
theorem test_double_fault :
    stepGives { bench 0x2000 [(0x1000, 0x4E), (0x1001, 0x4F)] with ssp := 0x7FFF } (fun t => t.halted && !t.canContinue) = true := by
  decide
/-- R402, X9: an odd PC. Y23: line A. -/
theorem test_odd_pc_and_line_a :
    stepGives { bench 0x2000 [(0x0E, 0x30)] with pc := 0x3001 } (fun t => t.pc == 0x3000 && t.mem.load 0x7FFC .l == 0x3001) = true ∧
    stepGives (bench 0x2000 [(0x12, 0x30), (0x1000, 0xA0)]) (fun t => t.pc == 0x3000 && t.mem.load 0x7FFC .l == 0x1002) = true := by
  decide

/-! ## Witnesses: a state and operands that meet all hypotheses of each obligation -/

/-- A machine in supervisor mode with even stack and address registers, for the witnesses. -/
def demo : State :=
  { State.reset with
    d := #v[5, 0x00010005, 0x7FFFFFFF, 0xFFFFFFF9, 0, 0, 0, 0]
    a := #v[0x1000, 0x1100, 0x1200, 0x1300, 0x1400, 0x1500, 0x1600]
    usp := 0x9000
    ssp := 0x8000
    pc := 0x2000 }

/-- `demo` in user mode. -/
def demoUser : State := { demo with sr := 0 }

/-- `demo` with an instruction at PC. -/
def demoAt (ws : List Word) : State := { demo with mem := storeWords [] 0x2000 ws }

theorem test_witness_DecodeOfEncodeIsTheInstruction : (Instr.move .l (.imm 0xFFFFFFFF) (.absL 0xFFFFFFFF)).wellFormed = true := by decide
theorem test_witness_DecodedOpcodeMatchesItsRow : decode (0x4E72 :: [0x2000, 7]) = .ok (.stop 0x2000, [7]) := by decide
theorem test_witness_StepRunsTheDecodedInstruction :
    let s := demoAt [0x4E72, 0x2000]
    s.resetPending = false ∧ s.halted = false ∧ s.stopped = false ∧ bestRequest s.irqMask s.irqQueue = none ∧
    s.pc.getLsbD 0 = false ∧ (Instr.stop 0x2000).wellFormed = true ∧ (encode (.stop 0x2000)).length = 2 ∧
    s.mem.byteAt s.pc 0 ++ s.mem.byteAt s.pc 1 = (0x4E72 : Word) ∧ s.mem.byteAt s.pc 2 ++ s.mem.byteAt s.pc 3 = (0x2000 : Word) ∧
    encode (.stop 0x2000) = [0x4E72, 0x2000] := by decide
theorem test_witness_StepPriority :
    { demo with resetPending := true, halted := true }.resetPending = true ∧
    ({ demo with halted := true }.resetPending = false ∧ { demo with halted := true }.halted = true) ∧
    (demo.resetPending = false ∧ demo.halted = false ∧ bestRequest demo.irqMask [⟨7, none⟩] = some ⟨7, none⟩) ∧
    bestRequest { demo with stopped := true }.irqMask { demo with stopped := true }.irqQueue = none := by decide
theorem test_witness_StepKeepsTheInvariant : State.inv { demo with mem := [(0xFFFFFF, 1)], irqQueue := [⟨7, some 0x40⟩] } = true := by
  decide
theorem test_witness_LoadAfterStoreReturnsTheValue : Memory.wf [(0, 1), (0xFFFFFF, 2)] = true := by decide
theorem test_witness_MemRead_and_MemWrite :
    (0xFFFFFF : Long).getLsbD 0 = true ∧ (0xFFFFFFFE : Long).getLsbD 0 = false ∧ demo.mem.wf = true ∧ Size.w ≠ Size.b := by decide
theorem test_witness_DataRegisterMergeWrite : (0 : Reg) ≠ 7 := by decide
theorem test_witness_A7IsTheStackPointerOfTheMode :
    demo.sr.getLsbD 13 = true ∧ demoUser.sr.getLsbD 13 = false ∧ (6 : Reg) ≠ 7 := by decide
theorem test_witness_Addition_and_Subtraction : Size.b.fits 0xFF = true ∧ Size.l.fits 0xFFFFFFFF = true := by decide
theorem test_witness_ShiftClosedForms : Size.w.fits 0x8001 = true ∧ 1 ≤ 63 := by decide
theorem test_witness_RotateClosedForms : Size.b.fits 0x81 = true ∧ 1 ≤ 8 ∧ 7 < Size.b.bits := by decide
theorem test_witness_ExtendRotateRoundTrip : Size.b.fits 0x80 = true ∧ 8 ≤ Size.b.bits ∧ Size.b.bits ≤ 31 := by decide
theorem test_witness_DecimalArithmeticOfValidDigits : 9 < 10 := by decide
theorem test_witness_DivisionSatisfiesTheDivisionLaw :
    (0xFFFF : Word) ≠ 0 ∧ divuResult 0xFFFE0000 0xFFFF = some (0xFFFE, 0xFFFE) ∧ divuResult 0xFFFF0000 0xFFFF = none ∧
    divsResult 0x8000 0xFFFF = some (0x8000, 0) ∧ divsResult 0x80000000 0xFFFF = none := by decide
theorem test_witness_ConditionsFollowTheSignedAndUnsignedOrder : Size.w.fits 0x8000 = true := by decide
theorem test_witness_MovemStoresTheRegisterImage :
    (Instr.movemToMem .l 0x8001 (.preDec 6)).wellFormed = true ∧ demo.traced = false ∧ demo.mem.wf = true ∧
    movemReady .l 0x8001 (movemBase (.preDec 6) demo) = true ∧
    0 < (maskBits.filter fun k => (0x8001 : Word).getLsbD (15 - k.val)).length := by decide
/-- For the three frames: a store, a register form and STOP, each with its next state. -/
theorem test_witness_frames :
    (Instr.wellFormed (.addDnEa .l 1 (.postInc 0)) && !demo.traced && Instr.completes (.addDnEa .l 1 (.postInc 0)) demo &&
      gives (.addDnEa .l 1 (.postInc 0)) demo fun _ => true) = true ∧
    (Instr.wellFormed (.exgDA 0 1) && Instr.completes (.exgDA 0 1) demo && gives (.exgDA 0 1) demo fun _ => true) = true ∧
    (Instr.completes (.stop 0x2000) demo && gives (.stop 0x2000) demo fun t => t.stopped) = true ∧
    Instr.dataDest (.exgDA 0 1) 1 = false ∧ Instr.addrDest (.exgDA 0 1) 0 = false ∧ demo.sr &&& 0xE0 = 0 := by decide
theorem test_witness_ExceptionEntry_and_Frame_and_Rte :
    demo.ssp.getLsbD 0 = false ∧ { demo with ssp := 0x7FFF }.ssp.getLsbD 0 = true ∧ demo.mem.wf = true ∧ demo.inv = true := by
  decide
theorem test_witness_PrivilegedInstructionsTrapInUserMode : demoUser.supervisor = false := by decide
theorem test_witness_IllegalOpcodeAndOddPcTakeTheirVectors :
    let s := demoAt [0xA000]
    s.resetPending = false ∧ s.halted = false ∧ s.stopped = false ∧ bestRequest s.irqMask s.irqQueue = none ∧
    (0x2001 : Long).getLsbD 0 = true ∧ s.pc.getLsbD 0 = false ∧ s.mem.byteAt s.pc 0 ++ s.mem.byteAt s.pc 1 = (0xA000 : Word) ∧
    decode (fetchWords s) = .error (.illegalOpcode 0xA000) := by decide
theorem test_witness_OddOperandTakesTheAddressError :
    operandReady (.absW 0x2001) .w (demo.pc + 2) demo = false ∧ operandReady (.dn 0) .w (demo.pc + 2) demo = true ∧
    operandReady (.absW 0x2001) .w (demo.pc + 2 + BitVec.ofNat 32 ((Ea.dn 0).extBytes .w)) (sideEffect (.dn 0) .w demo) = false := by
  decide
/-- One state per clause: an odd absolute operand, the odd register of a pair, an odd MOVEM base with one register listed. -/
theorem test_witness_OddOperandOfTheOtherFormsTakesTheAddressError :
    let s := demo.setAreg 1 0x1101
    operandReady (.absW 0x2001) .l (s.pc + 2 + BitVec.ofNat 32 (immBytes .l)) s = false ∧
    operandReady (.absW 0x2001) WordLong.w.size (s.pc + 2) s = false ∧ s.supervisor = true ∧
    operandReady (.preDec 1) .w (s.pc + 2) s = false ∧ operandReady (.preDec 0) .w (s.pc + 2) s = true ∧
    operandReady (.preDec 1) .w (s.pc + 2) (sideEffect (.preDec 0) .w s) = false ∧
    operandReady (.postInc 1) .w (s.pc + 2) s = false ∧ operandReady (.postInc 0) .w (s.pc + 2) s = true ∧
    operandReady (.postInc 1) .w (s.pc + 2) (sideEffect (.postInc 0) .w s) = false ∧
    movemReady WordLong.w.size 1 (movemBase (.ind 1) s) = false ∧
    (Instr.movemToMem .w 1 (.ind 1)).wellFormed = true ∧ (Instr.movemToRegs .w 1 (.ind 1)).wellFormed = true := by decide
theorem test_witness_OddStackTakesTheAddressError :
    let s := { demo with ssp := 0x7FFF }
    s.sp.getLsbD 0 = true ∧ (Instr.pea (.ind 0)).wellFormed = true ∧ (Instr.jsr (.ind 0)).wellFormed = true ∧
    (s.areg 7).getLsbD 0 = true ∧ s.supervisor = true ∧ s.ssp.getLsbD 0 = true := by decide
/-- NOP, which runs to its end, and TRAP, which raises. -/
theorem test_witness_TracedInstructionTakesVectorNine :
    let s := { demo with sr := 0xA000, params := { defaultParams with traceExc := true } }
    Instr.nop.wellFormed = true ∧ s.params.traceExc = true ∧ s.sr.getLsbD 15 = true ∧ Instr.nop.completes s = true ∧
    (gives .nop { s with params := { s.params with traceExc := false } } fun _ => true) = true ∧
    (Instr.trap 0).completes s = false ∧
    (gives (.trap 0) { s with params := { s.params with traceExc := false } } fun _ => true) = true := by decide
theorem test_witness_HighestAcceptableRequestIsTaken :
    bestRequest 7 [⟨3, none⟩, ⟨7, some 1⟩, ⟨7, none⟩] = some ⟨7, some 1⟩ ∧ bestRequest 3 [⟨3, none⟩] = none := by decide
/-- A user mode instruction that stays in user mode, one that enters an exception, and MOVE to SR leaving supervisor mode. -/
theorem test_witness_PrivilegeModeChangesOnlyByItsDoors :
    demoUser.supervisor = false ∧ (gives (.moveq 0 1) demoUser fun t => !t.supervisor) = true ∧
    (gives (.trap 0) demoUser fun t => t.supervisor) = true ∧
    demo.supervisor = true ∧ (gives (.moveToSr (.imm 0)) demo fun t => !t.supervisor) = true := by decide
theorem test_witness_MoveAndMoveaResults :
    (Instr.move .w (.postInc 0) (.postInc 0)).wellFormed = true ∧
    demo.traced = false ∧
    operandReady (.postInc 0) .w (demo.pc + 2) demo = true ∧
    operandReady (.postInc 0) .w (demo.pc + 2 + BitVec.ofNat 32 ((Ea.postInc 0).extBytes .w)) (sideEffect (.postInc 0) .w demo) = true ∧
    (Instr.movea .w 7 (.postInc 7)).wellFormed = true ∧
    operandReady (.postInc 7) Size.w (demo.pc + 2) demo = true := by decide
theorem test_witness_MoveqLoadsTheSignExtendedByte :
    demo.traced = false := by decide
theorem test_witness_OperandToDataRegisterResults :
    (Instr.addEaDn .b (.preDec 7) 1).wellFormed = true ∧
    demo.traced = false ∧
    operandReady (.preDec 7) .b (demo.pc + 2) demo = true ∧
    (Instr.subEaDn .b (.preDec 7) 1).wellFormed = true ∧
    (Instr.andEaDn .b (.preDec 7) 1).wellFormed = true ∧
    (Instr.orEaDn .b (.preDec 7) 1).wellFormed = true := by decide
theorem test_witness_OperandDestinationResults :
    (Instr.addDnEa .l 1 (.postInc 0)).wellFormed = true ∧
    demo.traced = false ∧
    operandReady (.postInc 0) .l (demo.pc + 2) demo = true ∧
    (Instr.subDnEa .l 1 (.postInc 0)).wellFormed = true ∧
    (Instr.andDnEa .l 1 (.postInc 0)).wellFormed = true ∧
    (Instr.orDnEa .l 1 (.postInc 0)).wellFormed = true ∧
    (Instr.eor .l 1 (.postInc 0)).wellFormed = true ∧
    (Instr.addi .b 0x7F (.preDec 7)).wellFormed = true ∧
    operandReady (.preDec 7) .b (demo.pc + 2 + BitVec.ofNat 32 (immBytes .b)) demo = true ∧
    (Instr.subi .b 0x7F (.preDec 7)).wellFormed = true ∧
    (Instr.andi .b 0x7F (.preDec 7)).wellFormed = true ∧
    (Instr.ori .b 0x7F (.preDec 7)).wellFormed = true ∧
    (Instr.eori .b 0x7F (.preDec 7)).wellFormed = true := by decide
theorem test_witness_CompareResults :
    (Instr.cmp .b (.preDec 7) 1).wellFormed = true ∧
    demo.traced = false ∧
    operandReady (.preDec 7) .b (demo.pc + 2) demo = true ∧
    (Instr.cmpi .b 0x7F (.preDec 7)).wellFormed = true ∧
    operandReady (.preDec 7) .b (demo.pc + 2 + BitVec.ofNat 32 (immBytes .b)) demo = true ∧
    (Instr.cmpa .w 0 (.postInc 0)).wellFormed = true ∧
    operandReady (.postInc 0) Size.w (demo.pc + 2) demo = true ∧
    pairReady .w (.postInc 0) (.postInc 0) demo = true ∧
    (Instr.tst .w (.preDec 0)).wellFormed = true ∧
    operandReady (.preDec 0) .w (demo.pc + 2) demo = true := by decide
theorem test_witness_AddressAndQuickArithmeticResults :
    (Instr.adda .l 0 (.postInc 0)).wellFormed = true ∧
    demo.traced = false ∧
    operandReady (.postInc 0) Size.l (demo.pc + 2) demo = true ∧
    (Instr.suba .l 0 (.postInc 0)).wellFormed = true ∧
    (Instr.addq .w 0 (.an 7)).wellFormed = true ∧
    (Instr.addq .w 0 (.dn 0)).wellFormed = true ∧
    (Ea.dn 0).kind ≠ .an ∧
    operandReady (.dn 0) .w (demo.pc + 2) demo = true ∧
    (Instr.subq .w 0 (.an 7)).wellFormed = true ∧
    (Instr.subq .w 0 (.dn 0)).wellFormed = true := by decide
theorem test_witness_ExtendedAndDecimalResults :
    demo.traced = false ∧
    pairReady .b (.preDec 7) (.preDec 7) demo = true ∧
    (Instr.nbcd (.postInc 7)).wellFormed = true := by decide
theorem test_witness_OneOperandResults :
    (Instr.neg .b (.dn 0)).wellFormed = true ∧
    demo.traced = false ∧
    operandReady (.dn 0) .b (demo.pc + 2) demo = true ∧
    (Instr.negx .b (.dn 0)).wellFormed = true ∧
    (Instr.not .b (.dn 0)).wellFormed = true ∧
    (Instr.clr .l (.postInc 0)).wellFormed = true ∧
    operandReady (.postInc 0) .l (demo.pc + 2) demo = true ∧
    (Instr.tas (.preDec 7)).wellFormed = true ∧
    (Instr.scc .f (.preDec 7)).wellFormed = true := by decide
theorem test_witness_RegisterOnlyResults :
    demo.traced = false := by decide
theorem test_witness_MultiplyAndDivideResults :
    (Instr.mulu 0 (.postInc 0)).wellFormed = true ∧
    demo.traced = false ∧
    operandReady (.postInc 0) .w (demo.pc + 2) demo = true ∧
    (Instr.muls 0 (.postInc 0)).wellFormed = true ∧
    (Instr.divu 1 (.dn 0)).wellFormed = true ∧
    operandReady (.dn 0) .w (demo.pc + 2) demo = true ∧
    (operandValue (.dn 0) .w (demo.pc + 2) demo) ≠ 0 ∧
    ((demo.dreg 1).toNat / (operandValue (.dn 0) .w (demo.pc + 2) demo).toNat) ≤ 0xFFFF ∧
    (Instr.divu 2 (.dn 0)).wellFormed = true ∧
    0xFFFF < ((demo.dreg 2).toNat / (operandValue (.dn 0) .w (demo.pc + 2) demo).toNat) ∧
    (Instr.divs 1 (.dn 0)).wellFormed = true ∧
    -32768 ≤ ((demo.dreg 1).toInt.tdiv (signedAt .w (operandValue (.dn 0) .w (demo.pc + 2) demo))) ∧
    ((demo.dreg 1).toInt.tdiv (signedAt .w (operandValue (.dn 0) .w (demo.pc + 2) demo))) ≤ 32767 ∧
    (Instr.divs 2 (.dn 0)).wellFormed = true ∧
    (((demo.dreg 2).toInt.tdiv (signedAt .w (operandValue (.dn 0) .w (demo.pc + 2) demo))) < -32768 ∨ 32767 < ((demo.dreg 2).toInt.tdiv (signedAt .w (operandValue (.dn 0) .w (demo.pc + 2) demo)))) := by decide
theorem test_witness_ShiftResults :
    demo.traced = false ∧
    (Instr.aslMem (.preDec 0)).wellFormed = true ∧
    operandReady (.preDec 0) .w (demo.pc + 2) demo = true ∧
    (Instr.asrMem (.preDec 0)).wellFormed = true ∧
    (Instr.lslMem (.preDec 0)).wellFormed = true ∧
    (Instr.lsrMem (.preDec 0)).wellFormed = true ∧
    (Instr.rolMem (.preDec 0)).wellFormed = true ∧
    (Instr.rorMem (.preDec 0)).wellFormed = true ∧
    (Instr.roxlMem (.preDec 0)).wellFormed = true ∧
    (Instr.roxrMem (.preDec 0)).wellFormed = true := by decide
theorem test_witness_BitOperationResults :
    (Instr.btstImm 39 (.dn 0)).wellFormed = true ∧
    demo.traced = false ∧
    (Instr.btstDyn 0 (.dn 0)).wellFormed = true ∧
    (Instr.bchgImm 39 (.dn 0)).wellFormed = true ∧
    (Instr.bchgDyn 0 (.dn 0)).wellFormed = true ∧
    (Instr.bclrImm 39 (.dn 0)).wellFormed = true ∧
    (Instr.bclrDyn 0 (.dn 0)).wellFormed = true ∧
    (Instr.bsetImm 39 (.dn 0)).wellFormed = true ∧
    (Instr.bsetDyn 0 (.dn 0)).wellFormed = true := by decide
theorem test_witness_MovemLoadAndMovepResults :
    (Instr.movemToRegs .w 0x8001 (.ind 0)).wellFormed = true ∧
    demo.traced = false ∧
    (Ea.ind 0).kind ≠ .postInc ∧
    movemReady Size.w 0x8001 (movemBase (.ind 0) demo) = true ∧
    movemReady Size.w 0x8001 (demo.areg 7) = true := by decide
theorem test_witness_AddressAndFrameResults :
    (Instr.lea 0 (.ind 0)).wellFormed = true ∧
    demo.traced = false ∧
    (Instr.pea (.ind 7)).wellFormed = true ∧
    demo.spEven = true ∧
    (demo.areg 7).getLsbD 0 = false := by decide
theorem test_witness_ProgramControlResults :
    demo.traced = false ∧
    demo.spEven = true ∧
    condHolds .pl demo.ccr = true ∧
    condHolds .mi demo.ccr = false ∧
    condHolds .t demo.ccr = true ∧
    condHolds .f demo.ccr = false ∧
    lowWord (demo.dreg 4) = 0 ∧
    lowWord (demo.dreg 1) ≠ 0 ∧
    (Instr.jmp (.ind 0)).wellFormed = true ∧
    (Instr.jsr (.ind 7)).wellFormed = true := by decide
theorem test_witness_ConditionCodeRegisterResults :
    demo.traced = false ∧
    (Instr.moveToCcr (.postInc 7)).wellFormed = true ∧
    operandReady (.postInc 7) .w (demo.pc + 2) demo = true ∧
    (Instr.moveFromSr (.preDec 7)).wellFormed = true ∧
    operandReady (.preDec 7) .w (demo.pc + 2) demo = true := by decide
theorem test_witness_PrivilegedResultsInSupervisorMode :
    demo.traced = false ∧
    demo.supervisor = true ∧
    (Instr.moveToSr (.postInc 7)).wellFormed = true ∧
    operandReady (.postInc 7) .w (demo.pc + 2) demo = true ∧
    demo.ssp.getLsbD 0 = false := by decide
theorem test_witness_TrapResults :
    (demo.setCcr { x := false, n := false, z := false, v := true, c := false }).ccr.v = true ∧
    demo.traced = false ∧
    demo.ccr.v = false ∧
    (Instr.chk 0 (.dn 0)).wellFormed = true ∧
    operandReady (.dn 0) .w (demo.pc + 2) demo = true ∧
    0 ≤ signedAt .w (demo.dreg 0) ∧
    signedAt .w (demo.dreg 0) ≤ signedAt .w (operandValue (.dn 0) .w (demo.pc + 2) demo) ∧
    (Instr.chk 3 (.dn 0)).wellFormed = true ∧
    signedAt .w (demo.dreg 3) < 0 ∧
    (Instr.chk 0 (.dn 3)).wellFormed = true ∧
    operandReady (.dn 3) .w (demo.pc + 2) demo = true ∧
    signedAt .w (operandValue (.dn 3) .w (demo.pc + 2) demo) < signedAt .w (demo.dreg 0) ∧
    (Instr.divu 0 (.dn 4)).wellFormed = true ∧
    operandReady (.dn 4) .w (demo.pc + 2) demo = true ∧
    (operandValue (.dn 4) .w (demo.pc + 2) demo) = 0 ∧
    (Instr.divs 0 (.dn 4)).wellFormed = true := by decide

end Sys2Proof.Tests
end

section
/-! SUPPORT. The register frame: which registers a state update, an operand access and a completed instruction can change
(spec/10_state.md R10, R23, R24, R26, R35; 40_ea_resolver.md R145). Every operation of the model gets one rule that says the
registers outside two sets stay; the obligation follows by going through the instructions with these rules. -/

namespace Sys2Proof.Machine

/-! ## What an operand of a class can be -/

theorem admits_kind_of_ok {c : EaClass} {sz : Size} {ea : Ea} (h : ea.ok c sz = true) : c.admits ea.kind = true := by
  simp only [Ea.ok, Bool.and_eq_true] at h
  exact h.1.1

theorem kind_of_ok_alterable {sz : Size} {ea : Ea} (h : ea.ok .alterable sz = true) : ea.kind ≠ .imm := by
  have admitted : EaClass.admits .alterable ea.kind = true := admits_kind_of_ok h
  intro hk
  simp [hk, EaClass.admits, EaKind.isAlterable] at admitted

theorem kind_of_ok_dataAlterable {sz : Size} {ea : Ea} (h : ea.ok .dataAlterable sz = true) :
    ea.kind ≠ .imm ∧ ea.kind ≠ .an := by
  have admitted : EaClass.admits .dataAlterable ea.kind = true := admits_kind_of_ok h
  constructor <;> intro hk <;> simp [hk, EaClass.admits, EaKind.isAlterable] at admitted

theorem kind_of_ok_memoryAlterable {sz : Size} {ea : Ea} (h : ea.ok .memoryAlterable sz = true) :
    ea.kind ≠ .imm ∧ ea.kind ≠ .an ∧ ea.kind ≠ .dn := by
  have admitted : EaClass.admits .memoryAlterable ea.kind = true := admits_kind_of_ok h
  refine ⟨?_, ?_, ?_⟩ <;> intro hk <;> simp [hk, EaClass.admits, EaKind.isAlterable] at admitted

theorem kind_of_ok_control {sz : Size} {ea : Ea} (h : ea.ok .control sz = true) : ea.kind.isControl = true :=
  admits_kind_of_ok h

/-- MOVEM stores to a control operand or through `-(An)` (R111). -/
theorem ok_controlAlterablePreDec_cases {sz : Size} {ea : Ea} (h : ea.ok .controlAlterablePreDec sz = true) :
    ea.kind.isControl = true ∨ ∃ n, ea = .preDec n := by
  have admitted : EaClass.admits .controlAlterablePreDec ea.kind = true := admits_kind_of_ok h
  cases ea <;> simp_all [EaClass.admits, Ea.kind, EaKind.isControl, EaKind.isAlterable]

/-- MOVEM loads from a control operand or through `(An)+` (R111). -/
theorem ok_controlPostInc_cases {sz : Size} {ea : Ea} (h : ea.ok .controlPostInc sz = true) :
    ea.kind.isControl = true ∨ ∃ n, ea = .postInc n := by
  have admitted : EaClass.admits .controlPostInc ea.kind = true := admits_kind_of_ok h
  cases ea <;> simp_all [EaClass.admits, Ea.kind, EaKind.isControl]

theorem isDn_iff {ea : Ea} {n : Reg} : ea.isDn n = true ↔ ea = .dn n := by simp [Ea.isDn]

theorem steps_iff {ea : Ea} {n : Reg} : ea.steps n = true ↔ ea = .postInc n ∨ ea = .preDec n := by simp [Ea.steps]

theorem isDn_of_kind_ne {ea : Ea} (h : ea.kind ≠ .dn) (n : Reg) : ea.isDn n = false := by
  cases ea <;> simp_all [Ea.isDn, Ea.kind]

/-! ## Registers kept between two states -/

/-- From `s` to `t` no data register outside `dd` and no address register outside `ad` changes; A7 is the stack pointer of
the mode of `s` (R23), and the other mode's stack pointer never changes. -/
structure RegsKept (dd ad : Reg → Bool) (s t : State) : Prop where
  dreg : ∀ n, dd n = false → t.dreg n = s.dreg n
  areg : ∀ n : Reg, (h : n.val < 7) → ad n = false → t.a[n.val] = s.a[n.val]
  usp : s.supervisor = true ∨ ad 7 = false → t.usp = s.usp
  ssp : s.supervisor = false ∨ ad 7 = false → t.ssp = s.ssp

namespace RegsKept

variable {dd ad : Reg → Bool} {s u t : State}

theorem refl : RegsKept dd ad s s := ⟨fun _ _ => rfl, fun _ _ _ => rfl, fun _ => rfl, fun _ => rfl⟩

/-- A state with the same register file keeps what was kept. -/
theorem congr (h : RegsKept dd ad s u) (hd : t.d = u.d) (ha : t.a = u.a) (hu : t.usp = u.usp) (hs : t.ssp = u.ssp) :
    RegsKept dd ad s t where
  dreg n hn := by rw [State.dreg, hd]; exact h.dreg n hn
  areg n hlt hn := by simp only [ha]; exact h.areg n hlt hn
  usp hm := hu.trans (h.usp hm)
  ssp hm := hs.trans (h.ssp hm)

theorem mono {dd' ad' : Reg → Bool} (h : RegsKept dd ad s t) (hd : ∀ n, dd' n = false → dd n = false)
    (ha : ∀ n, ad' n = false → ad n = false) : RegsKept dd' ad' s t where
  dreg n hn := h.dreg n (hd n hn)
  areg n hlt hn := h.areg n hlt (ha n hn)
  usp hm := h.usp (hm.imp_right (ha 7))
  ssp hm := h.ssp (hm.imp_right (ha 7))

theorem withMem (h : RegsKept dd ad s u) (m : Memory) : RegsKept dd ad s { u with mem := m } := h.congr rfl rfl rfl rfl

theorem setCcr (h : RegsKept dd ad s u) (f : Ccr) : RegsKept dd ad s (u.setCcr f) := h.congr rfl rfl rfl rfl

theorem writeCcr (h : RegsKept dd ad s u) (v : Byte) : RegsKept dd ad s (u.writeCcr v) := h.congr rfl rfl rfl rfl

theorem writeSr (h : RegsKept dd ad s u) (v : Word) : RegsKept dd ad s (u.writeSr v) := h.congr rfl rfl rfl rfl

theorem advance (h : RegsKept dd ad s u) (n : Nat) : RegsKept dd ad s (advance n u) := h.congr rfl rfl rfl rfl

theorem jumpTo (h : RegsKept dd ad s u) (a : Long) : RegsKept dd ad s (jumpTo a u) := h.congr rfl rfl rfl rfl

theorem setDreg (h : RegsKept dd ad s u) {n : Reg} (hn : dd n = true) (v : Long) : RegsKept dd ad s (u.setDreg n v) where
  dreg m hm := by
    have hne : m ≠ n := by rintro rfl; simp [hn] at hm
    rw [State.dreg_setDreg, if_neg hne, h.dreg m hm]
  areg := h.areg
  usp := h.usp
  ssp := h.ssp

theorem writeD (h : RegsKept dd ad s u) {n : Reg} (hn : dd n = true) (sz : Size) (v : Long) :
    RegsKept dd ad s (u.writeD n sz v) := h.setDreg hn _

/-- Writing the stack pointer reaches only that of the mode (R24). -/
theorem setSp (h : RegsKept dd ad s u) (h7 : ad 7 = true) (hu : u.supervisor = s.supervisor) (v : Long) :
    RegsKept dd ad s (u.setSp v) where
  dreg n hn := by rw [State.dreg_setSp, h.dreg n hn]
  areg n hlt hn := by simp only [State.a_setSp]; exact h.areg n hlt hn
  usp hm := by
    have hs : s.supervisor = true := hm.resolve_right (by simp [h7])
    rw [State.setSp, hu, hs]; exact h.usp hm
  ssp hm := by
    have hs : s.supervisor = false := hm.resolve_right (by simp [h7])
    rw [State.setSp, hu, hs]; exact h.ssp hm

theorem setAreg (h : RegsKept dd ad s u) {n : Reg} (hn : ad n = true) (hu : u.supervisor = s.supervisor) (v : Long) :
    RegsKept dd ad s (u.setAreg n v) := by
  by_cases hlt : n.val < 7
  · have low : u.setAreg n v = { u with a := u.a.set n.val v hlt } := dif_pos hlt
    rw [low]
    refine { dreg := h.dreg, areg := fun m hm7 hm => ?_, usp := h.usp, ssp := h.ssp }
    have hne : n.val ≠ m.val := fun e => by simp [← Fin.ext e, hn] at hm
    exact (Vector.getElem_set_ne hlt hm7 hne).trans (h.areg m hm7 hm)
  · obtain rfl : n = 7 := Fin.ext (by omega)
    rw [State.setAreg_seven]
    exact h.setSp hn hu v

/-- The side effect of an operand moves only the register its mode steps (R145 to R147). -/
theorem sideEffect (h : RegsKept dd ad s u) {ea : Ea} (ha : ∀ n, ea.steps n = true → ad n = true)
    (hu : u.supervisor = s.supervisor) (sz : Size) : RegsKept dd ad s (sideEffect ea sz u) := by
  cases ea with
  | postInc n => exact h.setAreg (ha n (steps_iff.mpr (.inl rfl))) hu _
  | preDec n => exact h.setAreg (ha n (steps_iff.mpr (.inr rfl))) hu _
  | _ => exact h

/-- A store through a data-alterable operand changes at most the data register it names (R157). -/
theorem storeAt (h : RegsKept dd ad s u) {ea : Ea} (hk : ea.kind ≠ .an) (hd : ∀ n, ea.isDn n = true → dd n = true)
    (sz sz' : Size) (ext v : Long) (w : State) : RegsKept dd ad s (storeAt (eaLoc ea sz ext w) sz' v u) := by
  cases ea with
  | dn n => exact h.writeD (hd n (isDn_iff.mpr rfl)) _ _
  | an n => exact absurd rfl hk
  | imm v => exact h
  | _ => exact h.withMem _

theorem replaced (h : RegsKept dd ad s u) {ea : Ea} (hk : ea.kind ≠ .an) (hd : ∀ n, ea.isDn n = true → dd n = true)
    (ha : ∀ n, ea.steps n = true → ad n = true) (hu : u.supervisor = s.supervisor) (sz : Size) (ext v : Long) (f : Ccr) :
    RegsKept dd ad s (replaced ea sz ext v f u) :=
  ((h.sideEffect ha hu sz).setCcr f).storeAt hk hd sz sz ext v u

/-- A long pushed moves only the active stack pointer (R72). -/
theorem pushed (h : RegsKept dd ad s u) (h7 : ad 7 = true) (hu : u.supervisor = s.supervisor) (v : Long) :
    RegsKept dd ad s (pushed v u) := (h.setSp h7 hu _).withMem _

end RegsKept

@[simp] theorem sideEffect_supervisor (ea : Ea) (sz : Size) (s : State) : (sideEffect ea sz s).supervisor = s.supervisor := by
  simp [State.supervisor]

/-! ## Outcomes that keep registers -/

/-- The next state of an outcome keeps the registers of `s` outside `dd` and `ad`. -/
def KeepsRegs (dd ad : Reg → Bool) (s : State) (o : Host.Outcome State Fault Refusal) : Prop :=
  ∀ t, o = .next t → RegsKept dd ad s t

section
variable {dd ad : Reg → Bool} {s u : State}

theorem KeepsRegs.mono {dd' ad' : Reg → Bool} {o : Host.Outcome State Fault Refusal} (h : KeepsRegs dd ad s o)
    (hd : ∀ n, dd' n = false → dd n = false) (ha : ∀ n, ad' n = false → ad n = false) : KeepsRegs dd' ad' s o :=
  fun t ht => (h t ht).mono hd ha

theorem conclude_keepsRegs (ht : s.traced = false) (h : RegsKept dd ad s u) : KeepsRegs dd ad s (conclude s (.ok () u)) := by
  intro t e
  rw [conclude_ok ht] at e
  injection e with e
  exact e ▸ h

theorem retire_keepsRegs (ht : s.traced = false) (h : RegsKept dd ad s u) (n : Nat) :
    KeepsRegs dd ad s (retire n s (.ok () u)) := conclude_keepsRegs ht (h.advance n)

end

section
variable {s : State} {ea : Ea} {sz : Size} {ext : Long}

/-- An instruction that reads an operand and goes on with `g`. -/
theorem loadEa_keepsRegs {dd ad : Reg → Bool} {g : Long → State → State} (ht : s.traced = false)
    (hc : operandReady ea sz ext s = true) (ha : ∀ n, ea.steps n = true → ad n = true)
    (hg : ∀ e u, RegsKept dd ad s u → u.supervisor = s.supervisor → RegsKept dd ad s (g e u)) (n : Nat) :
    KeepsRegs dd ad s (retire n s (loadEa ea sz ext g s)) := by
  rw [loadEa_ready g hc]
  exact retire_keepsRegs ht (hg _ _ (RegsKept.refl.sideEffect ha rfl sz) (sideEffect_supervisor ea sz s)) n

/-- An instruction that only sets flags by its operand (CMP, TST, BTST). -/
theorem loadEa_setCcr_keepsRegs {f : Long → State → Ccr} (ht : s.traced = false) (hc : operandReady ea sz ext s = true) (n : Nat) :
    KeepsRegs (fun _ => false) ea.steps s (retire n s (loadEa ea sz ext (fun e u => u.setCcr (f e u)) s)) :=
  loadEa_keepsRegs ht hc (fun _ h => h) (fun _ _ h _ => h.setCcr _) n

/-- A read-modify-write instruction (R158). -/
theorem updateEa_keepsRegs {g : Long → State → Long × Ccr} (ht : s.traced = false) (hi : ea.kind ≠ .imm) (hk : ea.kind ≠ .an)
    (hc : operandReady ea sz ext s = true) (n : Nat) : KeepsRegs ea.isDn ea.steps s (retire n s (updateEa ea sz ext g s)) := by
  rw [updateEa_ready g hc hi]
  exact retire_keepsRegs ht (RegsKept.refl.replaced hk (fun _ h => h) (fun _ h => h) rfl _ _ _ _) n

/-- A read-modify-write instruction on a memory operand has no data register as its destination. -/
theorem updateEa_memory_keepsRegs {g : Long → State → Long × Ccr} (ht : s.traced = false)
    (hw : ea.ok .memoryAlterable sz = true) (hc : operandReady ea sz ext s = true) (n : Nat) :
    KeepsRegs (fun _ => false) ea.steps s (retire n s (updateEa ea sz ext g s)) := by
  obtain ⟨hi, hk, hd⟩ := kind_of_ok_memoryAlterable hw
  exact (updateEa_keepsRegs ht hi hk hc n).mono (fun m _ => isDn_of_kind_ne hd m) (fun _ h => h)

/-- An instruction that stores an operand without reading it and leaves the flags. -/
theorem writeEa_keepsRegs {v : Long} (ht : s.traced = false) (hi : ea.kind ≠ .imm) (hk : ea.kind ≠ .an)
    (hc : operandReady ea sz ext s = true) (n : Nat) : KeepsRegs ea.isDn ea.steps s (retire n s (writeEa ea sz ext v s)) := by
  rw [writeEa_ready v hc hi]
  exact retire_keepsRegs ht
    ((RegsKept.refl.sideEffect (fun _ h => h) rfl sz).storeAt hk (fun _ h => h) sz sz ext v s) n

end

/-! ## Accesses that end without raising -/

/-- A bit operation's operand is a register or a byte, so its access never faults (R310). -/
theorem operandReady_bitSize (ea : Ea) (ext : Long) (s : State) : operandReady ea ea.bitSize ext s = true := by
  cases ea <;> rfl

theorem misaligned_sp_of_spEven {s : State} (h : s.spEven = true) (sz : Size) : misaligned s.sp sz = false :=
  misaligned_of_even (by simpa [State.spEven] using h) sz

theorem misaligned_sp_sub_four {s : State} (h : s.spEven = true) : misaligned (s.sp - 4) .l = false :=
  misaligned_of_even (by rw [getLsbD_zero_sub _ _ (by decide)]; simpa [State.spEven] using h) .l

/-- A push on an even stack (R72). -/
theorem push_spEven {s : State} (h : s.spEven = true) (v : Long) : push .l v s = .ok () (pushed v s) := by
  simp only [push, stackStep, State.sp_setSp, memWrite_aligned (misaligned_sp_sub_four h), State.mem_setSp, pushed]

/-- A pop from an even stack (R73). -/
theorem pop_spEven {s : State} (h : s.spEven = true) (sz : Size) :
    pop sz s = .ok (s.mem.load s.sp sz) (s.setSp (s.sp + stackStep sz)) := by
  rw [pop, memRead_aligned (misaligned_sp_of_spEven h sz), Res.bind_ok]

theorem spEven_setSp_add_two {s : State} (h : s.spEven = true) : (s.setSp (s.sp + 2)).spEven = true := by
  rw [State.spEven, State.sp_setSp, getLsbD_zero_add _ _ (by decide)]
  exact h

theorem misaligned_add_bytes (sz : Size) (a : Long) : misaligned (a + BitVec.ofNat 32 sz.bytes) sz = misaligned a sz := by
  cases sz with
  | b => rfl
  | _ => simp only [misaligned]; rw [getLsbD_zero_add _ _ (by decide)]

/-! ## The shared forms of the instructions -/

section
variable {s : State} (ht : s.traced = false)
include ht

theorem eaToDn_keepsRegs {op : Long → Long → Ccr → Long × Ccr} {sz : Size} {ea : Ea} {n : Reg}
    (hc : operandReady ea sz (s.pc + 2) s = true) : KeepsRegs (fun m => n == m) ea.steps s (eaToDn op sz ea n s) :=
  loadEa_keepsRegs ht hc (fun _ h => h) (fun _ _ h _ => (h.setCcr _).writeD (beq_self_eq_true n) _ _) _

theorem mulToDn_keepsRegs {op : Word → Word → Long} {ea : Ea} {n : Reg} (hc : operandReady ea .w (s.pc + 2) s = true) :
    KeepsRegs (fun m => n == m) ea.steps s (mulToDn op n ea s) :=
  loadEa_keepsRegs ht hc (fun _ h => h) (fun _ _ h _ => (h.setCcr _).setDreg (beq_self_eq_true n) _) _

theorem eaToAn_keepsRegs {op : Long → Long → Long} {sz : WordLong} {ea : Ea} {n : Reg}
    (hc : operandReady ea sz.size (s.pc + 2) s = true) :
    KeepsRegs (fun _ => false) (fun m => n == m || ea.steps m) s (eaToAn op sz n ea s) :=
  loadEa_keepsRegs ht hc (fun _ h => by simp [h]) (fun _ _ h hu => h.setAreg (by simp) hu _) _

theorem bitTest_keepsRegs {ea : Ea} (n num : Nat) : KeepsRegs (fun _ => false) ea.steps s (bitTest n num ea s) :=
  loadEa_setCcr_keepsRegs ht (operandReady_bitSize ea _ s) _

theorem bitModify_keepsRegs {op : Long → Long → Long} {ea : Ea} (hw : ea.ok .dataAlterable ea.bitSize = true) (n num : Nat) :
    KeepsRegs ea.isDn ea.steps s (bitModify op n num ea s) := by
  obtain ⟨hi, hk⟩ := kind_of_ok_dataAlterable hw
  exact updateEa_keepsRegs ht hi hk (operandReady_bitSize ea _ s) _

theorem immToEa_keepsRegs {op : Long → Long → Ccr → Long × Ccr} {sz : Size} {imm : Long} {ea : Ea}
    (hw : (sz.fits imm && ea.ok .dataAlterable sz) = true)
    (hc : operandReady ea sz (s.pc + 2 + BitVec.ofNat 32 (immBytes sz)) s = true) :
    KeepsRegs ea.isDn ea.steps s (immToEa op sz imm ea s) := by
  obtain ⟨hi, hk⟩ := kind_of_ok_dataAlterable (Bool.and_elim_right hw)
  exact updateEa_keepsRegs ht hi hk hc _

theorem unaryEa_keepsRegs {op : Long → Ccr → Long × Ccr} {sz : Size} {ea : Ea} (hw : ea.ok .dataAlterable sz = true)
    (hc : operandReady ea sz (s.pc + 2) s = true) : KeepsRegs ea.isDn ea.steps s (unaryEa op sz ea s) := by
  obtain ⟨hi, hk⟩ := kind_of_ok_dataAlterable hw
  exact updateEa_keepsRegs ht hi hk hc _

theorem dnToEa_keepsRegs {op : Long → Long → Ccr → Long × Ccr} {sz : Size} {ea : Ea} {n : Reg}
    (hi : ea.kind ≠ .imm) (hk : ea.kind ≠ .an) (hc : operandReady ea sz (s.pc + 2) s = true) :
    KeepsRegs ea.isDn ea.steps s (dnToEa op sz n ea s) := updateEa_keepsRegs ht hi hk hc _

/-- The quick forms write An itself where the operand is An (R234). -/
theorem quickEa_keepsRegs {op : Long → Long → Ccr → Long × Ccr} {opA : Long → Long → Long} {sz : Size} {q : BitVec 3} {ea : Ea}
    (hw : ea.ok .alterable sz = true) (hc : operandReady ea sz (s.pc + 2) s = true) :
    KeepsRegs ea.isDn (fun m => ea == .an m || ea.steps m) s (quickEa op opA sz q ea s) := by
  have hi := kind_of_ok_alterable hw
  cases ea with
  | an n => exact retire_keepsRegs ht (RegsKept.refl.setAreg (by simp) rfl _) 2
  | _ => exact (updateEa_keepsRegs ht hi (by simp [Ea.kind]) hc _).mono (fun _ h => h) (fun _ h => by simpa using h)

/-- The pair forms: `Dy,Dx` writes Dx, `-(Ay),-(Ax)` moves both address registers (R235). -/
theorem pairOp_keepsRegs {op : Long → Long → Ccr → Long × Ccr} {sz : Size} {form : PairForm} {x y : Reg}
    (hc : form = .preDecs → pairReady sz (.preDec y) (.preDec x) s = true) :
    KeepsRegs (fun n => form == .dregs && x == n) (fun n => form == .preDecs && (x == n || y == n)) s
      (pairOp op sz form x y s) := by
  cases form with
  | dregs => exact retire_keepsRegs ht ((RegsKept.refl.setCcr _).writeD (by simp) _ _) 2
  | preDecs =>
    have ready := hc rfl
    simp only [pairReady, Bool.and_eq_true] at ready
    obtain ⟨hsrc, hdst⟩ := ready
    simp only [pairOp, readEa_ready hsrc, Res.bind_ok, updateEa_ready _ hdst (by simp [Ea.kind] : (Ea.preDec x).kind ≠ .imm)]
    have src : RegsKept (fun n => PairForm.preDecs == .dregs && x == n) (fun n => PairForm.preDecs == .preDecs && (x == n || y == n))
        s (sideEffect (.preDec y) sz s) :=
      RegsKept.refl.sideEffect (by simp [steps_iff]) rfl sz
    exact retire_keepsRegs ht (src.replaced (by simp [Ea.kind]) (by simp [isDn_iff]) (by simp +contextual [steps_iff])
      (sideEffect_supervisor _ _ _) _ _ _ _) 2

theorem shiftDn_keepsRegs {ad : Reg → Bool} {step : Size → ShiftState → ShiftState} {roxc keepV : Bool} {sz : Size}
    {cnt : ShiftCount} {y : Reg} : KeepsRegs (fun n => y == n) ad s (shiftDn step roxc keepV sz cnt y s) :=
  retire_keepsRegs ht ((RegsKept.refl.setCcr _).writeD (beq_self_eq_true y) _ _) 2

theorem shiftEa_keepsRegs {step : Size → ShiftState → ShiftState} {keepV : Bool} {ea : Ea}
    (hw : ea.ok .memoryAlterable .w = true) (hc : operandReady ea .w (s.pc + 2) s = true) :
    KeepsRegs (fun _ => false) ea.steps s (shiftEa step keepV ea s) := updateEa_memory_keepsRegs ht hw hc _

theorem immToSr_keepsRegs {dd ad : Reg → Bool} {op : Word → Word → Word} {imm : Word} (hc : s.supervisor = true) :
    KeepsRegs dd ad s (immToSr op imm s) := by
  rw [immToSr, privileged_supervisor _ _ hc]
  exact retire_keepsRegs ht (RegsKept.refl.writeSr _) 4

end

/-! ## Division and the bound check -/

/-- Truncating to a word zero-extends the low word (R9). -/
theorem trunc_word (v : Long) : trunc .w v = (lowWord v).setWidth 32 := by
  refine BitVec.eq_of_getLsbD_eq fun k hk => ?_
  rw [getLsbD_trunc, BitVec.getLsbD_setWidth, lowWord, BitVec.getLsbD_extractLsb', Nat.zero_add]
  rw [decide_eq_true hk, Bool.true_and, Bool.and_comm]; rfl

theorem lowWord_setWidth (w : Word) : lowWord (w.setWidth 32) = w := by
  refine BitVec.eq_of_getLsbD_eq fun k hk => ?_
  have : k < 32 := by omega
  simp [lowWord, hk, this]

/-- An operand read at word size is its low word, zero-extended (R156). -/
theorem operandValue_word (ea : Ea) (ext : Long) (s : State) :
    operandValue ea .w ext s = (lowWord (operandValue ea .w ext s)).setWidth 32 := by
  have word : ∃ w : Word, operandValue ea .w ext s = w.setWidth 32 := by
    unfold operandValue
    split
    · exact ⟨_, trunc_word _⟩
    · exact ⟨_, trunc_word _⟩
    · exact ⟨_, trunc_word _⟩
    · exact ⟨_, rfl⟩
  obtain ⟨w, hw⟩ := word
  rw [hw, lowWord_setWidth]

/-- The word comparison of CHK is that of the signed values (R379, R9). -/
theorem signedAt_word (v : Long) : signedAt .w v = (lowWord v).toInt := BitVec.toInt_signExtend_of_le (by decide)

section
variable {s : State} (ht : s.traced = false)
include ht

theorem divDn_keepsRegs {signed : Bool} {op : Long → Word → Option (Word × Word)} {n : Reg} {ea : Ea}
    (hc : (operandReady ea .w (s.pc + 2) s && operandValue ea .w (s.pc + 2) s != 0) = true) :
    KeepsRegs (fun m => n == m) ea.steps s (divDn signed op n ea s) := by
  simp only [Bool.and_eq_true, bne_iff_ne, ne_eq] at hc
  obtain ⟨ready, nonzero⟩ := hc
  have divisor : lowWord (operandValue ea .w (s.pc + 2) s) ≠ 0 := fun h => nonzero (by rw [operandValue_word, h]; rfl)
  have read : RegsKept (fun m => n == m) ea.steps s (sideEffect ea .w s) := RegsKept.refl.sideEffect (fun _ h => h) rfl .w
  simp only [divDn, readEa_ready ready, Res.bind_ok, if_neg divisor]
  split
  · exact retire_keepsRegs ht (read.setCcr _) _
  · exact retire_keepsRegs ht ((read.setCcr _).setDreg (beq_self_eq_true n) _) _

theorem execChk_keepsRegs {n : Reg} {ea : Ea} (hc : (Instr.chk n ea).completes s = true) :
    KeepsRegs (fun _ => false) ea.steps s (execChk n ea s) := by
  simp only [Instr.completes, Bool.and_eq_true, decide_eq_true_eq, signedAt_word] at hc
  obtain ⟨⟨ready, lower⟩, upper⟩ := hc
  have notNegative : (lowWord (s.dreg n)).slt 0 = false := by simpa [BitVec.slt_eq_decide] using lower
  have notAbove : (lowWord (operandValue ea .w (s.pc + 2) s)).slt (lowWord (s.dreg n)) = false := by
    simpa [BitVec.slt_eq_decide] using upper
  simp only [execChk, readEa_ready ready, Res.bind_ok, sideEffect_dreg, notNegative, notAbove, Bool.false_eq_true, if_false]
  exact retire_keepsRegs ht ((RegsKept.refl.sideEffect (fun _ h => h) rfl .w).setCcr _) _

end
/-! ## MOVEM -/

/-- MOVEM's ascending stores change only memory (R204). -/
theorem movemStoreUp_ready {sz : Size} {ks : List (Fin 16)} {a : Long} (h : ks = [] ∨ misaligned a sz = false) (s : State) :
    ∃ b m, movemStoreUp sz ks a s = .ok b { s with mem := m } := by
  induction ks generalizing a s with
  | nil => exact ⟨a, s.mem, rfl⟩
  | cons k ks ih =>
    have aligned := h.resolve_left (by simp)
    rw [movemStoreUp, memWrite_aligned aligned, Res.bind_ok]
    exact ih (.inr (by rw [misaligned_add_bytes, aligned])) _

/-- MOVEM's descending stores change only memory; the base register is written after them (R204). -/
theorem movemStoreDown_ready {sz : Size} {ks : List (Fin 16)} {a : Long} (h : ks = [] ∨ misaligned a sz = false) (s : State) :
    ∃ b m, movemStoreDown sz ks a s = .ok b { s with mem := m } := by
  induction ks generalizing a s with
  | nil => exact ⟨a, s.mem, rfl⟩
  | cons k ks ih =>
    have aligned : misaligned (a - BitVec.ofNat 32 sz.bytes) sz = false := by
      rw [misaligned_sub_bytes]; exact h.resolve_left (by simp)
    rw [movemStoreDown, memWrite_aligned aligned, Res.bind_ok]
    exact ih (.inr aligned) _

/-- A register of MOVEM's list is a data register below 8 and an address register from there on (R205). -/
theorem RegsKept.setMovemReg {dd ad : Reg → Bool} {s u : State} (h : RegsKept dd ad s u) {k : Fin 16}
    (hd : ∀ n : Reg, n.val = k.val → dd n = true) (ha : ∀ n : Reg, 8 + n.val = k.val → ad n = true)
    (hu : u.supervisor = s.supervisor) (v : Long) : RegsKept dd ad s (u.setMovemReg k v) := by
  unfold State.setMovemReg
  split
  · exact h.setDreg (hd _ rfl) v
  · exact h.setAreg (ha _ (by simp only; omega)) hu v

/-- MOVEM's loads change only listed registers (R205). -/
theorem movemLoad_ready {dd ad : Reg → Bool} {s : State} {sz : Size} {ks : List (Fin 16)}
    (hd : ∀ k ∈ ks, ∀ n : Reg, n.val = k.val → dd n = true) (ha : ∀ k ∈ ks, ∀ n : Reg, 8 + n.val = k.val → ad n = true)
    {a : Long} (h : ks = [] ∨ misaligned a sz = false) {u : State} (kept : RegsKept dd ad s u)
    (hu : u.supervisor = s.supervisor) :
    ∃ b t, movemLoad sz ks a u = .ok b t ∧ RegsKept dd ad s t ∧ t.supervisor = s.supervisor := by
  induction ks generalizing a u with
  | nil => exact ⟨a, u, rfl, kept, hu⟩
  | cons k ks ih =>
    have aligned := h.resolve_left (by simp)
    rw [movemLoad, memRead_aligned aligned, Res.bind_ok]
    exact ih (fun j hj => hd j (.tail _ hj)) (fun j hj => ha j (.tail _ hj)) (.inr (by rw [misaligned_add_bytes, aligned]))
      (kept.setMovemReg (hd k (.head _)) (ha k (.head _)) hu _) (by simpa [State.supervisor] using hu)

theorem mem_maskList {m : Word} {k : Fin 16} (h : k ∈ maskList m) : m.getLsbD k.val = true := (List.mem_filter.mp h).2

/-- MOVEM finds no odd address: its list is empty or its base aligned (R204, R205). -/
theorem maskList_nil_or_aligned {sz : Size} {mask : Word} {a : Long} (h : movemReady sz mask a = true) :
    maskList mask = [] ∨ misaligned a sz = false := by
  simp only [movemReady, Bool.or_eq_true, beq_iff_eq, Bool.not_eq_true'] at h
  exact h.imp_left fun h => by rw [h]; decide

/-- The transfers of a control operand start at its address (R204, R205). -/
theorem movemBase_control {ea : Ea} (h : ea.kind.isControl = true) (s : State) :
    movemBase ea s = operandAddress ea (s.pc + 4) s := by
  cases ea <;> simp_all [Ea.kind, EaKind.isControl, movemBase]

theorem movemToMemBody_control {ea : Ea} (h : ea.kind.isControl = true) (sz : Size) (mask : Word) (s : State) :
    movemToMemBody sz mask ea s =
      (movemStoreUp sz (maskList mask) (operandAddress ea (s.pc + 4) s) s).bind fun _ s1 => .ok () s1 := by
  have address := addressEa_control h (s.pc + 4) s
  cases ea <;> simp_all [Ea.kind, EaKind.isControl, movemToMemBody]

theorem movemToRegsBody_control {ea : Ea} (h : ea.kind.isControl = true) (sz : Size) (mask : Word) (s : State) :
    movemToRegsBody sz mask ea s =
      (movemLoad sz (maskList mask) (operandAddress ea (s.pc + 4) s) s).bind fun _ s1 => .ok () s1 := by
  have address := addressEa_control h (s.pc + 4) s
  cases ea <;> simp_all [Ea.kind, EaKind.isControl, movemToRegsBody]

section
variable {s : State} (ht : s.traced = false)
include ht

theorem execMovemToMem_keepsRegs {sz : WordLong} {mask : Word} {ea : Ea} (hw : ea.ok .controlAlterablePreDec sz.size = true)
    (hc : movemReady sz.size mask (movemBase ea s) = true) :
    KeepsRegs (fun _ => false) (fun n => ea == .preDec n) s (execMovemToMem sz mask ea s) := by
  have aligned := maskList_nil_or_aligned hc
  rcases ok_controlAlterablePreDec_cases hw with control | ⟨n, rfl⟩
  · rw [movemBase_control control] at aligned
    obtain ⟨b, m, stored⟩ := movemStoreUp_ready aligned s
    rw [execMovemToMem, movemToMemBody_control control, stored]
    exact retire_keepsRegs ht (RegsKept.refl.withMem m) _
  · obtain ⟨b, m, stored⟩ := movemStoreDown_ready aligned s
    have body : movemToMemBody sz.size mask (.preDec n) s = .ok () (({ s with mem := m } : State).setAreg n b) := by
      simp only [movemToMemBody]
      rw [show s.areg n = movemBase (.preDec n) s from rfl, stored, Res.bind_ok]
    rw [execMovemToMem, body]
    exact retire_keepsRegs ht ((RegsKept.refl.withMem m).setAreg (by simp) rfl b) _

theorem execMovemToRegs_keepsRegs {sz : WordLong} {mask : Word} {ea : Ea} (hw : ea.ok .controlPostInc sz.size = true)
    (hc : movemReady sz.size mask (movemBase ea s) = true) :
    KeepsRegs (fun n => mask.getLsbD n.val) (fun n => mask.getLsbD (8 + n.val) || ea == .postInc n) s
      (execMovemToRegs sz mask ea s) := by
  have aligned := maskList_nil_or_aligned hc
  obtain ⟨b, t, loaded, kept, mode⟩ :=
    movemLoad_ready (dd := fun n => mask.getLsbD n.val) (ad := fun n => mask.getLsbD (8 + n.val) || ea == .postInc n)
      (fun k hk n e => by rw [e]; exact mem_maskList hk) (fun k hk n e => by rw [e, mem_maskList hk, Bool.true_or])
      aligned (RegsKept.refl (s := s)) rfl
  rcases ok_controlPostInc_cases hw with control | ⟨n, rfl⟩
  · rw [movemBase_control control] at loaded
    rw [execMovemToRegs, movemToRegsBody_control control, loaded]
    exact retire_keepsRegs ht kept _
  · have body : movemToRegsBody sz.size mask (.postInc n) s = .ok () (t.setAreg n b) := by
      simp only [movemToRegsBody]
      rw [show s.areg n = movemBase (.postInc n) s from rfl, loaded, Res.bind_ok]
    rw [execMovemToRegs, body]
    exact retire_keepsRegs ht (kept.setAreg (by simp) mode b) _

/-! ## Single instructions: moves, stack and program control -/

theorem execMove_keepsRegs {sz : Size} {src dst : Ea} (hw : (Instr.move sz src dst).wellFormed = true)
    (hc : (Instr.move sz src dst).completes s = true) :
    KeepsRegs dst.isDn (fun n => src.steps n || dst.steps n) s (execMove sz src dst s) := by
  obtain ⟨hi, hk⟩ := kind_of_ok_dataAlterable (Bool.and_elim_right hw)
  simp only [Instr.completes, Bool.and_eq_true] at hc
  obtain ⟨srcReady, dstReady⟩ := hc
  rw [execMove, readEa_ready srcReady, Res.bind_ok, storeEa_ready _ _ dstReady hi]
  have read : RegsKept dst.isDn (fun n => src.steps n || dst.steps n) s (sideEffect src sz s) :=
    RegsKept.refl.sideEffect (fun _ h => by simp [h]) rfl sz
  exact retire_keepsRegs ht
    (read.replaced hk (fun _ h => h) (fun _ h => by simp [h]) (sideEffect_supervisor src sz s) _ _ _ _) _

/-- CMPM steps both address registers, the source's first (R244). -/
theorem execCmpm_keepsRegs {sz : Size} {x y : Reg} (hc : pairReady sz (.postInc y) (.postInc x) s = true) :
    KeepsRegs (fun _ => false) (fun n => x == n || y == n) s (execCmpm sz x y s) := by
  simp only [pairReady, Bool.and_eq_true] at hc
  obtain ⟨hsrc, hdst⟩ := hc
  rw [execCmpm, readEa_ready hsrc, Res.bind_ok, loadEa_ready _ hdst]
  have src : RegsKept (fun _ => false) (fun n => x == n || y == n) s (sideEffect (.postInc y) sz s) :=
    RegsKept.refl.sideEffect (by simp [steps_iff]) rfl sz
  exact retire_keepsRegs ht
    ((src.sideEffect (by simp +contextual [steps_iff]) (sideEffect_supervisor _ _ _) sz).setCcr _) 2

theorem execClr_keepsRegs {sz : Size} {ea : Ea} (hw : ea.ok .dataAlterable sz = true)
    (hc : operandReady ea sz (s.pc + 2) s = true) : KeepsRegs ea.isDn ea.steps s (execClr sz ea s) := by
  obtain ⟨hi, hk⟩ := kind_of_ok_dataAlterable hw
  rw [execClr, storeEa_ready _ _ hc hi]
  exact retire_keepsRegs ht (RegsKept.refl.replaced hk (fun _ h => h) (fun _ h => h) rfl _ _ _ _) _

theorem execMovep_keepsRegs {ad : Reg → Bool} {dir : MovepDir} {sz : WordLong} {dx ay : Reg} {d : Word} :
    KeepsRegs (fun n => dir == .memToReg && dx == n) ad s (execMovep dir sz dx ay d s) := by
  cases dir with
  | memToReg => exact retire_keepsRegs ht (RegsKept.refl.writeD (by simp) _ _) 4
  | regToMem => exact retire_keepsRegs ht (RegsKept.refl.withMem _) 4

theorem execMoveToSr_keepsRegs {ea : Ea} (hc : (Instr.moveToSr ea).completes s = true) :
    KeepsRegs (fun _ => false) ea.steps s (execMoveToSr ea s) := by
  simp only [Instr.completes, Bool.and_eq_true] at hc
  obtain ⟨supervisor, ready⟩ := hc
  rw [execMoveToSr, privileged_supervisor _ _ supervisor]
  exact loadEa_keepsRegs ht ready (fun _ h => h) (fun _ _ h _ => h.writeSr _) _

theorem execLea_keepsRegs {dd : Reg → Bool} {n : Reg} {ea : Ea} (hw : ea.ok .control .l = true) :
    KeepsRegs dd (fun m => n == m) s (execLea n ea s) := by
  rw [execLea, addressEa_control (kind_of_ok_control hw), Res.bind_ok]
  exact retire_keepsRegs ht (RegsKept.refl.setAreg (beq_self_eq_true n) rfl _) _

theorem execPea_keepsRegs {dd : Reg → Bool} {ea : Ea} (hw : ea.ok .control .l = true) (hc : s.spEven = true) :
    KeepsRegs dd (fun n => n == 7) s (execPea ea s) := by
  rw [execPea, addressEa_control (kind_of_ok_control hw), Res.bind_ok, push_spEven hc]
  exact retire_keepsRegs ht (RegsKept.refl.pushed rfl rfl _) _

theorem execJsr_keepsRegs {dd : Reg → Bool} {ea : Ea} (hw : ea.ok .control .l = true) (hc : s.spEven = true) :
    KeepsRegs dd (fun n => n == 7) s (execJsr ea s) := by
  rw [execJsr, addressEa_control (kind_of_ok_control hw), Res.bind_ok, push_spEven hc]
  exact conclude_keepsRegs ht ((RegsKept.refl.pushed rfl rfl _).jumpTo _)

theorem execBsr_keepsRegs {dd : Reg → Bool} {disp : BranchDisp} (hc : s.spEven = true) :
    KeepsRegs dd (fun n => n == 7) s (execBsr disp s) := by
  rw [execBsr, push_spEven hc]
  exact conclude_keepsRegs ht ((RegsKept.refl.pushed rfl rfl _).jumpTo _)

theorem execJmp_keepsRegs {dd ad : Reg → Bool} {ea : Ea} (hw : ea.ok .control .l = true) :
    KeepsRegs dd ad s (execJmp ea s) := by
  rw [execJmp, addressEa_control (kind_of_ok_control hw), Res.bind_ok]
  exact conclude_keepsRegs ht (RegsKept.refl.jumpTo _)

theorem execRts_keepsRegs {dd : Reg → Bool} (hc : s.spEven = true) : KeepsRegs dd (fun n => n == 7) s (execRts s) := by
  rw [execRts, pop_spEven hc]
  exact conclude_keepsRegs ht ((RegsKept.refl.setSp rfl rfl _).jumpTo _)

theorem execRtr_keepsRegs {dd : Reg → Bool} (hc : s.spEven = true) : KeepsRegs dd (fun n => n == 7) s (execRtr s) := by
  rw [execRtr, pop_spEven hc, Res.bind_ok, stackStep, pop_spEven (spEven_setSp_add_two hc), Res.bind_ok]
  have popped := (RegsKept.refl (dd := dd) (ad := fun n => n == 7) (s := s)).setSp rfl rfl (s.sp + 2)
  exact conclude_keepsRegs ht (((popped.setSp rfl (State.supervisor_setSp _ _) _).writeCcr _).jumpTo _)

/-- LINK writes An and the active stack pointer (R210). -/
theorem execLink_keepsRegs {dd : Reg → Bool} {n : Reg} {d : Word} (hc : s.spEven = true) :
    KeepsRegs dd (fun m => n == m || m == 7) s (execLink n d s) := by
  simp only [execLink, State.sp_setSp, memWrite_aligned (misaligned_sp_sub_four hc), Res.bind_ok]
  generalize Memory.store _ _ _ _ = m
  have mode : ({ s.setSp (s.sp - 4) with mem := m } : State).supervisor = s.supervisor := State.supervisor_setSp _ _
  have stored : RegsKept dd (fun m => n == m || m == 7) s { s.setSp (s.sp - 4) with mem := m } :=
    (RegsKept.refl.setSp (by simp) rfl _).withMem m
  exact retire_keepsRegs ht
    ((stored.setAreg (by simp) mode _).setSp (by simp) ((State.supervisor_setAreg _ _ _).trans mode) _) 4

/-- UNLK writes the active stack pointer and then An (R211). -/
theorem execUnlk_keepsRegs {dd : Reg → Bool} {n : Reg} (hc : (!(s.areg n).getLsbD 0) = true) :
    KeepsRegs dd (fun m => n == m || m == 7) s (execUnlk n s) := by
  simp only [execUnlk, memRead_aligned (misaligned_of_even (by simpa using hc) .l), Res.bind_ok]
  exact retire_keepsRegs ht ((RegsKept.refl.setSp (by simp) rfl _).setAreg (by simp) (State.supervisor_setSp _ _) _) 2

theorem execDbcc_keepsRegs {ad : Reg → Bool} {cond : Cond} {n : Reg} {d : Word} :
    KeepsRegs (fun m => n == m) ad s (execDbcc cond n d s) := by
  refine conclude_keepsRegs ht ?_
  have counted (v : Long) : RegsKept (fun m => n == m) ad s (s.writeD n .w v) := RegsKept.refl.writeD (beq_self_eq_true n) _ _
  split
  · exact RegsKept.refl.advance _
  · simp only
    split
    · exact (counted _).advance _
    · exact (counted _).jumpTo _

theorem execBcc_keepsRegs {dd ad : Reg → Bool} {cond : Cond} {disp : BranchDisp} : KeepsRegs dd ad s (execBcc cond disp s) := by
  refine conclude_keepsRegs ht ?_
  split
  · exact RegsKept.refl.jumpTo _
  · exact RegsKept.refl.advance _

theorem execStop_keepsRegs {dd ad : Reg → Bool} {imm : Word} (hc : s.supervisor = true) :
    KeepsRegs dd ad s (execStop imm s) := by
  rw [execStop, privileged_supervisor _ _ hc]
  exact conclude_keepsRegs ht (RegsKept.refl.congr rfl rfl rfl rfl)

theorem execTrapv_keepsRegs {dd ad : Reg → Bool} (hc : (!s.ccr.v) = true) : KeepsRegs dd ad s (execTrapv s) := by
  rw [execTrapv, if_neg (by simpa using hc)]
  exact retire_keepsRegs ht RegsKept.refl 2

theorem execMoveFromUsp_keepsRegs {dd : Reg → Bool} {n : Reg} (hc : s.supervisor = true) :
    KeepsRegs dd (fun m => n == m) s (execMoveFromUsp n s) := by
  rw [execMoveFromUsp, privileged_supervisor _ _ hc]
  exact retire_keepsRegs ht (RegsKept.refl.setAreg (beq_self_eq_true n) rfl _) 2

theorem execReset_keepsRegs {dd ad : Reg → Bool} (hc : s.supervisor = true) : KeepsRegs dd ad s (execReset s) := by
  rw [execReset, privileged_supervisor _ _ hc]
  exact retire_keepsRegs ht RegsKept.refl 2

/-- MOVE An,USP changes USP and no other register (R372). -/
theorem execMoveToUsp_regs {n : Reg} {t : State} (hc : s.supervisor = true) (h : execMoveToUsp n s = .next t) :
    t.d = s.d ∧ t.a = s.a ∧ t.ssp = s.ssp := by
  rw [execMoveToUsp, privileged_supervisor _ _ hc, retire_ok ht] at h
  injection h with h
  exact h ▸ ⟨rfl, rfl, rfl⟩

/-- RTE changes SSP and no other register (R375). -/
theorem execRte_regs {t : State} (hc : (s.supervisor && !s.ssp.getLsbD 0) = true) (h : execRte s = .next t) :
    t.d = s.d ∧ t.a = s.a ∧ t.usp = s.usp := by
  simp only [Bool.and_eq_true, Bool.not_eq_true'] at hc
  obtain ⟨supervisor, even⟩ := hc
  have even2 : misaligned (s.ssp + 2) .l = false := misaligned_of_even (by rw [getLsbD_zero_add _ _ (by decide), even]) .l
  rw [execRte, privileged_supervisor _ _ supervisor, returnFromException, memRead_aligned (misaligned_of_even even .w),
    Res.bind_ok, memRead_aligned even2, Res.bind_ok, conclude_ok ht] at h
  injection h with h
  subst h
  exact ⟨rfl, rfl, rfl⟩

end

/-! ## Every instruction -/

/-- A well-formed instruction that runs to its end changes only its registers; MOVE An,USP and RTE, which write a stack pointer
by its name, stand apart. One case per form, grouped by the operation the instructions share. -/
theorem exec_keepsRegs {i : Instr} {s : State} (hw : i.wellFormed = true) (ht : s.traced = false) (hc : i.completes s = true)
    (notUsp : ∀ n, i ≠ .moveToUsp n) (notRte : i ≠ .rte) : KeepsRegs i.dataDest i.addrDest s (exec i s) := by
  unfold exec
  cases i with
  | oriToCcr imm | andiToCcr imm | eoriToCcr imm => exact retire_keepsRegs ht (RegsKept.refl.writeCcr _) 4
  | oriToSr imm | andiToSr imm | eoriToSr imm => exact immToSr_keepsRegs ht hc
  | ori sz imm ea | andi sz imm ea | subi sz imm ea | addi sz imm ea | eori sz imm ea => exact immToEa_keepsRegs ht hw hc
  | btstImm num ea | btstDyn n ea => exact bitTest_keepsRegs ht _ _
  | bchgImm num ea | bclrImm num ea | bsetImm num ea => exact bitModify_keepsRegs ht hw _ _
  | bchgDyn n ea | bclrDyn n ea | bsetDyn n ea => exact bitModify_keepsRegs ht hw _ _
  | movep dir sz dx ay d => exact execMovep_keepsRegs ht
  | move sz src dst => exact execMove_keepsRegs ht hw hc
  | movea sz n src =>
    exact loadEa_keepsRegs ht hc (fun _ h => by simp [Instr.addrDest, h])
      (fun _ _ h hu => h.setAreg (by simp [Instr.addrDest]) hu _) _
  | negx sz ea | neg sz ea | not sz ea => exact unaryEa_keepsRegs ht hw hc
  | nbcd ea => exact unaryEa_keepsRegs ht hw (operandReady_byte ea _ s)
  | clr sz ea => exact execClr_keepsRegs ht hw hc
  | moveFromSr ea =>
    obtain ⟨hi, hk⟩ := kind_of_ok_dataAlterable hw
    exact writeEa_keepsRegs ht hi hk hc _
  | scc cond ea =>
    obtain ⟨hi, hk⟩ := kind_of_ok_dataAlterable hw
    exact writeEa_keepsRegs ht hi hk (operandReady_byte ea _ s) _
  | tas ea =>
    obtain ⟨hi, hk⟩ := kind_of_ok_dataAlterable hw
    exact updateEa_keepsRegs ht hi hk (operandReady_byte ea _ s) _
  | moveToCcr ea => exact loadEa_keepsRegs ht hc (fun _ h => h) (fun _ _ h _ => h.writeCcr _) _
  | moveToSr ea => exact execMoveToSr_keepsRegs ht hc
  | chk n ea => exact execChk_keepsRegs ht hc
  | lea n ea => exact execLea_keepsRegs ht hw
  | pea ea => exact execPea_keepsRegs ht hw hc
  | jsr ea => exact execJsr_keepsRegs ht hw hc
  | jmp ea => exact execJmp_keepsRegs ht hw
  | bsr disp => exact execBsr_keepsRegs ht hc
  | rts => exact execRts_keepsRegs ht hc
  | rtr => exact execRtr_keepsRegs ht hc
  | link n d => exact execLink_keepsRegs ht hc
  | unlk n => exact execUnlk_keepsRegs ht hc
  | swap n | extL n | moveq n data =>
    exact retire_keepsRegs ht ((RegsKept.refl.setCcr _).setDreg (by simp [Instr.dataDest]) _) 2
  | extW n => exact retire_keepsRegs ht ((RegsKept.refl.setCcr _).writeD (by simp [Instr.dataDest]) _ _) 2
  | movemToMem sz mask ea => exact execMovemToMem_keepsRegs ht hw hc
  | movemToRegs sz mask ea => exact execMovemToRegs_keepsRegs ht hw hc
  | illegal | trap v => exact absurd hc (by simp [Instr.completes])
  | moveToUsp n => exact absurd rfl (notUsp n)
  | moveFromUsp n => exact execMoveFromUsp_keepsRegs ht hc
  | reset => exact execReset_keepsRegs ht hc
  | nop => exact retire_keepsRegs ht RegsKept.refl 2
  | stop imm => exact execStop_keepsRegs ht hc
  | rte => exact absurd rfl notRte
  | trapv => exact execTrapv_keepsRegs ht hc
  | addq sz q ea | subq sz q ea => exact quickEa_keepsRegs ht hw hc
  | dbcc cond n d => exact execDbcc_keepsRegs ht
  | bra disp => exact conclude_keepsRegs ht (RegsKept.refl.jumpTo _)
  | bcc cond disp => exact execBcc_keepsRegs ht
  | orEaDn sz ea n | subEaDn sz ea n | andEaDn sz ea n | addEaDn sz ea n => exact eaToDn_keepsRegs ht hc
  | orDnEa sz n ea | subDnEa sz n ea | andDnEa sz n ea | addDnEa sz n ea =>
    obtain ⟨hi, hk, -⟩ := kind_of_ok_memoryAlterable hw
    exact dnToEa_keepsRegs ht hi hk hc
  | eor sz n ea =>
    obtain ⟨hi, hk⟩ := kind_of_ok_dataAlterable hw
    exact dnToEa_keepsRegs ht hi hk hc
  | divu n ea | divs n ea => exact divDn_keepsRegs ht hc
  | mulu n ea | muls n ea => exact mulToDn_keepsRegs ht hc
  | suba sz n ea | adda sz n ea => exact eaToAn_keepsRegs ht hc
  | cmp sz ea n | cmpa sz n ea | cmpi sz imm ea | tst sz ea => exact loadEa_setCcr_keepsRegs ht hc _
  | cmpm sz x y => exact execCmpm_keepsRegs ht hc
  | abcd form x y | sbcd form x y =>
    exact pairOp_keepsRegs ht fun _ => by simp only [pairReady, operandReady_byte, Bool.and_self]
  | addx sz form x y | subx sz form x y => exact pairOp_keepsRegs ht (by rintro rfl; exact hc)
  | exgDD x y =>
    exact retire_keepsRegs ht
      ((RegsKept.refl.setDreg (by simp [Instr.dataDest]) _).setDreg (by simp [Instr.dataDest]) _) 2
  | exgAA x y =>
    exact retire_keepsRegs ht ((RegsKept.refl.setAreg (by simp [Instr.addrDest]) rfl _).setAreg (by simp [Instr.addrDest])
      (State.supervisor_setAreg _ _ _) _) 2
  | exgDA x y =>
    exact retire_keepsRegs ht ((RegsKept.refl.setDreg (by simp [Instr.dataDest]) _).setAreg (by simp [Instr.addrDest])
      (State.supervisor_setDreg _ _ _) _) 2
  | asrReg sz cnt y | aslReg sz cnt y | lsrReg sz cnt y | lslReg sz cnt y => exact shiftDn_keepsRegs ht
  | roxrReg sz cnt y | roxlReg sz cnt y | rorReg sz cnt y | rolReg sz cnt y => exact shiftDn_keepsRegs ht
  | asrMem ea | aslMem ea | lsrMem ea | lslMem ea => exact shiftEa_keepsRegs ht hw hc
  | roxrMem ea | roxlMem ea | rorMem ea | rolMem ea => exact shiftEa_keepsRegs ht hw hc

/-- Settles O46: MOVE An,USP and RTE by their exact register effect, every other instruction by its register frame. -/
theorem instructionsChangeOnlyTheirRegisters : Obligations.InstructionsChangeOnlyTheirRegisters := by
  unfold Obligations.InstructionsChangeOnlyTheirRegisters
  intro i s t hw ht hc h
  by_cases hu : ∃ n, i = .moveToUsp n
  · obtain ⟨n, rfl⟩ := hu
    obtain ⟨hd, ha, hs⟩ := execMoveToUsp_regs ht hc h
    exact ⟨fun m _ => by rw [State.dreg, hd]; rfl, fun m _ _ => by simp only [ha], fun _ hne => absurd rfl (hne n), fun _ _ => hs⟩
  by_cases hr : i = .rte
  · subst hr
    obtain ⟨hd, ha, hs⟩ := execRte_regs ht hc h
    exact ⟨fun m _ => by rw [State.dreg, hd]; rfl, fun m _ _ => by simp only [ha], fun _ _ => hs, fun _ hne => absurd rfl hne⟩
  obtain ⟨dreg, areg, usp, ssp⟩ := exec_keepsRegs hw ht hc (fun n e => hu ⟨n, e⟩) hr t h
  exact ⟨dreg, areg, fun hm _ => usp hm, fun hm _ => ssp hm⟩

end Sys2Proof.Machine
end

section
/-! SUPPORT. The register ports bit by bit (spec/10_state.md R22 to R24, R32, R33): the merge-write of a data register, A7 as the
stack pointer of the mode, and the bits that WriteSR and WriteCCR store. -/

namespace Sys2Proof.Machine

/-! ## Data registers -/

/-- A truncated value is the residue modulo `2 ^ bits(sz)` (00_scope.md R9). -/
theorem toNat_trunc (sz : Size) (v : Long) : (trunc sz v).toNat = v.toNat % 2 ^ sz.bits := by
  have mask : sz.mask.toNat = 2 ^ sz.bits - 1 := by cases sz <;> rfl
  rw [trunc, BitVec.toNat_and, mask, Nat.and_two_pow_sub_one_eq_mod]

/-- A merge-write takes the low bits from the value and the others from the register (R22). -/
theorem getLsbD_merge (sz : Size) (old v : Long) {k : Nat} (hk : k < 32) :
    (merge sz old v).getLsbD k = if k < sz.bits then v.getLsbD k else old.getLsbD k := by
  rw [merge, BitVec.getLsbD_or, BitVec.getLsbD_and, BitVec.getLsbD_and, BitVec.getLsbD_not, getLsbD_mask]
  by_cases low : k < sz.bits <;> simp [low, hk]

theorem State.dreg_writeD (s : State) (n m : Reg) (sz : Size) (v : Long) :
    (s.writeD n sz v).dreg m = if m = n then merge sz (s.dreg n) v else s.dreg m := State.dreg_setDreg s n m _

/-- Settles O13: a read is the truncation, a write the merge. -/
theorem dataRegisterMergeWrite : Obligations.DataRegisterMergeWrite := by
  unfold Obligations.DataRegisterMergeWrite
  intro s n sz v
  refine ⟨toNat_trunc sz (s.dreg n), fun k hk => ?_, fun m hm => ?_⟩
  · rw [State.dreg_writeD, if_pos rfl, getLsbD_merge sz (s.dreg n) v hk]
  · rw [State.dreg_writeD, if_neg hm]

/-! ## The stack pointer of the mode -/

theorem State.sp_of_supervisor {s : State} (h : s.supervisor = true) : s.sp = s.ssp := if_pos h

theorem State.sp_of_user {s : State} (h : s.supervisor = false) : s.sp = s.usp := by simp [State.sp, h]

theorem State.setSp_of_supervisor {s : State} (h : s.supervisor = true) (v : Long) : s.setSp v = { s with ssp := v } := if_pos h

theorem State.setSp_of_user {s : State} (h : s.supervisor = false) (v : Long) : s.setSp v = { s with usp := v } := by
  simp [State.setSp, h]

/-- Settles O14: A7 is the active stack pointer, whose two cells S tells apart; the other numbers name cells of their own. -/
theorem a7IsTheStackPointerOfTheMode : Obligations.A7IsTheStackPointerOfTheMode := by
  unfold Obligations.A7IsTheStackPointerOfTheMode
  intro s v
  rw [State.areg_seven, State.setAreg_seven]
  refine ⟨fun mode => ⟨State.sp_of_supervisor mode, State.setSp_of_supervisor mode v⟩,
    fun mode => ⟨State.sp_of_user mode, State.setSp_of_user mode v⟩, fun n hn => ⟨?_, State.areg_setAreg_same s n v, ?_⟩⟩
  · rw [← State.setAreg_seven, State.areg_setAreg, if_neg hn]
  · rw [State.areg_setAreg, if_neg hn.symm, State.areg_seven]

/-! ## Bits of the status register -/

/-- The bits `SR_IMPL_MASK` implements (R32, D1). -/
theorem getLsbD_srImplMask {k : Nat} (hk : k < 16) :
    srImplMask.getLsbD k = decide (k = 15 ∨ k = 13 ∨ k = 10 ∨ k = 9 ∨ k = 8 ∨ k < 5) := by
  have bits : ∀ j : Fin 16, srImplMask.getLsbD j.val =
      decide (j.val = 15 ∨ j.val = 13 ∨ j.val = 10 ∨ j.val = 9 ∨ j.val = 8 ∨ j.val < 5) := by decide
  exact bits ⟨k, hk⟩

/-- A write of CCR replaces bits 4:0, clears bits 7:5 and leaves the upper byte (R33). -/
theorem getLsbD_sr_writeCcr (s : State) (v : Byte) {k : Nat} (hk : k < 16) :
    (s.writeCcr v).sr.getLsbD k = if k < 8 then v.getLsbD k && decide (k < 5) else s.sr.getLsbD k := by
  have upper : ∀ j : Fin 16, (0xFF00 : Word).getLsbD j.val = decide (8 ≤ j.val) := by decide
  have flags : ∀ j : Fin 16, (0x001F : Word).getLsbD j.val = decide (j.val < 5) := by decide
  rw [State.writeCcr, BitVec.getLsbD_or, BitVec.getLsbD_and, BitVec.getLsbD_and, BitVec.getLsbD_setWidth, upper ⟨k, hk⟩,
    flags ⟨k, hk⟩]
  by_cases low : k < 8
  · simp [low, hk, show ¬ 8 ≤ k by omega]
  · simp [low, show 8 ≤ k by omega, show ¬ k < 5 by omega]

/-- The condition codes are implemented bits. -/
theorem not_lt_five_of_reserved {k : Nat} (h : srImplMask.getLsbD k = false) : ¬ k < 5 := by
  intro hk
  rw [getLsbD_srImplMask (by omega)] at h
  simp [hk] at h

/-- Settles O15: WriteSR masks its value, WriteCCR replaces the low byte. -/
theorem srAndCcrPortsMaskTheirBits : Obligations.SrAndCcrPortsMaskTheirBits := by
  unfold Obligations.SrAndCcrPortsMaskTheirBits
  intro s v c
  refine ⟨⟨v &&& srImplMask, rfl, fun k hk => ?_⟩, ⟨(s.writeCcr c).sr, rfl, fun k hk => getLsbD_sr_writeCcr s c hk⟩⟩
  rw [BitVec.getLsbD_and, getLsbD_srImplMask hk]

end Sys2Proof.Machine
end

section
/-! SUPPORT. The invariant of the state (canonical memory, reserved SR bits 0, legal request levels; spec/10_state.md R32, R33, R40,
20_memory.md R60): one rule per register port, one per shared operation, one per shared form of the instructions. No rule asks that
an access be aligned or a term well formed, since what an operation raises also ends in a state that meets the invariant. -/

namespace Sys2Proof.Machine

/-! ## The invariant and the register ports -/

/-- The reserved bits are those outside the mask. -/
theorem State.srReserved_iff {s : State} :
    s.srReserved = true ↔ ∀ k, k < 16 → srImplMask.getLsbD k = false → s.sr.getLsbD k = false := by
  rw [State.srReserved, beq_iff_eq]
  constructor
  · intro h k hk reserved
    have bit : (s.sr &&& ~~~srImplMask).getLsbD k = false := by rw [h]; exact BitVec.getLsbD_zero
    rw [BitVec.getLsbD_and, BitVec.getLsbD_not, reserved] at bit
    simpa [hk] using bit
  · intro h
    refine BitVec.eq_of_getLsbD_eq fun k hk => ?_
    cases implemented : srImplMask.getLsbD k
    · simp [h k hk implemented]
    · simp [implemented]

theorem State.inv_iff {s : State} : s.inv = true ↔ s.mem.wf = true ∧ s.srReserved = true ∧ s.queueLevels = true := by
  simp only [State.inv, Bool.and_eq_true, and_assoc]

/-- The invariant speaks of memory, SR and the request queue only. -/
theorem State.inv_congr {s t : State} (hm : t.mem = s.mem) (hsr : t.sr = s.sr) (hq : t.irqQueue = s.irqQueue) : t.inv = s.inv := by
  simp only [State.inv, State.srReserved, State.queueLevels, hm, hsr, hq]

@[simp] theorem State.inv_setDreg (s : State) (n : Reg) (v : Long) : (s.setDreg n v).inv = s.inv := State.inv_congr rfl rfl rfl

@[simp] theorem State.inv_writeD (s : State) (n : Reg) (sz : Size) (v : Long) : (s.writeD n sz v).inv = s.inv :=
  State.inv_congr rfl rfl rfl

@[simp] theorem State.inv_setSp (s : State) (v : Long) : (s.setSp v).inv = s.inv :=
  State.inv_congr (State.mem_setSp s v) (State.sr_setSp s v) (State.irqQueue_setSp s v)

@[simp] theorem State.inv_setAreg (s : State) (n : Reg) (v : Long) : (s.setAreg n v).inv = s.inv :=
  State.inv_congr (State.mem_setAreg s n v) (State.sr_setAreg s n v) (State.irqQueue_setAreg s n v)

@[simp] theorem State.inv_setMovemReg (s : State) (k : Fin 16) (v : Long) : (s.setMovemReg k v).inv = s.inv :=
  State.inv_congr (State.mem_setMovemReg s k v) (State.sr_setMovemReg s k v) (State.irqQueue_setMovemReg s k v)

@[simp] theorem State.inv_advance (s : State) (n : Nat) : (advance n s).inv = s.inv := State.inv_congr rfl rfl rfl

@[simp] theorem State.inv_jumpTo (s : State) (a : Long) : (jumpTo a s).inv = s.inv := State.inv_congr rfl rfl rfl

section
variable {s : State} (h : s.inv = true)
include h

theorem State.inv_with_mem {m : Memory} (hm : m.wf = true) : ({ s with mem := m } : State).inv = true := by
  obtain ⟨-, reserved, levels⟩ := State.inv_iff.mp h
  exact State.inv_iff.mpr ⟨hm, reserved, levels⟩

theorem State.mem_wf_of_inv : s.mem.wf = true := (State.inv_iff.mp h).1

theorem State.inv_store (a : Long) (sz : Size) (v : Long) : ({ s with mem := s.mem.store a sz v } : State).inv = true :=
  State.inv_with_mem h (Memory.wf_store (State.mem_wf_of_inv h) a sz v)

/-- Setting the condition codes writes implemented bits only (R32). -/
theorem State.inv_setCcr (f : Ccr) : (s.setCcr f).inv = true := by
  obtain ⟨wf, reserved, levels⟩ := State.inv_iff.mp h
  refine State.inv_iff.mpr ⟨wf, State.srReserved_iff.mpr fun k hk outside => ?_, levels⟩
  rw [State.getLsbD_sr_setCcr, if_neg (not_lt_five_of_reserved outside)]
  exact State.srReserved_iff.mp reserved k hk outside

/-- WriteCCR stores 0 in bits 7:5 (R33). -/
theorem State.inv_writeCcr (v : Byte) : (s.writeCcr v).inv = true := by
  obtain ⟨wf, reserved, levels⟩ := State.inv_iff.mp h
  refine State.inv_iff.mpr ⟨wf, State.srReserved_iff.mpr fun k hk outside => ?_, levels⟩
  rw [getLsbD_sr_writeCcr s v hk]
  split
  · simp [not_lt_five_of_reserved outside]
  · exact State.srReserved_iff.mp reserved k hk outside

/-- WriteSR discards the unimplemented bits (R33). -/
theorem State.inv_writeSr (v : Word) : (s.writeSr v).inv = true := by
  obtain ⟨wf, -, levels⟩ := State.inv_iff.mp h
  refine State.inv_iff.mpr ⟨wf, State.srReserved_iff.mpr fun k _ outside => ?_, levels⟩
  rw [State.sr_writeSr, BitVec.getLsbD_and, outside, Bool.and_false]

/-! ## Exception entry, interrupt acceptance and reset -/

theorem enterException_inv (v : Byte) (mask : Option (BitVec 3)) (retpc : Long) : (enterException v mask retpc s).inv = true := by
  obtain ⟨wf, reserved, levels⟩ := State.inv_iff.mp h
  refine State.inv_iff.mpr ⟨enterException_mem_wf v mask retpc s wf, ?_, ?_⟩
  · rw [State.srReserved, beq_iff_eq] at reserved ⊢
    rw [enterException_sr, entrySr_reserved mask reserved]
  · rw [State.queueLevels, enterException_irqQueue]
    exact levels

theorem takeException_inv (e : Exc) : (takeException e s).inv = true := by
  obtain ⟨v, retpc, -, entry⟩ := takeException_eq_raiseVector e s
  rw [entry]
  exact enterException_inv h v none retpc

/-- The accepted request leaves the queue; those that stay keep their levels (R432). -/
theorem acceptInterrupt_inv (r : IrqRequest) : (acceptInterrupt r s).inv = true := by
  obtain ⟨wf, reserved, levels⟩ := State.inv_iff.mp h
  have left : ({ s with irqQueue := s.irqQueue.erase r } : State).queueLevels = true := by
    simp only [State.queueLevels, List.all_eq_true] at levels ⊢
    exact fun q hq => levels q (List.mem_of_mem_erase hq)
  have dequeued : ({ s with irqQueue := s.irqQueue.erase r } : State).inv = true := State.inv_iff.mpr ⟨wf, reserved, left⟩
  exact enterException_inv dequeued r.vectorNumber (some r.level) s.pc

/-- ProcessReset stores 0x2700 in SR, which has implemented bits only (R450). -/
theorem processReset_inv : (processReset s).inv = true := by
  obtain ⟨wf, -, levels⟩ := State.inv_iff.mp h
  exact State.inv_iff.mpr ⟨wf, show (0x2700 &&& ~~~srImplMask == (0 : Word)) = true by decide, levels⟩

end

/-! ## Parts of an instruction -/

/-- A part of an instruction ends, with a value or by raising, in a state that meets the invariant. -/
def Res.EndsInv {α : Type} (r : Res α) : Prop :=
  match r with
  | .ok _ s => s.inv = true
  | .raise _ s => s.inv = true

/-- The outcome is a next state, and it meets the invariant. -/
def AnswersInv (o : Host.Outcome State Fault Refusal) : Prop := ∃ t, o = .next t ∧ t.inv = true

theorem Res.EndsInv.bind {α β : Type} {r : Res α} {f : α → State → Res β} (h : r.EndsInv)
    (hf : ∀ v u, u.inv = true → (f v u).EndsInv) : (r.bind f).EndsInv := by
  cases r with
  | ok v u => exact hf v u h
  | raise e u => exact h

/-- An instruction ends by taking what it raised, by its own state, or by the trace entry (R401 item 5, R418). -/
theorem conclude_inv {s0 : State} {r : Res Unit} (h : r.EndsInv) : AnswersInv (conclude s0 r) := by
  obtain ⟨e, u, rfl, answer⟩ | ⟨u, rfl, -, answer⟩ | ⟨u, rfl, -, answer⟩ := conclude_cases s0 r
  · exact ⟨_, answer, takeException_inv h e⟩
  · exact ⟨_, answer, h⟩
  · exact ⟨_, answer, enterException_inv h _ _ _⟩

theorem retire_inv {n : Nat} {s0 : State} {r : Res Unit} (h : r.EndsInv) : AnswersInv (retire n s0 r) :=
  conclude_inv (h.bind fun _ u hu => (State.inv_advance u n).trans hu)

/-- The side effect of a location after its access (R146). -/
@[simp] theorem Loc.inv_post (loc : Loc) (s : State) : (loc.post s).inv = s.inv := by
  cases loc with
  | mem a pending => cases pending with
    | none => rfl
    | some step => exact State.inv_setAreg s _ _
  | _ => rfl

@[simp] theorem inv_eaPre (ea : Ea) (sz : Size) (s : State) : (eaPre ea sz s).inv = s.inv := by
  cases ea with
  | preDec n => exact State.inv_setAreg s n _
  | _ => rfl

section
variable {s : State} (h : s.inv = true)
include h

theorem memRead_inv (a : Long) (sz : Size) : (memRead a sz s).EndsInv := by
  unfold memRead
  split <;> exact h

theorem memWrite_inv (a : Long) (sz : Size) (v : Long) : (memWrite a sz v s).EndsInv := by
  unfold memWrite
  split
  · exact h
  · exact State.inv_store h a sz v

theorem push_inv (sz : Size) (v : Long) : (push sz v s).EndsInv :=
  memWrite_inv ((State.inv_setSp s _).trans h) _ sz v

theorem pop_inv (sz : Size) : (pop sz s).EndsInv :=
  (memRead_inv h _ sz).bind fun _ u hu => (State.inv_setSp u _).trans hu

theorem privileged_inv {body : State → Res Unit} (hb : (body s).EndsInv) : (privileged body s).EndsInv := by
  unfold privileged
  split
  · exact hb
  · exact h

/-- RTE's SR passes through WriteSR, which masks it (R421). -/
theorem returnFromException_inv : (returnFromException s).EndsInv :=
  (memRead_inv h _ _).bind fun sr _ h1 => (memRead_inv h1 _ _).bind fun pc u h2 =>
    State.inv_writeSr (s := { u with ssp := u.ssp + 6, pc := pc }) h2 (lowWord sr)

theorem readLoc_inv (loc : Loc) (sz : Size) : (readLoc loc sz s).EndsInv := by
  cases loc with
  | mem a pending => exact (memRead_inv h a sz).bind fun _ u hu => (Loc.inv_post _ u).trans hu
  | _ => exact h

theorem writeLoc_inv (loc : Loc) (sz : Size) (v : Long) : (writeLoc loc sz v s).EndsInv := by
  cases loc with
  | dreg n => exact h
  | areg n => exact (State.inv_setAreg s n v).trans h
  | mem a pending => exact (memWrite_inv h a sz v).bind fun _ u hu => (Loc.inv_post _ u).trans hu
  | imm w => exact h

theorem readEa_inv (ea : Ea) (sz : Size) (ext : Long) : (readEa ea sz ext s).EndsInv :=
  readLoc_inv ((inv_eaPre ea sz s).trans h) _ sz

theorem writeEa_inv (ea : Ea) (sz : Size) (ext v : Long) : (writeEa ea sz ext v s).EndsInv :=
  writeLoc_inv ((inv_eaPre ea sz s).trans h) _ sz v

theorem storeEa_inv (ea : Ea) (sz : Size) (ext v : Long) (f : Ccr) : (storeEa ea sz ext v f s).EndsInv :=
  writeLoc_inv (State.inv_setCcr ((inv_eaPre ea sz s).trans h) f) _ sz v

theorem updateEa_inv {ea : Ea} {sz : Size} {ext : Long} {g : Long → State → Long × Ccr} : (updateEa ea sz ext g s).EndsInv :=
  (readLoc_inv ((inv_eaPre ea sz s).trans h) _ sz).bind fun _ _ hu => writeLoc_inv (State.inv_setCcr hu _) _ sz _

theorem loadEa_inv {ea : Ea} {sz : Size} {ext : Long} {g : Long → State → State}
    (hg : ∀ e u, u.inv = true → (g e u).inv = true) : (loadEa ea sz ext g s).EndsInv :=
  (readEa_inv h ea sz ext).bind hg

theorem addressEa_inv (ea : Ea) (ext : Long) : (addressEa ea ext s).EndsInv := by
  unfold addressEa
  split <;> exact h

end

/-! ## MOVEM and MOVEP -/

theorem movemStoreUp_inv (sz : Size) (ks : List (Fin 16)) (a : Long) {s : State} (h : s.inv = true) :
    (movemStoreUp sz ks a s).EndsInv := by
  induction ks generalizing a s with
  | nil => exact h
  | cons k ks ih => exact (memWrite_inv h a sz _).bind fun _ _ hu => ih _ hu

theorem movemStoreDown_inv (sz : Size) (ks : List (Fin 16)) (a : Long) {s : State} (h : s.inv = true) :
    (movemStoreDown sz ks a s).EndsInv := by
  induction ks generalizing a s with
  | nil => exact h
  | cons k ks ih => exact (memWrite_inv h _ sz _).bind fun _ _ hu => ih _ hu

theorem movemLoad_inv (sz : Size) (ks : List (Fin 16)) (a : Long) {s : State} (h : s.inv = true) :
    (movemLoad sz ks a s).EndsInv := by
  induction ks generalizing a s with
  | nil => exact h
  | cons k ks ih => exact (memRead_inv h a sz).bind fun _ u hu => ih _ ((State.inv_setMovemReg u k _).trans hu)

theorem Memory.wf_movepPut {m : Memory} (h : m.wf = true) (a : Long) (bs : List Byte) : (movepPut m a bs).wf = true := by
  induction bs generalizing m a with
  | nil => exact h
  | cons b bs ih => exact ih (Memory.wf_putAt h a 0 b) (a + 2)

section
variable {s : State} (h : s.inv = true)
include h

theorem movemToMemBody_inv (sz : Size) (mask : Word) (ea : Ea) : (movemToMemBody sz mask ea s).EndsInv := by
  cases ea with
  | preDec n => exact (movemStoreDown_inv sz _ _ h).bind fun a u hu => (State.inv_setAreg u n a).trans hu
  | _ =>
    unfold movemToMemBody
    exact (addressEa_inv h _ _).bind fun a _ h1 => (movemStoreUp_inv sz _ a h1).bind fun _ _ hu => hu

theorem movemToRegsBody_inv (sz : Size) (mask : Word) (ea : Ea) : (movemToRegsBody sz mask ea s).EndsInv := by
  cases ea with
  | postInc n => exact (movemLoad_inv sz _ _ h).bind fun a u hu => (State.inv_setAreg u n a).trans hu
  | _ =>
    unfold movemToRegsBody
    exact (addressEa_inv h _ _).bind fun a _ h1 => (movemLoad_inv sz _ a h1).bind fun _ _ hu => hu

theorem execMovep_inv (dir : MovepDir) (sz : WordLong) (dx ay : Reg) (d : Word) : AnswersInv (execMovep dir sz dx ay d s) := by
  cases dir with
  | memToReg => exact retire_inv h
  | regToMem => exact retire_inv (State.inv_with_mem h (Memory.wf_movepPut (State.mem_wf_of_inv h) _ _))

/-! ## The shared forms of the instructions -/

theorem eaToDn_inv (op : Long → Long → Ccr → Long × Ccr) (sz : Size) (ea : Ea) (n : Reg) : AnswersInv (eaToDn op sz ea n s) :=
  retire_inv (loadEa_inv h fun _ _ hu => State.inv_setCcr hu _)

theorem dnToEa_inv (op : Long → Long → Ccr → Long × Ccr) (sz : Size) (n : Reg) (ea : Ea) : AnswersInv (dnToEa op sz n ea s) :=
  retire_inv (updateEa_inv h)

theorem immToEa_inv (op : Long → Long → Ccr → Long × Ccr) (sz : Size) (imm : Long) (ea : Ea) :
    AnswersInv (immToEa op sz imm ea s) := retire_inv (updateEa_inv h)

theorem unaryEa_inv (op : Long → Ccr → Long × Ccr) (sz : Size) (ea : Ea) : AnswersInv (unaryEa op sz ea s) :=
  retire_inv (updateEa_inv h)

theorem bitModify_inv (op : Long → Long → Long) (n num : Nat) (ea : Ea) : AnswersInv (bitModify op n num ea s) :=
  retire_inv (updateEa_inv h)

theorem shiftEa_inv (step : Size → ShiftState → ShiftState) (keepV : Bool) (ea : Ea) : AnswersInv (shiftEa step keepV ea s) :=
  retire_inv (updateEa_inv h)

theorem shiftDn_inv (step : Size → ShiftState → ShiftState) (roxc keepV : Bool) (sz : Size) (cnt : ShiftCount) (y : Reg) :
    AnswersInv (shiftDn step roxc keepV sz cnt y s) := retire_inv (State.inv_setCcr h _)

theorem eaToAn_inv (op : Long → Long → Long) (sz : WordLong) (n : Reg) (ea : Ea) : AnswersInv (eaToAn op sz n ea s) :=
  retire_inv (loadEa_inv h fun _ u hu => (State.inv_setAreg u n _).trans hu)

theorem mulToDn_inv (op : Word → Word → Long) (n : Reg) (ea : Ea) : AnswersInv (mulToDn op n ea s) :=
  retire_inv (loadEa_inv h fun _ _ hu => State.inv_setCcr hu _)

/-- An instruction that only sets flags by its operand (CMP, TST, BTST). -/
theorem loadEa_setCcr_inv (ea : Ea) (sz : Size) (ext : Long) (f : Long → State → Ccr) (n : Nat) :
    AnswersInv (retire n s (loadEa ea sz ext (fun e u => u.setCcr (f e u)) s)) :=
  retire_inv (loadEa_inv h fun _ _ hu => State.inv_setCcr hu _)

theorem quickEa_inv (op : Long → Long → Ccr → Long × Ccr) (opA : Long → Long → Long) (sz : Size) (q : BitVec 3) (ea : Ea) :
    AnswersInv (quickEa op opA sz q ea s) := by
  cases ea with
  | an n => exact retire_inv ((State.inv_setAreg s n _).trans h)
  | _ => exact retire_inv (updateEa_inv h)

theorem pairOp_inv (op : Long → Long → Ccr → Long × Ccr) (sz : Size) (form : PairForm) (x y : Reg) :
    AnswersInv (pairOp op sz form x y s) := by
  cases form with
  | dregs => exact retire_inv (State.inv_setCcr h _)
  | preDecs => exact retire_inv ((readEa_inv h _ sz _).bind fun _ _ hu => updateEa_inv hu)

/-- A division traps on divisor 0, and else sets the flags and at most `D[n]` (R252, R253). -/
theorem divDn_inv (signed : Bool) (op : Long → Word → Option (Word × Word)) (n : Reg) (ea : Ea) :
    AnswersInv (divDn signed op n ea s) := by
  refine retire_inv ((readEa_inv h ea .w _).bind fun e u hu => ?_)
  dsimp only
  split
  · exact hu
  · split <;> exact State.inv_setCcr hu _

theorem immToCcr_inv (op : Byte → Byte → Byte) (imm : Byte) : AnswersInv (immToCcr op imm s) :=
  retire_inv (State.inv_writeCcr h _)

theorem immToSr_inv (op : Word → Word → Word) (imm : Word) : AnswersInv (immToSr op imm s) :=
  retire_inv (privileged_inv h (State.inv_writeSr h _))

/-! ## Single instructions -/

theorem execMove_inv (sz : Size) (src dst : Ea) : AnswersInv (execMove sz src dst s) :=
  retire_inv ((readEa_inv h src sz _).bind fun _ _ hu => storeEa_inv hu dst sz _ _ _)

theorem execCmpm_inv (sz : Size) (x y : Reg) : AnswersInv (execCmpm sz x y s) :=
  retire_inv ((readEa_inv h _ sz _).bind fun _ _ h1 => loadEa_inv h1 fun _ _ hu => State.inv_setCcr hu _)

/-- CHK writes the flags in each of its three outcomes (R379). -/
theorem execChk_inv (n : Reg) (ea : Ea) : AnswersInv (execChk n ea s) := by
  refine retire_inv ((readEa_inv h ea .w _).bind fun e u hu => ?_)
  dsimp only
  split
  · exact State.inv_setCcr hu _
  · split <;> exact State.inv_setCcr hu _

theorem execLea_inv (n : Reg) (ea : Ea) : AnswersInv (execLea n ea s) :=
  retire_inv ((addressEa_inv h ea _).bind fun a u hu => (State.inv_setAreg u n a).trans hu)

theorem execPea_inv (ea : Ea) : AnswersInv (execPea ea s) :=
  retire_inv ((addressEa_inv h ea _).bind fun a _ hu => push_inv hu .l a)

theorem execLink_inv (n : Reg) (d : Word) : AnswersInv (execLink n d s) :=
  retire_inv ((memWrite_inv ((State.inv_setSp s _).trans h) _ .l _).bind fun _ u hu =>
    ((State.inv_setSp _ _).trans (State.inv_setAreg u n _)).trans hu)

theorem execUnlk_inv (n : Reg) : AnswersInv (execUnlk n s) :=
  retire_inv ((memRead_inv h _ .l).bind fun _ u hu => ((State.inv_setAreg _ n _).trans (State.inv_setSp u _)).trans hu)

theorem execJmp_inv (ea : Ea) : AnswersInv (execJmp ea s) := conclude_inv ((addressEa_inv h ea _).bind fun _ _ hu => hu)

theorem execJsr_inv (ea : Ea) : AnswersInv (execJsr ea s) :=
  conclude_inv ((addressEa_inv h ea _).bind fun _ _ h1 => (push_inv h1 .l _).bind fun _ _ hu => hu)

theorem execBsr_inv (disp : BranchDisp) : AnswersInv (execBsr disp s) :=
  conclude_inv ((push_inv h .l _).bind fun _ _ hu => hu)

theorem execRts_inv : AnswersInv (execRts s) := conclude_inv ((pop_inv h .l).bind fun _ _ hu => hu)

theorem execRtr_inv : AnswersInv (execRtr s) :=
  conclude_inv ((pop_inv h .w).bind fun _ _ h1 => (pop_inv h1 .l).bind fun _ _ hu => State.inv_writeCcr hu _)

theorem execBcc_inv (cond : Cond) (disp : BranchDisp) : AnswersInv (execBcc cond disp s) := by
  refine conclude_inv ?_
  split <;> exact h

theorem execDbcc_inv (cond : Cond) (n : Reg) (d : Word) : AnswersInv (execDbcc cond n d s) := by
  refine conclude_inv ?_
  split
  · exact h
  · dsimp only
    split <;> exact h

theorem execTrapv_inv : AnswersInv (execTrapv s) := by
  refine retire_inv ?_
  split <;> exact h

theorem execStop_inv (imm : Word) : AnswersInv (execStop imm s) :=
  conclude_inv (privileged_inv h (State.inv_writeSr h imm))

theorem execMoveFromUsp_inv (n : Reg) : AnswersInv (execMoveFromUsp n s) :=
  retire_inv (privileged_inv h ((State.inv_setAreg s n _).trans h))

/-! ## Every instruction and every step -/

/-- Every instruction term answers a next state and keeps the invariant, whether it runs to its end or raises. One case per form,
grouped by the operation the instructions share. -/
theorem exec_inv (i : Instr) : AnswersInv (exec i s) := by
  unfold exec
  cases i with
  | oriToCcr imm | andiToCcr imm | eoriToCcr imm => exact immToCcr_inv h _ imm
  | oriToSr imm | andiToSr imm | eoriToSr imm => exact immToSr_inv h _ imm
  | ori sz imm ea | andi sz imm ea | subi sz imm ea | addi sz imm ea | eori sz imm ea => exact immToEa_inv h _ sz imm ea
  | btstImm num ea | btstDyn n ea => exact loadEa_setCcr_inv h ea _ _ _ _
  | bchgImm num ea | bclrImm num ea | bsetImm num ea => exact bitModify_inv h _ _ _ ea
  | bchgDyn n ea | bclrDyn n ea | bsetDyn n ea => exact bitModify_inv h _ _ _ ea
  | movep dir sz dx ay d => exact execMovep_inv h dir sz dx ay d
  | move sz src dst => exact execMove_inv h sz src dst
  | movea sz n src => exact retire_inv (loadEa_inv h fun _ u hu => (State.inv_setAreg u n _).trans hu)
  | negx sz ea | neg sz ea | not sz ea | nbcd ea => exact unaryEa_inv h _ _ ea
  | clr sz ea => exact retire_inv (storeEa_inv h ea sz _ _ _)
  | moveFromSr ea | scc cond ea => exact retire_inv (writeEa_inv h ea _ _ _)
  | tas ea => exact retire_inv (updateEa_inv h)
  | moveToCcr ea => exact retire_inv (loadEa_inv h fun _ _ hu => State.inv_writeCcr hu _)
  | moveToSr ea => exact retire_inv (privileged_inv h (loadEa_inv h fun _ _ hu => State.inv_writeSr hu _))
  | chk n ea => exact execChk_inv h n ea
  | lea n ea => exact execLea_inv h n ea
  | pea ea => exact execPea_inv h ea
  | jsr ea => exact execJsr_inv h ea
  | jmp ea => exact execJmp_inv h ea
  | bsr disp => exact execBsr_inv h disp
  | rts => exact execRts_inv h
  | rtr => exact execRtr_inv h
  | rte => exact conclude_inv (privileged_inv h (returnFromException_inv h))
  | link n d => exact execLink_inv h n d
  | unlk n => exact execUnlk_inv h n
  | swap n | extW n | extL n | moveq n data => exact retire_inv (State.inv_setCcr h _)
  | movemToMem sz mask ea => exact retire_inv (movemToMemBody_inv h sz.size mask ea)
  | movemToRegs sz mask ea => exact retire_inv (movemToRegsBody_inv h sz.size mask ea)
  | illegal | trap v => exact conclude_inv h
  | moveToUsp n | reset => exact retire_inv (privileged_inv h h)
  | moveFromUsp n => exact execMoveFromUsp_inv h n
  | nop => exact retire_inv h
  | stop imm => exact execStop_inv h imm
  | trapv => exact execTrapv_inv h
  | addq sz q ea | subq sz q ea => exact quickEa_inv h _ _ sz q ea
  | dbcc cond n d => exact execDbcc_inv h cond n d
  | bra disp => exact conclude_inv h
  | bcc cond disp => exact execBcc_inv h cond disp
  | orEaDn sz ea n | subEaDn sz ea n | andEaDn sz ea n | addEaDn sz ea n => exact eaToDn_inv h _ sz ea n
  | orDnEa sz n ea | subDnEa sz n ea | andDnEa sz n ea | addDnEa sz n ea | eor sz n ea => exact dnToEa_inv h _ sz n ea
  | divu n ea | divs n ea => exact divDn_inv h _ _ n ea
  | mulu n ea | muls n ea => exact mulToDn_inv h _ n ea
  | suba sz n ea | adda sz n ea => exact eaToAn_inv h _ sz n ea
  | cmp sz ea n | cmpa sz n ea | cmpi sz imm ea | tst sz ea => exact loadEa_setCcr_inv h ea _ _ _ _
  | cmpm sz x y => exact execCmpm_inv h sz x y
  | abcd form x y | sbcd form x y | addx sz form x y | subx sz form x y => exact pairOp_inv h _ _ form x y
  | exgDD x y => exact retire_inv h
  | exgAA x y => exact retire_inv (((State.inv_setAreg _ y _).trans (State.inv_setAreg s x _)).trans h)
  | exgDA x y => exact retire_inv ((State.inv_setAreg _ y _).trans h)
  | asrReg sz cnt y | aslReg sz cnt y | lsrReg sz cnt y | lslReg sz cnt y => exact shiftDn_inv h _ _ _ sz cnt y
  | roxrReg sz cnt y | roxlReg sz cnt y | rorReg sz cnt y | rolReg sz cnt y => exact shiftDn_inv h _ _ _ sz cnt y
  | asrMem ea | aslMem ea | lsrMem ea | lslMem ea => exact shiftEa_inv h _ _ ea
  | roxrMem ea | roxlMem ea | rorMem ea | rolMem ea => exact shiftEa_inv h _ _ ea

theorem runInstruction_inv : AnswersInv (runInstruction s) := by
  obtain ⟨-, run⟩ | ⟨op, -, run⟩ | ⟨i, -, run⟩ := runInstruction_cases s <;> rw [run]
  · exact ⟨_, rfl, takeException_inv h _⟩
  · exact ⟨_, rfl, enterException_inv h _ _ _⟩
  · exact exec_inv h i

/-- One case per branch of the driver's cycle (R401): reset, halted, interrupt, stopped, instruction. -/
theorem step_inv : AnswersInv (step s) := by
  unfold step driverCycle
  split
  · exact ⟨_, rfl, processReset_inv h⟩
  · split
    · exact ⟨_, rfl, h⟩
    · split
      · exact ⟨_, rfl, acceptInterrupt_inv h _⟩
      · split
        · exact ⟨_, rfl, h⟩
        · exact runInstruction_inv h

end

/-- Settles O7: memory lists nothing, SR is 0x2700, no request is pending (R42). -/
theorem resetMeetsTheInvariant : Obligations.ResetMeetsTheInvariant := by
  unfold Obligations.ResetMeetsTheInvariant
  exact State.inv_iff.mpr ⟨Memory.wf_nil, by decide, rfl⟩

/-- Settles O8: each branch of the cycle, and within it each form of instruction, keeps the invariant. -/
theorem stepKeepsTheInvariant : Obligations.StepKeepsTheInvariant := by
  unfold Obligations.StepKeepsTheInvariant
  exact fun _ h => step_inv h

end Sys2Proof.Machine
end

section
/-! SUPPORT. Memory access byte by byte (spec/20_memory.md R62 to R65): the byte addresses of an access, and what each of them reads
after a store. -/

namespace Sys2Proof.Machine

/-- The address of a byte above another is masked on its own (R62). -/
theorem phys_add_ofNat (a : Long) (i : Nat) : phys (a + BitVec.ofNat 32 i) = (a.toNat + i) % 2 ^ 24 := by
  simp only [phys, Config.memSize, BitVec.toNat_add, BitVec.toNat_ofNat]
  omega

theorem Memory.byteAt_eq_read (m : Memory) (a : Long) (i : Nat) : m.byteAt a i = m.read ((a.toNat + i) % 2 ^ 24) := by
  rw [Memory.byteAt, phys_add_ofNat]

theorem Memory.byteAt_putAt {m : Memory} (h : m.wf = true) (a : Long) {i j : Nat} (hi : i < 4) (hj : j < 4) (b : Byte) :
    (m.putAt a j b).byteAt a i = if i = j then b else m.byteAt a i := by
  rw [Memory.byteAt, Memory.read_putAt h]
  by_cases hij : i = j
  · rw [hij, if_pos rfl, if_pos rfl]
  · rw [if_neg hij, if_neg (phys_add_ne a (by omega) (by omega) hij), Memory.byteAt]

/-- A store puts the bytes of the value in place, the most significant at the lowest address (R63, R65). -/
theorem Memory.byteAt_store {m : Memory} (h : m.wf = true) (a : Long) (sz : Size) (v : Long) {i : Nat} (hi : i < sz.bytes) :
    (m.store a sz v).byteAt a i = v.extractLsb' (8 * (sz.bytes - 1 - i)) 8 := by
  cases sz with
  | b =>
    obtain rfl : i = 0 := by simpa [Size.bytes] using hi
    simp [Memory.store, Memory.byteAt_putAt, h, Size.bytes]
  | w =>
    obtain rfl | rfl : i = 0 ∨ i = 1 := by simp only [Size.bytes] at hi; omega
    all_goals simp [Memory.store, Memory.byteAt_putAt, Memory.wf_putAt, h, Size.bytes]
  | l =>
    have wf0 := Memory.wf_putAt h a 0 (v.extractLsb' 24 8)
    have wf1 := Memory.wf_putAt wf0 a 1 (v.extractLsb' 16 8)
    have wf2 := Memory.wf_putAt wf1 a 2 (v.extractLsb' 8 8)
    obtain rfl | rfl | rfl | rfl : i = 0 ∨ i = 1 ∨ i = 2 ∨ i = 3 := by simp only [Size.bytes] at hi; omega
    all_goals simp [Memory.store, Memory.byteAt_putAt, h, wf0, wf1, wf2, Size.bytes]

theorem trunc_byte (v : Long) : trunc .b v = (v.extractLsb' 0 8).setWidth 32 := by
  refine BitVec.eq_of_toNat_eq ?_
  simp only [toNat_trunc, Size.bits, BitVec.toNat_setWidth, BitVec.extractLsb'_toNat, Nat.shiftRight_zero]
  omega

theorem trunc_long (v : Long) : trunc .l v = v := by
  refine BitVec.eq_of_toNat_eq ?_
  rw [toNat_trunc, Size.bits, Nat.mod_eq_of_lt v.isLt]

theorem append_bytes_word (v : Long) : v.extractLsb' 8 8 ++ v.extractLsb' 0 8 = lowWord v :=
  BitVec.extractLsb'_append_extractLsb'_eq_extractLsb' rfl

theorem append_bytes_long (v : Long) :
    v.extractLsb' 24 8 ++ v.extractLsb' 16 8 ++ v.extractLsb' 8 8 ++ v.extractLsb' 0 8 = v := by
  rw [BitVec.extractLsb'_append_extractLsb'_eq_extractLsb' (by rfl), BitVec.extractLsb'_append_extractLsb'_eq_extractLsb' (by rfl),
    BitVec.extractLsb'_append_extractLsb'_eq_extractLsb' (by rfl)]
  exact BitVec.extractLsb'_eq_self

/-- A word or long at an odd address is misaligned (R66). -/
theorem misaligned_of_odd {a : Long} {sz : Size} (hsz : sz ≠ .b) (h : a.getLsbD 0 = true) : misaligned a sz = true := by
  simp [misaligned, hsz, h]

/-- The cells of an access are the masked addresses of its bytes (R62). -/
theorem mem_cells {a : Long} {n k : Nat} : k ∈ cells a n ↔ ∃ i, i < n ∧ k = phys (a + BitVec.ofNat 32 i) := by
  simp only [cells, List.mem_map, List.mem_range, eq_comm]

/-- A store leaves every byte outside its cells alone. -/
theorem Memory.read_store_outside {m : Memory} {a : Long} {sz : Size} {k : Nat} (h : k ∉ cells a sz.bytes) (v : Long) :
    (m.store a sz v).read k = m.read k :=
  Memory.read_store_other m a sz v fun i hi e => h (mem_cells.mpr ⟨i, hi, e⟩)

/-- Settles O10: each byte of the load is the byte the store put there, and the bytes make up the low bits of the value. -/
theorem loadAfterStoreReturnsTheValue : Obligations.LoadAfterStoreReturnsTheValue := by
  unfold Obligations.LoadAfterStoreReturnsTheValue
  intro m a sz v wf
  have stored {i : Nat} (hi : i < sz.bytes) := Memory.byteAt_store wf a sz v hi
  cases sz with
  | b => rw [trunc_byte, Memory.load, stored (by decide)]; rfl
  | w => rw [trunc_word, ← append_bytes_word, Memory.load, stored (i := 0) (by decide), stored (i := 1) (by decide)]; rfl
  | l =>
    rw [trunc_long, Memory.load, stored (i := 0) (by decide), stored (i := 1) (by decide), stored (i := 2) (by decide),
      stored (i := 3) (by decide)]
    exact append_bytes_long v

/-- Settles O11: an access checks its address (R66), and an aligned read is the bytes at the masked addresses (R62). -/
theorem memReadChecksAlignmentAndReadsBigEndian : Obligations.MemReadChecksAlignmentAndReadsBigEndian := by
  unfold Obligations.MemReadChecksAlignmentAndReadsBigEndian
  intro a s
  refine ⟨?_, fun odd => ?_, fun even => ?_⟩
  · rw [memRead_aligned (misaligned_byte a), Memory.load, Memory.byteAt_eq_read, Nat.add_zero]
  · exact ⟨memRead_misaligned (misaligned_of_odd (by decide) odd) s, memRead_misaligned (misaligned_of_odd (by decide) odd) s⟩
  · simp only [memRead_aligned (misaligned_of_even even _), Memory.load, Memory.byteAt_eq_read, Nat.add_zero, and_self]

/-- Settles O12: an odd word or long raises; an aligned store puts the bytes of the value in its cells and leaves the others. -/
theorem memWriteChecksAlignmentAndWritesBigEndian : Obligations.MemWriteChecksAlignmentAndWritesBigEndian := by
  unfold Obligations.MemWriteChecksAlignmentAndWritesBigEndian
  intro a sz v s wf
  refine ⟨fun wide odd => memWrite_misaligned (misaligned_of_odd wide odd) v s, fun ready => ?_⟩
  have aligned : misaligned a sz = false := by
    rcases ready with rfl | even
    · exact misaligned_byte a
    · exact misaligned_of_even even sz
  refine ⟨s.mem.store a sz v, memWrite_aligned aligned v s, fun i hi => ?_, fun k outside => Memory.read_store_outside outside v⟩
  rw [← Memory.byteAt_eq_read, Memory.byteAt_store wf a sz v hi]

end Sys2Proof.Machine
end

section
/-! SUPPORT. The stack at an odd address: what a push or a pop that faults leaves (spec/20_memory.md R72, R73). -/

namespace Sys2Proof.Machine

/-- The decrement of a long push keeps the parity of SP. -/
theorem misaligned_sp_sub_four_of_odd {s : State} (h : s.sp.getLsbD 0 = true) : misaligned (s.sp - 4) .l = true :=
  misaligned_of_odd (by decide) (by rw [getLsbD_zero_sub _ _ (by decide), h])

/-- A push at an odd SP raises with the decrement made (R72). -/
theorem push_odd {s : State} (h : s.sp.getLsbD 0 = true) (v : Long) :
    push .l v s = .raise .addressError (s.setSp (s.sp - 4)) := by
  simp only [push, stackStep, State.sp_setSp, memWrite_misaligned (misaligned_sp_sub_four_of_odd h)]

/-- A pop of a word or long at an odd SP raises with nothing changed (R73). -/
theorem pop_odd {s : State} (h : s.sp.getLsbD 0 = true) {sz : Size} (hsz : sz ≠ .b) : pop sz s = .raise .addressError s := by
  rw [pop, memRead_misaligned (misaligned_of_odd hsz h), Res.bind_raise]

/-- The entry an address error takes after a push that faulted: PC still holds pc0 (R413, 10_state.md R30). -/
theorem takeException_addressError_setSp (s : State) (v : Long) :
    takeException .addressError (s.setSp v) = raiseVector 3 s.pc (s.setSp v) := by
  rw [takeException, State.pc_setSp]

section
variable {s : State} (h : s.sp.getLsbD 0 = true)
include h

theorem execPea_odd {ea : Ea} (hw : ea.ok .control .l = true) :
    execPea ea s = .next (raiseVector 3 s.pc (s.setSp (s.sp - 4))) := by
  rw [execPea, addressEa_control (kind_of_ok_control hw), Res.bind_ok, push_odd h, retire_raise, takeException_addressError_setSp]

theorem execJsr_odd {ea : Ea} (hw : ea.ok .control .l = true) :
    execJsr ea s = .next (raiseVector 3 s.pc (s.setSp (s.sp - 4))) := by
  rw [execJsr, addressEa_control (kind_of_ok_control hw), Res.bind_ok, push_odd h, Res.bind_raise, conclude_raise,
    takeException_addressError_setSp]

theorem execBsr_odd (disp : BranchDisp) : execBsr disp s = .next (raiseVector 3 s.pc (s.setSp (s.sp - 4))) := by
  rw [execBsr, push_odd h, Res.bind_raise, conclude_raise, takeException_addressError_setSp]

/-- LINK's store is the push of An as it stands after the decrement (R210). -/
theorem execLink_odd (n : Reg) (d : Word) : execLink n d s = .next (raiseVector 3 s.pc (s.setSp (s.sp - 4))) := by
  simp only [execLink, State.sp_setSp, memWrite_misaligned (misaligned_sp_sub_four_of_odd h), Res.bind_raise, retire_raise,
    takeException_addressError_setSp]

theorem execRts_odd : execRts s = .next (raiseVector 3 s.pc s) := by
  rw [execRts, pop_odd h (by decide), Res.bind_raise, conclude_raise, takeException]

theorem execRtr_odd : execRtr s = .next (raiseVector 3 s.pc s) := by
  rw [execRtr, pop_odd h (by decide), Res.bind_raise, conclude_raise, takeException]

end

theorem execUnlk_odd {s : State} {n : Reg} (h : (s.areg n).getLsbD 0 = true) : execUnlk n s = .next (raiseVector 3 s.pc s) := by
  have odd : misaligned (s.areg n) .l = true := misaligned_of_odd (by decide) h
  simp only [execUnlk, memRead_misaligned odd, Res.bind_raise, retire_raise, takeException]

theorem execRte_odd {s : State} (mode : s.supervisor = true) (h : s.ssp.getLsbD 0 = true) :
    execRte s = .next (raiseVector 3 s.pc s) := by
  rw [execRte, privileged_supervisor _ _ mode, returnFromException, memRead_misaligned (misaligned_of_odd (by decide) h),
    Res.bind_raise, conclude_raise, takeException]

/-- Settles O54: the pushes keep the decrement, the pops change nothing. -/
theorem oddStackTakesTheAddressError : Obligations.OddStackTakesTheAddressError := by
  unfold Obligations.OddStackTakesTheAddressError
  intro s ea disp n d
  refine ⟨fun odd => ?_, fun odd => execUnlk_odd odd, fun mode odd => execRte_odd mode odd⟩
  exact ⟨fun hw => execPea_odd odd hw, fun hw => execJsr_odd odd hw, execBsr_odd odd disp, execLink_odd odd n d, execRts_odd odd,
    execRtr_odd odd⟩

end Sys2Proof.Machine
end

section
/-! SUPPORT. The memory frame: the bytes of memory a completed instruction can change (spec/20_memory.md R65, R66, R72;
42_data_movement.md R204, R206). Every operation of the model gets one rule that says which cells it stores to; the obligation follows by going through
the instructions with these rules. -/

namespace Sys2Proof.Machine

/-! ## Memory kept between two states -/

/-- From `s` to `t` no byte of memory outside the cells `ks` changes. -/
def MemKept (ks : List Nat) (s t : State) : Prop := ∀ k, k ∉ ks → t.mem.read k = s.mem.read k

/-- The next state of an outcome keeps the bytes of `s` outside the cells `ks`. -/
def StoresOnlyTo (ks : List Nat) (s : State) (o : Host.Outcome State Fault Refusal) : Prop := ∀ t, o = .next t → MemKept ks s t

theorem MemKept.of_mem_eq {ks : List Nat} {s t : State} (h : t.mem = s.mem) : MemKept ks s t := fun k _ => by rw [h]

theorem MemKept.congr {ks : List Nat} {s u t : State} (h : MemKept ks s u) (e : t.mem = u.mem) : MemKept ks s t :=
  fun k hk => by rw [e, h k hk]

/-- A store reaches only its cells (R65). -/
theorem MemKept.store (s u : State) (a : Long) (sz : Size) (v : Long) :
    MemKept (cells a sz.bytes) s { u with mem := s.mem.store a sz v } := fun _ hk => Memory.read_store_outside hk v

/-- A store through an operand reaches only the operand's cells, none for a register (R157). -/
theorem storeAt_memKept {s u : State} (e : u.mem = s.mem) (ea : Ea) (sz : Size) (ext v : Long) (w : State) :
    MemKept (operandCells ea sz ext w) s (storeAt (eaLoc ea sz ext w) sz v u) := by
  unfold operandCells
  cases eaLoc ea sz ext w with
  | dreg n => exact .of_mem_eq e
  | areg n => exact .of_mem_eq ((State.mem_setAreg u n v).trans e)
  | imm v => exact .of_mem_eq e
  | mem a pending => simp only [storeAt, e]; exact .store s u a sz v

theorem replaced_memKept {s u : State} (e : u.mem = s.mem) (ea : Ea) (sz : Size) (ext v : Long) (f : Ccr) :
    MemKept (operandCells ea sz ext u) s (replaced ea sz ext v f u) :=
  storeAt_memKept (by simp [e]) ea sz ext v u

/-- A long pushed lies in the four bytes below SP (R72). -/
theorem pushed_memKept (v : Long) (s : State) : MemKept (cells (s.sp - 4) 4) s (pushed v s) :=
  .store s (s.setSp (s.sp - 4)) (s.sp - 4) .l v

section
variable {ks : List Nat} {s u : State}

theorem conclude_storesOnlyTo (ht : s.traced = false) (h : MemKept ks s u) : StoresOnlyTo ks s (conclude s (.ok () u)) := by
  intro t e
  rw [conclude_ok ht] at e
  injection e with e
  exact e ▸ h

theorem retire_storesOnlyTo (ht : s.traced = false) (h : MemKept ks s u) (n : Nat) :
    StoresOnlyTo ks s (retire n s (.ok () u)) := conclude_storesOnlyTo ht (h.congr (State.mem_advance u n))

/-- An instruction that leaves memory as it is stores to no cell. -/
theorem conclude_storesNothing (ht : s.traced = false) (h : u.mem = s.mem) : StoresOnlyTo ks s (conclude s (.ok () u)) :=
  conclude_storesOnlyTo ht (.of_mem_eq h)

theorem retire_storesNothing (ht : s.traced = false) (h : u.mem = s.mem) (n : Nat) :
    StoresOnlyTo ks s (retire n s (.ok () u)) := retire_storesOnlyTo ht (.of_mem_eq h) n

end

/-! ## Operand accesses -/

section
variable {s : State} {ea : Ea} {sz : Size} {ext : Long}

/-- An instruction that reads an operand and goes on with `g`. -/
theorem loadEa_storesNothing {ks : List Nat} {g : Long → State → State} (ht : s.traced = false)
    (hc : operandReady ea sz ext s = true) (hg : ∀ e u, (g e u).mem = u.mem) (n : Nat) :
    StoresOnlyTo ks s (retire n s (loadEa ea sz ext g s)) := by
  rw [loadEa_ready g hc]
  exact retire_storesNothing ht ((hg _ _).trans (sideEffect_mem ea sz s)) n

/-- A read-modify-write instruction (R158). -/
theorem updateEa_storesOnlyTo {g : Long → State → Long × Ccr} (ht : s.traced = false) (hi : ea.kind ≠ .imm)
    (hc : operandReady ea sz ext s = true) (n : Nat) :
    StoresOnlyTo (operandCells ea sz ext s) s (retire n s (updateEa ea sz ext g s)) := by
  rw [updateEa_ready g hc hi]
  exact retire_storesOnlyTo ht (replaced_memKept rfl ea sz ext _ _) n

/-- An instruction that stores an operand without reading it and leaves the flags. -/
theorem writeEa_storesOnlyTo {v : Long} (ht : s.traced = false) (hi : ea.kind ≠ .imm) (hc : operandReady ea sz ext s = true)
    (n : Nat) : StoresOnlyTo (operandCells ea sz ext s) s (retire n s (writeEa ea sz ext v s)) := by
  rw [writeEa_ready v hc hi]
  exact retire_storesOnlyTo ht (storeAt_memKept (sideEffect_mem ea sz s) ea sz ext v s) n

end

/-- A bit operation's operand is a byte wherever it has cells (R310). -/
theorem operandCells_bitSize (ea : Ea) (ext : Long) (s : State) : operandCells ea ea.bitSize ext s = operandCells ea .b ext s := by
  cases ea <;> rfl

/-- CHK runs to its end when its operand is ready and the signed word comparisons find neither bound broken (R379). -/
theorem chk_completes_iff {n : Reg} {ea : Ea} {s : State} : (Instr.chk n ea).completes s = true ↔
    operandReady ea .w (s.pc + 2) s = true ∧ (lowWord (s.dreg n)).slt 0 = false ∧
      (lowWord (operandValue ea .w (s.pc + 2) s)).slt (lowWord (s.dreg n)) = false := by
  simp [Instr.completes, signedAt_word, BitVec.slt_eq_decide, and_assoc]

/-! ## The shared forms of the instructions -/

section
variable {s : State} (ht : s.traced = false)
include ht

theorem eaToDn_storesNothing {ks : List Nat} {op : Long → Long → Ccr → Long × Ccr} {sz : Size} {ea : Ea} {n : Reg}
    (hc : operandReady ea sz (s.pc + 2) s = true) : StoresOnlyTo ks s (eaToDn op sz ea n s) :=
  loadEa_storesNothing ht hc (fun _ _ => by rfl) _

theorem mulToDn_storesNothing {ks : List Nat} {op : Word → Word → Long} {ea : Ea} {n : Reg}
    (hc : operandReady ea .w (s.pc + 2) s = true) : StoresOnlyTo ks s (mulToDn op n ea s) :=
  loadEa_storesNothing ht hc (fun _ _ => by rfl) _

theorem eaToAn_storesNothing {ks : List Nat} {op : Long → Long → Long} {sz : WordLong} {ea : Ea} {n : Reg}
    (hc : operandReady ea sz.size (s.pc + 2) s = true) : StoresOnlyTo ks s (eaToAn op sz n ea s) :=
  loadEa_storesNothing ht hc (fun _ _ => State.mem_setAreg _ _ _) _

theorem bitTest_storesNothing {ks : List Nat} {ea : Ea} (n num : Nat) : StoresOnlyTo ks s (bitTest n num ea s) :=
  loadEa_storesNothing ht (operandReady_bitSize ea _ s) (fun _ _ => by rfl) _

theorem bitModify_storesOnlyTo {op : Long → Long → Long} {ea : Ea} (hw : ea.ok .dataAlterable ea.bitSize = true) (n num : Nat) :
    StoresOnlyTo (operandCells ea .b (s.pc + BitVec.ofNat 32 n) s) s (bitModify op n num ea s) := by
  rw [← operandCells_bitSize]
  exact updateEa_storesOnlyTo ht (kind_of_ok_dataAlterable hw).1 (operandReady_bitSize ea _ s) _

theorem immToEa_storesOnlyTo {op : Long → Long → Ccr → Long × Ccr} {sz : Size} {imm : Long} {ea : Ea}
    (hw : (sz.fits imm && ea.ok .dataAlterable sz) = true)
    (hc : operandReady ea sz (s.pc + 2 + BitVec.ofNat 32 (immBytes sz)) s = true) :
    StoresOnlyTo (operandCells ea sz (s.pc + 2 + BitVec.ofNat 32 (immBytes sz)) s) s (immToEa op sz imm ea s) :=
  updateEa_storesOnlyTo ht (kind_of_ok_dataAlterable (Bool.and_elim_right hw)).1 hc _

theorem unaryEa_storesOnlyTo {op : Long → Ccr → Long × Ccr} {sz : Size} {ea : Ea} (hw : ea.ok .dataAlterable sz = true)
    (hc : operandReady ea sz (s.pc + 2) s = true) : StoresOnlyTo (operandCells ea sz (s.pc + 2) s) s (unaryEa op sz ea s) :=
  updateEa_storesOnlyTo ht (kind_of_ok_dataAlterable hw).1 hc _

theorem dnToEa_storesOnlyTo {op : Long → Long → Ccr → Long × Ccr} {sz : Size} {ea : Ea} {n : Reg} (hi : ea.kind ≠ .imm)
    (hc : operandReady ea sz (s.pc + 2) s = true) : StoresOnlyTo (operandCells ea sz (s.pc + 2) s) s (dnToEa op sz n ea s) :=
  updateEa_storesOnlyTo ht hi hc _

theorem shiftEa_storesOnlyTo {step : Size → ShiftState → ShiftState} {keepV : Bool} {ea : Ea}
    (hw : ea.ok .memoryAlterable .w = true) (hc : operandReady ea .w (s.pc + 2) s = true) :
    StoresOnlyTo (operandCells ea .w (s.pc + 2) s) s (shiftEa step keepV ea s) :=
  updateEa_storesOnlyTo ht (kind_of_ok_memoryAlterable hw).1 hc _

theorem shiftDn_storesNothing {ks : List Nat} {step : Size → ShiftState → ShiftState} {roxc keepV : Bool} {sz : Size}
    {cnt : ShiftCount} {y : Reg} : StoresOnlyTo ks s (shiftDn step roxc keepV sz cnt y s) := retire_storesNothing ht (by rfl) 2

/-- The quick forms store nothing where the operand is An (R234). -/
theorem quickEa_storesOnlyTo {op : Long → Long → Ccr → Long × Ccr} {opA : Long → Long → Long} {sz : Size} {q : BitVec 3} {ea : Ea}
    (hw : ea.ok .alterable sz = true) (hc : operandReady ea sz (s.pc + 2) s = true) :
    StoresOnlyTo (operandCells ea sz (s.pc + 2) s) s (quickEa op opA sz q ea s) := by
  have hi := kind_of_ok_alterable hw
  cases ea with
  | an n => exact retire_storesNothing ht (State.mem_setAreg s n _) 2
  | _ => exact updateEa_storesOnlyTo ht hi hc _

/-- `Dy,Dx` stores nothing. -/
theorem pairOp_dregs_storesNothing {ks : List Nat} {op : Long → Long → Ccr → Long × Ccr} {sz : Size} {x y : Reg} :
    StoresOnlyTo ks s (pairOp op sz .dregs x y s) := retire_storesNothing ht (by rfl) 2

/-- `-(Ay),-(Ax)` stores to the destination, resolved after the source's decrement (R235). -/
theorem pairOp_preDecs_storesOnlyTo {op : Long → Long → Ccr → Long × Ccr} {sz : Size} {x y : Reg}
    (hc : pairReady sz (.preDec y) (.preDec x) s = true) :
    StoresOnlyTo (operandCells (.preDec x) sz (s.pc + 2) (sideEffect (.preDec y) sz s)) s (pairOp op sz .preDecs x y s) := by
  simp only [pairReady, Bool.and_eq_true] at hc
  obtain ⟨hsrc, hdst⟩ := hc
  simp only [pairOp, readEa_ready hsrc, Res.bind_ok, updateEa_ready _ hdst (by simp [Ea.kind] : (Ea.preDec x).kind ≠ .imm)]
  exact retire_storesOnlyTo ht (replaced_memKept (sideEffect_mem _ sz s) (.preDec x) sz (s.pc + 2) _ _) 2

theorem immToSr_storesNothing {ks : List Nat} {op : Word → Word → Word} {imm : Word} (hc : s.supervisor = true) :
    StoresOnlyTo ks s (immToSr op imm s) := by
  rw [immToSr, privileged_supervisor _ _ hc]
  exact retire_storesNothing ht (by rfl) 4

theorem divDn_storesNothing {ks : List Nat} {signed : Bool} {op : Long → Word → Option (Word × Word)} {n : Reg} {ea : Ea}
    (hc : (operandReady ea .w (s.pc + 2) s && operandValue ea .w (s.pc + 2) s != 0) = true) :
    StoresOnlyTo ks s (divDn signed op n ea s) := by
  simp only [Bool.and_eq_true, bne_iff_ne, ne_eq] at hc
  obtain ⟨ready, nonzero⟩ := hc
  have divisor : lowWord (operandValue ea .w (s.pc + 2) s) ≠ 0 := fun h => nonzero (by rw [operandValue_word, h]; rfl)
  simp only [divDn, readEa_ready ready, Res.bind_ok, if_neg divisor]
  split <;> exact retire_storesNothing ht (by simp) _

end

/-! ## MOVEM and MOVEP -/

/-- A block of cells splits at any length. -/
theorem cells_add (a : Long) (m n : Nat) : cells a (m + n) = cells a m ++ cells (a + BitVec.ofNat 32 m) n := by
  simp only [cells, List.range_add, List.map_append, List.map_map, Function.comp_def, BitVec.ofNat_add, BitVec.add_assoc]

/-- MOVEM's ascending stores reach only the block from the first address up (R204). -/
theorem movemStoreUp_memKept {sz : Size} {ks : List (Fin 16)} {a b : Long} {s t : State}
    (h : movemStoreUp sz ks a s = .ok b t) : MemKept (cells a (sz.bytes * ks.length)) s t := by
  induction ks generalizing a s with
  | nil => cases h; exact .of_mem_eq rfl
  | cons k ks ih =>
    intro c outside
    rw [List.length_cons, Nat.mul_succ, Nat.add_comm, cells_add, List.mem_append, not_or] at outside
    obtain ⟨first, rest⟩ := outside
    cases aligned : misaligned a sz
    · rw [movemStoreUp, memWrite_aligned aligned, Res.bind_ok] at h
      exact (ih h c rest).trans (Memory.read_store_outside first _)
    · rw [movemStoreUp_odd aligned] at h
      cases h

/-- MOVEM's descending stores reach only the block that ends at the base (R204). -/
theorem movemStoreDown_memKept {sz : Size} {ks : List (Fin 16)} {a b : Long} {s t : State}
    (h : movemStoreDown sz ks a s = .ok b t) :
    MemKept (cells (a - BitVec.ofNat 32 (sz.bytes * ks.length)) (sz.bytes * ks.length)) s t := by
  induction ks generalizing a s with
  | nil => cases h; exact .of_mem_eq rfl
  | cons k ks ih =>
    intro c outside
    have start : a - BitVec.ofNat 32 (sz.bytes * ks.length + sz.bytes) =
        a - BitVec.ofNat 32 sz.bytes - BitVec.ofNat 32 (sz.bytes * ks.length) := by
      rw [BitVec.ofNat_add, add_comm, sub_add_eq_sub_sub]
    rw [List.length_cons, Nat.mul_succ, cells_add, start, BitVec.sub_add_cancel, List.mem_append, not_or] at outside
    obtain ⟨rest, first⟩ := outside
    cases aligned : misaligned a sz
    · rw [movemStoreDown, memWrite_aligned (by rw [misaligned_sub_bytes, aligned]), Res.bind_ok] at h
      exact (ih h c rest).trans (Memory.read_store_outside first _)
    · rw [movemStoreDown_odd aligned] at h
      cases h

/-- MOVEM's loads leave memory as it is (R205). -/
theorem movemLoad_mem {sz : Size} {ks : List (Fin 16)} {a b : Long} {s t : State}
    (h : movemLoad sz ks a s = .ok b t) : t.mem = s.mem := by
  induction ks generalizing a s with
  | nil => cases h; rfl
  | cons k ks ih =>
    cases aligned : misaligned a sz
    · rw [movemLoad, memRead_aligned aligned, Res.bind_ok] at h
      exact (ih h).trans (State.mem_setMovemReg s k _)
    · rw [movemLoad_odd aligned] at h
      cases h

/-- MOVEP's stores reach only every other byte from the first address (R206). -/
theorem movepPut_read_other (m : Memory) (a : Long) (bs : List Byte) {k : Nat}
    (h : ∀ i, i < bs.length → k ≠ phys (a + BitVec.ofNat 32 (2 * i))) : (movepPut m a bs).read k = m.read k := by
  induction bs generalizing m a with
  | nil => rfl
  | cons b bs ih =>
    have rest : ∀ i, i < bs.length → k ≠ phys (a + 2 + BitVec.ofNat 32 (2 * i)) := fun i hi => by
      have := h (i + 1) (Nat.succ_lt_succ hi)
      rwa [Nat.mul_succ, Nat.add_comm, BitVec.ofNat_add, ← BitVec.add_assoc] at this
    rw [movepPut, ih _ _ rest, Memory.putAt, Memory.read_write_other _ _ (h 0 (Nat.succ_pos _))]

theorem length_movepBytes (sz : WordLong) (v : Long) : (movepBytes sz v).length = sz.size.bytes := by cases sz <;> rfl

section
variable {s : State} (ht : s.traced = false)
include ht

theorem execMovemToMem_storesOnlyTo {sz : WordLong} {mask : Word} {ea : Ea} (hw : ea.ok .controlAlterablePreDec sz.size = true)
    (hc : movemReady sz.size mask (movemBase ea s) = true) :
    StoresOnlyTo ((Instr.movemToMem sz mask ea).storeCells s) s (execMovemToMem sz mask ea s) := by
  have aligned := maskList_nil_or_aligned hc
  rcases ok_controlAlterablePreDec_cases hw with control | ⟨n, rfl⟩
  · have block : (Instr.movemToMem sz mask ea).storeCells s =
        cells (operandAddress ea (s.pc + 4) s) (sz.size.bytes * (maskList mask).length) := by
      cases ea <;> simp_all [Ea.kind, EaKind.isControl, Instr.storeCells, maskCount]
    rw [movemBase_control control] at aligned
    obtain ⟨b, m, stored⟩ := movemStoreUp_ready aligned s
    rw [block, execMovemToMem, movemToMemBody_control control, stored]
    exact retire_storesOnlyTo ht (movemStoreUp_memKept stored) _
  · obtain ⟨b, m, stored⟩ := movemStoreDown_ready aligned s
    rw [show movemBase (.preDec n) s = s.areg n from rfl] at stored
    simp only [execMovemToMem, movemToMemBody, stored, Res.bind_ok]
    exact retire_storesOnlyTo ht ((movemStoreDown_memKept stored).congr (State.mem_setAreg _ n b)) _

theorem execMovemToRegs_storesNothing {ks : List Nat} {sz : WordLong} {mask : Word} {ea : Ea}
    (hw : ea.ok .controlPostInc sz.size = true) (hc : movemReady sz.size mask (movemBase ea s) = true) :
    StoresOnlyTo ks s (execMovemToRegs sz mask ea s) := by
  obtain ⟨b, t, loaded, -, -⟩ := movemLoad_ready (dd := fun _ => true) (ad := fun _ => true) (fun _ _ _ _ => rfl)
    (fun _ _ _ _ => rfl) (maskList_nil_or_aligned hc) (RegsKept.refl (s := s)) rfl
  rcases ok_controlPostInc_cases hw with control | ⟨n, rfl⟩
  · rw [movemBase_control control] at loaded
    rw [execMovemToRegs, movemToRegsBody_control control, loaded]
    exact retire_storesNothing ht (movemLoad_mem loaded) _
  · rw [show movemBase (.postInc n) s = s.areg n from rfl] at loaded
    simp only [execMovemToRegs, movemToRegsBody, loaded, Res.bind_ok]
    exact retire_storesNothing ht ((State.mem_setAreg t n b).trans (movemLoad_mem loaded)) _

theorem execMovep_storesOnlyTo {dir : MovepDir} {sz : WordLong} {dx ay : Reg} {d : Word} :
    StoresOnlyTo ((Instr.movep dir sz dx ay d).storeCells s) s (execMovep dir sz dx ay d s) := by
  cases dir with
  | memToReg => exact retire_storesNothing ht (by rfl) 4
  | regToMem =>
    refine retire_storesOnlyTo ht (fun k outside => movepPut_read_other _ _ _ fun i hi e => outside ?_) 4
    rw [length_movepBytes] at hi
    exact List.mem_map.mpr ⟨i, List.mem_range.mpr hi, e.symm⟩

/-! ## Single instructions: moves, stack and program control -/

/-- MOVE stores to its destination, resolved after the source's side effect (R201). -/
theorem execMove_storesOnlyTo {sz : Size} {src dst : Ea} (hw : (Instr.move sz src dst).wellFormed = true)
    (hc : (Instr.move sz src dst).completes s = true) :
    StoresOnlyTo ((Instr.move sz src dst).storeCells s) s (execMove sz src dst s) := by
  have hi := (kind_of_ok_dataAlterable (Bool.and_elim_right hw)).1
  simp only [Instr.completes, Bool.and_eq_true] at hc
  obtain ⟨srcReady, dstReady⟩ := hc
  rw [execMove, readEa_ready srcReady, Res.bind_ok, storeEa_ready _ _ dstReady hi]
  exact retire_storesOnlyTo ht (replaced_memKept (sideEffect_mem src sz s) dst sz _ _ _) _

theorem execClr_storesOnlyTo {sz : Size} {ea : Ea} (hw : ea.ok .dataAlterable sz = true)
    (hc : operandReady ea sz (s.pc + 2) s = true) : StoresOnlyTo (operandCells ea sz (s.pc + 2) s) s (execClr sz ea s) := by
  rw [execClr, storeEa_ready _ _ hc (kind_of_ok_dataAlterable hw).1]
  exact retire_storesOnlyTo ht (replaced_memKept rfl ea sz _ _ _) _

theorem execCmpm_storesNothing {ks : List Nat} {sz : Size} {x y : Reg} (hc : pairReady sz (.postInc y) (.postInc x) s = true) :
    StoresOnlyTo ks s (execCmpm sz x y s) := by
  simp only [pairReady, Bool.and_eq_true] at hc
  obtain ⟨hsrc, hdst⟩ := hc
  rw [execCmpm, readEa_ready hsrc, Res.bind_ok, loadEa_ready _ hdst]
  exact retire_storesNothing ht (by simp) 2

theorem execChk_storesNothing {ks : List Nat} {n : Reg} {ea : Ea} (hc : (Instr.chk n ea).completes s = true) :
    StoresOnlyTo ks s (execChk n ea s) := by
  obtain ⟨ready, notNegative, notAbove⟩ := chk_completes_iff.mp hc
  simp only [execChk, readEa_ready ready, Res.bind_ok, sideEffect_dreg, notNegative, notAbove, Bool.false_eq_true, if_false]
  exact retire_storesNothing ht (by simp) _

theorem execMoveToSr_storesNothing {ks : List Nat} {ea : Ea} (hc : (Instr.moveToSr ea).completes s = true) :
    StoresOnlyTo ks s (execMoveToSr ea s) := by
  simp only [Instr.completes, Bool.and_eq_true] at hc
  obtain ⟨supervisor, ready⟩ := hc
  rw [execMoveToSr, privileged_supervisor _ _ supervisor]
  exact loadEa_storesNothing ht ready (fun _ _ => by rfl) _

theorem execLea_storesNothing {ks : List Nat} {n : Reg} {ea : Ea} (hw : ea.ok .control .l = true) :
    StoresOnlyTo ks s (execLea n ea s) := by
  rw [execLea, addressEa_control (kind_of_ok_control hw), Res.bind_ok]
  exact retire_storesNothing ht (State.mem_setAreg s n _) _

theorem execPea_storesOnlyTo {ea : Ea} (hw : ea.ok .control .l = true) (hc : s.spEven = true) :
    StoresOnlyTo (cells (s.sp - 4) 4) s (execPea ea s) := by
  rw [execPea, addressEa_control (kind_of_ok_control hw), Res.bind_ok, push_spEven hc]
  exact retire_storesOnlyTo ht (pushed_memKept _ s) _

theorem execJsr_storesOnlyTo {ea : Ea} (hw : ea.ok .control .l = true) (hc : s.spEven = true) :
    StoresOnlyTo (cells (s.sp - 4) 4) s (execJsr ea s) := by
  rw [execJsr, addressEa_control (kind_of_ok_control hw), Res.bind_ok, push_spEven hc]
  exact conclude_storesOnlyTo ht ((pushed_memKept _ s).congr (State.mem_jumpTo _ _))

theorem execBsr_storesOnlyTo {disp : BranchDisp} (hc : s.spEven = true) :
    StoresOnlyTo (cells (s.sp - 4) 4) s (execBsr disp s) := by
  rw [execBsr, push_spEven hc]
  exact conclude_storesOnlyTo ht ((pushed_memKept _ s).congr (State.mem_jumpTo _ _))

/-- LINK stores only An's slot below SP (R210). -/
theorem execLink_storesOnlyTo {n : Reg} {d : Word} (hc : s.spEven = true) :
    StoresOnlyTo (cells (s.sp - 4) 4) s (execLink n d s) := by
  simp only [execLink, State.sp_setSp, memWrite_aligned (misaligned_sp_sub_four hc), Res.bind_ok, State.mem_setSp]
  exact retire_storesOnlyTo ht ((pushed_memKept ((s.setSp (s.sp - 4)).areg n) s).congr (by simp [pushed])) 4

theorem execUnlk_storesNothing {ks : List Nat} {n : Reg} (hc : (!(s.areg n).getLsbD 0) = true) :
    StoresOnlyTo ks s (execUnlk n s) := by
  simp only [execUnlk, memRead_aligned (misaligned_of_even (by simpa using hc) .l), Res.bind_ok]
  exact retire_storesNothing ht (by simp) 2

theorem execJmp_storesNothing {ks : List Nat} {ea : Ea} (hw : ea.ok .control .l = true) : StoresOnlyTo ks s (execJmp ea s) := by
  rw [execJmp, addressEa_control (kind_of_ok_control hw), Res.bind_ok]
  exact conclude_storesNothing ht (State.mem_jumpTo s _)

theorem execRts_storesNothing {ks : List Nat} (hc : s.spEven = true) : StoresOnlyTo ks s (execRts s) := by
  rw [execRts, pop_spEven hc]
  exact conclude_storesNothing ht (by simp)

theorem execRtr_storesNothing {ks : List Nat} (hc : s.spEven = true) : StoresOnlyTo ks s (execRtr s) := by
  rw [execRtr, pop_spEven hc, Res.bind_ok, stackStep, pop_spEven (spEven_setSp_add_two hc), Res.bind_ok]
  exact conclude_storesNothing ht (by simp)

theorem execRte_storesNothing {ks : List Nat} (hc : (s.supervisor && !s.ssp.getLsbD 0) = true) :
    StoresOnlyTo ks s (execRte s) := by
  simp only [Bool.and_eq_true, Bool.not_eq_true'] at hc
  obtain ⟨supervisor, even⟩ := hc
  have even2 : misaligned (s.ssp + 2) .l = false := misaligned_of_even (by rw [getLsbD_zero_add _ _ (by decide), even]) .l
  rw [execRte, privileged_supervisor _ _ supervisor, returnFromException, memRead_aligned (misaligned_of_even even .w),
    Res.bind_ok, memRead_aligned even2, Res.bind_ok]
  exact conclude_storesNothing ht (by rfl)

/-- Whichever way DBcc goes, memory stays (R335). -/
theorem execDbcc_storesNothing {ks : List Nat} {cond : Cond} {n : Reg} {d : Word} : StoresOnlyTo ks s (execDbcc cond n d s) := by
  refine conclude_storesNothing ht ?_
  split
  · rfl
  · dsimp only
    split <;> rfl

theorem execBcc_storesNothing {ks : List Nat} {cond : Cond} {disp : BranchDisp} : StoresOnlyTo ks s (execBcc cond disp s) := by
  refine conclude_storesNothing ht ?_
  split <;> rfl

theorem execStop_storesNothing {ks : List Nat} {imm : Word} (hc : s.supervisor = true) : StoresOnlyTo ks s (execStop imm s) := by
  rw [execStop, privileged_supervisor _ _ hc]
  exact conclude_storesNothing ht (by rfl)

theorem execTrapv_storesNothing {ks : List Nat} (hc : (!s.ccr.v) = true) : StoresOnlyTo ks s (execTrapv s) := by
  rw [execTrapv, if_neg (by simpa using hc)]
  exact retire_storesNothing ht rfl 2

theorem execMoveToUsp_storesNothing {ks : List Nat} {n : Reg} (hc : s.supervisor = true) :
    StoresOnlyTo ks s (execMoveToUsp n s) := by
  rw [execMoveToUsp, privileged_supervisor _ _ hc]
  exact retire_storesNothing ht (by rfl) 2

theorem execMoveFromUsp_storesNothing {ks : List Nat} {n : Reg} (hc : s.supervisor = true) :
    StoresOnlyTo ks s (execMoveFromUsp n s) := by
  rw [execMoveFromUsp, privileged_supervisor _ _ hc]
  exact retire_storesNothing ht (State.mem_setAreg s n _) 2

theorem execReset_storesNothing {ks : List Nat} (hc : s.supervisor = true) : StoresOnlyTo ks s (execReset s) := by
  rw [execReset, privileged_supervisor _ _ hc]
  exact retire_storesNothing ht rfl 2

end

/-! ## Every instruction -/

/-- A well-formed instruction that runs to its end stores only to its cells. One case per form, grouped by the operation the
instructions share. -/
theorem exec_storesOnlyTo {i : Instr} {s : State} (hw : i.wellFormed = true) (ht : s.traced = false) (hc : i.completes s = true) :
    StoresOnlyTo (i.storeCells s) s (exec i s) := by
  unfold exec
  cases i with
  | oriToCcr imm | andiToCcr imm | eoriToCcr imm => exact retire_storesNothing ht (by rfl) 4
  | oriToSr imm | andiToSr imm | eoriToSr imm => exact immToSr_storesNothing ht hc
  | ori sz imm ea | andi sz imm ea | subi sz imm ea | addi sz imm ea | eori sz imm ea => exact immToEa_storesOnlyTo ht hw hc
  | btstImm num ea | btstDyn n ea => exact bitTest_storesNothing ht _ _
  | bchgImm num ea | bclrImm num ea | bsetImm num ea => exact bitModify_storesOnlyTo ht hw 4 _
  | bchgDyn n ea | bclrDyn n ea | bsetDyn n ea => exact bitModify_storesOnlyTo ht hw 2 _
  | movep dir sz dx ay d => exact execMovep_storesOnlyTo ht
  | move sz src dst => exact execMove_storesOnlyTo ht hw hc
  | movea sz n src => exact loadEa_storesNothing ht hc (fun _ _ => State.mem_setAreg _ _ _) _
  | negx sz ea | neg sz ea | not sz ea => exact unaryEa_storesOnlyTo ht hw hc
  | nbcd ea => exact unaryEa_storesOnlyTo ht hw (operandReady_byte ea _ s)
  | clr sz ea => exact execClr_storesOnlyTo ht hw hc
  | moveFromSr ea => exact writeEa_storesOnlyTo ht (kind_of_ok_dataAlterable hw).1 hc _
  | scc cond ea => exact writeEa_storesOnlyTo ht (kind_of_ok_dataAlterable hw).1 (operandReady_byte ea _ s) _
  | tas ea => exact updateEa_storesOnlyTo ht (kind_of_ok_dataAlterable hw).1 (operandReady_byte ea _ s) _
  | moveToCcr ea => exact loadEa_storesNothing ht hc (fun _ _ => by rfl) _
  | moveToSr ea => exact execMoveToSr_storesNothing ht hc
  | chk n ea => exact execChk_storesNothing ht hc
  | lea n ea => exact execLea_storesNothing ht hw
  | pea ea => exact execPea_storesOnlyTo ht hw hc
  | jsr ea => exact execJsr_storesOnlyTo ht hw hc
  | jmp ea => exact execJmp_storesNothing ht hw
  | bsr disp => exact execBsr_storesOnlyTo ht hc
  | rts => exact execRts_storesNothing ht hc
  | rtr => exact execRtr_storesNothing ht hc
  | rte => exact execRte_storesNothing ht hc
  | link n d => exact execLink_storesOnlyTo ht hc
  | unlk n => exact execUnlk_storesNothing ht hc
  | swap n | extW n | extL n | moveq n data => exact retire_storesNothing ht (by rfl) 2
  | movemToMem sz mask ea => exact execMovemToMem_storesOnlyTo ht hw hc
  | movemToRegs sz mask ea => exact execMovemToRegs_storesNothing ht hw hc
  | illegal | trap v => exact absurd hc (by simp [Instr.completes])
  | moveToUsp n => exact execMoveToUsp_storesNothing ht hc
  | moveFromUsp n => exact execMoveFromUsp_storesNothing ht hc
  | reset => exact execReset_storesNothing ht hc
  | nop => exact retire_storesNothing ht rfl 2
  | stop imm => exact execStop_storesNothing ht hc
  | trapv => exact execTrapv_storesNothing ht hc
  | addq sz q ea | subq sz q ea => exact quickEa_storesOnlyTo ht hw hc
  | dbcc cond n d => exact execDbcc_storesNothing ht
  | bra disp => exact conclude_storesNothing ht (by rfl)
  | bcc cond disp => exact execBcc_storesNothing ht
  | orEaDn sz ea n | subEaDn sz ea n | andEaDn sz ea n | addEaDn sz ea n => exact eaToDn_storesNothing ht hc
  | orDnEa sz n ea | subDnEa sz n ea | andDnEa sz n ea | addDnEa sz n ea =>
    exact dnToEa_storesOnlyTo ht (kind_of_ok_memoryAlterable hw).1 hc
  | eor sz n ea => exact dnToEa_storesOnlyTo ht (kind_of_ok_dataAlterable hw).1 hc
  | divu n ea | divs n ea => exact divDn_storesNothing ht hc
  | mulu n ea | muls n ea => exact mulToDn_storesNothing ht hc
  | suba sz n ea | adda sz n ea => exact eaToAn_storesNothing ht hc
  | cmp sz ea n | cmpa sz n ea | cmpi sz imm ea | tst sz ea => exact loadEa_storesNothing ht hc (fun _ _ => by rfl) _
  | cmpm sz x y => exact execCmpm_storesNothing ht hc
  | abcd form x y | sbcd form x y =>
    cases form with
    | dregs => exact pairOp_dregs_storesNothing ht
    | preDecs => exact pairOp_preDecs_storesOnlyTo ht (by simp only [pairReady, operandReady_byte, Bool.and_self])
  | addx sz form x y | subx sz form x y =>
    cases form with
    | dregs => exact pairOp_dregs_storesNothing ht
    | preDecs => exact pairOp_preDecs_storesOnlyTo ht hc
  | exgDD x y => exact retire_storesNothing ht (by rfl) 2
  | exgAA x y | exgDA x y => exact retire_storesNothing ht (by simp) 2
  | asrReg sz cnt y | aslReg sz cnt y | lsrReg sz cnt y | lslReg sz cnt y => exact shiftDn_storesNothing ht
  | roxrReg sz cnt y | roxlReg sz cnt y | rorReg sz cnt y | rolReg sz cnt y => exact shiftDn_storesNothing ht
  | asrMem ea | aslMem ea | lsrMem ea | lslMem ea => exact shiftEa_storesOnlyTo ht hw hc
  | roxrMem ea | roxlMem ea | rorMem ea | rolMem ea => exact shiftEa_storesOnlyTo ht hw hc

/-- Settles O45: the memory frame of every form, read at one byte. -/
theorem instructionsStoreOnlyToTheirCells : Obligations.InstructionsStoreOnlyToTheirCells := by
  unfold Obligations.InstructionsStoreOnlyToTheirCells
  exact fun i s t hw ht hc h => exec_storesOnlyTo hw ht hc t h

end Sys2Proof.Machine
end

section
/-! SUPPORT. The fields of an opcode word, read in each view the formats use (spec/30_encoding.md R106 to R110). -/

namespace Sys2Proof

open Sys2Proof.Machine

/-! ## Values of narrow fields -/

theorem bitVec1_cases (b : BitVec 1) : b = 0#1 ∨ b = 1#1 := by decide +revert

theorem bitVec2_cases (b : BitVec 2) : b = 0 ∨ b = 1 ∨ b = 2 ∨ b = 3 := by decide +revert

theorem bitVec3_cases (b : BitVec 3) : b = 0 ∨ b = 1 ∨ b = 2 ∨ b = 3 ∨ b = 4 ∨ b = 5 ∨ b = 6 ∨ b = 7 := by decide +revert

/-- The standard size field holds a size, or the value that selects another row (R107). -/
theorem sizeField_cases (s : BitVec 2) : (∃ sz, s = sizeBits sz) ∨ s = 3 := by
  obtain rfl | rfl | rfl | rfl := bitVec2_cases s
  exacts [.inl ⟨.b, rfl⟩, .inl ⟨.w, rfl⟩, .inl ⟨.l, rfl⟩, .inr rfl]

@[simp] theorem sizeOf2_three : sizeOf2 3#2 = none := rfl

theorem condBits_condOf (b : BitVec 4) : condBits (condOf b) = b := by decide +revert

/-! ## Joining adjacent fields -/

theorem extractLsb'_extractLsb' {n : Nat} (x : BitVec n) (s l : Nat) {t m : Nat} (h : t + m ≤ l) :
    (x.extractLsb' s l).extractLsb' t m = x.extractLsb' (s + t) m := by
  ext k hk
  have : t + k < l := by omega
  simp [this, Nat.add_assoc]

@[simp] theorem joinOp_splitOp (w : Word) : joinOp (splitOp w) = w := by
  simp only [joinOp, splitOp]
  rw [BitVec.extractLsb'_append_extractLsb'_eq_extractLsb' (by rfl), BitVec.extractLsb'_append_extractLsb'_eq_extractLsb' (by rfl),
    BitVec.extractLsb'_append_extractLsb'_eq_extractLsb' (by rfl), BitVec.extractLsb'_append_extractLsb'_eq_extractLsb' (by rfl)]
  exact BitVec.extractLsb'_eq_self

theorem splitOp_cond (w : Word) : (splitOp w).cond = w.extractLsb' 8 4 := by
  simp only [splitOp, OpFields.cond]
  rw [extractLsb'_extractLsb' _ _ _ (by decide), BitVec.extractLsb'_append_extractLsb'_eq_extractLsb' (by rfl)]

theorem splitOp_byte (w : Word) : (splitOp w).byte = w.extractLsb' 0 8 := by
  simp only [splitOp, OpFields.byte, OpFields.low2]
  rw [extractLsb'_extractLsb' _ _ _ (by decide), BitVec.extractLsb'_append_extractLsb'_eq_extractLsb' (by rfl),
    BitVec.extractLsb'_append_extractLsb'_eq_extractLsb' (by rfl)]

/-- The view 15:12, 11:8, 7:0 names the same word as the five fields (R106). -/
theorem byteOp_eq_joinOp (f : OpFields) : byteOp f.line f.cond f.byte = joinOp f := by
  suffices h : ∀ w, byteOp (splitOp w).line (splitOp w).cond (splitOp w).byte = w by simpa using h (joinOp f)
  intro w
  rw [splitOp_cond, splitOp_byte, byteOp, splitOp, BitVec.extractLsb'_append_extractLsb'_eq_extractLsb' (by rfl),
    BitVec.extractLsb'_append_extractLsb'_eq_extractLsb' (by rfl)]
  exact BitVec.extractLsb'_eq_self

/-! ## The opmode field -/

@[simp] theorem opmBits_low (b : BitVec 1) (s : BitVec 2) : (opmBits b s).extractLsb' 0 2 = s := BitVec.extractLsb'_append_eq_right

@[simp] theorem opmBits_high (b : BitVec 1) (s : BitVec 2) : (opmBits b s).extractLsb' 2 1 = b := BitVec.extractLsb'_append_eq_left

@[simp] theorem opmBits_bit2 (b : BitVec 1) (s : BitVec 2) : (opmBits b s)[2] = (b == 1) := by decide +revert

/-- Three bits are a bit and a two-bit field (R109). -/
theorem exists_eq_opmBits (o : BitVec 3) : ∃ b s, o = opmBits b s :=
  ⟨o.extractLsb' 2 1, o.extractLsb' 0 2, by decide +revert⟩

section
variable (l : BitVec 4) (rx o m r : BitVec 3)

@[simp] theorem OpFields.low2_mk : (⟨l, rx, o, m, r⟩ : OpFields).low2 = o.extractLsb' 0 2 := rfl

@[simp] theorem OpFields.bit8_mk : (⟨l, rx, o, m, r⟩ : OpFields).bit8 = o.getLsbD 2 := rfl

@[simp] theorem OpFields.bit7_mk : (⟨l, rx, o, m, r⟩ : OpFields).bit7 = o.getLsbD 1 := rfl

@[simp] theorem OpFields.bit6_mk : (⟨l, rx, o, m, r⟩ : OpFields).bit6 = o.getLsbD 0 := rfl

@[simp] theorem OpFields.cond_mk : (⟨l, rx, o, m, r⟩ : OpFields).cond = rx ++ o.extractLsb' 2 1 := rfl

@[simp] theorem OpFields.regReg_mk : (⟨l, rx, o, m, r⟩ : OpFields).regReg = (m.extractLsb' 1 2 == 0#2) := rfl

@[simp] theorem OpFields.form_mk : (⟨l, rx, o, m, r⟩ : OpFields).form = if m[0] then .preDecs else .dregs := rfl

end

/-! ## The register-pair form -/

@[simp] theorem formBits_high (form : PairForm) : (formBits form).extractLsb' 1 2 = 0#2 := by cases form <;> rfl

@[simp] theorem formBits_low (form : PairForm) : (if (formBits form)[0] then PairForm.preDecs else .dregs) = form := by
  cases form <;> rfl

theorem mode_eq_formBits {m : BitVec 3} (h : m.extractLsb' 1 2 = 0#2) : ∃ form, m = formBits form := by
  have : m = 0 ∨ m = 1 := by decide +revert
  exact this.elim (fun h => ⟨.dregs, h⟩) fun h => ⟨.preDecs, h⟩

/-! ## A four-bit field of three bits and one -/

@[simp] theorem nibble_high (a : BitVec 3) (b : BitVec 1) : (a ++ b : BitVec 4).extractLsb' 1 3 = a :=
  BitVec.extractLsb'_append_eq_left

@[simp] theorem nibble_low (a : BitVec 3) (b : BitVec 1) : (a ++ b : BitVec 4).extractLsb' 0 1 = b :=
  BitVec.extractLsb'_append_eq_right

@[simp] theorem condOf_halves (c : Cond) : condOf (condHi c ++ condLo c) = c := by cases c <;> rfl

theorem condHi_condOf (rx : BitVec 3) (b : BitVec 1) : condHi (condOf (rx ++ b)) = rx := by
  rw [condHi, condBits_condOf, nibble_high]

theorem condLo_condOf (rx : BitVec 3) (b : BitVec 1) : condLo (condOf (rx ++ b)) = b := by
  rw [condLo, condBits_condOf, nibble_low]

/-! ## The fields of a branch or MOVEQ word -/

/-- The fields of the word `byteOp l c b`. -/
def byteFields (l c : BitVec 4) (b : Byte) : OpFields :=
  ⟨l, c.extractLsb' 1 3, opmBits (c.extractLsb' 0 1) (b.extractLsb' 6 2), b.extractLsb' 3 3, b.extractLsb' 0 3⟩

@[simp] theorem byteFields_rx (l c : BitVec 4) (b : Byte) : (byteFields l c b).rx = c.extractLsb' 1 3 := rfl

@[simp] theorem byteFields_bit8 (l c : BitVec 4) (b : Byte) : (byteFields l c b).bit8 = (c.extractLsb' 0 1 == 1) := by
  simp [byteFields]

@[simp] theorem byteFields_cond (l c : BitVec 4) (b : Byte) : (byteFields l c b).cond = c := by
  simp only [byteFields, OpFields.cond_mk, opmBits_high]
  rw [BitVec.extractLsb'_append_extractLsb'_eq_extractLsb' (by rfl)]
  exact BitVec.extractLsb'_eq_self

@[simp] theorem byteFields_byte (l c : BitVec 4) (b : Byte) : (byteFields l c b).byte = b := by
  simp only [byteFields, OpFields.byte, OpFields.low2_mk, opmBits_low]
  rw [BitVec.extractLsb'_append_extractLsb'_eq_extractLsb' (by rfl), BitVec.extractLsb'_append_extractLsb'_eq_extractLsb' (by rfl)]
  exact BitVec.extractLsb'_eq_self

theorem joinOp_byteFields (l c : BitVec 4) (b : Byte) : joinOp (byteFields l c b) = byteOp l c b := by
  have view := byteOp_eq_joinOp (byteFields l c b)
  rw [byteFields_cond, byteFields_byte] at view
  exact view.symm

/-! ## The fields of an operand -/

theorem modeBits_eq_zero_iff {ea : Ea} : ea.modeBits = 0#3 ↔ ea.kind = .dn := by cases ea <;> simp [Ea.modeBits, Ea.kind]

theorem modeBits_eq_one_iff {ea : Ea} : ea.modeBits = 1#3 ↔ ea.kind = .an := by cases ea <;> simp [Ea.modeBits, Ea.kind]

theorem immFields_iff {ea : Ea} : ea.modeBits = 7#3 ∧ ea.regField = 4#3 ↔ ea.kind = .imm := by
  cases ea <;> simp [Ea.modeBits, Ea.regField, Ea.kind]

theorem kind_ne_of_ok {c : EaClass} {k : EaKind} {sz : Size} {ea : Ea} (h : ea.ok c sz = true) (hc : c.admits k = false) :
    ea.kind ≠ k := by
  rintro rfl
  exact absurd (admits_kind_of_ok h) (by simp [hc])

theorem modeBits_ne_zero {c : EaClass} {sz : Size} {ea : Ea} (h : ea.ok c sz = true) (hc : c.admits .dn = false) :
    ea.modeBits ≠ 0#3 := mt modeBits_eq_zero_iff.mp (kind_ne_of_ok h hc)

theorem modeBits_ne_one {c : EaClass} {sz : Size} {ea : Ea} (h : ea.ok c sz = true) (hc : c.admits .an = false) :
    ea.modeBits ≠ 1#3 := mt modeBits_eq_one_iff.mp (kind_ne_of_ok h hc)

theorem not_immFields {c : EaClass} {sz : Size} {ea : Ea} (h : ea.ok c sz = true) (hc : c.admits .imm = false) :
    ¬ (ea.modeBits = 7#3 ∧ ea.regField = 4#3) := mt immFields_iff.mp (kind_ne_of_ok h hc)

/-- A memory operand never has the pair shape of bits 5:4 (R109, R118). -/
theorem modeBits_high_ne {sz : Size} {ea : Ea} (h : ea.ok .memoryAlterable sz = true) : ea.modeBits.extractLsb' 1 2 ≠ 0#2 := by
  obtain ⟨-, han, hdn⟩ := kind_of_ok_memoryAlterable h
  cases ea with
  | dn n => exact absurd rfl hdn
  | an n => exact absurd rfl han
  | _ => simp [Ea.modeBits]

theorem ok_memory_of_data {sz : Size} {ea : Ea} (h : ea.ok .dataAlterable sz = true) (hd : ea.kind ≠ .dn) :
    ea.ok .memoryAlterable sz = true := by
  simpa [Ea.ok, EaClass.admits, hd] using h

/-- Only an immediate depends on the operand size, and a bit operation reads one as a byte (R310). -/
theorem extWords_bitSize (ea : Ea) : ea.extWords ea.bitSize = ea.extWords .b := by cases ea <;> rfl

theorem ok_byte_of_bitSize {c : EaClass} {ea : Ea} (h : ea.ok c ea.bitSize = true) : ea.ok c .b = true := by
  cases ea with
  | dn n => simpa [Ea.ok, Ea.kind] using h
  | _ => exact h

end Sys2Proof
end

section
/-! SUPPORT. The decoder reads every encoding back (spec/30_encoding.md R100 to R116): one rule per format of R106, then the rows. -/

namespace Sys2Proof

/-! ## Parts of lines that several rows share -/

theorem decodeFields_move (sz : Size) (rx opm m r : BitVec 3) (ws : List Word) :
    decodeFields ⟨moveLine sz, rx, opm, m, r⟩ ws = decodeMove sz ⟨moveLine sz, rx, opm, m, r⟩ ws := by cases sz <;> rfl

theorem decodeMove_movea (wl : WordLong) (f : OpFields) (h : f.opm = 1) (ws : List Word) :
    decodeMove wl.size f ws = withEa wl.size f ws (.movea wl (regOf f.rx)) := by
  unfold decodeMove withEa
  cases takeEa wl.size f.mode f.ry ws <;> cases wl <;> simp [Parsed.next, Parsed.map, WordLong.size, h]

theorem decodeFields_bitImm (kind : BitVec 2) (m r : BitVec 3) (ws : List Word) :
    decodeFields ⟨0, 4, opmBits 0 kind, m, r⟩ ws =
      (takeByte ws).next fun n rest => withEa .b ⟨0, 4, opmBits 0 kind, m, r⟩ rest (bitImm ⟨0, 4, opmBits 0 kind, m, r⟩ n) := by
  simp [decodeFields, decodeLine0]

theorem decodeFields_bitDyn (rx : BitVec 3) (kind : BitVec 2) {m : BitVec 3} (r : BitVec 3) (ws : List Word) (hm : m ≠ 1#3) :
    decodeFields ⟨0, rx, opmBits 1 kind, m, r⟩ ws =
      withEa .b ⟨0, rx, opmBits 1 kind, m, r⟩ ws (bitDyn ⟨0, rx, opmBits 1 kind, m, r⟩) := by
  simp [decodeFields, decodeLine0, hm]

/-- The instruction of a branch condition: condition T is BRA and F is BSR (R123). -/
def branchOf (c : Cond) (d : BranchDisp) : Instr :=
  match c with
  | .t => .bra d
  | .f => .bsr d
  | c => .bcc c d

theorem branchOf_eq_bcc {c : Cond} (ht : c ≠ .t) (hf : c ≠ .f) (d : BranchDisp) : branchOf c d = .bcc c d := by
  cases c with
  | t => exact absurd rfl ht
  | f => exact absurd rfl hf
  | _ => rfl

theorem encode_branchOf (c : Cond) (d : BranchDisp) : encode (branchOf c d) = encBranch c d := by cases c <;> rfl

theorem decodeLine6_eq (f : OpFields) (ws : List Word) :
    decodeLine6 f ws = if f.byte = 0 then (takeWord ws).map fun d => some (branchOf (condOf f.cond) (.word d))
      else .ok (some (branchOf (condOf f.cond) (.byte f.byte)), ws) := by
  unfold decodeLine6 branchOf
  cases condOf f.cond <;> rfl

theorem decodeOpmode_ea {f : OpFields} {ws : List Word} {ea dn : Size → Ea → Instr} {word long : Ea → Instr} {lsz : Size}
    {pair : Size → Parsed (Option Instr)} {sz : Size} (h : f.opm = opmBits 0 (sizeBits sz)) :
    decodeOpmode f ws ea word long lsz pair dn = withEa sz f ws (ea sz) := by
  simp [decodeOpmode, OpFields.low2, OpFields.bit8, h]

theorem decodeFields_shiftMem (kind : BitVec 2) (dr : BitVec 1) (m r : BitVec 3) (ws : List Word) :
    decodeFields ⟨14, 0#1 ++ kind, opmBits dr 3, m, r⟩ ws =
      withEa .w ⟨14, 0#1 ++ kind, opmBits dr 3, m, r⟩ ws (shiftMem kind (dr == 1)) := by
  have clear : (0#1 ++ kind : BitVec 3)[2] = false := by decide +revert
  have low : (0#1 ++ kind : BitVec 3).extractLsb' 0 2 = kind := BitVec.extractLsb'_append_eq_right
  simp [decodeFields, decodeLineE, clear, low]

/-! ## One rule per format -/

theorem decode_joinOp {f : OpFields} {ws rest : List Word} {i : Instr} (hw : i.wellFormed = true)
    (h : decodeFields f ws = .ok (some i, rest)) : decode (joinOp f :: ws) = .ok (i, rest) := by
  simp [decode, h, hw]

theorem withEa_extWords {c : EaClass} {sz : Size} {f : OpFields} {ea : Ea} (hm : f.mode = ea.modeBits) (hr : f.ry = ea.regField)
    (h : ea.ok c sz = true) (rest : List Word) (k : Ea → Instr) :
    withEa sz f (ea.extWords sz ++ rest) k = .ok (some (k ea), rest) := by
  simp [withEa, hm, hr, takeEa_extWords h, Parsed.map]

section
variable {i : Instr} {line : BitVec 4} {rx opm : BitVec 3} {c : EaClass} {sz : Size} {ea : Ea} {rest : List Word}

theorem decode_bare {f : OpFields} (hw : i.wellFormed = true) (henc : encode i = [joinOp f])
    (hrow : ∀ ws, decodeFields f ws = bare i ws) : decode (encode i ++ rest) = .ok (i, rest) := by
  rw [henc]
  exact decode_joinOp hw (hrow rest)

theorem decode_word {f : OpFields} {w : Word} {k : Word → Instr} (hw : i.wellFormed = true) (henc : encode i = [joinOp f, w])
    (hrow : ∀ ws, decodeFields f ws = (takeWord ws).map fun d => some (k d)) (hk : k w = i) :
    decode (encode i ++ rest) = .ok (i, rest) := by
  rw [henc]
  exact decode_joinOp hw (by rw [hrow, List.append_eq, List.singleton_append, takeWord_cons, Parsed.map, hk])

theorem decode_byte {f : OpFields} {v : Byte} {k : Byte → Instr} (hw : i.wellFormed = true)
    (henc : encode i = [joinOp f, v.setWidth 16])
    (hrow : ∀ ws, decodeFields f ws = (takeByte ws).map fun d => some (k d)) (hk : k v = i) :
    decode (encode i ++ rest) = .ok (i, rest) := by
  rw [henc]
  exact decode_joinOp hw (by rw [hrow, List.append_eq, List.singleton_append, takeByte_setWidth, Parsed.map, hk])

theorem decode_encEa {k : Ea → Instr} (hw : i.wellFormed = true) (henc : encode i = encEa line rx opm sz ea)
    (hok : ea.ok c sz = true)
    (hrow : ∀ ws, decodeFields ⟨line, rx, opm, ea.modeBits, ea.regField⟩ ws =
      withEa sz ⟨line, rx, opm, ea.modeBits, ea.regField⟩ ws k) (hk : k ea = i) :
    decode (encode i ++ rest) = .ok (i, rest) := by
  rw [henc, encEa, List.cons_append, eaOp]
  exact decode_joinOp hw (by rw [hrow, withEa_extWords rfl rfl hok, hk])

/-- The format of MOVEM: the register mask stands before the operand's words (R101). -/
theorem decode_mask {mask : Word} {k : Word → Ea → Instr} (hw : i.wellFormed = true)
    (henc : encode i = eaOp line rx opm ea :: mask :: ea.extWords sz) (hok : ea.ok c sz = true)
    (hrow : ∀ ws, decodeFields ⟨line, rx, opm, ea.modeBits, ea.regField⟩ ws =
      (takeWord ws).next fun m rest => withEa sz ⟨line, rx, opm, ea.modeBits, ea.regField⟩ rest (k m)) (hk : k mask ea = i) :
    decode (encode i ++ rest) = .ok (i, rest) := by
  rw [henc, List.cons_append, eaOp, List.cons_append]
  exact decode_joinOp hw (by rw [hrow, takeWord_cons, Parsed.next, withEa_extWords rfl rfl hok, hk])

theorem decode_encImm {v : Long} {k : Size → Long → Ea → Instr} (hw : i.wellFormed = true) (henc : encode i = encImm rx sz v ea)
    (hfit : sz.fits v = true) (hok : ea.ok c sz = true)
    (hrow : ∀ ws, decodeFields ⟨0, rx, opmBits 0 (sizeBits sz), ea.modeBits, ea.regField⟩ ws =
      immEa sz ⟨0, rx, opmBits 0 (sizeBits sz), ea.modeBits, ea.regField⟩ ws k) (hk : k sz v ea = i) :
    decode (encode i ++ rest) = .ok (i, rest) := by
  rw [henc, encImm, List.cons_append, eaOp, List.append_assoc]
  exact decode_joinOp hw (by rw [hrow, immEa, takeImm_immWords hfit, Parsed.next, withEa_extWords rfl rfl hok, hk])

theorem decode_encBit {kind : BitVec 2} {num : Byte} (hw : i.wellFormed = true) (henc : encode i = encBit kind num ea)
    (hok : ea.ok c ea.bitSize = true)
    (hi : bitImm ⟨0, 4, opmBits 0 kind, ea.modeBits, ea.regField⟩ num ea = i) : decode (encode i ++ rest) = .ok (i, rest) := by
  rw [henc, encBit, List.cons_append, eaOp, List.cons_append, extWords_bitSize]
  refine decode_joinOp hw ?_
  rw [decodeFields_bitImm, takeByte_setWidth, Parsed.next, withEa_extWords rfl rfl (ok_byte_of_bitSize hok), hi]

theorem decode_encBitDyn {kind : BitVec 2} {n : Reg} (hw : i.wellFormed = true) (henc : encode i = encBitDyn kind n ea)
    (hok : ea.ok c ea.bitSize = true) (hc : c.admits .an = false)
    (hi : bitDyn ⟨0, regBits n, opmBits 1 kind, ea.modeBits, ea.regField⟩ ea = i) : decode (encode i ++ rest) = .ok (i, rest) := by
  rw [henc, encBitDyn, encEa, List.cons_append, eaOp, extWords_bitSize]
  refine decode_joinOp hw ?_
  rw [decodeFields_bitDyn _ _ _ _ (modeBits_ne_one hok hc), withEa_extWords rfl rfl (ok_byte_of_bitSize hok), hi]

theorem decode_encBranch {cond : Cond} {disp : BranchDisp} (hw : i.wellFormed = true) (henc : encode i = encBranch cond disp)
    (hd : disp.ok = true) (hi : branchOf cond disp = i) : decode (encode i ++ rest) = .ok (i, rest) := by
  have hline : ∀ b ws, decodeFields (byteFields 6 (condBits cond) b) ws = decodeLine6 (byteFields 6 (condBits cond) b) ws :=
    fun _ _ => rfl
  rw [henc]
  cases disp with
  | byte d =>
    have hne : d ≠ 0#8 := by simpa [BranchDisp.ok] using hd
    rw [encBranch, ← joinOp_byteFields]
    exact decode_joinOp hw ((hline _ _).trans (by simp [decodeLine6_eq, hne, hi]))
  | word d =>
    rw [encBranch, ← joinOp_byteFields]
    exact decode_joinOp hw ((hline _ _).trans (by simp [decodeLine6_eq, hi, Parsed.map]))

end

/-! ## The rows -/

/-- Every row falls under the rule of its format; what is left to say is which branch of the decoder its fields select. Where a row has
one operand and no other constraint, `hw` is at once that the instruction is well formed and that the operand is of the row's class. -/
theorem decode_encode (i : Instr) (rest : List Word) (hw : i.wellFormed = true) : decode (encode i ++ rest) = .ok (i, rest) := by
  cases i with
  | oriToCcr v | andiToCcr v | eoriToCcr v => exact decode_byte hw rfl (fun _ => by rfl) rfl
  | oriToSr v | andiToSr v | eoriToSr v => exact decode_word hw rfl (fun _ => by rfl) rfl
  | ori sz v ea | andi sz v ea | eori sz v ea =>
    obtain ⟨hfit, hok⟩ := Bool.and_eq_true_iff.mp hw
    refine decode_encImm hw rfl hfit hok (fun _ => ?_) rfl
    simp [decodeFields, decodeLine0, immOrStatus, not_immFields hok rfl]
  | subi sz v ea | addi sz v ea | cmpi sz v ea =>
    obtain ⟨hfit, hok⟩ := Bool.and_eq_true_iff.mp hw
    refine decode_encImm hw rfl hfit hok (fun _ => ?_) rfl
    simp [decodeFields, decodeLine0]
  | btstImm num ea | bchgImm num ea | bclrImm num ea | bsetImm num ea => exact decode_encBit hw rfl hw (by simp [bitImm])
  | btstDyn n ea | bchgDyn n ea | bclrDyn n ea | bsetDyn n ea => exact decode_encBitDyn hw rfl hw rfl (by simp [bitDyn])
  | movep dir sz dx ay d =>
    refine decode_word hw rfl (fun _ => ?_) rfl
    cases dir <;> cases sz <;> simp [decodeFields, decodeLine0, wlOf, wlBit]
  | move sz src dst =>
    obtain ⟨hsrc, hdst⟩ := Bool.and_eq_true_iff.mp hw
    rw [encode, List.cons_append, List.append_assoc]
    refine decode_joinOp hw ?_
    simp [decodeFields_move, decodeMove, takeEa_extWords hsrc, takeEa_extWords hdst, Parsed.next, Parsed.map,
      modeBits_ne_one hdst rfl]
  | movea sz n src =>
    exact decode_encEa hw rfl hw (fun _ => (decodeFields_move _ _ _ _ _ _).trans (decodeMove_movea sz _ rfl _)) rfl
  | negx sz ea | clr sz ea | neg sz ea | not sz ea | tst sz ea =>
    refine decode_encEa hw rfl hw (fun _ => ?_) rfl
    simp [decodeFields, decodeLine4, sizedEa]
  | moveFromSr ea | chk n ea | lea n ea | moveToCcr ea | moveToSr ea | nbcd ea | jsr ea | jmp ea =>
    refine decode_encEa hw rfl hw (fun _ => ?_) rfl
    simp [decodeFields, decodeLine4, sizedEa]
  | swap n | extW n | extL n => exact decode_bare hw rfl fun _ => by simp [decodeFields, decodeLine4]
  | pea ea =>
    refine decode_encEa hw rfl hw (fun _ => ?_) rfl
    simp [decodeFields, decodeLine4, modeBits_ne_zero hw rfl]
  | movemToMem sz mask ea =>
    refine decode_mask hw rfl hw (fun _ => ?_) rfl
    cases sz <;> simp [decodeFields, decodeLine4, modeBits_ne_zero hw rfl, wlBit, WordLong.size]
  | movemToRegs sz mask ea =>
    refine decode_mask hw rfl hw (fun _ => ?_) rfl
    cases sz <;> simp [decodeFields, decodeLine4, wlBit, WordLong.size]
  | tas ea =>
    refine decode_encEa hw rfl hw (fun _ => ?_) rfl
    simp [decodeFields, decodeLine4, sizedEa, not_immFields hw rfl]
  | illegal | reset | nop | rte | rts | trapv | rtr | unlk n | moveToUsp n | moveFromUsp n =>
    exact decode_bare hw rfl fun _ => by simp [decodeFields, decodeLine4, decodeLine4E, sizedEa]
  | stop v | link n d => exact decode_word hw rfl (fun _ => by simp [decodeFields, decodeLine4, decodeLine4E]) rfl
  | trap v =>
    refine decode_bare hw rfl fun _ => ?_
    have halves : v.extractLsb' 3 1 ++ v.extractLsb' 0 3 = v :=
      (BitVec.extractLsb'_append_extractLsb'_eq_extractLsb' (by rfl)).trans BitVec.extractLsb'_eq_self
    obtain hb | hb := bitVec1_cases (v.extractLsb' 3 1) <;> rw [hb] at halves <;>
      simp [decodeFields, decodeLine4, decodeLine4E, hb, halves]
  | addq sz q ea | subq sz q ea =>
    refine decode_encEa hw rfl hw (fun _ => ?_) rfl
    simp [decodeFields, decodeLine5]
  | scc cond ea =>
    refine decode_encEa hw rfl hw (fun _ => ?_) rfl
    simp [decodeFields, decodeLine5, modeBits_ne_one hw rfl]
  | dbcc cond n d =>
    refine decode_word hw rfl (fun _ => ?_) rfl
    simp [decodeFields, decodeLine5]
  | bra disp | bsr disp => exact decode_encBranch hw rfl hw rfl
  | bcc cond disp =>
    obtain ⟨⟨ht, hf⟩, hd⟩ : (cond ≠ .t ∧ cond ≠ .f) ∧ disp.ok = true := by simpa [Instr.wellFormed] using hw
    exact decode_encBranch hw rfl hd (branchOf_eq_bcc ht hf disp)
  | moveq n v =>
    refine decode_bare (f := byteFields 7 (regBits n ++ 0#1) v) hw (by rw [joinOp_byteFields]; rfl) fun ws => ?_
    show decodeLine7 _ ws = _
    simp [decodeLine7]
  | orEaDn sz ea n | subEaDn sz ea n | cmp sz ea n | andEaDn sz ea n | addEaDn sz ea n =>
    exact decode_encEa hw rfl hw (fun _ => decodeOpmode_ea rfl) rfl
  | orDnEa sz n ea | subDnEa sz n ea | andDnEa sz n ea | addDnEa sz n ea =>
    refine decode_encEa hw rfl hw (fun _ => ?_) rfl
    simp [decodeFields, decodeLine8, decodeLine9, decodeLineC, decodeLineD, decodeOpmode, modeBits_high_ne hw]
  | divu n ea | divs n ea | mulu n ea | muls n ea =>
    refine decode_encEa hw rfl hw (fun _ => ?_) rfl
    simp [decodeFields, decodeLine8, decodeLineC, decodeOpmode]
  | suba sz n ea | cmpa sz n ea | adda sz n ea =>
    refine decode_encEa hw rfl hw (fun _ => ?_) rfl
    cases sz <;> simp [decodeFields, decodeLine9, decodeLineB, decodeLineD, decodeOpmode, wlBit, WordLong.size]
  | eor sz n ea =>
    by_cases hd : ea.kind = .dn
    · cases ea with
      | dn m =>
        refine decode_bare hw rfl fun _ => ?_
        simp [decodeFields, decodeLineB, decodeOpmode, Ea.modeBits, Ea.regField]
      | _ => cases hd
    · refine decode_encEa hw rfl hw (fun _ => ?_) rfl
      simp [decodeFields, decodeLineB, decodeOpmode, modeBits_high_ne (ok_memory_of_data hw hd)]
  | subx sz form x y | addx sz form x y | cmpm sz x y =>
    exact decode_bare hw rfl fun _ => by simp [decodeFields, decodeLine9, decodeLineB, decodeLineD, decodeOpmode]
  | sbcd form x y | abcd form x y =>
    exact decode_bare hw rfl fun _ => by simp [decodeFields, decodeLine8, decodeLineC, decodeOpmode, sizeOf2]
  | exgDD x y | exgAA x y | exgDA x y =>
    exact decode_bare hw rfl fun _ => by simp [decodeFields, decodeLineC, decodeOpmode, sizeOf2]
  | asrReg sz cnt y | aslReg sz cnt y | lsrReg sz cnt y | lslReg sz cnt y
  | roxrReg sz cnt y | roxlReg sz cnt y | rorReg sz cnt y | rolReg sz cnt y =>
    refine decode_bare hw rfl fun _ => ?_
    cases cnt <;> simp [decodeFields, decodeLineE, countBit, countField, shiftReg]
  | asrMem ea | aslMem ea | lsrMem ea | lslMem ea | roxrMem ea | roxlMem ea | rorMem ea | rolMem ea =>
    exact decode_encEa hw rfl hw (fun _ => decodeFields_shiftMem _ _ _ _ _) rfl

/-- Settles O1: each row of the map under the rule of its format. -/
theorem decodeOfEncodeIsTheInstruction : Obligations.DecodeOfEncodeIsTheInstruction := by
  unfold Obligations.DecodeOfEncodeIsTheInstruction
  exact decode_encode

/-- Settles O3: the decoder evaluated on each word list. -/
theorem decodeOfSpecWords : Obligations.DecodeOfSpecWords := by
  unfold Obligations.DecodeOfSpecWords
  refine ⟨?_, ?_, ?_, ?_, ?_, ?_, ?_, ?_, ?_, ?_, ?_, ?_, ?_⟩ <;> decide

end Sys2Proof
end

section
/-! SUPPORT. What the decoder reads encodes to the same opcode word and length (spec/30_encoding.md R100, R115, R120): a reader uses up the
words its value encodes to, so each line of the opcode map gives an instruction with the line's fields. -/

namespace Sys2Proof

/-! ## What a reader used up -/

theorem takeWord_length {ws rest : List Word} {w : Word} (h : takeWord ws = .ok (w, rest)) : ws.length = 1 + rest.length := by
  cases ws with
  | nil => cases h
  | cons _ _ => cases h; exact Nat.add_comm _ _

theorem takeLong_length {ws rest : List Word} {v : Long} (h : takeLong ws = .ok (v, rest)) : ws.length = 2 + rest.length := by
  match ws, h with
  | _ :: _ :: _, h =>
    cases h
    simp only [List.length_cons]
    omega

theorem takeByte_length {ws rest : List Word} {b : Byte} (h : takeByte ws = .ok (b, rest)) : ws.length = 1 + rest.length := by
  cases ws with
  | nil => cases h
  | cons _ _ => cases h; exact Nat.add_comm _ _

theorem takeImm_length {sz : Size} {ws rest : List Word} {v : Long} (h : takeImm sz ws = .ok (v, rest)) :
    ws.length = (immWords sz v).length + rest.length := by
  cases sz with
  | l => exact takeLong_length h
  | b | w =>
    cases ws with
    | nil => cases h
    | cons _ _ => cases h; exact Nat.add_comm _ _

theorem Parsed.map_eq_ok {α β : Type} {p : Parsed α} {f : α → β} {b : β} {rest : List Word} (h : p.map f = .ok (b, rest)) :
    ∃ a, p = .ok (a, rest) ∧ f a = b := by
  cases p with
  | error _ => cases h
  | ok _ => cases h; exact ⟨_, rfl, rfl⟩

theorem Parsed.next_eq_ok {α β : Type} {p : Parsed α} {f : α → List Word → Parsed β} {b : β} {rest : List Word}
    (h : p.next f = .ok (b, rest)) : ∃ a ws, p = .ok (a, ws) ∧ f a ws = .ok (b, rest) := by
  cases p with
  | error _ => cases h
  | ok _ => exact ⟨_, _, rfl, h⟩

theorem takeWord_map_eq_ok {g : Word → Ea} {ws rest : List Word} {ea : Ea}
    (h : ((takeWord ws).map fun w => some (g w)) = .ok (some ea, rest)) : ∃ w, ea = g w ∧ ws.length = 1 + rest.length := by
  obtain ⟨w, hw, hea⟩ := Parsed.map_eq_ok h
  exact ⟨w, (Option.some.inj hea).symm, takeWord_length hw⟩

/-- An operand that was read has the fields it was read from, and as many extension words as were used up (R110). -/
theorem takeEa_eq_ok {sz : Size} {mode reg : BitVec 3} {ws rest : List Word} {ea : Ea}
    (h : takeEa sz mode reg ws = .ok (some ea, rest)) :
    ea.modeBits = mode ∧ ea.regField = reg ∧ ws.length = (ea.extWords sz).length + rest.length := by
  obtain rfl | rfl | rfl | rfl | rfl | rfl | rfl | rfl := bitVec3_cases mode
  iterate 5
    · cases h
      exact ⟨rfl, rfl, (Nat.zero_add _).symm⟩
  · obtain ⟨d, rfl, hlen⟩ := takeWord_map_eq_ok h
    exact ⟨rfl, rfl, hlen⟩
  · obtain ⟨w, rfl, hlen⟩ := takeWord_map_eq_ok (g := fun w => .index (regOf reg) (indexOf w)) h
    exact ⟨rfl, rfl, hlen⟩
  · obtain rfl | rfl | rfl | rfl | rfl | hreg := bitVec3_cases reg
    · obtain ⟨w, rfl, hlen⟩ := takeWord_map_eq_ok h
      exact ⟨rfl, rfl, hlen⟩
    · obtain ⟨a, ha, hea⟩ := Parsed.map_eq_ok h
      cases hea
      exact ⟨rfl, rfl, takeLong_length ha⟩
    · obtain ⟨d, rfl, hlen⟩ := takeWord_map_eq_ok h
      exact ⟨rfl, rfl, hlen⟩
    · obtain ⟨w, rfl, hlen⟩ := takeWord_map_eq_ok (g := fun w => .pcIndex (indexOf w)) h
      exact ⟨rfl, rfl, hlen⟩
    · obtain ⟨v, hv, hea⟩ := Parsed.map_eq_ok h
      cases hea
      exact ⟨rfl, rfl, takeImm_length hv⟩
    · obtain rfl | rfl | rfl := hreg <;> cases h

theorem withEa_eq_ok {sz : Size} {f : OpFields} {ws rest : List Word} {k : Ea → Instr} {i : Instr}
    (h : withEa sz f ws k = .ok (some i, rest)) :
    ∃ ea : Ea, i = k ea ∧ ea.modeBits = f.mode ∧ ea.regField = f.ry ∧ ws.length = (ea.extWords sz).length + rest.length := by
  obtain ⟨o, ho, hk⟩ := Parsed.map_eq_ok h
  obtain ⟨ea, rfl, rfl⟩ := Option.map_eq_some_iff.mp hk
  exact ⟨ea, rfl, takeEa_eq_ok ho⟩

theorem decode_cons_eq_ok {op : Word} {ws rest : List Word} {i : Instr} (h : decode (op :: ws) = .ok (i, rest)) :
    decodeFields (splitOp op) ws = .ok (some i, rest) ∧ i.wellFormed = true := by
  rw [decode] at h
  split at h
  · cases h
  · cases h
  · next j rest' hd =>
    split at h
    · next hw => cases h; exact ⟨hd, hw⟩
    · cases h

/-! ## One rule per format -/

/-- An instruction read from `ws` after the opcode word of `f` has that opcode word and as many extension words as were read. -/
def ReadsRow (f : OpFields) (ws : List Word) (p : Parsed (Option Instr)) : Prop :=
  ∀ i rest, p = .ok (some i, rest) → ∃ ext, encode i = joinOp f :: ext ∧ ws.length = ext.length + rest.length

section
variable {f : OpFields} {ws : List Word} {l : BitVec 4} {rx opm m r : BitVec 3}

theorem readsRow_noRow (ws' : List Word) : ReadsRow f ws (noRow ws') := fun _ _ h => by cases h

theorem readsRow_ite {c : Prop} [Decidable c] {p q : Parsed (Option Instr)} (hp : c → ReadsRow f ws p) (hq : ReadsRow f ws q) :
    ReadsRow f ws (if c then p else q) := by
  split
  · next h => exact hp h
  · exact hq

theorem readsRow_bare {i : Instr} (h : encode i = [joinOp f]) : ReadsRow f ws (bare i ws) := fun _ _ hb => by
  cases hb
  exact ⟨[], h, (Nat.zero_add _).symm⟩

theorem readsRow_word {k : Word → Instr} (h : ∀ d, encode (k d) = [joinOp f, d]) :
    ReadsRow f ws ((takeWord ws).map fun d => some (k d)) := fun _ _ hm => by
  obtain ⟨d, hd, hi⟩ := Parsed.map_eq_ok hm
  cases hi
  exact ⟨[d], h d, takeWord_length hd⟩

theorem readsRow_byte {k : Byte → Instr} (h : ∀ v, encode (k v) = [joinOp f, v.setWidth 16]) :
    ReadsRow f ws ((takeByte ws).map fun v => some (k v)) := fun _ _ hm => by
  obtain ⟨v, hv, hi⟩ := Parsed.map_eq_ok hm
  cases hi
  exact ⟨_, h v, takeByte_length hv⟩

theorem eaOp_eq_joinOp {ea : Ea} (hm : ea.modeBits = m) (hr : ea.regField = r) : eaOp l rx opm ea = joinOp ⟨l, rx, opm, m, r⟩ := by
  rw [eaOp, hm, hr]

theorem readsRow_withEa {sz : Size} {k : Ea → Instr} (h : ∀ ea, encode (k ea) = encEa l rx opm sz ea) :
    ReadsRow ⟨l, rx, opm, m, r⟩ ws (withEa sz ⟨l, rx, opm, m, r⟩ ws k) := fun _ _ hw => by
  obtain ⟨ea, rfl, hm, hr, hlen⟩ := withEa_eq_ok hw
  exact ⟨_, (h ea).trans (by rw [encEa, eaOp_eq_joinOp hm hr]), hlen⟩

theorem readsRow_mask {sz : Size} {k : Word → Ea → Instr}
    (h : ∀ mask ea, encode (k mask ea) = eaOp l rx opm ea :: mask :: ea.extWords sz) :
    ReadsRow ⟨l, rx, opm, m, r⟩ ws ((takeWord ws).next fun mask rest => withEa sz ⟨l, rx, opm, m, r⟩ rest (k mask)) :=
  fun _ _ hn => by
  obtain ⟨mask, _, hm, hw⟩ := Parsed.next_eq_ok hn
  obtain ⟨ea, rfl, hmode, hreg, hlen⟩ := withEa_eq_ok hw
  refine ⟨_, (h mask ea).trans (by rw [eaOp_eq_joinOp hmode hreg]), ?_⟩
  rw [takeWord_length hm, hlen, List.length_cons]
  omega

theorem readsRow_immEa {sz : Size} {k : Size → Long → Ea → Instr} (h : ∀ v ea, encode (k sz v ea) = encImm rx sz v ea) :
    ReadsRow ⟨0, rx, opmBits 0 (sizeBits sz), m, r⟩ ws (immEa sz ⟨0, rx, opmBits 0 (sizeBits sz), m, r⟩ ws k) := fun _ _ hn => by
  obtain ⟨v, _, hv, hw⟩ := Parsed.next_eq_ok hn
  obtain ⟨ea, rfl, hmode, hreg, hlen⟩ := withEa_eq_ok hw
  refine ⟨immWords sz v ++ ea.extWords sz, ?_, ?_⟩
  · rw [h, encImm, ← eaOp_eq_joinOp hmode hreg]
  · rw [takeImm_length hv, hlen, List.length_append, Nat.add_assoc]

theorem readsRow_immOrStatus {sz : Size} {k : Size → Long → Ea → Instr} {ccr : Byte → Instr} {sr : Word → Instr}
    (hk : ∀ v ea, encode (k sz v ea) = encImm rx sz v ea) (hccr : ∀ v, encode (ccr v) = encStatus rx 0 (v.setWidth 16))
    (hsr : ∀ v, encode (sr v) = encStatus rx 1 v) :
    ReadsRow ⟨0, rx, opmBits 0 (sizeBits sz), m, r⟩ ws
      (immOrStatus sz ⟨0, rx, opmBits 0 (sizeBits sz), m, r⟩ ws k ccr sr) := by
  refine readsRow_ite ?_ (readsRow_immEa hk)
  rintro ⟨rfl, rfl⟩
  cases sz with
  | b => exact readsRow_byte hccr
  | w => exact readsRow_word hsr
  | l => exact readsRow_noRow ws

theorem readsRow_sizedEa {b : BitVec 1} {s : BitVec 2} {k : Size → Ea → Instr} {other : Parsed (Option Instr)}
    (hk : ∀ sz ea, encode (k sz ea) = encEa l rx (opmBits b (sizeBits sz)) sz ea)
    (ho : s = 3 → ReadsRow ⟨l, rx, opmBits b s, m, r⟩ ws other) :
    ReadsRow ⟨l, rx, opmBits b s, m, r⟩ ws (sizedEa ⟨l, rx, opmBits b s, m, r⟩ ws k other) := by
  obtain ⟨sz, rfl⟩ | rfl := sizeField_cases s
  · simpa [sizedEa] using readsRow_withEa (hk sz)
  · simpa [sizedEa] using ho rfl

/-- The opmode field (R109) selects one of the five forms; in the pair form bits 5:4 are 00 and bit 3 is the operand form. -/
theorem readsRow_decodeOpmode {ea dn : Size → Ea → Instr} {word long : Ea → Instr} {lsz : Size}
    {pair : Size → Parsed (Option Instr)} (hea : ∀ sz e, encode (ea sz e) = encEa l rx (opmBits 0 (sizeBits sz)) sz e)
    (hword : ∀ e, encode (word e) = encEa l rx (opmBits 0 3) .w e) (hlong : ∀ e, encode (long e) = encEa l rx (opmBits 1 3) lsz e)
    (hpair : ∀ sz form, opm = opmBits 1 (sizeBits sz) → m = formBits form → ReadsRow ⟨l, rx, opm, m, r⟩ ws (pair sz))
    (hdn : ∀ sz e, encode (dn sz e) = encEa l rx (opmBits 1 (sizeBits sz)) sz e) :
    ReadsRow ⟨l, rx, opm, m, r⟩ ws (decodeOpmode ⟨l, rx, opm, m, r⟩ ws ea word long lsz pair dn) := by
  obtain ⟨b, s, rfl⟩ := exists_eq_opmBits opm
  obtain ⟨sz, rfl⟩ | rfl := sizeField_cases s <;> obtain rfl | rfl := bitVec1_cases b
  · simpa [decodeOpmode] using readsRow_withEa (hea sz)
  · simpa [decodeOpmode] using readsRow_ite (c := m.extractLsb' 1 2 = 0#2)
      (fun h => (mode_eq_formBits h).elim fun form hm => hpair sz form rfl hm) (readsRow_withEa (hdn sz))
  · simpa [decodeOpmode] using readsRow_withEa hword
  · simpa [decodeOpmode] using readsRow_withEa hlong

end

/-! ## Instructions the decoder picks by a field -/

theorem encode_bitImm (f : OpFields) (num : Byte) (ea : Ea) : encode (bitImm f num ea) = encBit f.low2 num ea := by
  obtain h | h | h | h := bitVec2_cases f.low2 <;> rw [bitImm, h] <;> rfl

theorem encode_bitDyn (f : OpFields) (ea : Ea) : encode (bitDyn f ea) = encBitDyn f.low2 (regOf f.rx) ea := by
  obtain h | h | h | h := bitVec2_cases f.low2 <;> rw [bitDyn, h] <;> rfl

theorem encode_shiftMem (kind : BitVec 2) (dr : BitVec 1) (ea : Ea) : encode (shiftMem kind (dr == 1) ea) = encShiftMem kind dr ea := by
  obtain rfl | rfl | rfl | rfl := bitVec2_cases kind <;> obtain rfl | rfl := bitVec1_cases dr <;> rfl

theorem encode_shiftReg (kind : BitVec 2) (dr : BitVec 1) (sz : Size) (cnt : ShiftCount) (y : Reg) :
    encode (shiftReg kind (dr == 1) sz cnt y) = encShift kind dr sz cnt y := by
  obtain rfl | rfl | rfl | rfl := bitVec2_cases kind <;> obtain rfl | rfl := bitVec1_cases dr <;> rfl

theorem encode_trap (b : BitVec 1) (r : BitVec 3) : encode (.trap (b ++ r)) = [joinOp ⟨4, 7, 1, 0#2 ++ b, r⟩] := by
  have high : (b ++ r : BitVec 4).extractLsb' 3 1 = b := BitVec.extractLsb'_append_eq_left
  have low : (b ++ r : BitVec 4).extractLsb' 0 3 = r := BitVec.extractLsb'_append_eq_right
  rw [encode, high, low]

/-! ## One rule per line -/

section
variable (rx opm m r : BitVec 3) (ws : List Word)

theorem readsRow_bitImm (s : BitVec 2) :
    ReadsRow ⟨0, 4, opmBits 0 s, m, r⟩ ws
      ((takeByte ws).next fun n rest => withEa .b ⟨0, 4, opmBits 0 s, m, r⟩ rest (bitImm ⟨0, 4, opmBits 0 s, m, r⟩ n)) :=
  fun _ _ hn => by
  obtain ⟨n, _, hv, hw⟩ := Parsed.next_eq_ok hn
  obtain ⟨ea, rfl, hmode, hreg, hlen⟩ := withEa_eq_ok hw
  refine ⟨n.setWidth 16 :: ea.extWords .b, ?_, ?_⟩
  · rw [encode_bitImm, encBit, OpFields.low2_mk, opmBits_low, extWords_bitSize, ← eaOp_eq_joinOp hmode hreg]
  · rw [takeByte_length hv, hlen, List.length_cons]
    omega

theorem readsRow_bitDyn (s : BitVec 2) :
    ReadsRow ⟨0, rx, opmBits 1 s, m, r⟩ ws (withEa .b ⟨0, rx, opmBits 1 s, m, r⟩ ws (bitDyn ⟨0, rx, opmBits 1 s, m, r⟩)) :=
  readsRow_withEa fun ea => by
    rw [encode_bitDyn, encBitDyn, OpFields.low2_mk, opmBits_low, encEa, encEa, extWords_bitSize, regBits_regOf]

theorem readsRow_decodeLine0 : ReadsRow ⟨0, rx, opm, m, r⟩ ws (decodeLine0 ⟨0, rx, opm, m, r⟩ ws) := by
  obtain ⟨b, s, rfl⟩ := exists_eq_opmBits opm
  obtain rfl | rfl := bitVec1_cases b
  · obtain rfl | hrx := eq_or_ne rx 4
    · simpa [decodeLine0] using readsRow_bitImm m r ws s
    obtain ⟨sz, rfl⟩ | rfl := sizeField_cases s
    · obtain rfl | rfl | rfl | rfl | rfl | rfl | rfl | rfl := bitVec3_cases rx
      · simpa [decodeLine0] using readsRow_immOrStatus (fun _ _ => rfl) (fun _ => rfl) fun _ => rfl
      · simpa [decodeLine0] using readsRow_immOrStatus (fun _ _ => rfl) (fun _ => rfl) fun _ => rfl
      · simpa [decodeLine0] using readsRow_immEa fun _ _ => rfl
      · simpa [decodeLine0] using readsRow_immEa fun _ _ => rfl
      · exact absurd rfl hrx
      · simpa [decodeLine0] using readsRow_immOrStatus (fun _ _ => rfl) (fun _ => rfl) fun _ => rfl
      · simpa [decodeLine0] using readsRow_immEa fun _ _ => rfl
      · simpa [decodeLine0] using readsRow_noRow ws
    · have hne : rx.toNat ≠ 4 := fun h => hrx (BitVec.eq_of_toNat_eq h)
      simpa [decodeLine0, hne] using readsRow_noRow ws
  · rw [decodeLine0, if_pos (by simp)]
    refine readsRow_ite ?_ (readsRow_bitDyn rx m r ws s)
    rintro rfl
    refine readsRow_word fun d => ?_
    obtain rfl | rfl | rfl | rfl := bitVec2_cases s <;> simp [encode, wlOf, wlBit] <;> rfl

theorem readsRow_decodeMove (sz : Size) :
    ReadsRow ⟨moveLine sz, rx, opm, m, r⟩ ws (decodeMove sz ⟨moveLine sz, rx, opm, m, r⟩ ws) := by
  by_cases ho : opm = 1
  · subst ho
    cases sz with
    | b =>
      intro i rest h
      obtain ⟨src, ws', -, hd⟩ := Parsed.next_eq_ok h
      cases hd
    | w => exact (decodeMove_movea .w ⟨3, rx, 1, m, r⟩ rfl ws).symm ▸ readsRow_withEa fun _ => rfl
    | l => exact (decodeMove_movea .l ⟨2, rx, 1, m, r⟩ rfl ws).symm ▸ readsRow_withEa fun _ => rfl
  · intro i rest h
    obtain ⟨src, ws', hsrc, hd⟩ := Parsed.next_eq_ok h
    rw [if_neg ho] at hd
    obtain ⟨dst, hdst, hi⟩ := Parsed.map_eq_ok hd
    obtain ⟨a, rfl, hb⟩ := Option.bind_eq_some_iff.mp hi
    obtain ⟨b, rfl, rfl⟩ := Option.map_eq_some_iff.mp hb
    obtain ⟨rfl, rfl, hlen⟩ := takeEa_eq_ok hsrc
    obtain ⟨rfl, rfl, hlen'⟩ := takeEa_eq_ok hdst
    exact ⟨_, rfl, by rw [List.length_append, hlen, hlen', Nat.add_assoc]⟩

theorem readsRow_decodeLine4E : ReadsRow ⟨4, 7, opmBits 0 1, m, r⟩ ws (decodeLine4E ⟨4, 7, opmBits 0 1, m, r⟩ ws) := by
  obtain rfl | rfl | rfl | rfl | rfl | rfl | rfl | rfl := bitVec3_cases m
  · exact readsRow_bare (encode_trap 0 r)
  · exact readsRow_bare (encode_trap 1 r)
  · exact readsRow_word fun _ => rfl
  · exact readsRow_bare rfl
  · exact readsRow_bare rfl
  · exact readsRow_bare rfl
  · obtain rfl | rfl | rfl | rfl | rfl | rfl | rfl | rfl := bitVec3_cases r
    · exact readsRow_bare rfl
    · exact readsRow_bare rfl
    · exact readsRow_word fun _ => rfl
    · exact readsRow_bare rfl
    · exact readsRow_noRow ws
    · exact readsRow_bare rfl
    · exact readsRow_bare rfl
    · exact readsRow_bare rfl
  · exact readsRow_noRow ws

/-- The rows 0x48xx: NBCD, SWAP or PEA, and EXT or MOVEM to memory, with mode field 000 for the register forms. -/
theorem readsRow_decodeLine48 (s : BitVec 2) :
    ReadsRow ⟨4, 4, opmBits 0 s, m, r⟩ ws (decodeLine4 ⟨4, 4, opmBits 0 s, m, r⟩ ws) := by
  obtain rfl | rfl | rfl | rfl := bitVec2_cases s
  · simpa [decodeLine4] using readsRow_withEa fun _ => rfl
  · simpa [decodeLine4] using readsRow_ite (by rintro rfl; exact readsRow_bare rfl) (readsRow_withEa fun _ => rfl)
  · simpa [decodeLine4] using readsRow_ite (by rintro rfl; exact readsRow_bare rfl) (readsRow_mask fun _ _ => rfl)
  · simpa [decodeLine4] using readsRow_ite (by rintro rfl; exact readsRow_bare rfl) (readsRow_mask fun _ _ => rfl)

theorem readsRow_decodeLine4 : ReadsRow ⟨4, rx, opm, m, r⟩ ws (decodeLine4 ⟨4, rx, opm, m, r⟩ ws) := by
  obtain ⟨b, s, rfl⟩ := exists_eq_opmBits opm
  obtain rfl | rfl := bitVec1_cases b
  · obtain rfl | rfl | rfl | rfl | rfl | rfl | rfl | rfl := bitVec3_cases rx
    · simpa [decodeLine4] using readsRow_sizedEa (fun _ _ => rfl) (by rintro rfl; exact readsRow_withEa fun _ => rfl)
    · simpa [decodeLine4] using readsRow_sizedEa (fun _ _ => rfl) fun _ => readsRow_noRow ws
    · simpa [decodeLine4] using readsRow_sizedEa (fun _ _ => rfl) (by rintro rfl; exact readsRow_withEa fun _ => rfl)
    · simpa [decodeLine4] using readsRow_sizedEa (fun _ _ => rfl) (by rintro rfl; exact readsRow_withEa fun _ => rfl)
    · exact readsRow_decodeLine48 m r ws s
    · simpa [decodeLine4] using readsRow_sizedEa (fun _ _ => rfl) (by
        rintro rfl
        exact readsRow_ite (by rintro ⟨rfl, rfl⟩; exact readsRow_bare rfl) (readsRow_withEa fun _ => rfl))
    · obtain rfl | rfl | rfl | rfl := bitVec2_cases s
      · simpa [decodeLine4] using readsRow_noRow ws
      · simpa [decodeLine4] using readsRow_noRow ws
      · simpa [decodeLine4] using readsRow_mask fun _ _ => rfl
      · simpa [decodeLine4] using readsRow_mask fun _ _ => rfl
    · obtain rfl | rfl | rfl | rfl := bitVec2_cases s
      · simpa [decodeLine4] using readsRow_noRow ws
      · simpa [decodeLine4] using readsRow_decodeLine4E m r ws
      · simpa [decodeLine4] using readsRow_withEa fun _ => rfl
      · simpa [decodeLine4] using readsRow_withEa fun _ => rfl
  · obtain rfl | rfl | rfl | rfl := bitVec2_cases s
    · simpa [decodeLine4] using readsRow_noRow ws
    · simpa [decodeLine4] using readsRow_noRow ws
    · simpa [decodeLine4] using readsRow_withEa fun _ => rfl
    · simpa [decodeLine4] using readsRow_withEa fun _ => rfl

theorem readsRow_decodeLine5 : ReadsRow ⟨5, rx, opm, m, r⟩ ws (decodeLine5 ⟨5, rx, opm, m, r⟩ ws) := by
  obtain ⟨b, s, rfl⟩ := exists_eq_opmBits opm
  obtain ⟨sz, rfl⟩ | rfl := sizeField_cases s
  · obtain rfl | rfl := bitVec1_cases b
    · simpa [decodeLine5] using readsRow_withEa fun _ => rfl
    · simpa [decodeLine5] using readsRow_withEa fun _ => rfl
  · have hdbcc : ∀ d, encode (.dbcc (condOf (rx ++ b)) (regOf r) d) = [joinOp ⟨5, rx, opmBits b 3, 1, r⟩, d] := fun d => by
      rw [encode, condHi_condOf, condLo_condOf, regBits_regOf]
    have hscc : ∀ ea, encode (.scc (condOf (rx ++ b)) ea) = encEa 5 rx (opmBits b 3) .b ea := fun ea => by
      rw [encode, condHi_condOf, condLo_condOf]
    simpa [decodeLine5] using readsRow_ite (by rintro rfl; exact readsRow_word hdbcc) (readsRow_withEa hscc)

theorem readsRow_decodeLine6 : ReadsRow ⟨6, rx, opm, m, r⟩ ws (decodeLine6 ⟨6, rx, opm, m, r⟩ ws) := by
  have view := byteOp_eq_joinOp ⟨6, rx, opm, m, r⟩
  rw [decodeLine6_eq]
  refine readsRow_ite (fun h0 => readsRow_word fun d => ?_) (readsRow_bare ?_)
  · rw [encode_branchOf, encBranch, condBits_condOf, ← h0, view]
  · rw [encode_branchOf, encBranch, condBits_condOf, view]

theorem readsRow_decodeLine7 : ReadsRow ⟨7, rx, opm, m, r⟩ ws (decodeLine7 ⟨7, rx, opm, m, r⟩ ws) := by
  obtain ⟨b, s, rfl⟩ := exists_eq_opmBits opm
  obtain rfl | rfl := bitVec1_cases b
  · have view := byteOp_eq_joinOp ⟨7, rx, opmBits 0 s, m, r⟩
    rw [OpFields.cond_mk, opmBits_high] at view
    simpa [decodeLine7] using readsRow_bare (i := .moveq (regOf rx) _) (congrArg (fun w => [w]) view)
  · simpa [decodeLine7] using readsRow_noRow ws

theorem readsRow_decodeLine8 : ReadsRow ⟨8, rx, opm, m, r⟩ ws (decodeLine8 ⟨8, rx, opm, m, r⟩ ws) := by
  refine readsRow_decodeOpmode (fun _ _ => rfl) (fun _ => rfl) (fun _ => rfl) ?_ fun _ _ => rfl
  rintro sz form rfl rfl
  rw [OpFields.form_mk, formBits_low]
  exact readsRow_ite (by rintro rfl; exact readsRow_bare rfl) (readsRow_noRow ws)

theorem readsRow_decodeLine9 : ReadsRow ⟨9, rx, opm, m, r⟩ ws (decodeLine9 ⟨9, rx, opm, m, r⟩ ws) := by
  refine readsRow_decodeOpmode (fun _ _ => rfl) (fun _ => rfl) (fun _ => rfl) ?_ fun _ _ => rfl
  rintro sz form rfl rfl
  rw [OpFields.form_mk, formBits_low]
  exact readsRow_bare rfl

theorem readsRow_decodeLineB : ReadsRow ⟨11, rx, opm, m, r⟩ ws (decodeLineB ⟨11, rx, opm, m, r⟩ ws) := by
  refine readsRow_decodeOpmode (fun _ _ => rfl) (fun _ => rfl) (fun _ => rfl) ?_ fun _ _ => rfl
  rintro sz form rfl rfl
  rw [OpFields.form_mk, formBits_low]
  cases form with
  | dregs => exact readsRow_bare rfl
  | preDecs => exact readsRow_bare rfl

theorem readsRow_decodeLineC : ReadsRow ⟨12, rx, opm, m, r⟩ ws (decodeLineC ⟨12, rx, opm, m, r⟩ ws) := by
  refine readsRow_decodeOpmode (fun _ _ => rfl) (fun _ => rfl) (fun _ => rfl) ?_ fun _ _ => rfl
  rintro sz form rfl rfl
  rw [OpFields.form_mk, formBits_low]
  match sz, form with
  | .b, _ => exact readsRow_bare rfl
  | .w, .dregs => exact readsRow_bare rfl
  | .w, .preDecs => exact readsRow_bare rfl
  | .l, .dregs => exact readsRow_noRow ws
  | .l, .preDecs => exact readsRow_bare rfl

theorem readsRow_decodeLineD : ReadsRow ⟨13, rx, opm, m, r⟩ ws (decodeLineD ⟨13, rx, opm, m, r⟩ ws) := by
  refine readsRow_decodeOpmode (fun _ _ => rfl) (fun _ => rfl) (fun _ => rfl) ?_ fun _ _ => rfl
  rintro sz form rfl rfl
  rw [OpFields.form_mk, formBits_low]
  exact readsRow_bare rfl

theorem readsRow_decodeLineE : ReadsRow ⟨14, rx, opm, m, r⟩ ws (decodeLineE ⟨14, rx, opm, m, r⟩ ws) := by
  obtain ⟨dr, s, rfl⟩ := exists_eq_opmBits opm
  obtain ⟨sz, rfl⟩ | rfl := sizeField_cases s
  · obtain ⟨c, kind, rfl⟩ := exists_eq_opmBits m
    obtain rfl | rfl := bitVec1_cases c
    · simpa [decodeLineE] using readsRow_bare (f := ⟨14, rx, opmBits dr (sizeBits sz), opmBits 0 kind, r⟩)
        (encode_shiftReg kind dr sz (.field rx) (regOf r))
    · simpa [decodeLineE] using readsRow_bare (f := ⟨14, rx, opmBits dr (sizeBits sz), opmBits 1 kind, r⟩)
        (encode_shiftReg kind dr sz (.reg (regOf rx)) (regOf r))
  · obtain ⟨c, kind, rfl⟩ := exists_eq_opmBits rx
    obtain rfl | rfl := bitVec1_cases c
    · simpa [decodeLineE] using readsRow_withEa (rx := opmBits 0 kind) fun ea => encode_shiftMem kind dr ea
    · simpa [decodeLineE] using readsRow_noRow ws

end

theorem readsRow_decodeFields (f : OpFields) (ws : List Word) : ReadsRow f ws (decodeFields f ws) := by
  obtain ⟨l, rx, opm, m, r⟩ := f
  unfold decodeFields
  split
  · next h => obtain rfl : l = 0 := BitVec.eq_of_toNat_eq h; exact readsRow_decodeLine0 rx opm m r ws
  · next h => obtain rfl : l = 1 := BitVec.eq_of_toNat_eq h; exact readsRow_decodeMove rx opm m r ws .b
  · next h => obtain rfl : l = 2 := BitVec.eq_of_toNat_eq h; exact readsRow_decodeMove rx opm m r ws .l
  · next h => obtain rfl : l = 3 := BitVec.eq_of_toNat_eq h; exact readsRow_decodeMove rx opm m r ws .w
  · next h => obtain rfl : l = 4 := BitVec.eq_of_toNat_eq h; exact readsRow_decodeLine4 rx opm m r ws
  · next h => obtain rfl : l = 5 := BitVec.eq_of_toNat_eq h; exact readsRow_decodeLine5 rx opm m r ws
  · next h => obtain rfl : l = 6 := BitVec.eq_of_toNat_eq h; exact readsRow_decodeLine6 rx opm m r ws
  · next h => obtain rfl : l = 7 := BitVec.eq_of_toNat_eq h; exact readsRow_decodeLine7 rx opm m r ws
  · next h => obtain rfl : l = 8 := BitVec.eq_of_toNat_eq h; exact readsRow_decodeLine8 rx opm m r ws
  · next h => obtain rfl : l = 9 := BitVec.eq_of_toNat_eq h; exact readsRow_decodeLine9 rx opm m r ws
  · next h => obtain rfl : l = 11 := BitVec.eq_of_toNat_eq h; exact readsRow_decodeLineB rx opm m r ws
  · next h => obtain rfl : l = 12 := BitVec.eq_of_toNat_eq h; exact readsRow_decodeLineC rx opm m r ws
  · next h => obtain rfl : l = 13 := BitVec.eq_of_toNat_eq h; exact readsRow_decodeLineD rx opm m r ws
  · next h => obtain rfl : l = 14 := BitVec.eq_of_toNat_eq h; exact readsRow_decodeLineE rx opm m r ws
  · exact readsRow_noRow ws

end Sys2Proof
end

section
/-! SUPPORT. Every encoding matches its row of the opcode map (spec/30_encoding.md R116, R120): what each row mask of the table leaves of
an opcode word's fields, then the rows grouped by mask. -/

namespace Sys2Proof

/-! ## An opcode word under a mask -/

/-- The fields of `f` under the fields of a mask. -/
def OpFields.masked (f m : OpFields) : OpFields :=
  ⟨f.line &&& m.line, f.rx &&& m.rx, f.opm &&& m.opm, f.mode &&& m.mode, f.ry &&& m.ry⟩

theorem joinOp_and (f m : OpFields) : joinOp f &&& joinOp m = joinOp (f.masked m) := by
  simp only [joinOp, OpFields.masked]
  rw [BitVec.and_append, BitVec.and_append, BitVec.and_append, BitVec.and_append]

theorem joinOp_and_mask {f g : OpFields} {mask : Word} (h : f.masked (splitOp mask) = g) : joinOp f &&& mask = joinOp g := by
  rw [← h, ← joinOp_and, joinOp_splitOp]

theorem byteOp_and (l c l' c' : BitVec 4) (d d' : Byte) :
    byteOp l c d &&& byteOp l' c' d' = byteOp (l &&& l') (c &&& c') (d &&& d') := by
  simp only [byteOp]
  rw [BitVec.and_append, BitVec.and_append]

@[simp] theorem bitVec1_and_one (b : BitVec 1) : b &&& 1#1 = b := by decide +revert

@[simp] theorem bitVec3_and_seven (b : BitVec 3) : b &&& 7#3 = b := by decide +revert

@[simp] theorem bitVec4_and_fifteen (b : BitVec 4) : b &&& 15#4 = b := by decide +revert

@[simp] theorem opmBits_and_three (b : BitVec 1) (s : BitVec 2) : opmBits b s &&& 3#3 = opmBits 0 s := by decide +revert

@[simp] theorem opmBits_and_four (b : BitVec 1) (s : BitVec 2) : opmBits b s &&& 4#3 = opmBits b 0 := by decide +revert

section
variable (l c : BitVec 4) (rx opm m r : BitVec 3) (b b' : BitVec 1) (s s' : BitVec 2) (d : Byte)

theorem joinOp_and_0xC000 : joinOp ⟨l, rx, opm, m, r⟩ &&& 0xC000 = joinOp ⟨l &&& 12, 0, 0, 0, 0⟩ :=
  joinOp_and_mask (by simp [OpFields.masked, splitOp])

theorem joinOp_and_0xC1C0 : joinOp ⟨l, rx, opm, m, r⟩ &&& 0xC1C0 = joinOp ⟨l &&& 12, 0, opm, 0, 0⟩ :=
  joinOp_and_mask (by simp [OpFields.masked, splitOp])

theorem joinOp_and_0xF0C0 : joinOp ⟨l, rx, opmBits b s, m, r⟩ &&& 0xF0C0 = joinOp ⟨l, 0, opmBits 0 s, 0, 0⟩ :=
  joinOp_and_mask (by simp [OpFields.masked, splitOp])

theorem joinOp_and_0xF0F8 : joinOp ⟨l, rx, opmBits b s, m, r⟩ &&& 0xF0F8 = joinOp ⟨l, 0, opmBits 0 s, m, 0⟩ :=
  joinOp_and_mask (by simp [OpFields.masked, splitOp])

theorem joinOp_and_0xF100 : joinOp ⟨l, rx, opmBits b s, m, r⟩ &&& 0xF100 = joinOp ⟨l, 0, opmBits b 0, 0, 0⟩ :=
  joinOp_and_mask (by simp [OpFields.masked, splitOp])

theorem joinOp_and_0xF118 :
    joinOp ⟨l, rx, opmBits b s, opmBits b' s', r⟩ &&& 0xF118 = joinOp ⟨l, 0, opmBits b 0, opmBits 0 s', 0⟩ :=
  joinOp_and_mask (by simp [OpFields.masked, splitOp])

theorem joinOp_and_0xF130 : joinOp ⟨l, rx, opmBits b s, m, r⟩ &&& 0xF130 = joinOp ⟨l, 0, opmBits b 0, m &&& 6, 0⟩ :=
  joinOp_and_mask (by simp [OpFields.masked, splitOp])

theorem joinOp_and_0xF138 : joinOp ⟨l, rx, opm, m, r⟩ &&& 0xF138 = joinOp ⟨l, 0, opm &&& 4, m, 0⟩ :=
  joinOp_and_mask (by simp [OpFields.masked, splitOp])

theorem joinOp_and_0xF1C0 : joinOp ⟨l, rx, opm, m, r⟩ &&& 0xF1C0 = joinOp ⟨l, 0, opm, 0, 0⟩ :=
  joinOp_and_mask (by simp [OpFields.masked, splitOp])

theorem joinOp_and_0xF1F0 : joinOp ⟨l, rx, opm, m, r⟩ &&& 0xF1F0 = joinOp ⟨l, 0, opm, m &&& 6, 0⟩ :=
  joinOp_and_mask (by simp [OpFields.masked, splitOp])

theorem joinOp_and_0xF1F8 : joinOp ⟨l, rx, opm, m, r⟩ &&& 0xF1F8 = joinOp ⟨l, 0, opm, m, 0⟩ :=
  joinOp_and_mask (by simp [OpFields.masked, splitOp])

theorem joinOp_and_0xFF00 : joinOp ⟨l, rx, opmBits b s, m, r⟩ &&& 0xFF00 = joinOp ⟨l, rx, opmBits b 0, 0, 0⟩ :=
  joinOp_and_mask (by simp [OpFields.masked, splitOp])

theorem joinOp_and_0xFF80 : joinOp ⟨l, rx, opm, m, r⟩ &&& 0xFF80 = joinOp ⟨l, rx, opm &&& 6, 0, 0⟩ :=
  joinOp_and_mask (by simp [OpFields.masked, splitOp])

theorem joinOp_and_0xFFC0 : joinOp ⟨l, rx, opm, m, r⟩ &&& 0xFFC0 = joinOp ⟨l, rx, opm, 0, 0⟩ :=
  joinOp_and_mask (by simp [OpFields.masked, splitOp])

theorem joinOp_and_0xFFF0 : joinOp ⟨l, rx, opm, m, r⟩ &&& 0xFFF0 = joinOp ⟨l, rx, opm, m &&& 6, 0⟩ :=
  joinOp_and_mask (by simp [OpFields.masked, splitOp])

theorem joinOp_and_0xFFF8 : joinOp ⟨l, rx, opm, m, r⟩ &&& 0xFFF8 = joinOp ⟨l, rx, opm, m, 0⟩ :=
  joinOp_and_mask (by simp [OpFields.masked, splitOp])

theorem joinOp_and_0xFFFF : joinOp ⟨l, rx, opm, m, r⟩ &&& 0xFFFF = joinOp ⟨l, rx, opm, m, r⟩ :=
  joinOp_and_mask (by simp [OpFields.masked, splitOp])

theorem byteOp_and_0xF000 : byteOp l c d &&& 0xF000 = byteOp l 0 0 := (byteOp_and l c 15 0 d 0).trans (by simp)

theorem byteOp_and_0xF100 : byteOp l (rx ++ b) d &&& 0xF100 = byteOp l (0#3 ++ b) 0 :=
  (byteOp_and l (rx ++ b) 15 (0#3 ++ 1#1) d 0).trans (by rw [BitVec.and_append]; simp)

theorem byteOp_and_0xFF00 : byteOp l c d &&& 0xFF00 = byteOp l c 0 := (byteOp_and l c 15 15 d 0).trans (by simp)

end

/-! ## The rows -/

theorem encBranch_eq_cons (c : Cond) (disp : BranchDisp) : ∃ d ext, encBranch c disp = byteOp 6 (condBits c) d :: ext := by
  cases disp with
  | byte d => exact ⟨d, _, rfl⟩
  | word w => exact ⟨0, _, rfl⟩

/-- Each case names the mask of its rows; what the mask leaves of the fields is the row's match value. -/
theorem encode_matches_row (i : Instr) : ∃ op ext, encode i = op :: ext ∧ op &&& i.row.1 = i.row.2 := by
  cases i with
  | oriToCcr | oriToSr | andiToCcr | andiToSr | eoriToCcr | eoriToSr => exact ⟨_, _, rfl, (joinOp_and_0xFFFF ..).trans rfl⟩
  | illegal | reset | nop | stop | rte | rts | trapv | rtr => exact ⟨_, _, rfl, (joinOp_and_0xFFFF ..).trans rfl⟩
  | ori | andi | subi | addi | eori | cmpi | negx | clr | neg | not | tst =>
    exact ⟨_, _, rfl, (joinOp_and_0xFF00 ..).trans rfl⟩
  | btstImm | bchgImm | bclrImm | bsetImm | moveFromSr | moveToCcr | moveToSr | nbcd | pea | tas | jsr | jmp =>
    exact ⟨_, _, rfl, (joinOp_and_0xFFC0 ..).trans rfl⟩
  | asrMem | aslMem | lsrMem | lslMem | roxrMem | roxlMem | rorMem | rolMem =>
    exact ⟨_, _, rfl, (joinOp_and_0xFFC0 ..).trans rfl⟩
  | btstDyn | bchgDyn | bclrDyn | bsetDyn | chk | lea | divu | divs | mulu | muls =>
    exact ⟨_, _, rfl, (joinOp_and_0xF1C0 ..).trans rfl⟩
  | movep dir sz => exact ⟨_, _, rfl, (joinOp_and_0xF138 ..).trans (by cases dir <;> cases sz <;> rfl)⟩
  | move sz => exact ⟨_, _, rfl, (joinOp_and_0xC000 ..).trans (by cases sz <;> rfl)⟩
  | movea sz => exact ⟨_, _, rfl, (joinOp_and_0xC1C0 ..).trans (by cases sz <;> rfl)⟩
  | swap | extW | extL | link | unlk | moveToUsp | moveFromUsp => exact ⟨_, _, rfl, (joinOp_and_0xFFF8 ..).trans rfl⟩
  | movemToMem sz | movemToRegs sz => exact ⟨_, _, rfl, (joinOp_and_0xFF80 ..).trans (by cases sz <;> rfl)⟩
  | trap v =>
    refine ⟨_, _, rfl, (joinOp_and_0xFFF0 ..).trans ?_⟩
    obtain h | h := bitVec1_cases (v.extractLsb' 3 1) <;> rw [h] <;> rfl
  | addq | subq | orEaDn | orDnEa | subEaDn | subDnEa | cmp | eor | andEaDn | andDnEa | addEaDn | addDnEa =>
    exact ⟨_, _, rfl, (joinOp_and_0xF100 ..).trans rfl⟩
  | scc | suba | cmpa | adda => exact ⟨_, _, rfl, (joinOp_and_0xF0C0 ..).trans rfl⟩
  | dbcc => exact ⟨_, _, rfl, (joinOp_and_0xF0F8 ..).trans rfl⟩
  | bra disp | bsr disp =>
    obtain ⟨d, ext, h⟩ := encBranch_eq_cons _ disp
    exact ⟨_, ext, h, (byteOp_and_0xFF00 ..).trans rfl⟩
  | bcc cond disp =>
    obtain ⟨d, ext, h⟩ := encBranch_eq_cons cond disp
    exact ⟨_, ext, h, (byteOp_and_0xF000 ..).trans rfl⟩
  | moveq => exact ⟨_, _, rfl, (byteOp_and_0xF100 ..).trans rfl⟩
  | sbcd form | abcd form => exact ⟨_, _, rfl, (joinOp_and_0xF1F0 ..).trans (by cases form <;> rfl)⟩
  | subx _ form | addx _ form => exact ⟨_, _, rfl, (joinOp_and_0xF130 ..).trans (by cases form <;> rfl)⟩
  | cmpm sz => exact ⟨_, _, rfl, (joinOp_and_0xF138 ..).trans (by cases sz <;> rfl)⟩
  | exgDD | exgAA | exgDA => exact ⟨_, _, rfl, (joinOp_and_0xF1F8 ..).trans rfl⟩
  | asrReg | aslReg | lsrReg | lslReg | roxrReg | roxlReg | rorReg | rolReg =>
    exact ⟨_, _, rfl, (joinOp_and_0xF118 ..).trans rfl⟩

/-- Settles O2: what was read encodes to the fields it was read from, and every encoding matches its row. -/
theorem decodedOpcodeMatchesItsRow : Obligations.DecodedOpcodeMatchesItsRow := by
  unfold Obligations.DecodedOpcodeMatchesItsRow
  intro op ws rest i h
  obtain ⟨hd, hw⟩ := decode_cons_eq_ok h
  obtain ⟨ext, henc, hlen⟩ := readsRow_decodeFields _ _ _ _ hd
  rw [joinOp_splitOp] at henc
  obtain ⟨op', ext', henc', hrow⟩ := encode_matches_row i
  obtain ⟨rfl, rfl⟩ : op = op' ∧ ext = ext' := List.cons.inj (henc.symm.trans henc')
  refine ⟨hw, hrow, by rw [henc]; rfl, ?_⟩
  rw [henc, List.length_cons, hlen]
  omega

end Sys2Proof
end

section
/-! SUPPORT. The effective-address resolver (spec/40_ea_resolver.md R144 to R152, R160): a predecrement undoes a postincrement of the
same register and size, and the index value is the index register times a power of two. -/

namespace Sys2Proof.Machine

/-! ## Postincrement and predecrement -/

/-- After the postincrement the predecrement names the address the postincrement named (R160). -/
theorem eaLoc_preDec_sideEffect_postInc (s : State) (n : Reg) (sz : Size) (ext : Long) :
    eaLoc (.preDec n) sz ext (sideEffect (.postInc n) sz s) = .mem (s.areg n) none := by
  simp only [eaLoc, sideEffect, State.areg_setAreg_same, BitVec.add_sub_cancel]

/-- The predecrement undoes the postincrement (R160). -/
theorem sideEffect_preDec_sideEffect_postInc (s : State) (n : Reg) (sz : Size) :
    sideEffect (.preDec n) sz (sideEffect (.postInc n) sz s) = s := by
  simp only [sideEffect, State.areg_setAreg_same, BitVec.add_sub_cancel, State.setAreg_setAreg, State.setAreg_areg]

/-- Settles O24: the two modes name their addresses and step An as their definitions say, and cancel. -/
theorem postincrementThenPredecrementIsSymmetric : Obligations.PostincrementThenPredecrementIsSymmetric := by
  unfold Obligations.PostincrementThenPredecrementIsSymmetric
  intro s n sz ext step
  have hstep : eaStep n sz = step := by cases sz <;> rfl
  rw [← hstep]
  exact ⟨rfl, rfl, rfl, rfl, eaLoc_preDec_sideEffect_postInc s n sz ext, sideEffect_preDec_sideEffect_postInc s n sz⟩

/-! ## The index value -/

/-- The sign-extended low word of a register (00_scope.md R9). -/
theorem sext_word (v : Long) : sext .w v = (v.setWidth 16).signExtend 32 := by
  rw [sext, BitVec.setWidth_eq_extractLsb' (by decide)]

/-- A left shift by `k` multiplies by `2 ^ k` (R150). -/
theorem long_shiftLeft_eq_mul (v : Long) (k : Nat) : v <<< k = v * BitVec.ofNat 32 (2 ^ k) := by
  have pow : BitVec.twoPow 32 k = BitVec.ofNat 32 (2 ^ k) :=
    BitVec.eq_of_toNat_eq ((BitVec.toNat_twoPow 32 k).trans (BitVec.toNat_ofNat (2 ^ k) 32).symm)
  rw [BitVec.shiftLeft_eq_mul_twoPow, pow]

/-- Settles O25: each mode's address is the resolver's line for it; only the index value takes an argument. -/
theorem effectiveAddressOfEachMode : Obligations.EffectiveAddressOfEachMode := by
  unfold Obligations.EffectiveAddressOfEachMode
  intro s n d w l ext x reg val idx
  have hidx : indexValue x s = idx := by
    rw [indexValue, sext_word, long_shiftLeft_eq_mul]
  rw [← hidx]
  exact ⟨rfl, rfl, rfl, rfl, rfl, rfl, rfl⟩

end Sys2Proof.Machine
end

section
/-! SUPPORT. The flag unit against exact integers (spec/41_alu_flags.md R171 to R178, R181; 00_scope.md R9): the numbers that a value
of a size, its sign and the results of addition and subtraction stand for, then each flag. -/

namespace Sys2Proof.Machine

/-! ## The numbers values of a size stand for -/

theorem toNat_lt_of_fits {sz : Size} {v : Long} (h : sz.fits v = true) : v.toNat < 2 ^ sz.bits := by
  rw [← trunc_of_fits h, toNat_trunc]
  exact Nat.mod_lt _ (Nat.two_pow_pos _)

theorem toNat_mask (sz : Size) : sz.mask.toNat = 2 ^ sz.bits - 1 := by cases sz <;> rfl

/-- The sign of a value of a size says that it lies in the upper half of the unsigned range (R9). -/
theorem msb_of_lt {sz : Size} {v : Long} (h : v.toNat < 2 ^ sz.bits) : msb sz v = decide (2 ^ (sz.bits - 1) ≤ v.toNat) := by
  rw [msb, BitVec.getLsbD, Nat.testBit_eq_decide_div_mod_eq, decide_eq_decide]
  cases sz <;> simp only [Size.bits] at h ⊢ <;> omega

/-- The signed reading of a value of a size: below the sign bit the value itself, from there on 2^bits less (R9). -/
theorem signedAt_cases {sz : Size} {v : Long} (h : v.toNat < 2 ^ sz.bits) :
    (v.toNat < 2 ^ (sz.bits - 1) ∧ signedAt sz v = v.toNat) ∨
      (2 ^ (sz.bits - 1) ≤ v.toNat ∧ signedAt sz v = v.toNat - 2 ^ sz.bits) := by
  have low (n : Nat) (hn : n ≤ 32) (hv : v.toNat < 2 ^ n) :
      ((v.extractLsb' 0 n).signExtend 32).toInt = if 2 * v.toNat < 2 ^ n then (v.toNat : Int) else v.toNat - (2 ^ n : Nat) := by
    rw [BitVec.toInt_signExtend_of_le hn, BitVec.toInt_eq_toNat_cond, BitVec.extractLsb'_toNat, Nat.shiftRight_zero,
      Nat.mod_eq_of_lt hv]
  have value : signedAt sz v = if 2 * v.toNat < 2 ^ sz.bits then (v.toNat : Int) else v.toNat - (2 ^ sz.bits : Nat) := by
    cases sz with
    | b => exact low 8 (by decide) h
    | w => exact low 16 (by decide) h
    | l => exact BitVec.toInt_eq_toNat_cond v
  rw [value]
  cases sz <;> simp only [Size.bits] at h ⊢ <;> omega

theorem inRange_iff {sz : Size} {k : Int} : inRange sz k = true ↔ -2 ^ (sz.bits - 1) ≤ k ∧ k < 2 ^ (sz.bits - 1) := by
  simp [inRange]

theorem toNat_bitOf (b : Bool) : (bitOf b).toNat = b.toNat := by cases b <;> rfl

theorem trunc_eq_zero_iff {sz : Size} {v : Long} (h : v.toNat < 2 ^ sz.bits) : trunc sz v = 0 ↔ v.toNat = 0 := by
  rw [← BitVec.toNat_inj, toNat_trunc, Nat.mod_eq_of_lt h]; rfl

/-! ## Addition -/

/-- The addition unit gives the sum modulo the size (R181). -/
theorem toNat_addResult (src dst : Long) (xin : Bool) (sz : Size) :
    (addResult src dst xin sz).toNat = (src.toNat + dst.toNat + xin.toNat) % 2 ^ sz.bits := by
  rw [addResult, toNat_trunc, BitVec.toNat_add, BitVec.toNat_add, toNat_bitOf]
  cases sz <;> simp only [Size.bits] <;> omega

theorem addResult_lt (src dst : Long) (xin : Bool) (sz : Size) : (addResult src dst xin sz).toNat < 2 ^ sz.bits := by
  rw [toNat_addResult]
  exact Nat.mod_lt _ (Nat.two_pow_pos _)

/-- The overflow of an addition: two operands of one sign with a result of the other (R175). -/
theorem addition_overflow_eq {sz : Size} {src dst : Long} (xin : Bool) (hs : src.toNat < 2 ^ sz.bits) (hd : dst.toNat < 2 ^ sz.bits) :
    (msb sz src == msb sz dst && msb sz (addResult src dst xin sz) != msb sz dst) =
      !inRange sz (signedAt sz src + signedAt sz dst + xin.toNat) := by
  have hx := Bool.toNat_le xin
  rw [msb_of_lt hs, msb_of_lt hd, msb_of_lt (addResult_lt src dst xin sz), toNat_addResult,
    Bool.eq_iff_iff, Bool.not_eq_true', ← Bool.not_eq_true, inRange_iff]
  simp only [Bool.and_eq_true, beq_iff_eq, bne_iff_ne, ne_eq, decide_eq_decide]
  have src_signed := signedAt_cases hs
  have dst_signed := signedAt_cases hd
  cases sz <;> simp only [Size.bits] at * <;> omega

theorem addOp_flags {sz : Size} {src dst : Long} (hs : src.toNat < 2 ^ sz.bits) (hd : dst.toNat < 2 ^ sz.bits) (xin : Bool) (f : Ccr) :
    (addOp src dst xin sz .plain f).2 = sumFlags sz src dst xin := by
  have carry : decide ((trunc sz src).toNat + (trunc sz dst).toNat + xin.toNat > sz.mask.toNat) =
      decide (2 ^ sz.bits ≤ src.toNat + dst.toNat + xin.toNat) := by
    rw [toNat_trunc, toNat_trunc, Nat.mod_eq_of_lt hs, Nat.mod_eq_of_lt hd, toNat_mask, decide_eq_decide]
    have := Nat.two_pow_pos sz.bits
    omega
  have zero : (trunc sz (addResult src dst xin sz) == 0) = decide ((src.toNat + dst.toNat + xin.toNat) % 2 ^ sz.bits = 0) := by
    rw [Bool.eq_iff_iff, beq_iff_eq, trunc_eq_zero_iff (addResult_lt src dst xin sz), toNat_addResult, decide_eq_true_eq]
  simp only [addOp, Ccr.alterN, Ccr.alterZ, Ccr.alterV, Ccr.alterC, Ccr.copyCX, sumFlags, carry, zero,
    addition_overflow_eq xin hs hd]
  rw [msb_of_lt (addResult_lt src dst xin sz), toNat_addResult]

/-- Settles O16: the sum modulo the size, and each flag by its own reading of the operands as integers. -/
theorem additionFlagsAreExact : Obligations.AdditionFlagsAreExact := by
  unfold Obligations.AdditionFlagsAreExact
  intro sz src dst xin f hs hd
  exact ⟨toNat_addResult src dst xin sz, addOp_flags (toNat_lt_of_fits hs) (toNat_lt_of_fits hd) xin f⟩

/-! ## Subtraction -/

/-- The subtraction unit gives the difference modulo the size (R181). -/
theorem toNat_subResult (src dst : Long) (xin : Bool) (sz : Size) :
    ((subResult src dst xin sz).toNat : Int) = ((dst.toNat : Int) - src.toNat - xin.toNat) % 2 ^ sz.bits := by
  have hx := Bool.toNat_le xin
  rw [subResult, toNat_trunc, BitVec.toNat_sub, BitVec.toNat_sub, toNat_bitOf]
  cases sz <;> simp only [Size.bits] <;> omega

theorem subResult_lt (src dst : Long) (xin : Bool) (sz : Size) : (subResult src dst xin sz).toNat < 2 ^ sz.bits := by
  rw [subResult, toNat_trunc]
  exact Nat.mod_lt _ (Nat.two_pow_pos _)

/-- The overflow of a subtraction: operands of different signs and a result with the sign of the source (R176). -/
theorem subtraction_overflow_eq {sz : Size} {src dst : Long} (xin : Bool) (hs : src.toNat < 2 ^ sz.bits)
    (hd : dst.toNat < 2 ^ sz.bits) :
    (msb sz src != msb sz dst && msb sz (subResult src dst xin sz) != msb sz dst) =
      !inRange sz (signedAt sz dst - signedAt sz src - xin.toNat) := by
  have hx := Bool.toNat_le xin
  have result := toNat_subResult src dst xin sz
  rw [msb_of_lt hs, msb_of_lt hd, msb_of_lt (subResult_lt src dst xin sz),
    Bool.eq_iff_iff, Bool.not_eq_true', ← Bool.not_eq_true, inRange_iff]
  simp only [Bool.and_eq_true, bne_iff_ne, ne_eq, decide_eq_decide]
  have src_signed := signedAt_cases hs
  have dst_signed := signedAt_cases hd
  cases sz <;> simp only [Size.bits] at * <;> omega

theorem cmpFlags_eq_differenceFlags {sz : Size} {src dst : Long} (hs : src.toNat < 2 ^ sz.bits) (hd : dst.toNat < 2 ^ sz.bits)
    (xin : Bool) (f : Ccr) : cmpFlags src dst xin sz .plain f = { differenceFlags sz src dst xin with x := f.x } := by
  have result := toNat_subResult src dst xin sz
  have negative : msb sz (subResult src dst xin sz) =
      decide ((2 : Int) ^ (sz.bits - 1) ≤ ((dst.toNat : Int) - src.toNat - xin.toNat) % 2 ^ sz.bits) := by
    rw [msb_of_lt (subResult_lt src dst xin sz), ← result, decide_eq_decide]
    exact_mod_cast Iff.rfl
  have zero : (trunc sz (subResult src dst xin sz) == 0) =
      decide (((dst.toNat : Int) - src.toNat - xin.toNat) % 2 ^ sz.bits = 0) := by
    rw [Bool.eq_iff_iff, beq_iff_eq, trunc_eq_zero_iff (subResult_lt src dst xin sz), ← result, decide_eq_true_eq, Int.natCast_eq_zero]
  have borrow : decide ((trunc sz dst).toNat < (trunc sz src).toNat + xin.toNat) = decide (dst.toNat < src.toNat + xin.toNat) := by
    rw [toNat_trunc, toNat_trunc, Nat.mod_eq_of_lt hs, Nat.mod_eq_of_lt hd]
  simp only [cmpFlags, Ccr.alterN, Ccr.alterZ, Ccr.alterVSub, Ccr.alterCSub, differenceFlags, borrow, zero,
    subtraction_overflow_eq xin hs hd]
  rw [negative]

theorem subResult_addResult (a b : Long) (sz : Size) : subResult b (addResult b a false sz) false sz = trunc sz a := by
  refine BitVec.eq_of_toNat_eq (Int.ofNat_inj.mp ?_)
  rw [toNat_subResult, toNat_addResult, toNat_trunc]
  cases sz <;> simp only [Size.bits, Bool.toNat_false] <;> omega

/-- Settles O17: a subtraction is the comparison with its result kept and X set from C; the round trip is one of numbers modulo the
size. -/
theorem subtractionFlagsAreExact : Obligations.SubtractionFlagsAreExact := by
  unfold Obligations.SubtractionFlagsAreExact
  refine ⟨fun sz src dst xin f hs hd => ?_, subResult_addResult⟩
  have compare := cmpFlags_eq_differenceFlags (toNat_lt_of_fits hs) (toNat_lt_of_fits hd) xin f
  exact ⟨toNat_subResult src dst xin sz, by simp only [subOp, compare, Ccr.copyCX, differenceFlags], compare⟩

end Sys2Proof.Machine
end

section
/-! SUPPORT. The quotient and remainder of both divisions (spec/43_integer_arithmetic.md R252, R253; 41_alu_flags.md R184): what a
result of each division is, and when there is none. -/

namespace Sys2Proof.Machine

/-- The unsigned division gives nothing exactly when its quotient exceeds 16 bits, else the quotient and the remainder (R252). -/
theorem divuResult_cases {a : Long} {d : Word} :
    (65536 ≤ a.toNat / d.toNat ∧ divuResult a d = none) ∨
    (a.toNat / d.toNat < 65536 ∧
      divuResult a d = some (BitVec.ofNat 16 (a.toNat / d.toNat), BitVec.ofNat 16 (a.toNat % d.toNat))) := by
  by_cases large : a.toNat / d.toNat > 0xFFFF
  · exact .inl ⟨large, if_pos large⟩
  · exact .inr ⟨by omega, if_neg large⟩

theorem divuResult_eq_none_iff {a : Long} {d : Word} (hd : d ≠ 0) : divuResult a d = none ↔ 65536 * d.toNat ≤ a.toNat := by
  have positive : 0 < d.toNat := BitVec.toNat_pos_of_ne_zero hd
  rw [← Nat.le_div_iff_mul_le positive]
  obtain ⟨large, answer⟩ | ⟨small, answer⟩ := divuResult_cases (a := a) (d := d)
  · simp [answer, large]
  · simp [answer, small]

/-- Quotient and remainder of the unsigned division fit their words, so they are those of the numbers (R252). -/
theorem divuResult_law {a : Long} {d q r : Word} (hd : d ≠ 0) (h : divuResult a d = some (q, r)) :
    a.toNat = q.toNat * d.toNat + r.toNat ∧ r.toNat < d.toNat := by
  have positive : 0 < d.toNat := BitVec.toNat_pos_of_ne_zero hd
  have remainder := Nat.mod_lt a.toNat positive
  obtain ⟨-, answer⟩ | ⟨small, answer⟩ := divuResult_cases (a := a) (d := d)
  · simp [answer] at h
  · obtain ⟨rfl, rfl⟩ : _ = q ∧ _ = r := by simpa [answer] using h
    rw [BitVec.toNat_ofNat, BitVec.toNat_ofNat, Nat.mod_eq_of_lt small, Nat.mod_eq_of_lt (by omega)]
    exact ⟨(Nat.div_add_mod' _ _).symm, remainder⟩

theorem divsResult_eq_none_iff {a : Long} {d : Word} :
    divsResult a d = none ↔ a.toInt.tdiv d.toInt < -32768 ∨ 32767 < a.toInt.tdiv d.toInt := by
  by_cases outside : a.toInt.tdiv d.toInt < -32768 ∨ a.toInt.tdiv d.toInt > 32767
  · exact iff_of_true (if_pos outside) outside
  · exact iff_of_false (by simp [divsResult, outside]) outside

/-- A number in the 16-bit signed range is the signed reading of its word. -/
theorem toInt_ofInt_word {k : Int} (h : -32768 ≤ k ∧ k ≤ 32767) : (BitVec.ofInt 16 k).toInt = k :=
  BitVec.toInt_ofInt_eq_self (by decide) h.1 (by omega)

/-- A remainder of truncation is zero or has the dividend's sign (R253). -/
theorem tmod_eq_zero_or_neg_iff (a d : Int) : a.tmod d = 0 ∨ (a.tmod d < 0 ↔ a < 0) := by
  have sign := Int.sign_tmod a d
  split at sign
  · exact .inl (Int.sign_eq_zero_iff_zero.mp sign)
  · exact .inr (by rw [← Int.sign_eq_neg_one_iff_neg, sign, Int.sign_eq_neg_one_iff_neg])

theorem abs_tmod_lt (a : Int) {d : Int} (hd : d ≠ 0) : |a.tmod d| < |d| := by
  rw [Int.abs_eq_natAbs, Int.abs_eq_natAbs, Int.natAbs_tmod, Int.ofNat_lt]
  exact Nat.mod_lt _ (Int.natAbs_pos.mpr hd)

/-- Quotient and remainder of the signed division are those of truncation toward zero: the remainder is smaller than the divisor, so it
fits a word, and has the dividend's sign (R253, R184). -/
theorem divsResult_law {a : Long} {d q r : Word} (hd : d ≠ 0) (h : divsResult a d = some (q, r)) :
    a.toInt = q.toInt * d.toInt + r.toInt ∧ |r.toInt| < |d.toInt| ∧ (r.toInt = 0 ∨ (r.toInt < 0 ↔ a.toInt < 0)) := by
  have inside : ¬ (a.toInt.tdiv d.toInt < -32768 ∨ 32767 < a.toInt.tdiv d.toInt) := by
    rw [← divsResult_eq_none_iff, h]; simp
  have smaller : |a.toInt.tmod d.toInt| < |d.toInt| := abs_tmod_lt _ (by simpa using BitVec.toInt_ne.mpr hd)
  have divisor : |d.toInt| ≤ 32768 := by
    have := BitVec.le_toInt d; have := BitVec.toInt_lt (x := d); rw [abs_le]; omega
  have remainder : a.toInt - a.toInt.tdiv d.toInt * d.toInt = a.toInt.tmod d.toInt := by
    rw [Int.tmod_def, Int.mul_comm]
  obtain ⟨rfl, rfl⟩ : BitVec.ofInt 16 (a.toInt.tdiv d.toInt) = q ∧ BitVec.ofInt 16 (a.toInt.tmod d.toInt) = r := by
    simpa [divsResult, inside, remainder] using h
  rw [toInt_ofInt_word (by omega), toInt_ofInt_word (by rw [abs_lt] at smaller; omega)]
  exact ⟨(Int.tdiv_mul_add_tmod _ _).symm, smaller, tmod_eq_zero_or_neg_iff _ _⟩

/-- Settles O22: each division by its law and by when it gives nothing. -/
theorem divisionSatisfiesTheDivisionLaw : Obligations.DivisionSatisfiesTheDivisionLaw := by
  unfold Obligations.DivisionSatisfiesTheDivisionLaw
  intro a d hd
  exact ⟨fun q r => divuResult_law hd, divuResult_eq_none_iff hd, fun q r => divsResult_law hd, divsResult_eq_none_iff⟩

end Sys2Proof.Machine
end

section
/-! SUPPORT. The status frame: which condition codes, SR bits and hidden fields a completed instruction can change, and where it leaves
PC (spec/41_alu_flags.md R178, R179, R186; 10_state.md R29, R35, R38 to R40). Every operation of the model gets one rule; the
obligation follows by going through the instructions with these rules. -/

namespace Sys2Proof.Machine

/-! ## Condition codes kept -/

/-- Every flag may change: the first of the outcomes of R186 that several rows share. -/
def Ccr.xnzvc : Ccr := { x := true, n := true, z := true, v := true, c := true }

/-- Every flag but X may change. -/
def Ccr.nzvc : Ccr := { Ccr.xnzvc with x := false }

/-- No flag may change. -/
def Ccr.noFlag : Ccr := { x := false, n := false, z := false, v := false, c := false }

/-- Only Z may change. -/
def Ccr.onlyZ : Ccr := { Ccr.noFlag with z := true }

/-- `g` agrees with `f` in every flag that is false in `dest`. -/
structure FlagsKept (dest f g : Ccr) : Prop where
  x : dest.x = false → g.x = f.x
  n : dest.n = false → g.n = f.n
  z : dest.z = false → g.z = f.z
  v : dest.v = false → g.v = f.v
  c : dest.c = false → g.c = f.c

namespace FlagsKept

variable {dest f g h : Ccr}

theorem refl : FlagsKept dest f f := ⟨fun _ => rfl, fun _ => rfl, fun _ => rfl, fun _ => rfl, fun _ => rfl⟩

theorem trans (fg : FlagsKept dest f g) (gh : FlagsKept dest g h) : FlagsKept dest f h where
  x d := (gh.x d).trans (fg.x d)
  n d := (gh.n d).trans (fg.n d)
  z d := (gh.z d).trans (fg.z d)
  v d := (gh.v d).trans (fg.v d)
  c d := (gh.c d).trans (fg.c d)

/-- Where every flag may change nothing is claimed. -/
theorem xnzvc : FlagsKept .xnzvc f g := ⟨nofun, nofun, nofun, nofun, nofun⟩

theorem nzvc (e : g.x = f.x) : FlagsKept .nzvc f g := ⟨fun _ => e, nofun, nofun, nofun, nofun⟩

end FlagsKept

/-- A value moved or computed bitwise leaves X (R179). -/
theorem moveFlags_kept (v : Long) (sz : Size) (f : Ccr) : FlagsKept .nzvc f (moveFlags v sz f) := .nzvc rfl

/-- A comparison leaves X (R177). -/
theorem cmpFlags_kept (src dst : Long) (xin : Bool) (sz : Size) (f : Ccr) :
    FlagsKept .nzvc f (cmpFlags src dst xin sz .plain f) := .nzvc rfl

/-- A bit operation changes only Z (46_bit_bcd.md R310). -/
theorem bitFlags_kept (e : Long) (b : Nat) (f : Ccr) : FlagsKept .onlyZ f (bitFlags e b f) :=
  ⟨fun _ => rfl, fun _ => rfl, nofun, fun _ => rfl, fun _ => rfl⟩

theorem rolStep_x (sz : Size) (t : ShiftState) : (rolStep sz t).x = t.x := rfl

theorem rorStep_x (sz : Size) (t : ShiftState) : (rorStep sz t).x = t.x := rfl

theorem shiftLoop_x {step : ShiftState → ShiftState} (hstep : ∀ t, (step t).x = t.x) (n : Nat) (t : ShiftState) :
    (shiftLoop step n t).x = t.x := by
  induction n generalizing t with
  | zero => rfl
  | succ n ih => rw [shiftLoop_succ, ih, hstep]

/-- A rotate, each step of which leaves X, leaves X (45_shift_rotate.md R295, R296). -/
theorem shiftOp_kept {step : Size → ShiftState → ShiftState} (hstep : ∀ sz t, (step sz t).x = t.x) (c0 keepV : Bool) (sz : Size)
    (cnt : Nat) (v : Long) (f : Ccr) : FlagsKept .nzvc f (shiftOp step c0 keepV sz cnt v f).2 :=
  .nzvc (shiftLoop_x (hstep sz) cnt _)

/-! ## SR, PC and the hidden fields -/

/-- The fields that reset, double faults, interrupts and STOP act on (10_state.md R38 to R40). -/
def State.hidden (s : State) : Bool × Bool × List IrqRequest × Bool := (s.resetPending, s.halted, s.irqQueue, s.stopped)

/-- Everything in the state but D0 to D7, the address registers, memory and the parameters. -/
def State.status (s : State) : Word × Long × Bool × Bool × List IrqRequest × Bool := (s.sr, s.pc, s.hidden)

@[simp] theorem State.status_setDreg (s : State) (n : Reg) (v : Long) : (s.setDreg n v).status = s.status := rfl
@[simp] theorem State.status_writeD (s : State) (n : Reg) (sz : Size) (v : Long) : (s.writeD n sz v).status = s.status := rfl
@[simp] theorem State.status_with_mem (s : State) (m : Memory) : ({ s with mem := m } : State).status = s.status := rfl
@[simp] theorem State.status_with_usp (s : State) (v : Long) : ({ s with usp := v } : State).status = s.status := rfl

@[simp] theorem State.status_setSp (s : State) (v : Long) : (s.setSp v).status = s.status := by
  simp [State.status, State.hidden]

@[simp] theorem State.status_setAreg (s : State) (n : Reg) (v : Long) : (s.setAreg n v).status = s.status := by
  simp [State.status, State.hidden]

@[simp] theorem State.status_setMovemReg (s : State) (k : Fin 16) (v : Long) : (s.setMovemReg k v).status = s.status := by
  simp [State.status, State.hidden]

@[simp] theorem status_sideEffect (ea : Ea) (sz : Size) (s : State) : (sideEffect ea sz s).status = s.status := by
  cases ea <;> simp [sideEffect]

@[simp] theorem status_storeAt (loc : Loc) (sz : Size) (v : Long) (s : State) : (storeAt loc sz v s).status = s.status := by
  cases loc <;> simp [storeAt]

@[simp] theorem status_pushed (v : Long) (s : State) : (pushed v s).status = s.status :=
  (State.status_with_mem _ _).trans (State.status_setSp s _)

theorem State.status_eq_iff {s t : State} : t.status = s.status ↔ t.sr = s.sr ∧ t.pc = s.pc ∧ t.hidden = s.hidden := by
  simp only [State.status, Prod.mk.injEq]

/-- Setting the condition codes leaves every field of SR above them (R35). -/
theorem State.sr_setCcr_and (s : State) (f : Ccr) {m : Word} (hm : ∀ k, k < 5 → m.getLsbD k = false) :
    (s.setCcr f).sr &&& m = s.sr &&& m := by
  refine BitVec.eq_of_getLsbD_eq fun k _ => ?_
  rw [BitVec.getLsbD_and, BitVec.getLsbD_and, State.getLsbD_sr_setCcr]
  split
  · rw [hm k ‹_›, Bool.and_false, Bool.and_false]
  · rfl

/-- WriteCCR leaves the upper byte and clears bits 7:5 (R33). -/
theorem State.sr_writeCcr_and (s : State) (v : Byte) :
    (s.writeCcr v).sr &&& 0xFF00 = s.sr &&& 0xFF00 ∧ (s.writeCcr v).sr &&& 0xE0 = 0 := by
  constructor <;> rw [State.writeCcr] <;> simp only [BitVec.and_or_distrib_right, BitVec.and_assoc] <;> simp

/-- From `s` to `u`, the state an instruction leaves before PC is moved, PC and the hidden fields stay. -/
structure SequenceKept (s u : State) : Prop where
  pc : u.pc = s.pc
  hidden : u.hidden = s.hidden

/-- Moreover the flags outside `dest` stay, the upper byte of SR, and bits 7:5 once they are 0, which WriteCCR makes them. -/
structure StatusKept (dest : Ccr) (s u : State) : Prop extends SequenceKept s u where
  flags : FlagsKept dest s.ccr u.ccr
  upper : u.sr &&& 0xFF00 = s.sr &&& 0xFF00
  gap : s.sr &&& 0xE0 = 0 → u.sr &&& 0xE0 = 0

namespace StatusKept

variable {dest : Ccr} {s u t : State}

/-- A state with the same status keeps what was kept. -/
theorem congr (h : StatusKept dest s u) (e : t.status = u.status) : StatusKept dest s t := by
  obtain ⟨sr, pc, hidden⟩ := State.status_eq_iff.mp e
  have ccr : t.ccr = u.ccr := by simp only [State.ccr, sr]
  exact ⟨⟨pc.trans h.pc, hidden.trans h.hidden⟩, ccr ▸ h.flags, sr ▸ h.upper, sr ▸ h.gap⟩

theorem refl : StatusKept dest s s := ⟨⟨rfl, rfl⟩, .refl, rfl, id⟩

theorem of_status_eq (e : u.status = s.status) : StatusKept dest s u := refl.congr e

theorem setCcr (h : StatusKept dest s u) {f : Ccr} (hf : FlagsKept dest u.ccr f) : StatusKept dest s (u.setCcr f) where
  pc := h.pc
  hidden := h.hidden
  flags := by rw [State.ccr_setCcr]; exact h.flags.trans hf
  upper := (State.sr_setCcr_and u f (by decide)).trans h.upper
  gap hs := (State.sr_setCcr_and u f (by decide)).trans (h.gap hs)

theorem writeCcr (h : StatusKept .xnzvc s u) (v : Byte) : StatusKept .xnzvc s (u.writeCcr v) where
  pc := h.pc
  hidden := h.hidden
  flags := .xnzvc
  upper := (State.sr_writeCcr_and u v).1.trans h.upper
  gap _ := (State.sr_writeCcr_and u v).2

theorem sideEffect (h : StatusKept dest s u) (ea : Ea) (sz : Size) : StatusKept dest s (sideEffect ea sz u) :=
  h.congr (status_sideEffect ea sz u)

/-- An operand replaced changes the flags it is replaced with (R158, R200). -/
theorem replaced (h : StatusKept dest s u) {f : Ccr} (hf : FlagsKept dest u.ccr f) (ea : Ea) (sz : Size) (ext v : Long) :
    StatusKept dest s (replaced ea sz ext v f u) :=
  ((h.sideEffect ea sz).setCcr (by rwa [sideEffect_ccr])).congr (status_storeAt _ _ _ _)

/-- SR bits 15:5 as the obligation reads them. -/
theorem srAbove (h : StatusKept dest s u) (hs : s.sr &&& 0xE0 = 0) : u.sr &&& 0xFFE0 = s.sr &&& 0xFFE0 := by
  have parts (w : Word) : w &&& 0xFFE0 = (w &&& 0xFF00) ||| (w &&& 0xE0) := by rw [← BitVec.and_or_distrib_left]; rfl
  rw [parts, parts, h.upper, h.gap hs, hs]

end StatusKept

/-! ## How an instruction ends -/

/-- The outcome is a state with `R`, PC moved past `n` bytes. -/
def EndsPast (R : State → Prop) (n : Nat) (o : Host.Outcome State Fault Refusal) : Prop := ∃ u, R u ∧ o = .next (advance n u)

/-- The outcome is a state with `R`, PC assigned. -/
def EndsElsewhere (R : State → Prop) (o : Host.Outcome State Fault Refusal) : Prop := ∃ u a, R u ∧ o = .next (jumpTo a u)

section
variable {R : State → Prop} {s u : State} (ht : s.traced = false)
include ht

theorem retire_endsPast {n m : Nat} (hn : n = m) (h : R u) : EndsPast R m (retire n s (.ok () u)) :=
  ⟨u, h, hn ▸ retire_ok ht n u⟩

theorem conclude_endsElsewhere (h : R u) (a : Long) : EndsElsewhere R (conclude s (.ok () (jumpTo a u))) :=
  ⟨u, a, h, conclude_ok ht _⟩

/-- A branch not taken goes on behind itself (47_program_control.md R331). -/
theorem conclude_advance_endsElsewhere (h : R u) (n : Nat) : EndsElsewhere R (conclude s (.ok () (advance n u))) :=
  conclude_endsElsewhere ht h (u.pc + BitVec.ofNat 32 n)

variable {ea : Ea} {sz : Size} {ext : Long} {n m : Nat}

/-- An instruction that reads an operand and goes on with `g`. -/
theorem loadEa_endsPast {g : Long → State → State} (hc : operandReady ea sz ext s = true) (hn : n = m)
    (hg : R (g (operandValue ea sz ext s) (sideEffect ea sz s))) : EndsPast R m (retire n s (loadEa ea sz ext g s)) := by
  rw [loadEa_ready g hc]
  exact retire_endsPast ht hn hg

variable {dest : Ccr}

/-- An instruction that only sets flags by its operand (CMP, TST, BTST). -/
theorem loadEa_setCcr_endsPast {f : Long → State → Ccr} (hc : operandReady ea sz ext s = true) (hn : n = m)
    (hf : ∀ e u, FlagsKept dest u.ccr (f e u)) :
    EndsPast (StatusKept dest s) m (retire n s (loadEa ea sz ext (fun e u => u.setCcr (f e u)) s)) :=
  loadEa_endsPast ht hc hn ((StatusKept.refl.sideEffect ea sz).setCcr (hf _ _))

/-- A read-modify-write instruction (R158). -/
theorem updateEa_endsPast {g : Long → State → Long × Ccr} (hi : ea.kind ≠ .imm) (hc : operandReady ea sz ext s = true) (hn : n = m)
    (hg : ∀ e u, FlagsKept dest u.ccr (g e u).2) : EndsPast (StatusKept dest s) m (retire n s (updateEa ea sz ext g s)) := by
  rw [updateEa_ready g hc hi]
  refine retire_endsPast ht hn (StatusKept.refl.replaced ?_ ea sz ext _)
  simpa only [sideEffect_ccr] using hg (operandValue ea sz ext s) (sideEffect ea sz s)

/-- An instruction that stores an operand without reading it and leaves the flags. -/
theorem writeEa_endsPast {v : Long} (hi : ea.kind ≠ .imm) (hc : operandReady ea sz ext s = true) (hn : n = m) :
    EndsPast (StatusKept dest s) m (retire n s (writeEa ea sz ext v s)) := by
  rw [writeEa_ready v hc hi]
  exact retire_endsPast ht hn (.of_status_eq (by simp))

end

/-! ## The length of an instruction by its format -/

section
variable (rx opm : BitVec 3) (sz : Size) (ea : Ea)

theorem eaLength_eq_encEa (line : BitVec 4) : eaLength ea sz = 2 * (encEa line rx opm sz ea).length := by
  rw [encEa_length, eaLength, Ea.extBytes, Nat.mul_add]

theorem length_eq_encImm (v : Long) : eaLength ea sz + immBytes sz = 2 * (encImm rx sz v ea).length := by
  have imm : immBytes sz = 2 * (immWords sz v).length := by cases sz <;> rfl
  rw [encImm_length, imm, eaLength, Ea.extBytes]
  omega

/-- An opcode, one word, and an operand's extension words (MOVEM, the static bit forms). -/
theorem four_add_extBytes (op w : Word) : 4 + ea.extBytes sz = 2 * (op :: w :: ea.extWords sz).length := by
  rw [List.length_cons, List.length_cons, Ea.extBytes]
  omega

end

/-! ## The shared forms of the instructions -/

section
variable {s : State} (ht : s.traced = false) {dest : Ccr} {line : BitVec 4} {rx opm : BitVec 3} {sz : Size} {ea : Ea} {n : Reg}
include ht

theorem eaToDn_endsPast {op : Long → Long → Ccr → Long × Ccr} (hop : ∀ src dst f, FlagsKept dest f (op src dst f).2)
    (hc : operandReady ea sz (s.pc + 2) s = true) :
    EndsPast (StatusKept dest s) (2 * (encEa line rx opm sz ea).length) (eaToDn op sz ea n s) :=
  loadEa_endsPast ht hc (eaLength_eq_encEa ..)
    (((StatusKept.refl.sideEffect ea sz).setCcr (hop _ _ _)).congr (State.status_writeD ..))

theorem dnToEa_endsPast {op : Long → Long → Ccr → Long × Ccr} (hop : ∀ src dst f, FlagsKept dest f (op src dst f).2)
    (hi : ea.kind ≠ .imm) (hc : operandReady ea sz (s.pc + 2) s = true) :
    EndsPast (StatusKept dest s) (2 * (encEa line rx opm sz ea).length) (dnToEa op sz n ea s) :=
  updateEa_endsPast ht hi hc (eaLength_eq_encEa ..) fun _ _ => hop _ _ _

theorem immToEa_endsPast {op : Long → Long → Ccr → Long × Ccr} (hop : ∀ src dst f, FlagsKept dest f (op src dst f).2) {imm : Long}
    (hw : (sz.fits imm && ea.ok .dataAlterable sz) = true)
    (hc : operandReady ea sz (s.pc + 2 + BitVec.ofNat 32 (immBytes sz)) s = true) :
    EndsPast (StatusKept dest s) (2 * (encImm rx sz imm ea).length) (immToEa op sz imm ea s) :=
  updateEa_endsPast ht (kind_of_ok_dataAlterable (Bool.and_elim_right hw)).1 hc (length_eq_encImm ..) fun _ _ => hop _ _ _

theorem unaryEa_endsPast {op : Long → Ccr → Long × Ccr} (hop : ∀ e f, FlagsKept dest f (op e f).2)
    (hw : ea.ok .dataAlterable sz = true) (hc : operandReady ea sz (s.pc + 2) s = true) :
    EndsPast (StatusKept dest s) (2 * (encEa line rx opm sz ea).length) (unaryEa op sz ea s) :=
  updateEa_endsPast ht (kind_of_ok_dataAlterable hw).1 hc (eaLength_eq_encEa ..) fun _ _ => hop _ _

theorem eaToAn_endsPast {op : Long → Long → Long} {sz : WordLong} (hc : operandReady ea sz.size (s.pc + 2) s = true) :
    EndsPast (StatusKept dest s) (2 * (encEa line rx opm sz.size ea).length) (eaToAn op sz n ea s) :=
  loadEa_endsPast ht hc (eaLength_eq_encEa ..) (.of_status_eq (by simp))

theorem mulToDn_endsPast {op : Word → Word → Long} (hc : operandReady ea .w (s.pc + 2) s = true) :
    EndsPast (StatusKept .nzvc s) (2 * (encEa line rx opm .w ea).length) (mulToDn op n ea s) :=
  loadEa_endsPast ht hc (eaLength_eq_encEa ..)
    (((StatusKept.refl.sideEffect ea .w).setCcr (moveFlags_kept _ _ _)).congr (State.status_setDreg ..))

/-- The quick forms set no flag where the operand is An (R234). -/
theorem quickEa_endsPast {op : Long → Long → Ccr → Long × Ccr} {opA : Long → Long → Long} {q : BitVec 3}
    (hw : ea.ok .alterable sz = true) (hc : operandReady ea sz (s.pc + 2) s = true) :
    EndsPast (StatusKept (if ea.kind = .an then .noFlag else .xnzvc) s) (2 * (encEa line rx opm sz ea).length)
      (quickEa op opA sz q ea s) := by
  have hi := kind_of_ok_alterable hw
  cases ea with
  | an n => exact retire_endsPast ht rfl (.of_status_eq (State.status_setAreg ..))
  | _ => exact updateEa_endsPast ht hi hc (eaLength_eq_encEa ..) fun _ _ => .xnzvc

theorem pairOp_endsPast {op : Long → Long → Ccr → Long × Ccr} {form : PairForm} {x y : Reg}
    (hc : form = .preDecs → pairReady sz (.preDec y) (.preDec x) s = true) :
    EndsPast (StatusKept .xnzvc s) 2 (pairOp op sz form x y s) := by
  cases form with
  | dregs => exact retire_endsPast ht rfl ((StatusKept.refl.setCcr .xnzvc).congr (State.status_writeD ..))
  | preDecs =>
    have ready := hc rfl
    simp only [pairReady, Bool.and_eq_true] at ready
    obtain ⟨hsrc, hdst⟩ := ready
    simp only [pairOp, readEa_ready hsrc, Res.bind_ok, updateEa_ready _ hdst (by simp [Ea.kind] : (Ea.preDec x).kind ≠ .imm)]
    exact retire_endsPast ht rfl ((StatusKept.refl.sideEffect _ _).replaced .xnzvc _ _ _ _)

theorem shiftDn_endsPast {step : Size → ShiftState → ShiftState} {roxc keepV : Bool} {cnt : ShiftCount} {y : Reg}
    (hstep : ∀ c0 cnt v f, FlagsKept dest f (shiftOp step c0 keepV sz cnt v f).2) :
    EndsPast (StatusKept dest s) 2 (shiftDn step roxc keepV sz cnt y s) :=
  retire_endsPast ht rfl ((StatusKept.refl.setCcr (hstep _ _ _ _)).congr (State.status_writeD ..))

theorem shiftEa_endsPast {step : Size → ShiftState → ShiftState} {keepV : Bool}
    (hstep : ∀ v f, FlagsKept dest f (shiftOp step false keepV .w 1 v f).2) (hw : ea.ok .memoryAlterable .w = true)
    (hc : operandReady ea .w (s.pc + 2) s = true) :
    EndsPast (StatusKept dest s) (2 * (encEa line rx opm .w ea).length) (shiftEa step keepV ea s) :=
  updateEa_endsPast ht (kind_of_ok_memoryAlterable hw).1 hc (eaLength_eq_encEa ..) fun _ _ => hstep _ _

theorem bitTest_endsPast {k m num : Nat} (hn : k + ea.extBytes ea.bitSize = m) :
    EndsPast (StatusKept .onlyZ s) m (bitTest k num ea s) :=
  loadEa_setCcr_endsPast ht (operandReady_bitSize ea _ s) hn fun _ _ => bitFlags_kept _ _ _

theorem bitModify_endsPast {op : Long → Long → Long} {k m num : Nat} (hw : ea.ok .dataAlterable ea.bitSize = true)
    (hn : k + ea.extBytes ea.bitSize = m) : EndsPast (StatusKept .onlyZ s) m (bitModify op k num ea s) :=
  updateEa_endsPast ht (kind_of_ok_dataAlterable hw).1 (operandReady_bitSize ea _ s) hn fun _ _ => bitFlags_kept _ _ _

theorem divDn_endsPast {signed : Bool} {op : Long → Word → Option (Word × Word)}
    (hc : (operandReady ea .w (s.pc + 2) s && operandValue ea .w (s.pc + 2) s != 0) = true) :
    EndsPast (StatusKept .nzvc s) (2 * (encEa line rx opm .w ea).length) (divDn signed op n ea s) := by
  simp only [Bool.and_eq_true, bne_iff_ne, ne_eq] at hc
  obtain ⟨ready, nonzero⟩ := hc
  have divisor : lowWord (operandValue ea .w (s.pc + 2) s) ≠ 0 := fun h => nonzero (by rw [operandValue_word, h]; rfl)
  have read : StatusKept .nzvc s (sideEffect ea .w s) := StatusKept.refl.sideEffect ea .w
  simp only [divDn, readEa_ready ready, Res.bind_ok, if_neg divisor]
  split
  · exact retire_endsPast ht (eaLength_eq_encEa ..) (read.setCcr (.nzvc rfl))
  · exact retire_endsPast ht (eaLength_eq_encEa ..) ((read.setCcr (moveFlags_kept _ _ _)).congr (State.status_setDreg ..))

/-! ## Single instructions -/

theorem execChk_endsPast (hc : (Instr.chk n ea).completes s = true) :
    EndsPast (StatusKept .nzvc s) (2 * (encEa line rx opm .w ea).length) (execChk n ea s) := by
  obtain ⟨ready, notNegative, notAbove⟩ := chk_completes_iff.mp hc
  simp only [execChk, readEa_ready ready, Res.bind_ok, sideEffect_dreg, notNegative, notAbove, Bool.false_eq_true, if_false]
  exact retire_endsPast ht (eaLength_eq_encEa ..) ((StatusKept.refl.sideEffect ea .w).setCcr (.nzvc rfl))

theorem execMove_endsPast {src dst : Ea} (hw : (Instr.move sz src dst).wellFormed = true)
    (hc : (Instr.move sz src dst).completes s = true) :
    EndsPast (StatusKept .nzvc s) (Instr.move sz src dst).length (execMove sz src dst s) := by
  have hi := (kind_of_ok_dataAlterable (Bool.and_elim_right hw)).1
  simp only [Instr.completes, Bool.and_eq_true] at hc
  obtain ⟨srcReady, dstReady⟩ := hc
  rw [execMove, readEa_ready srcReady, Res.bind_ok, storeEa_ready _ _ dstReady hi]
  have length : 2 + src.extBytes sz + dst.extBytes sz = (Instr.move sz src dst).length := by
    simp only [Instr.length, encode, List.length_cons, List.length_append, Ea.extBytes]
    omega
  exact retire_endsPast ht length ((StatusKept.refl.sideEffect src sz).replaced (moveFlags_kept _ _ _) _ _ _ _)

theorem execCmpm_endsPast {x y : Reg} (hc : pairReady sz (.postInc y) (.postInc x) s = true) :
    EndsPast (StatusKept .nzvc s) 2 (execCmpm sz x y s) := by
  simp only [pairReady, Bool.and_eq_true] at hc
  obtain ⟨hsrc, hdst⟩ := hc
  rw [execCmpm, readEa_ready hsrc, Res.bind_ok, loadEa_ready _ hdst]
  exact retire_endsPast ht rfl (((StatusKept.refl.sideEffect _ _).sideEffect _ _).setCcr (cmpFlags_kept _ _ _ _ _))

theorem execClr_endsPast (hw : ea.ok .dataAlterable sz = true) (hc : operandReady ea sz (s.pc + 2) s = true) :
    EndsPast (StatusKept .nzvc s) (2 * (encEa line rx opm sz ea).length) (execClr sz ea s) := by
  rw [execClr, storeEa_ready _ _ hc (kind_of_ok_dataAlterable hw).1]
  refine retire_endsPast ht (eaLength_eq_encEa ..) (StatusKept.refl.replaced ?_ _ _ _ _)
  exact .nzvc rfl

theorem execMovep_endsPast {dir : MovepDir} {sz : WordLong} {dx ay : Reg} {d : Word} :
    EndsPast (StatusKept dest s) 4 (execMovep dir sz dx ay d s) := by
  cases dir with
  | memToReg => exact retire_endsPast ht rfl (.of_status_eq (State.status_writeD ..))
  | regToMem => exact retire_endsPast ht rfl (.of_status_eq (State.status_with_mem ..))

theorem execMovemToMem_endsPast {sz : WordLong} {mask : Word} (hw : ea.ok .controlAlterablePreDec sz.size = true)
    (hc : movemReady sz.size mask (movemBase ea s) = true) :
    EndsPast (StatusKept dest s) (Instr.movemToMem sz mask ea).length (execMovemToMem sz mask ea s) := by
  have aligned := maskList_nil_or_aligned hc
  rcases ok_controlAlterablePreDec_cases hw with control | ⟨n, rfl⟩
  · rw [movemBase_control control] at aligned
    obtain ⟨b, m, stored⟩ := movemStoreUp_ready aligned s
    rw [execMovemToMem, movemToMemBody_control control, stored]
    exact retire_endsPast ht (four_add_extBytes ..) (.of_status_eq (State.status_with_mem ..))
  · obtain ⟨b, m, stored⟩ := movemStoreDown_ready aligned s
    rw [show movemBase (.preDec n) s = s.areg n from rfl] at stored
    simp only [execMovemToMem, movemToMemBody, stored, Res.bind_ok]
    exact retire_endsPast ht (four_add_extBytes ..) (.of_status_eq (by simp))

omit ht in
/-- MOVEM's loads change registers only (R205). -/
theorem movemLoad_status {ks : List (Fin 16)} {a b : Long} {t : State} (h : movemLoad sz ks a s = .ok b t) :
    t.status = s.status := by
  induction ks generalizing a s with
  | nil => cases h; rfl
  | cons k ks ih =>
    cases aligned : misaligned a sz
    · rw [movemLoad, memRead_aligned aligned, Res.bind_ok] at h
      exact (ih h).trans (State.status_setMovemReg s k _)
    · rw [movemLoad_odd aligned] at h
      cases h

theorem execMovemToRegs_endsPast {sz : WordLong} {mask : Word} (hw : ea.ok .controlPostInc sz.size = true)
    (hc : movemReady sz.size mask (movemBase ea s) = true) :
    EndsPast (StatusKept dest s) (Instr.movemToRegs sz mask ea).length (execMovemToRegs sz mask ea s) := by
  obtain ⟨b, t, loaded, -, -⟩ := movemLoad_ready (dd := fun _ => true) (ad := fun _ => true) (fun _ _ _ _ => rfl)
    (fun _ _ _ _ => rfl) (maskList_nil_or_aligned hc) (RegsKept.refl (s := s)) rfl
  rcases ok_controlPostInc_cases hw with control | ⟨n, rfl⟩
  · rw [movemBase_control control] at loaded
    rw [execMovemToRegs, movemToRegsBody_control control, loaded]
    exact retire_endsPast ht (four_add_extBytes ..) (.of_status_eq (movemLoad_status loaded))
  · rw [show movemBase (.postInc n) s = s.areg n from rfl] at loaded
    simp only [execMovemToRegs, movemToRegsBody, loaded, Res.bind_ok]
    exact retire_endsPast ht (four_add_extBytes ..) (.of_status_eq ((State.status_setAreg ..).trans (movemLoad_status loaded)))

theorem execLea_endsPast (hw : ea.ok .control .l = true) :
    EndsPast (StatusKept dest s) (2 * (encEa line rx opm .l ea).length) (execLea n ea s) := by
  rw [execLea, addressEa_control (kind_of_ok_control hw), Res.bind_ok]
  exact retire_endsPast ht (eaLength_eq_encEa ..) (.of_status_eq (State.status_setAreg ..))

theorem execPea_endsPast (hw : ea.ok .control .l = true) (hc : s.spEven = true) :
    EndsPast (StatusKept dest s) (2 * (encEa line rx opm .l ea).length) (execPea ea s) := by
  rw [execPea, addressEa_control (kind_of_ok_control hw), Res.bind_ok, push_spEven hc]
  exact retire_endsPast ht (eaLength_eq_encEa ..) (.of_status_eq (status_pushed ..))

theorem execLink_endsPast {d : Word} (hc : s.spEven = true) : EndsPast (StatusKept dest s) 4 (execLink n d s) := by
  simp only [execLink, State.sp_setSp, memWrite_aligned (misaligned_sp_sub_four hc), Res.bind_ok]
  have stored (m : Memory) : StatusKept dest s { s.setSp (s.sp - 4) with mem := m } := .of_status_eq (State.status_setSp s _)
  exact retire_endsPast ht rfl (((stored _).congr (State.status_setAreg ..)).congr (State.status_setSp ..))

theorem execUnlk_endsPast (hc : (!(s.areg n).getLsbD 0) = true) : EndsPast (StatusKept dest s) 2 (execUnlk n s) := by
  simp only [execUnlk, memRead_aligned (misaligned_of_even (by simpa using hc) .l), Res.bind_ok]
  exact retire_endsPast ht rfl (.of_status_eq (by simp))

theorem execTrapv_endsPast (hc : (!s.ccr.v) = true) : EndsPast (StatusKept dest s) 2 (execTrapv s) := by
  rw [execTrapv, if_neg (by simpa using hc)]
  exact retire_endsPast ht rfl .refl

/-- A privileged instruction in supervisor mode that leaves the status (MOVE USP, RESET). -/
theorem privileged_endsPast {body : State → State} {k : Nat} (hc : s.supervisor = true) (hb : (body s).status = s.status) :
    EndsPast (StatusKept dest s) k (retire k s (privileged (fun u => .ok () (body u)) s)) := by
  rw [privileged_supervisor _ _ hc]
  exact retire_endsPast ht rfl (.of_status_eq hb)

theorem execJmp_endsElsewhere (hw : ea.ok .control .l = true) : EndsElsewhere (StatusKept dest s) (execJmp ea s) := by
  rw [execJmp, addressEa_control (kind_of_ok_control hw), Res.bind_ok]
  exact conclude_endsElsewhere ht .refl _

theorem execJsr_endsElsewhere (hw : ea.ok .control .l = true) (hc : s.spEven = true) :
    EndsElsewhere (StatusKept dest s) (execJsr ea s) := by
  rw [execJsr, addressEa_control (kind_of_ok_control hw), Res.bind_ok, push_spEven hc]
  exact conclude_endsElsewhere ht (.of_status_eq (status_pushed ..)) _

theorem execBsr_endsElsewhere {disp : BranchDisp} (hc : s.spEven = true) :
    EndsElsewhere (StatusKept dest s) (execBsr disp s) := by
  rw [execBsr, push_spEven hc]
  exact conclude_endsElsewhere ht (.of_status_eq (status_pushed ..)) _

theorem execRts_endsElsewhere (hc : s.spEven = true) : EndsElsewhere (StatusKept dest s) (execRts s) := by
  rw [execRts, pop_spEven hc]
  exact conclude_endsElsewhere ht (.of_status_eq (State.status_setSp ..)) _

theorem execRtr_endsElsewhere (hc : s.spEven = true) : EndsElsewhere (StatusKept .xnzvc s) (execRtr s) := by
  rw [execRtr, pop_spEven hc, Res.bind_ok, stackStep, pop_spEven (spEven_setSp_add_two hc), Res.bind_ok]
  exact conclude_endsElsewhere ht (StatusKept.writeCcr (.of_status_eq (by simp)) _) _

theorem execBcc_endsElsewhere {cond : Cond} {disp : BranchDisp} : EndsElsewhere (StatusKept dest s) (execBcc cond disp s) := by
  unfold execBcc
  split
  · exact conclude_endsElsewhere ht .refl _
  · exact conclude_advance_endsElsewhere ht .refl _

theorem execDbcc_endsElsewhere {cond : Cond} {d : Word} : EndsElsewhere (StatusKept dest s) (execDbcc cond n d s) := by
  have counted (v : Long) : StatusKept dest s (s.writeD n .w v) := .of_status_eq (State.status_writeD ..)
  unfold execDbcc
  dsimp only
  split
  · exact conclude_advance_endsElsewhere ht .refl _
  · split
    · exact conclude_advance_endsElsewhere ht (counted _) _
    · exact conclude_endsElsewhere ht (counted _) _

end

/-! ## Every instruction -/

/-- A well-formed instruction that runs to its end and assigns neither PC nor SR leaves PC behind itself and keeps its status. One case
per form, grouped by the operation the instructions share. -/
theorem exec_endsPast {i : Instr} {s : State} (hw : i.wellFormed = true) (ht : s.traced = false) (hc : i.completes s = true)
    (noSr : i.writesSr = false) (noPc : i.assignsPc = false) :
    EndsPast (StatusKept i.flagDest s) i.length (exec i s) := by
  unfold exec
  cases i with
  | oriToCcr imm | andiToCcr imm | eoriToCcr imm => exact retire_endsPast ht rfl (StatusKept.refl.writeCcr _)
  | oriToSr _ | andiToSr _ | eoriToSr _ | moveToSr _ | stop _ | rte => cases noSr
  | bra _ | bsr _ | bcc _ _ | dbcc _ _ _ | jmp _ | jsr _ | rts | rtr | trap _ | illegal => cases noPc
  | ori sz imm ea | andi sz imm ea | eori sz imm ea => exact immToEa_endsPast ht (fun _ _ _ => moveFlags_kept ..) hw hc
  | subi sz imm ea | addi sz imm ea => exact immToEa_endsPast ht (fun _ _ _ => .xnzvc) hw hc
  | btstImm num ea => exact bitTest_endsPast ht (four_add_extBytes ..)
  | btstDyn n ea => exact bitTest_endsPast ht (eaLength_eq_encEa ..)
  | bchgImm num ea | bclrImm num ea | bsetImm num ea => exact bitModify_endsPast ht hw (four_add_extBytes ..)
  | bchgDyn n ea | bclrDyn n ea | bsetDyn n ea => exact bitModify_endsPast ht hw (eaLength_eq_encEa ..)
  | movep dir sz dx ay d => exact execMovep_endsPast ht
  | move sz src dst => exact execMove_endsPast ht hw hc
  | movea sz n src => exact loadEa_endsPast ht hc (eaLength_eq_encEa ..) (.of_status_eq (by simp))
  | negx sz ea | neg sz ea => exact unaryEa_endsPast ht (fun _ _ => .xnzvc) hw hc
  | nbcd ea => exact unaryEa_endsPast ht (fun _ _ => .xnzvc) hw (operandReady_byte ea _ s)
  | not sz ea => exact unaryEa_endsPast ht (fun _ _ => moveFlags_kept ..) hw hc
  | clr sz ea => exact execClr_endsPast ht hw hc
  | moveFromSr ea => exact writeEa_endsPast ht (kind_of_ok_dataAlterable hw).1 hc (eaLength_eq_encEa ..)
  | scc cond ea => exact writeEa_endsPast ht (kind_of_ok_dataAlterable hw).1 (operandReady_byte ea _ s) (eaLength_eq_encEa ..)
  | tas ea =>
    exact updateEa_endsPast ht (kind_of_ok_dataAlterable hw).1 (operandReady_byte ea _ s) (eaLength_eq_encEa ..)
      fun _ _ => moveFlags_kept ..
  | moveToCcr ea =>
    exact loadEa_endsPast ht hc (eaLength_eq_encEa ..) ((StatusKept.refl.sideEffect ea .w).writeCcr _)
  | chk n ea => exact execChk_endsPast ht hc
  | lea n ea => exact execLea_endsPast ht hw
  | pea ea => exact execPea_endsPast ht hw hc
  | link n d => exact execLink_endsPast ht hc
  | unlk n => exact execUnlk_endsPast ht hc
  | swap n | extL n | moveq n data =>
    exact retire_endsPast ht rfl ((StatusKept.refl.setCcr (moveFlags_kept ..)).congr (State.status_setDreg ..))
  | extW n => exact retire_endsPast ht rfl ((StatusKept.refl.setCcr (moveFlags_kept ..)).congr (State.status_writeD ..))
  | movemToMem sz mask ea => exact execMovemToMem_endsPast ht hw hc
  | movemToRegs sz mask ea => exact execMovemToRegs_endsPast ht hw hc
  | moveToUsp n => exact privileged_endsPast ht hc (State.status_with_usp ..)
  | moveFromUsp n => exact privileged_endsPast ht hc (State.status_setAreg ..)
  | reset => exact privileged_endsPast ht hc rfl
  | nop => exact retire_endsPast ht rfl .refl
  | trapv => exact execTrapv_endsPast ht hc
  | addq sz q ea | subq sz q ea => exact quickEa_endsPast ht hw hc
  | orEaDn sz ea n | andEaDn sz ea n => exact eaToDn_endsPast ht (fun _ _ _ => moveFlags_kept ..) hc
  | subEaDn sz ea n | addEaDn sz ea n => exact eaToDn_endsPast ht (fun _ _ _ => .xnzvc) hc
  | orDnEa sz n ea | andDnEa sz n ea =>
    exact dnToEa_endsPast ht (fun _ _ _ => moveFlags_kept ..) (kind_of_ok_memoryAlterable hw).1 hc
  | subDnEa sz n ea | addDnEa sz n ea => exact dnToEa_endsPast ht (fun _ _ _ => .xnzvc) (kind_of_ok_memoryAlterable hw).1 hc
  | eor sz n ea => exact dnToEa_endsPast ht (fun _ _ _ => moveFlags_kept ..) (kind_of_ok_dataAlterable hw).1 hc
  | divu n ea | divs n ea => exact divDn_endsPast ht hc
  | mulu n ea | muls n ea => exact mulToDn_endsPast ht hc
  | suba sz n ea | adda sz n ea => exact eaToAn_endsPast ht hc
  | cmp sz ea n | cmpa sz n ea =>
    exact loadEa_setCcr_endsPast ht hc (eaLength_eq_encEa ..) fun _ _ => cmpFlags_kept ..
  | cmpi sz imm ea => exact loadEa_setCcr_endsPast ht hc (length_eq_encImm ..) fun _ _ => cmpFlags_kept ..
  | tst sz ea => exact loadEa_setCcr_endsPast ht hc (eaLength_eq_encEa ..) fun _ _ => moveFlags_kept ..
  | cmpm sz x y => exact execCmpm_endsPast ht hc
  | abcd form x y | sbcd form x y =>
    exact pairOp_endsPast ht fun _ => by simp only [pairReady, operandReady_byte, Bool.and_self]
  | addx sz form x y | subx sz form x y => exact pairOp_endsPast ht (by rintro rfl; exact hc)
  | exgDD x y => exact retire_endsPast ht rfl (.of_status_eq rfl)
  | exgAA x y | exgDA x y => exact retire_endsPast ht rfl (.of_status_eq (by simp))
  | asrReg sz cnt y | aslReg sz cnt y | lsrReg sz cnt y | lslReg sz cnt y | roxrReg sz cnt y | roxlReg sz cnt y =>
    exact shiftDn_endsPast ht fun _ _ _ _ => .xnzvc
  | rorReg sz cnt y => exact shiftDn_endsPast ht fun _ _ _ _ => shiftOp_kept rorStep_x ..
  | rolReg sz cnt y => exact shiftDn_endsPast ht fun _ _ _ _ => shiftOp_kept rolStep_x ..
  | asrMem ea | aslMem ea | lsrMem ea | lslMem ea | roxrMem ea | roxlMem ea =>
    exact shiftEa_endsPast ht (fun _ _ => .xnzvc) hw hc
  | rorMem ea => exact shiftEa_endsPast ht (fun _ _ => shiftOp_kept rorStep_x ..) hw hc
  | rolMem ea => exact shiftEa_endsPast ht (fun _ _ => shiftOp_kept rolStep_x ..) hw hc

/-- A branch, jump or return other than RTE keeps its status. -/
theorem exec_endsElsewhere {i : Instr} {s : State} (hw : i.wellFormed = true) (ht : s.traced = false) (hc : i.completes s = true)
    (noSr : i.writesSr = false) (toPc : i.assignsPc = true) : EndsElsewhere (StatusKept i.flagDest s) (exec i s) := by
  unfold exec
  cases i with
  | bra disp => exact conclude_endsElsewhere ht .refl _
  | bsr disp => exact execBsr_endsElsewhere ht hc
  | bcc cond disp => exact execBcc_endsElsewhere ht
  | dbcc cond n d => exact execDbcc_endsElsewhere ht
  | jmp ea => exact execJmp_endsElsewhere ht hw
  | jsr ea => exact execJsr_endsElsewhere ht hw hc
  | rts => exact execRts_endsElsewhere ht hc
  | rtr => exact execRtr_endsElsewhere ht hc
  | trap _ | illegal => cases hc
  | rte => cases noSr
  | _ => cases toPc

/-! ## The instructions that write SR -/

theorem flagDest_of_writesSr {i : Instr} (h : i.writesSr = true) : i.flagDest = .xnzvc := by
  cases i with
  | oriToSr _ | andiToSr _ | eoriToSr _ | moveToSr _ | stop _ | rte => rfl
  | _ => cases h

section
variable {s : State} (ht : s.traced = false)
include ht

theorem immToSr_endsPast {op : Word → Word → Word} {imm : Word} (hc : s.supervisor = true) :
    EndsPast (SequenceKept s) 4 (immToSr op imm s) := by
  rw [immToSr, privileged_supervisor _ _ hc]
  exact retire_endsPast ht rfl ⟨rfl, rfl⟩

theorem execMoveToSr_endsPast {ea : Ea} (hc : (Instr.moveToSr ea).completes s = true) :
    EndsPast (SequenceKept s) (Instr.moveToSr ea).length (execMoveToSr ea s) := by
  simp only [Instr.completes, Bool.and_eq_true] at hc
  obtain ⟨supervisor, ready⟩ := hc
  have read : StatusKept .xnzvc s (sideEffect ea .w s) := StatusKept.refl.sideEffect ea .w
  rw [execMoveToSr, privileged_supervisor _ _ supervisor]
  exact loadEa_endsPast ht ready (eaLength_eq_encEa ..) ⟨read.pc, read.hidden⟩

omit ht in
/-- The return from an even SSP loads SR and PC and steps SSP over both (R421). -/
theorem returnFromException_even (even : s.ssp.getLsbD 0 = false) :
    returnFromException s = .ok () (jumpTo (s.mem.load (s.ssp + 2) .l)
      (({ s with ssp := s.ssp + 6 } : State).writeSr (lowWord (s.mem.load s.ssp .w)))) := by
  have even2 : misaligned (s.ssp + 2) .l = false := misaligned_of_even (by rw [getLsbD_zero_add _ _ (by decide), even]) .l
  rw [returnFromException, memRead_aligned (misaligned_of_even even .w), Res.bind_ok, memRead_aligned even2, Res.bind_ok, jumpTo]

theorem execRte_endsElsewhere (hc : (s.supervisor && !s.ssp.getLsbD 0) = true) :
    EndsElsewhere (SequenceKept s) (execRte s) := by
  simp only [Bool.and_eq_true, Bool.not_eq_true'] at hc
  obtain ⟨supervisor, even⟩ := hc
  rw [execRte, privileged_supervisor _ _ supervisor, returnFromException_even even]
  exact conclude_endsElsewhere ht ⟨rfl, rfl⟩ _

/-- STOP moves PC past itself, stores SR and stops (R376). -/
theorem execStop_next {imm : Word} (hc : s.supervisor = true) :
    execStop imm s = .next { advance 4 (s.writeSr imm) with stopped := true } := by
  rw [execStop, privileged_supervisor _ _ hc, conclude_ok ht]

end

/-! ## The state an instruction ends in -/

/-- The instruction ends in a state with `R` but for PC, which is past it unless the instruction assigns PC (R29). -/
def Ends (R : State → Prop) (i : Instr) (s t : State) : Prop :=
  ∃ u a, R u ∧ t = jumpTo a u ∧ (i.assignsPc = false → a = s.pc + BitVec.ofNat 32 i.length)

theorem EndsPast.ends {R : State → Prop} {i : Instr} {s t : State} {o : Host.Outcome State Fault Refusal}
    (h : EndsPast R i.length o) (hpc : ∀ u, R u → u.pc = s.pc) (e : o = .next t) : Ends R i s t := by
  obtain ⟨u, hu, answer⟩ := h
  obtain rfl : t = advance i.length u := by simpa [e] using answer
  exact ⟨u, _, hu, rfl, fun _ => by rw [hpc u hu]⟩

theorem EndsElsewhere.ends {R : State → Prop} {i : Instr} {s t : State} {o : Host.Outcome State Fault Refusal}
    (h : EndsElsewhere R o) (toPc : i.assignsPc = true) (e : o = .next t) : Ends R i s t := by
  obtain ⟨u, a, hu, answer⟩ := h
  exact ⟨u, a, hu, by simpa [e] using answer, by simp [toPc]⟩

section
variable {i : Instr} {s t : State} (hw : i.wellFormed = true) (ht : s.traced = false) (hc : i.completes s = true)
  (h : exec i s = .next t)
include hw ht hc h

theorem exec_statusKept (noSr : i.writesSr = false) : Ends (StatusKept i.flagDest s) i s t := by
  cases toPc : i.assignsPc
  · exact (exec_endsPast hw ht hc noSr toPc).ends (fun _ kept => kept.pc) h
  · exact (exec_endsElsewhere hw ht hc noSr toPc).ends toPc h

/-- PC and the hidden fields after every instruction but STOP. -/
theorem exec_sequenceKept (notStop : ∀ imm, i ≠ .stop imm) : Ends (SequenceKept s) i s t := by
  cases writes : i.writesSr
  · obtain ⟨u, a, kept, rest⟩ := exec_statusKept hw ht hc h writes
    exact ⟨u, a, kept.toSequenceKept, rest⟩
  · cases i with
    | oriToSr imm | andiToSr imm | eoriToSr imm => exact (immToSr_endsPast ht hc).ends (fun _ kept => kept.pc) h
    | moveToSr ea => exact (execMoveToSr_endsPast ht hc).ends (fun _ kept => kept.pc) h
    | rte => exact (execRte_endsElsewhere ht hc).ends rfl h
    | stop imm => exact absurd rfl (notStop imm)
    | _ => cases writes

end

/-- Settles O47: the flags and SR by the status frame, or by nothing to show where SR is written; PC and the hidden fields by STOP's own
equation and the sequence frame of every other instruction. -/
theorem instructionsChangeOnlyTheirStatus : Obligations.InstructionsChangeOnlyTheirStatus := by
  unfold Obligations.InstructionsChangeOnlyTheirStatus
  constructor
  · intro i s t hw ht hc h
    cases writes : i.writesSr
    · obtain ⟨u, a, kept, rfl, -⟩ := exec_statusKept hw ht hc h writes
      exact ⟨kept.flags.x, kept.flags.n, kept.flags.z, kept.flags.v, kept.flags.c, fun _ => kept.srAbove⟩
    · rw [flagDest_of_writesSr writes]
      exact ⟨nofun, nofun, nofun, nofun, nofun, nofun⟩
  · intro i s t hw ht hc h
    split
    case h_1 imm =>
      obtain rfl : _ = t := Host.Outcome.next.inj ((execStop_next ht hc).symm.trans h)
      exact ⟨fun _ => rfl, rfl, rfl, rfl, rfl⟩
    case h_2 notStop =>
      obtain ⟨u, a, ⟨-, hidden⟩, rfl, past⟩ := exec_sequenceKept hw ht hc h notStop
      obtain ⟨resetPending, halted, irqQueue, stopped⟩ := by simpa only [State.hidden, Prod.mk.injEq] using hidden
      exact ⟨past, resetPending, halted, irqQueue, stopped⟩

end Sys2Proof.Machine
end

section
/-! SUPPORT. Data movement (spec/42_data_movement.md R201 to R211): each instruction that runs to its end answers exactly one state. MOVEM
takes its own part: what its loads read, and that its stores leave the register image in memory. -/

namespace Sys2Proof.Machine

/-! ## Moves -/

/-- An untraced instruction that ran to its end leaves its state with PC past its own words (10_state.md R29). -/
theorem retire_ok_past {s0 : State} (ht : s0.traced = false) {i : Instr} {n : Nat} (hn : n = i.length) (s : State) :
    retire n s0 (.ok () s) = .next (past i s) := by
  rw [hn]
  exact retire_ok ht _ s

/-- The flags of a move say the sign and the zero of the value modulo the size (R179). -/
theorem moveFlags_eq_valueFlags (sz : Size) (v : Long) (f : Ccr) : moveFlags v sz f = valueFlags sz v f := by
  have zero : (trunc sz v == 0) = decide (v.toNat % 2 ^ sz.bits = 0) := by
    rw [Bool.beq_eq_decide_eq, decide_eq_decide, ← BitVec.toNat_inj, toNat_trunc]
    rfl
  simp only [moveFlags, Ccr.alterN, Ccr.alterZ, Ccr.clearVC, msb, zero, valueFlags]

theorem length_move (sz : Size) (src dst : Ea) : 2 + src.extBytes sz + dst.extBytes sz = (Instr.move sz src dst).length := by
  simp only [Instr.length, encode, List.length_cons, List.length_append, Ea.extBytes]
  omega

/-- Settles O26: the source is read with its side effect, then the destination, resolved in the state that left, is replaced. -/
theorem moveAndMoveaResults : Obligations.MoveAndMoveaResults := by
  unfold Obligations.MoveAndMoveaResults
  refine ⟨fun sz src dst s hw ht srcReady dstReady => ?_, fun sz n src s _ ht ready => ?_⟩
  · have writable := (kind_of_ok_dataAlterable (Bool.and_elim_right hw)).1
    rw [exec, execMove, readEa_ready srcReady, Res.bind_ok, storeEa_ready _ _ dstReady writable, sideEffect_ccr,
      moveFlags_eq_valueFlags]
    exact retire_ok_past ht (length_move sz src dst) _
  · rw [exec, execMovea, loadEa_ready _ ready]
    exact retire_ok_past ht (eaLength_eq_encEa ..) _

/-- The word of a branch or MOVEQ is its upper byte shifted up and its lower byte (R106). -/
theorem byteOp_eq_or (l c : BitVec 4) (b : Byte) : byteOp l c b = ((l ++ c).setWidth 16 <<< 8) ||| b.setWidth 16 := by
  rw [byteOp, BitVec.append_def, BitVec.shiftLeftZeroExtend_eq, BitVec.setWidth'_eq]

/-- Settles O27: the meaning is one write of a register and the flags; the word's upper byte is one of eight, one per register. -/
theorem moveqLoadsTheSignExtendedByte : Obligations.MoveqLoadsTheSignExtendedByte := by
  unfold Obligations.MoveqLoadsTheSignExtendedByte
  refine ⟨fun n data s ht => ?_, fun n data => ?_⟩
  · rw [exec, execMoveq, moveFlags_eq_valueFlags]
    exact retire_ok_past ht (by rfl) _
  · have upper : ∀ r : Reg, ((7 : BitVec 4) ++ (regBits r ++ 0#1)).setWidth 16 <<< 8 = 0x7000#16 ||| BitVec.ofNat 16 r.val <<< 9 := by
      decide
    rw [encode, byteOp_eq_or, upper]

/-! ## Addresses and stack frames -/

/-- A register read after the stack pointer is written: A7 is the stack pointer (R23). -/
theorem State.areg_setSp (s : State) (v : Long) (n : Reg) : (s.setSp v).areg n = if n = 7 then v else s.areg n := by
  rw [← State.setAreg_seven, State.areg_setAreg]

/-- Copying the stack pointer to an address register leaves it, A7 included. -/
theorem State.sp_setAreg_sp (s : State) (n : Reg) : (s.setAreg n s.sp).sp = s.sp := by
  rw [← State.areg_seven (s.setAreg n s.sp), State.areg_setAreg]
  split
  · rfl
  · exact State.areg_seven s

/-- LINK on an even stack: for A7 the stored value is the already decremented SP (R210). -/
theorem execLink_next {n : Reg} {d : Word} {s : State} (ht : s.traced = false) (even : s.spEven = true) :
    execLink n d s = .next (past (.link n d) ((({ s.setSp (s.sp - 4) with
      mem := s.mem.store (s.sp - 4) .l (if n = 7 then s.sp - 4 else s.areg n) }).setAreg n (s.sp - 4)).setSp
        (s.sp - 4 + d.signExtend 32))) := by
  simp only [execLink, State.sp_setSp, memWrite_aligned (misaligned_sp_sub_four even), Res.bind_ok, State.mem_setSp,
    State.areg_setSp]
  generalize Memory.store _ _ _ _ = m
  have sp : ({ s.setSp (s.sp - 4) with mem := m } : State).sp = s.sp - 4 := State.sp_setSp s _
  rw [State.sp_setAreg_sp, sp]
  exact retire_ok_past ht (by rfl) _

/-- Settles O40: LEA and PEA take the address of a control operand; PEA and LINK push on an even stack, UNLK reads at an even An. -/
theorem addressAndFrameResults : Obligations.AddressAndFrameResults := by
  unfold Obligations.AddressAndFrameResults
  refine ⟨fun n ea s hw ht => ?_, fun ea s hw ht even => ?_, fun n d s ht even => execLink_next ht even, fun n s ht even => ?_⟩
  · rw [exec, execLea, addressEa_control (kind_of_ok_control hw), Res.bind_ok]
    exact retire_ok_past ht (eaLength_eq_encEa ..) _
  · rw [exec, execPea, addressEa_control (kind_of_ok_control hw), Res.bind_ok, push_spEven even]
    exact retire_ok_past ht (eaLength_eq_encEa ..) _
  · simp only [exec, execUnlk, memRead_aligned (misaligned_of_even even .l), Res.bind_ok]
    exact retire_ok_past ht (by rfl) _

/-! ## MOVEM to registers and MOVEP -/

/-- A merge-write of a long leaves nothing of the register (R22). -/
theorem State.writeD_long (s : State) (n : Reg) (v : Long) : s.writeD n .l v = s.setDreg n v := by
  have whole : merge .l (s.dreg n) v = v := BitVec.eq_of_getLsbD_eq fun k hk => by
    rw [getLsbD_merge .l _ v hk, Size.bits, if_pos hk]
  rw [State.writeD, whole]

/-- One transfer of MOVEM to registers: the register listed at place `p.2` is loaded from the block at `a` (R205). -/
def loadListed (sz : Size) (m : Memory) (a : Long) (t : State) (p : Fin 16 × Nat) : State :=
  t.setMovemReg p.1 (sext sz (m.load (a + BitVec.ofNat 32 (sz.bytes * p.2)) sz))

@[simp] theorem mem_loadListed (sz : Size) (m : Memory) (a : Long) (t : State) (p : Fin 16 × Nat) :
    (loadListed sz m a t p).mem = t.mem := State.mem_setMovemReg ..

/-- The address of the next place of a block. -/
theorem add_bytes_succ (a : Long) (n j : Nat) :
    a + BitVec.ofNat 32 (n * (j + 1)) = a + BitVec.ofNat 32 (n * j) + BitVec.ofNat 32 n := by
  rw [Nat.mul_succ, BitVec.ofNat_add, ← BitVec.add_assoc]

/-- MOVEM's loads from place `j` of an aligned block on: the loads never change the memory they read (R205). -/
theorem movemLoad_from {sz : Size} {ks : List (Fin 16)} {a : Long} {m : Memory} (j : Nat)
    (h : ks = [] ∨ misaligned (a + BitVec.ofNat 32 (sz.bytes * j)) sz = false) {t : State} (hm : t.mem = m) :
    movemLoad sz ks (a + BitVec.ofNat 32 (sz.bytes * j)) t =
      .ok (a + BitVec.ofNat 32 (sz.bytes * (j + ks.length))) ((ks.zipIdx j).foldl (loadListed sz m a) t) := by
  induction ks generalizing j t with
  | nil => rfl
  | cons k ks ih =>
    have aligned := h.resolve_left (by simp)
    have next : misaligned (a + BitVec.ofNat 32 (sz.bytes * (j + 1))) sz = false := by
      rw [add_bytes_succ, misaligned_add_bytes, aligned]
    rw [movemLoad, memRead_aligned aligned, Res.bind_ok, ← add_bytes_succ, hm, List.length_cons,
      Nat.add_comm ks.length 1, ← Nat.add_assoc]
    exact ih (j + 1) (.inr next) ((mem_loadListed sz m a t (k, j)).trans hm)

/-- MOVEM's loads from an even address, or of no register at all (R205). -/
theorem movemLoad_eq {sz : Size} {mask : Word} {a : Long} {s : State} (ready : movemReady sz mask a = true) :
    movemLoad sz (maskList mask) a s =
      .ok (a + BitVec.ofNat 32 (sz.bytes * maskCount mask)) ((maskList mask).zipIdx.foldl (loadListed sz s.mem a) s) := by
  have start : a + BitVec.ofNat 32 (sz.bytes * 0) = a := BitVec.add_zero a
  have loaded := movemLoad_from (sz := sz) (ks := maskList mask) (a := a) (t := s) 0
    (by rw [start]; exact maskList_nil_or_aligned ready) rfl
  rwa [start, Nat.zero_add] at loaded

section
variable {s : State} (ht : s.traced = false)
include ht

theorem execMovemToRegs_control {sz : WordLong} {mask : Word} {ea : Ea} (control : ea.kind.isControl = true)
    (ready : movemReady sz.size mask (movemBase ea s) = true) :
    execMovemToRegs sz mask ea s = .next (past (.movemToRegs sz mask ea)
      ((maskList mask).zipIdx.foldl (loadListed sz.size s.mem (movemBase ea s)) s)) := by
  rw [execMovemToRegs, movemToRegsBody_control control, ← movemBase_control control, movemLoad_eq ready, Res.bind_ok]
  exact retire_ok_past ht (four_add_extBytes ..) _

theorem execMovemToRegs_postInc {sz : WordLong} {mask : Word} {n : Reg} (ready : movemReady sz.size mask (s.areg n) = true) :
    execMovemToRegs sz mask (.postInc n) s = .next (past (.movemToRegs sz mask (.postInc n))
      (((maskList mask).zipIdx.foldl (loadListed sz.size s.mem (s.areg n)) s).setAreg n
        (s.areg n + BitVec.ofNat 32 (sz.size.bytes * maskCount mask)))) := by
  rw [execMovemToRegs, movemToRegsBody, movemLoad_eq ready, Res.bind_ok]
  exact retire_ok_past ht (four_add_extBytes ..) _

end

/-- Settles O38: MOVEM by its loads, with the base written after them; MOVEP by its bytes at alternate addresses. -/
theorem movemLoadAndMovepResults : Obligations.MovemLoadAndMovepResults := by
  unfold Obligations.MovemLoadAndMovepResults
  have four (a : Long) : a + 2 + 2 = a + 4 := BitVec.add_assoc a 2 2
  have six (a : Long) : a + 4 + 2 = a + 6 := BitVec.add_assoc a 4 2
  refine ⟨fun sz mask ea s hw ht notPostInc ready => ?_, fun sz mask n s ht ready => execMovemToRegs_postInc ht ready,
    fun dx ay d s ht => retire_ok_past ht (by rfl) _, fun dx ay d s ht => ?_, fun dx ay d s ht => retire_ok_past ht (by rfl) _,
    fun dx ay d s ht => ?_⟩
  · obtain control | ⟨n, rfl⟩ := ok_controlPostInc_cases hw
    · exact execMovemToRegs_control ht control ready
    · exact absurd rfl notPostInc
  · simp only [exec, execMovep, movepBytes, movepPut, four, six]
    exact retire_ok_past ht (by rfl) _
  · simp only [exec, execMovep, WordLong.size, State.writeD_long]
    exact retire_ok_past ht (by rfl) _

/-! ## MOVEM to memory -/

/-- A load reads its own cells only. -/
theorem Memory.load_congr {m m' : Memory} {a : Long} {sz : Size} (h : ∀ c ∈ cells a sz.bytes, m'.read c = m.read c) :
    m'.load a sz = m.load a sz := by
  have byte {i : Nat} (hi : i < sz.bytes) : m'.byteAt a i = m.byteAt a i := h _ (mem_cells.mpr ⟨i, hi, rfl⟩)
  cases sz with
  | b => simp only [Memory.load, byte (i := 0) (by decide)]
  | w => simp only [Memory.load, byte (i := 0) (by decide), byte (i := 1) (by decide)]
  | l =>
    simp only [Memory.load, byte (i := 0) (by decide), byte (i := 1) (by decide), byte (i := 2) (by decide),
      byte (i := 3) (by decide)]

/-- A value stored in canonical memory is loaded again after changes outside its cells. -/
theorem load_of_memKept {u t : State} {m : Memory} {a v : Long} {sz : Size} {ks : List Nat} (wf : m.wf = true)
    (stored : u.mem = m.store a sz v) (kept : MemKept ks u t) (apart : ∀ c ∈ cells a sz.bytes, c ∉ ks) :
    t.mem.load a sz = trunc sz v := by
  rw [Memory.load_congr fun c hc => kept c (apart c hc), stored]
  exact loadAfterStoreReturnsTheValue m a sz v wf

/-- The two parts of a block of at most 64 bytes share no cell (R62). -/
theorem not_mem_cells_of_mem_cells {a : Long} {m n c : Nat} (short : m + n ≤ 64) (hc : c ∈ cells a m) :
    c ∉ cells (a + BitVec.ofNat 32 m) n := by
  intro hc'
  obtain ⟨i, hi, rfl⟩ := mem_cells.mp hc
  obtain ⟨j, hj, same⟩ := mem_cells.mp hc'
  rw [BitVec.add_assoc, ← BitVec.ofNat_add] at same
  exact phys_add_ne a (by omega) (by omega) (by omega) same

/-- MOVEM's ascending stores leave the register image from the first address up (R204). -/
theorem movemStoreUp_image {sz : Size} {ks : List (Fin 16)} {a b : Long} {s t : State} (wf : s.mem.wf = true)
    (short : sz.bytes * ks.length ≤ 64) (h : movemStoreUp sz ks a s = .ok b t) :
    ∀ j, (hj : j < ks.length) → t.mem.load (a + BitVec.ofNat 32 (sz.bytes * j)) sz = trunc sz (s.movemReg ks[j]) := by
  induction ks generalizing a s with
  | nil => exact fun j hj => absurd hj (Nat.not_lt_zero j)
  | cons k ks ih =>
    rw [List.length_cons, Nat.mul_succ] at short
    cases aligned : misaligned a sz
    case true => rw [movemStoreUp_odd aligned] at h; cases h
    case false =>
      rw [movemStoreUp, memWrite_aligned aligned, Res.bind_ok] at h
      rintro (- | j) hj
      · rw [Nat.mul_zero, BitVec.add_zero]
        exact load_of_memKept wf rfl (movemStoreUp_memKept h) fun c hc => not_mem_cells_of_mem_cells (by omega) hc
      · rw [Nat.mul_succ, Nat.add_comm (sz.bytes * j), BitVec.ofNat_add, ← BitVec.add_assoc]
        exact ih (Memory.wf_store wf ..) (by omega) h j (Nat.lt_of_succ_lt_succ hj)

/-- Going down by one place and then by `j` is going down by `j + 1`. -/
theorem sub_bytes_succ (a : Long) (n j : Nat) :
    a - BitVec.ofNat 32 (n * (j + 1)) = a - BitVec.ofNat 32 n - BitVec.ofNat 32 (n * j) := by
  rw [Nat.mul_succ, BitVec.ofNat_add, add_comm, sub_add_eq_sub_sub]

/-- The address MOVEM's descending stores end at (R204). -/
theorem movemStoreDown_last {sz : Size} {ks : List (Fin 16)} {a b : Long} {s t : State}
    (h : movemStoreDown sz ks a s = .ok b t) : b = a - BitVec.ofNat 32 (sz.bytes * ks.length) := by
  induction ks generalizing a s with
  | nil => cases h; exact (sub_zero _).symm
  | cons k ks ih =>
    rw [List.length_cons, sub_bytes_succ]
    cases aligned : misaligned a sz
    · rw [movemStoreDown, memWrite_aligned (by rw [misaligned_sub_bytes, aligned]), Res.bind_ok] at h
      exact ih h
    · rw [movemStoreDown_odd aligned] at h
      cases h

/-- MOVEM's descending stores leave the image of the reversed registers, the first one at the top (R204). -/
theorem movemStoreDown_image {sz : Size} {ks : List (Fin 16)} {a b : Long} {s t : State} (wf : s.mem.wf = true)
    (short : sz.bytes * ks.length ≤ 64) (h : movemStoreDown sz ks a s = .ok b t) :
    ∀ j, (hj : j < ks.length) → t.mem.load (a - BitVec.ofNat 32 (sz.bytes * (j + 1))) sz = trunc sz (s.movemReg ks[j].rev) := by
  induction ks generalizing a s with
  | nil => exact fun j hj => absurd hj (Nat.not_lt_zero j)
  | cons k ks ih =>
    rw [List.length_cons, Nat.mul_succ] at short
    cases aligned : misaligned a sz
    case true => rw [movemStoreDown_odd aligned] at h; cases h
    case false =>
      rw [movemStoreDown, memWrite_aligned (by rw [misaligned_sub_bytes, aligned]), Res.bind_ok] at h
      rintro (- | j) hj
      · rw [Nat.zero_add, Nat.mul_one]
        refine load_of_memKept wf rfl (movemStoreDown_memKept h) fun c hc below => ?_
        exact not_mem_cells_of_mem_cells short below (by rwa [BitVec.sub_add_cancel])
      · rw [sub_bytes_succ]
        exact ih (Memory.wf_store wf ..) (by omega) h j (Nat.lt_of_succ_lt_succ hj)

/-- The registers a reversed mask lists, in the order D0 to D7, A0 to A7: bit `15 - k` selects `R(k)` (R204). -/
def reversedMaskList (mask : Word) : List (Fin 16) := maskBits.filter fun k => mask.getLsbD (15 - k.val)

/-- Read from its last bit down, a reversed mask lists the registers in their order. -/
theorem reversedMaskList_eq (mask : Word) : reversedMaskList mask = ((maskList mask).map Fin.rev).reverse := by
  have bit (k : Fin 16) : 15 - k.rev.val = k.val := by rw [Fin.val_rev]; omega
  have bits : maskBits = (maskBits.map Fin.rev).reverse := by decide
  rw [reversedMaskList, bits, List.filter_reverse, List.filter_map]
  simp only [Function.comp_def, bit]
  rfl

theorem length_reversedMaskList (mask : Word) : (reversedMaskList mask).length = (maskList mask).length := by
  rw [reversedMaskList_eq, List.length_reverse, List.length_map]

/-- Counted from the other end, the list of a reversed mask is the list of its bits, each register number reversed. -/
theorem getElem_reversedMaskList {mask : Word} {j k : Nat} (hj : j < (reversedMaskList mask).length)
    (hk : k < (maskList mask).length) (count : (maskList mask).length = j + k + 1) :
    (reversedMaskList mask)[j] = (maskList mask)[k].rev := by
  have place : (maskList mask).length - 1 - j = k := by omega
  simp only [reversedMaskList_eq, List.getElem_reverse, List.getElem_map, List.length_map, place]

/-- A mask lists at most sixteen registers, so their image has at most 64 bytes. -/
theorem bytes_mul_maskList_le (sz : Size) (mask : Word) : sz.bytes * (maskList mask).length ≤ 64 := by
  have count : (maskList mask).length ≤ 16 := List.length_filter_le ..
  have bytes : sz.bytes ≤ 4 := by cases sz <;> decide
  exact Nat.mul_le_mul bytes count

section
variable {s : State} (ht : s.traced = false) (wf : s.mem.wf = true)
include ht wf

theorem execMovemToMem_control {sz : WordLong} {mask : Word} {ea : Ea} (control : ea.kind.isControl = true)
    (ready : movemReady sz.size mask (movemBase ea s) = true) :
    ∃ m : Memory, execMovemToMem sz mask ea s = .next (past (.movemToMem sz mask ea) { s with mem := m }) ∧
      ∀ j, (h : j < (maskList mask).length) →
        m.load (movemBase ea s + BitVec.ofNat 32 (sz.size.bytes * j)) sz.size = trunc sz.size (s.movemReg (maskList mask)[j]) := by
  obtain ⟨b, m, stored⟩ := movemStoreUp_ready (maskList_nil_or_aligned ready) s
  refine ⟨m, ?_, movemStoreUp_image wf (bytes_mul_maskList_le sz.size mask) stored⟩
  rw [execMovemToMem, movemToMemBody_control control, ← movemBase_control control, stored, Res.bind_ok]
  exact retire_ok_past ht (four_add_extBytes ..) _

theorem execMovemToMem_preDec {sz : WordLong} {mask : Word} {n : Reg} {low : Long}
    (ready : movemReady sz.size mask (s.areg n) = true)
    (hlow : low = s.areg n - BitVec.ofNat 32 (sz.size.bytes * (reversedMaskList mask).length)) :
    ∃ m : Memory, execMovemToMem sz mask (.preDec n) s =
        .next (past (.movemToMem sz mask (.preDec n)) { s.setAreg n low with mem := m }) ∧
      ∀ j, (h : j < (reversedMaskList mask).length) →
        m.load (low + BitVec.ofNat 32 (sz.size.bytes * j)) sz.size = trunc sz.size (s.movemReg (reversedMaskList mask)[j]) := by
  obtain ⟨b, m, stored⟩ := movemStoreDown_ready (maskList_nil_or_aligned ready) s
  have last : b = low := by rw [movemStoreDown_last stored, hlow, length_reversedMaskList]
  refine ⟨m, ?_, fun j hj => ?_⟩
  · rw [execMovemToMem, movemToMemBody, stored, Res.bind_ok, State.setAreg_with_mem, last]
    exact retire_ok_past ht (four_add_extBytes ..) _
  · have image := movemStoreDown_image wf (bytes_mul_maskList_le sz.size mask) stored
    obtain ⟨k, count⟩ := Nat.exists_eq_add_of_lt (length_reversedMaskList mask ▸ hj)
    have address : low + BitVec.ofNat 32 (sz.size.bytes * j) = s.areg n - BitVec.ofNat 32 (sz.size.bytes * (k + 1)) := by
      rw [hlow, length_reversedMaskList, count, Nat.add_assoc, Nat.mul_add, BitVec.ofNat_add, sub_add_eq_sub_sub_swap,
        BitVec.sub_add_cancel]
    rw [address, getElem_reversedMaskList hj (by omega) count]
    exact image k (by omega)

end

/-- Settles O39: the ascending and the descending stores leave the image of their list; a reversed mask lists the registers in order. -/
theorem movemStoresTheRegisterImage : Obligations.MovemStoresTheRegisterImage := by
  unfold Obligations.MovemStoresTheRegisterImage
  intro sz mask ea s hw ht wf ready
  obtain control | ⟨n, rfl⟩ := ok_controlAlterablePreDec_cases hw
  · cases ea with
    | preDec n => exact absurd control (by simp [Ea.kind, EaKind.isControl])
    | _ => exact execMovemToMem_control ht wf control ready
  · exact execMovemToMem_preDec ht wf ready rfl

end Sys2Proof.Machine
end

section
/-! SUPPORT. Results at a size (spec/00_scope.md R9; 10_state.md R22; 20_memory.md R65): a write at a size stores the low bits of its
value only, so a result is named by those bits and its flags; what each arithmetic and logical operation gives in these terms. -/

namespace Sys2Proof.Machine

/-! ## Values at a size -/

theorem toNat_trunc_lt (sz : Size) (v : Long) : (trunc sz v).toNat < 2 ^ sz.bits := by
  rw [toNat_trunc]
  exact Nat.mod_lt _ (Nat.two_pow_pos _)

@[simp] theorem trunc_trunc (sz : Size) (v : Long) : trunc sz (trunc sz v) = trunc sz v := by
  simp only [trunc, BitVec.and_assoc, BitVec.and_self]

/-- A data register read at a size is a value of that size (R22). -/
theorem toNat_readD_lt (s : State) (n : Reg) (sz : Size) : (s.readD n sz).toNat < 2 ^ sz.bits := toNat_trunc_lt sz _

/-- A load gives a value of its size (R64). -/
theorem toNat_load_lt (m : Memory) (a : Long) (sz : Size) : (m.load a sz).toNat < 2 ^ sz.bits := by
  cases sz with
  | b => exact (BitVec.toNat_setWidth_of_le (by decide)).trans_lt (BitVec.isLt _)
  | w => exact (BitVec.toNat_setWidth_of_le (by decide)).trans_lt (BitVec.isLt _)
  | l => exact BitVec.isLt _

/-- The value of an operand is a value of its size (R156). -/
theorem toNat_operandValue_lt (ea : Ea) (sz : Size) (ext : Long) (s : State) : (operandValue ea sz ext s).toNat < 2 ^ sz.bits := by
  unfold operandValue
  split
  · exact toNat_trunc_lt sz _
  · exact toNat_trunc_lt sz _
  · exact toNat_trunc_lt sz _
  · exact toNat_load_lt ..

/-- The flags of a value see its low bits only (R171, R172). -/
theorem valueFlags_congr {sz : Size} {v w : Long} (h : trunc sz v = trunc sz w) (f : Ccr) : valueFlags sz v f = valueFlags sz w f := by
  simp only [← moveFlags_eq_valueFlags, moveFlags, Ccr.alterN, Ccr.alterZ, h]
  have sign := congrArg (BitVec.getLsbD · (sz.bits - 1)) h
  have inside : sz.bits - 1 < sz.bits := by cases sz <;> decide
  simp only [getLsbD_trunc, decide_eq_true inside, Bool.and_true] at sign
  simp only [msb, sign]

/-! ## Writes at a size -/

theorem merge_eq_or_trunc (sz : Size) (old v : Long) : merge sz old v = (old &&& ~~~sz.mask) ||| trunc sz v := rfl

/-- A merge-write sees the low bits of its value only (R22). -/
theorem State.writeD_congr {sz : Size} {v w : Long} (h : trunc sz v = trunc sz w) (s : State) (n : Reg) :
    s.writeD n sz v = s.writeD n sz w := by
  simp only [State.writeD, merge_eq_or_trunc, h]

/-- A store sees the low bits of its value only (R65). -/
theorem Memory.store_congr {sz : Size} {v w : Long} (h : trunc sz v = trunc sz w) (m : Memory) (a : Long) :
    m.store a sz v = m.store a sz w := by
  have byte {i : Nat} (hi : i + 8 ≤ sz.bits) : v.extractLsb' i 8 = w.extractLsb' i 8 := BitVec.eq_of_getLsbD_eq fun k hk => by
    have bit := congrArg (BitVec.getLsbD · (i + k)) h
    simp only [getLsbD_trunc, decide_eq_true (show i + k < sz.bits by omega), Bool.and_true] at bit
    rw [BitVec.getLsbD_extractLsb', BitVec.getLsbD_extractLsb', bit]
  cases sz with
  | b => simp only [Memory.store, byte (i := 0) (by decide)]
  | w => simp only [Memory.store, byte (i := 0) (by decide), byte (i := 8) (by decide)]
  | l =>
    simp only [Memory.store, byte (i := 0) (by decide), byte (i := 8) (by decide), byte (i := 16) (by decide),
      byte (i := 24) (by decide)]

/-- Replacing an operand sees the low bits of the value only; An, written as a whole, is no operand of a size (R157). -/
theorem replaced_congr {ea : Ea} {sz : Size} {v w : Long} (notAn : ea.kind ≠ .an) (h : trunc sz v = trunc sz w) (ext : Long) (f : Ccr)
    (s : State) : replaced ea sz ext v f s = replaced ea sz ext w f s := by
  cases ea with
  | dn n => exact State.writeD_congr h ..
  | an n => exact absurd rfl notAn
  | imm i => rfl
  | _ => simp only [replaced, storeAt, eaLoc, Memory.store_congr h]

/-! ## What an operation gives -/

/-- The pair of an operation's result and flags is `v` at the size, with the flags `f`. -/
def Gives (sz : Size) (r : Long × Ccr) (v : Long) (f : Ccr) : Prop := trunc sz r.1 = trunc sz v ∧ r.2 = f

section
variable {sz : Size} {src dst : Long} (hs : src.toNat < 2 ^ sz.bits) (hd : dst.toNat < 2 ^ sz.bits) (f : Ccr)
include hs hd

theorem addPlain_gives : Gives sz (addPlain sz src dst f) (dst + src) (sumFlags sz src dst false) :=
  ⟨(trunc_trunc ..).trans (congrArg (trunc sz) (BitVec.add_zero _)), addOp_flags hs hd false f⟩

/-- ADDX and SUBX differ from ADD and SUB by the carry in and by Z, which a zero result keeps (R172, R235). -/
theorem addOp_sticky_gives (xin : Bool) : Gives sz (addOp src dst xin sz .sticky f) (dst + src + bitOf xin)
    { sumFlags sz src dst xin with z := f.z && (sumFlags sz src dst xin).z } := by
  rw [← addOp_flags hs hd xin f]
  exact ⟨trunc_trunc .., rfl⟩

theorem subOp_flags (xin : Bool) : (subOp src dst xin sz .plain f).2 = differenceFlags sz src dst xin := by
  simp only [subOp, cmpFlags_eq_differenceFlags hs hd, Ccr.copyCX, differenceFlags]

theorem subPlain_gives : Gives sz (subPlain sz src dst f) (dst - src) (differenceFlags sz src dst false) :=
  ⟨(trunc_trunc ..).trans (congrArg (trunc sz) (BitVec.sub_zero _)), subOp_flags hs hd f false⟩

theorem subOp_sticky_gives (xin : Bool) : Gives sz (subOp src dst xin sz .sticky f) (dst - src - bitOf xin)
    { differenceFlags sz src dst xin with z := f.z && (differenceFlags sz src dst xin).z } := by
  rw [← subOp_flags hs hd f xin]
  exact ⟨trunc_trunc .., rfl⟩

end

theorem logicOp_gives (op : Long → Long → Long) (sz : Size) (src dst : Long) (f : Ccr) :
    Gives sz (logicOp op sz src dst f) (op dst src) (valueFlags sz (op dst src) f) :=
  ⟨rfl, moveFlags_eq_valueFlags ..⟩

end Sys2Proof.Machine
end

section
/-! SUPPORT. Integer arithmetic and logic (spec/43_integer_arithmetic.md, 44_logical.md, 46_bit_bcd.md R320 to R323): one rule per shared
form says the state it ends in, given what its operation gives; each instruction is its form with its operation. -/

namespace Sys2Proof.Machine

/-! ## The shared forms -/

section
variable {s : State} (ht : s.traced = false) {i : Instr} {ea : Ea} {sz : Size} {n : Reg} {v : Long} {f : Ccr}
include ht

/-- A read-modify-write, in the state `u` the instruction has come to, replaces its operand by what its operation gives (R158). -/
theorem updateEa_next {u : State} {ext : Long} {g : Long → State → Long × Ccr} {k : Nat} (notImm : ea.kind ≠ .imm)
    (notAn : ea.kind ≠ .an) (ready : operandReady ea sz ext u = true) (length : k = i.length)
    (gives : Gives sz (g (operandValue ea sz ext u) (sideEffect ea sz u)) v f) :
    retire k s (updateEa ea sz ext g u) = .next (past i (replaced ea sz ext v f u)) := by
  obtain ⟨value, rfl⟩ := gives
  rw [updateEa_ready g ready notImm, replaced_congr notAn value]
  exact retire_ok_past ht length _

theorem eaToDn_next {op : Long → Long → Ccr → Long × Ccr} (ready : operandReady ea sz (s.pc + 2) s = true)
    (length : eaLength ea sz = i.length) (gives : Gives sz (op (operandValue ea sz (s.pc + 2) s) (s.readD n sz) s.ccr) v f) :
    eaToDn op sz ea n s = .next (past i (((sideEffect ea sz s).setCcr f).writeD n sz v)) := by
  obtain ⟨value, rfl⟩ := gives
  rw [eaToDn, loadEa_ready _ ready]
  simp only [sideEffect_readD, sideEffect_ccr, State.writeD_congr value]
  exact retire_ok_past ht length _

theorem dnToEa_next {op : Long → Long → Ccr → Long × Ccr} (ok : ea.ok .dataAlterable sz = true)
    (ready : operandReady ea sz (s.pc + 2) s = true) (length : eaLength ea sz = i.length)
    (gives : Gives sz (op (s.readD n sz) (operandValue ea sz (s.pc + 2) s) s.ccr) v f) :
    dnToEa op sz n ea s = .next (past i (replaced ea sz (s.pc + 2) v f s)) := by
  obtain ⟨notImm, notAn⟩ := kind_of_ok_dataAlterable ok
  exact updateEa_next ht notImm notAn ready length (by rwa [sideEffect_readD, sideEffect_ccr])

/-- The immediate fits its size, so it is the operand itself (R113, R233). -/
theorem immToEa_next {op : Long → Long → Ccr → Long × Ccr} {imm : Long} (hw : (sz.fits imm && ea.ok .dataAlterable sz) = true)
    (ready : operandReady ea sz (s.pc + 2 + BitVec.ofNat 32 (immBytes sz)) s = true) (length : eaLength ea sz + immBytes sz = i.length)
    (gives : Gives sz (op imm (operandValue ea sz (s.pc + 2 + BitVec.ofNat 32 (immBytes sz)) s) s.ccr) v f) :
    immToEa op sz imm ea s = .next (past i (replaced ea sz (s.pc + 2 + BitVec.ofNat 32 (immBytes sz)) v f s)) := by
  obtain ⟨fits, ok⟩ := Bool.and_eq_true_iff.mp hw
  obtain ⟨notImm, notAn⟩ := kind_of_ok_dataAlterable ok
  exact updateEa_next ht notImm notAn ready length (by rwa [sideEffect_ccr, trunc_of_fits fits])

theorem unaryEa_next {op : Long → Ccr → Long × Ccr} (ok : ea.ok .dataAlterable sz = true)
    (ready : operandReady ea sz (s.pc + 2) s = true) (length : eaLength ea sz = i.length)
    (gives : Gives sz (op (operandValue ea sz (s.pc + 2) s) s.ccr) v f) :
    unaryEa op sz ea s = .next (past i (replaced ea sz (s.pc + 2) v f s)) := by
  obtain ⟨notImm, notAn⟩ := kind_of_ok_dataAlterable ok
  exact updateEa_next ht notImm notAn ready length (by rwa [sideEffect_ccr])

theorem eaToAn_next {op : Long → Long → Long} {sz : WordLong} (ready : operandReady ea sz.size (s.pc + 2) s = true)
    (length : eaLength ea sz.size = i.length) :
    eaToAn op sz n ea s = .next (past i ((sideEffect ea sz.size s).setAreg n
      (op (sext sz.size (operandValue ea sz.size (s.pc + 2) s)) ((sideEffect ea sz.size s).areg n)))) := by
  rw [eaToAn, loadEa_ready _ ready]
  exact retire_ok_past ht length _

/-- A compare or test, in the state `u` it has come to, leaves the side effect of its operand and sets the flags. -/
theorem loadEa_setCcr_next {u : State} {ext : Long} {g : Long → State → Ccr} {k : Nat} (ready : operandReady ea sz ext u = true)
    (length : k = i.length) (flags : g (operandValue ea sz ext u) (sideEffect ea sz u) = f) :
    retire k s (loadEa ea sz ext (fun e t => t.setCcr (g e t)) u) = .next (past i ((sideEffect ea sz u).setCcr f)) := by
  rw [loadEa_ready _ ready, flags]
  exact retire_ok_past ht length _

theorem pairOp_dregs_next {op : Long → Long → Ccr → Long × Ccr} {x y : Reg} (length : 2 = i.length)
    (gives : Gives sz (op (s.readD y sz) (s.readD x sz) s.ccr) v f) :
    pairOp op sz .dregs x y s = .next (past i ((s.setCcr f).writeD x sz v)) := by
  obtain ⟨value, rfl⟩ := gives
  simp only [pairOp, State.writeD_congr value]
  exact retire_ok_past ht length _

/-- `-(Ay),-(Ax)`: the destination is resolved in the state the source's side effect left (R235). -/
theorem pairOp_preDecs_next {op : Long → Long → Ccr → Long × Ccr} {x y : Reg}
    (ready : pairReady sz (.preDec y) (.preDec x) s = true) (length : 2 = i.length)
    (gives : Gives sz (op (operandValue (.preDec y) sz (s.pc + 2) s)
      (operandValue (.preDec x) sz (s.pc + 2) (sideEffect (.preDec y) sz s)) s.ccr) v f) :
    pairOp op sz .preDecs x y s =
      .next (past i (replaced (.preDec x) sz (s.pc + 2) v f (sideEffect (.preDec y) sz s))) := by
  obtain ⟨srcReady, dstReady⟩ := Bool.and_eq_true_iff.mp ready
  simp only [pairOp, readEa_ready srcReady, Res.bind_ok]
  exact updateEa_next ht (by simp [Ea.kind]) (by simp [Ea.kind]) dstReady length (by rwa [sideEffect_ccr, sideEffect_ccr])

end

/-! ## Two operands -/

/-- Every memory alterable operand is data alterable (30_encoding.md R111). -/
theorem ok_dataAlterable_of_memory {sz : Size} {ea : Ea} (h : ea.ok .memoryAlterable sz = true) : ea.ok .dataAlterable sz = true := by
  simp only [Ea.ok, EaClass.admits, Bool.and_eq_true] at h ⊢
  obtain ⟨⟨⟨admitted, -⟩, notByteAn⟩, fits⟩ := h
  exact ⟨⟨admitted, notByteAn⟩, fits⟩

/-- Settles O28: the form `<ea>,Dn` with the exact sum, difference, conjunction or disjunction. -/
theorem operandToDataRegisterResults : Obligations.OperandToDataRegisterResults := by
  unfold Obligations.OperandToDataRegisterResults
  refine ⟨fun sz ea n s _ ht ready => ?_, fun sz ea n s _ ht ready => ?_, fun sz ea n s _ ht ready => ?_,
    fun sz ea n s _ ht ready => ?_⟩
  · exact eaToDn_next ht ready (eaLength_eq_encEa ..) (addPlain_gives (toNat_operandValue_lt ..) (toNat_readD_lt ..) _)
  · exact eaToDn_next ht ready (eaLength_eq_encEa ..) (subPlain_gives (toNat_operandValue_lt ..) (toNat_readD_lt ..) _)
  · exact eaToDn_next ht ready (eaLength_eq_encEa ..) (logicOp_gives (fun a b => a &&& b) ..)
  · exact eaToDn_next ht ready (eaLength_eq_encEa ..) (logicOp_gives (fun a b => a ||| b) ..)

/-- Settles O29: the forms `Dn,<ea>` and `#<data>,<ea>` with the exact results. -/
theorem operandDestinationResults : Obligations.OperandDestinationResults := by
  unfold Obligations.OperandDestinationResults
  refine ⟨fun sz n ea s hw ht ready => ?_, fun sz n ea s hw ht ready => ?_, fun sz n ea s hw ht ready => ?_,
    fun sz n ea s hw ht ready => ?_, fun sz n ea s hw ht ready => ?_, fun sz imm ea s hw ht ready => ?_,
    fun sz imm ea s hw ht ready => ?_, fun sz imm ea s hw ht ready => ?_, fun sz imm ea s hw ht ready => ?_,
    fun sz imm ea s hw ht ready => ?_⟩
  · exact dnToEa_next ht (ok_dataAlterable_of_memory hw) ready (eaLength_eq_encEa ..)
      (addPlain_gives (toNat_readD_lt ..) (toNat_operandValue_lt ..) _)
  · exact dnToEa_next ht (ok_dataAlterable_of_memory hw) ready (eaLength_eq_encEa ..)
      (subPlain_gives (toNat_readD_lt ..) (toNat_operandValue_lt ..) _)
  · exact dnToEa_next ht (ok_dataAlterable_of_memory hw) ready (eaLength_eq_encEa ..) (logicOp_gives (fun a b => a &&& b) ..)
  · exact dnToEa_next ht (ok_dataAlterable_of_memory hw) ready (eaLength_eq_encEa ..) (logicOp_gives (fun a b => a ||| b) ..)
  · exact dnToEa_next ht hw ready (eaLength_eq_encEa ..) (logicOp_gives (fun a b => a ^^^ b) ..)
  · exact immToEa_next ht hw ready (length_eq_encImm ..)
      (addPlain_gives (toNat_lt_of_fits (Bool.and_elim_left hw)) (toNat_operandValue_lt ..) _)
  · exact immToEa_next ht hw ready (length_eq_encImm ..)
      (subPlain_gives (toNat_lt_of_fits (Bool.and_elim_left hw)) (toNat_operandValue_lt ..) _)
  · exact immToEa_next ht hw ready (length_eq_encImm ..) (logicOp_gives (fun a b => a &&& b) ..)
  · exact immToEa_next ht hw ready (length_eq_encImm ..) (logicOp_gives (fun a b => a ||| b) ..)
  · exact immToEa_next ht hw ready (length_eq_encImm ..) (logicOp_gives (fun a b => a ^^^ b) ..)

/-! ## Comparisons -/

/-- Settles O30: the flags of the exact difference, with X kept; a 32-bit value always is one of the long size. -/
theorem compareResults : Obligations.CompareResults := by
  unfold Obligations.CompareResults
  refine ⟨fun sz ea n s _ ht ready => ?_, fun sz imm ea s hw ht ready => ?_, fun sz n ea s _ ht ready => ?_,
    fun sz x y s ht ready => ?_, fun sz ea s _ ht ready => ?_⟩
  · refine loadEa_setCcr_next ht ready (eaLength_eq_encEa ..) ?_
    rw [sideEffect_readD, sideEffect_ccr, cmpFlags_eq_differenceFlags (toNat_operandValue_lt ..) (toNat_readD_lt ..)]
  · have fits := Bool.and_elim_left hw
    refine loadEa_setCcr_next ht ready (length_eq_encImm ..) ?_
    rw [trunc_of_fits fits, sideEffect_ccr, cmpFlags_eq_differenceFlags (toNat_lt_of_fits fits) (toNat_operandValue_lt ..)]
  · refine loadEa_setCcr_next ht ready (eaLength_eq_encEa ..) ?_
    rw [sideEffect_ccr, cmpFlags_eq_differenceFlags (BitVec.isLt _) (BitVec.isLt _)]
  · obtain ⟨srcReady, dstReady⟩ := Bool.and_eq_true_iff.mp ready
    rw [exec, execCmpm, readEa_ready srcReady, Res.bind_ok]
    refine loadEa_setCcr_next ht dstReady (by rfl) ?_
    rw [sideEffect_ccr, sideEffect_ccr, cmpFlags_eq_differenceFlags (toNat_operandValue_lt ..) (toNat_operandValue_lt ..)]
  · refine loadEa_setCcr_next ht ready (eaLength_eq_encEa ..) ?_
    rw [sideEffect_ccr, moveFlags_eq_valueFlags]

/-! ## Address registers and the quick forms -/

/-- The data of a quick field: 1 to 7, or 8 for a field of 0 (30_encoding.md R113). -/
theorem ofNat_quickData (q : BitVec 3) : BitVec.ofNat 32 (quickData q) = if q = 0 then 8 else q.setWidth 32 := by
  unfold quickData
  split
  · rfl
  · exact BitVec.ofNat_toNat 32 q

theorem toNat_quick_lt (q : BitVec 3) (sz : Size) : (if q = 0 then 8 else q.setWidth 32 : Long).toNat < 2 ^ sz.bits := by
  have small : ∀ q : BitVec 3, (if q = 0 then 8 else q.setWidth 32 : Long).toNat ≤ 8 := by decide
  have room : 8 < 2 ^ sz.bits := by cases sz <;> decide
  exact (small q).trans_lt room

section
variable {s : State} (ht : s.traced = false) {op : Long → Long → Ccr → Long × Ccr} {opA : Long → Long → Long} {q : BitVec 3}
  {i : Instr} {sz : Size} {ea : Ea} {v : Long} {f : Ccr}
include ht

theorem quickEa_an_next {n : Reg} (length : 2 = i.length) : quickEa op opA sz q (.an n) s =
    .next (past i (s.setAreg n (opA (if q = 0 then 8 else q.setWidth 32) (s.areg n)))) := by
  simp only [quickEa, ofNat_quickData]
  exact retire_ok_past ht length _

theorem quickEa_next (ok : ea.ok .alterable sz = true) (notAn : ea.kind ≠ .an) (ready : operandReady ea sz (s.pc + 2) s = true)
    (length : eaLength ea sz = i.length)
    (gives : Gives sz (op (if q = 0 then 8 else q.setWidth 32) (operandValue ea sz (s.pc + 2) s) s.ccr) v f) :
    quickEa op opA sz q ea s = .next (past i (replaced ea sz (s.pc + 2) v f s)) := by
  have form : quickEa op opA sz q ea s = retire (eaLength ea sz) s
      (updateEa ea sz (s.pc + 2) (fun e u => op (BitVec.ofNat 32 (quickData q)) e u.ccr) s) := by
    cases ea with
    | an n => exact absurd rfl notAn
    | _ => rfl
  rw [form]
  exact updateEa_next ht (kind_of_ok_alterable ok) notAn ready length (by rwa [ofNat_quickData, sideEffect_ccr])

end

/-- Settles O31: ADDA and SUBA by their form; the quick forms by whether the operand is An. -/
theorem addressAndQuickArithmeticResults : Obligations.AddressAndQuickArithmeticResults := by
  unfold Obligations.AddressAndQuickArithmeticResults
  refine ⟨fun sz n ea s _ ht ready => ?_, fun sz n ea s _ ht ready => ?_, fun sz q n s _ ht => ?_,
    fun sz q ea s hw ht notAn ready => ?_, fun sz q n s _ ht => ?_, fun sz q ea s hw ht notAn ready => ?_⟩
  · rw [exec, execAdda]
    exact eaToAn_next ht ready (eaLength_eq_encEa ..)
  · rw [exec, execSuba]
    exact eaToAn_next ht ready (eaLength_eq_encEa ..)
  · rw [exec, execAddq]
    exact quickEa_an_next ht (by rfl)
  · rw [exec, execAddq]
    exact quickEa_next ht hw notAn ready (eaLength_eq_encEa ..) (addPlain_gives (toNat_quick_lt ..) (toNat_operandValue_lt ..) _)
  · rw [exec, execSubq]
    exact quickEa_an_next ht (by rfl)
  · rw [exec, execSubq]
    exact quickEa_next ht hw notAn ready (eaLength_eq_encEa ..) (subPlain_gives (toNat_quick_lt ..) (toNat_operandValue_lt ..) _)

/-! ## Pairs of operands and decimal arithmetic -/

/-- A decimal operation works on the low byte of what it reads, so the size of the read is not seen. -/
theorem extractLsb'_trunc_byte (v : Long) : (trunc .b v).extractLsb' 0 8 = v.extractLsb' 0 8 := BitVec.eq_of_getLsbD_eq fun k hk => by
  rw [BitVec.getLsbD_extractLsb', BitVec.getLsbD_extractLsb', getLsbD_trunc, Nat.zero_add, Size.bits, decide_eq_true hk, Bool.and_true]

theorem bcdOp_gives (op : Byte → Byte → Ccr → Byte × Ccr) (src dst : Long) (f : Ccr) :
    Gives .b (bcdOp op src dst f) ((op (src.extractLsb' 0 8) (dst.extractLsb' 0 8) f).1.setWidth 32)
      (op (src.extractLsb' 0 8) (dst.extractLsb' 0 8) f).2 :=
  ⟨rfl, rfl⟩

theorem bcdOp_readD_gives (op : Byte → Byte → Ccr → Byte × Ccr) (s : State) (x y : Reg) :
    Gives .b (bcdOp op (s.readD y .b) (s.readD x .b) s.ccr)
      ((op ((s.dreg y).extractLsb' 0 8) ((s.dreg x).extractLsb' 0 8) s.ccr).1.setWidth 32)
      (op ((s.dreg y).extractLsb' 0 8) ((s.dreg x).extractLsb' 0 8) s.ccr).2 := by
  simp only [← extractLsb'_trunc_byte (s.dreg y), ← extractLsb'_trunc_byte (s.dreg x)]
  exact bcdOp_gives ..

theorem pairReady_byte (src dst : Ea) (s : State) : pairReady .b src dst s = true := by
  simp only [pairReady, operandReady_byte, Bool.and_self]

/-- Settles O32: both pair forms with the exact sum and difference with X, or the decimal operation; NBCD subtracts from 0. -/
theorem extendedAndDecimalResults : Obligations.ExtendedAndDecimalResults := by
  unfold Obligations.ExtendedAndDecimalResults
  refine ⟨fun sz x y s ht => ?_, fun sz x y s ht ready => ?_, fun sz x y s ht => ?_, fun sz x y s ht ready => ?_,
    fun x y s ht => ?_, fun x y s ht => ?_, fun x y s ht => ?_, fun x y s ht => ?_, fun ea s hw ht => ?_⟩
  · rw [exec, execAddx]
    exact pairOp_dregs_next ht (by rfl) (addOp_sticky_gives (toNat_readD_lt ..) (toNat_readD_lt ..) _ _)
  · rw [exec, execAddx]
    exact pairOp_preDecs_next ht ready (by rfl) (addOp_sticky_gives (toNat_operandValue_lt ..) (toNat_operandValue_lt ..) _ _)
  · rw [exec, execSubx]
    exact pairOp_dregs_next ht (by rfl) (subOp_sticky_gives (toNat_readD_lt ..) (toNat_readD_lt ..) _ _)
  · rw [exec, execSubx]
    exact pairOp_preDecs_next ht ready (by rfl) (subOp_sticky_gives (toNat_operandValue_lt ..) (toNat_operandValue_lt ..) _ _)
  · exact pairOp_dregs_next ht (by rfl) (bcdOp_readD_gives bcdAdd s x y)
  · exact pairOp_preDecs_next ht (pairReady_byte ..) (by rfl) (bcdOp_gives bcdAdd ..)
  · exact pairOp_dregs_next ht (by rfl) (bcdOp_readD_gives bcdSub s x y)
  · exact pairOp_preDecs_next ht (pairReady_byte ..) (by rfl) (bcdOp_gives bcdSub ..)
  · exact unaryEa_next ht hw (operandReady_byte ..) (eaLength_eq_encEa ..) (bcdOp_gives bcdSub ..)

/-! ## One operand -/

theorem not_gives (sz : Size) (e : Long) (f : Ccr) :
    Gives sz (trunc sz (~~~e), moveFlags (trunc sz (~~~e)) sz f) (~~~e) (valueFlags sz (~~~e) f) :=
  ⟨trunc_trunc .., (moveFlags_eq_valueFlags ..).trans (valueFlags_congr (trunc_trunc ..) f)⟩

/-- Zero is a value of every size. -/
theorem toNat_zero_lt (sz : Size) : (0 : Long).toNat < 2 ^ sz.bits := Nat.two_pow_pos _

/-- Settles O33: NEG, NEGX, NOT and TAS through one read-modify-write; CLR and Scc store without reading. -/
theorem oneOperandResults : Obligations.OneOperandResults := by
  unfold Obligations.OneOperandResults
  refine ⟨fun sz ea s hw ht ready => ?_, fun sz ea s hw ht ready => ?_, fun sz ea s hw ht ready => ?_,
    fun sz ea s hw ht ready => ?_, fun ea s hw ht => ?_, fun cond ea s hw ht => ?_⟩
  · rw [exec, execNeg]
    exact unaryEa_next ht hw ready (eaLength_eq_encEa ..) (subPlain_gives (toNat_operandValue_lt ..) (toNat_zero_lt sz) _)
  · rw [exec, execNegx]
    exact unaryEa_next ht hw ready (eaLength_eq_encEa ..) (subOp_sticky_gives (toNat_operandValue_lt ..) (toNat_zero_lt sz) _ _)
  · rw [exec, execNot]
    exact unaryEa_next ht hw ready (eaLength_eq_encEa ..) (not_gives ..)
  · rw [exec, execClr, storeEa_ready _ _ ready (kind_of_ok_dataAlterable hw).1]
    exact retire_ok_past ht (eaLength_eq_encEa ..) _
  · obtain ⟨notImm, notAn⟩ := kind_of_ok_dataAlterable hw
    refine updateEa_next ht notImm notAn (operandReady_byte ..) (eaLength_eq_encEa ..) ⟨rfl, ?_⟩
    rw [sideEffect_ccr, moveFlags_eq_valueFlags]
  · rw [exec, execScc, writeEa_ready _ (operandReady_byte ..) (kind_of_ok_dataAlterable hw).1]
    exact retire_ok_past ht (eaLength_eq_encEa ..) _

/-! ## Multiplication and division -/

theorem toNat_lowWord (v : Long) : (lowWord v).toNat = v.toNat % 65536 := by
  rw [lowWord, BitVec.extractLsb'_toNat, Nat.shiftRight_zero]

theorem lowWord_ofNat (k : Nat) : lowWord (BitVec.ofNat 32 k) = BitVec.ofNat 16 k := BitVec.eq_of_toNat_eq (by
  rw [toNat_lowWord, BitVec.toNat_ofNat, BitVec.toNat_ofNat]
  omega)

theorem lowWord_ofInt (k : Int) : lowWord (BitVec.ofInt 32 k) = BitVec.ofInt 16 k := BitVec.eq_of_toNat_eq (by
  rw [toNat_lowWord, BitVec.toNat_ofInt, BitVec.toNat_ofInt]
  omega)

theorem lowWord_operandValue_ne_zero {ea : Ea} {ext : Long} {s : State} (nonzero : operandValue ea .w ext s ≠ 0) :
    lowWord (operandValue ea .w ext s) ≠ 0 := fun h => nonzero (by rw [operandValue_word, h]; rfl)

/-- An operand of word size is the number its low word is. -/
theorem toNat_lowWord_operandValue (ea : Ea) (ext : Long) (s : State) :
    (lowWord (operandValue ea .w ext s)).toNat = (operandValue ea .w ext s).toNat := by
  rw [toNat_lowWord]
  exact Nat.mod_eq_of_lt (toNat_operandValue_lt ea .w ext s)

/-- The unsigned product of two words fits a long (R250). -/
theorem muluResult_eq (e d : Word) : muluResult e d = BitVec.ofNat 32 (e.toNat * d.toNat) := by
  rw [muluResult, BitVec.ofNat_mul, BitVec.ofNat_toNat, BitVec.ofNat_toNat]

theorem mulsResult_eq (e d : Word) : mulsResult e d = BitVec.ofInt 32 (e.toInt * d.toInt) := by
  rw [mulsResult, BitVec.ofInt_mul]
  rfl

theorem divsResult_of_inside {a : Long} {d : Word} (inside : ¬ (a.toInt.tdiv d.toInt < -32768 ∨ 32767 < a.toInt.tdiv d.toInt)) :
    divsResult a d = some (BitVec.ofInt 16 (a.toInt.tdiv d.toInt), BitVec.ofInt 16 (a.toInt.tmod d.toInt)) := by
  rw [Int.tmod_def, Int.mul_comm]
  exact if_neg inside

section
variable {s : State} (ht : s.traced = false) {i : Instr} {ea : Ea} {n : Reg} (ready : operandReady ea .w (s.pc + 2) s = true)
  (length : eaLength ea .w = i.length)
include ht ready length

theorem mulToDn_next {op : Word → Word → Long} {v : Long}
    (product : op (lowWord (operandValue ea .w (s.pc + 2) s)) (lowWord (s.dreg n)) = v) :
    mulToDn op n ea s = .next (past i (((sideEffect ea .w s).setCcr (valueFlags .l v s.ccr)).setDreg n v)) := by
  rw [mulToDn, loadEa_ready _ ready, ← product]
  simp only [sideEffect_dreg, sideEffect_ccr, moveFlags_eq_valueFlags]
  exact retire_ok_past ht length _

variable {signed : Bool} {op : Long → Word → Option (Word × Word)} (nonzero : operandValue ea .w (s.pc + 2) s ≠ 0)
include nonzero

/-- A division whose quotient, the low word of `v`, fits writes remainder and quotient (R252, R253). -/
theorem divDn_fits_next {q r : Word} {v : Long} (answer : op (s.dreg n) (lowWord (operandValue ea .w (s.pc + 2) s)) = some (q, r))
    (low : lowWord v = q) :
    divDn signed op n ea s = .next (past i (((sideEffect ea .w s).setCcr (valueFlags .w v s.ccr)).setDreg n (r ++ q))) := by
  have sameLow : trunc .w (q.setWidth 32) = trunc .w v := by rw [trunc_word, trunc_word, lowWord_setWidth, low]
  simp only [divDn, readEa_ready ready, Res.bind_ok, if_neg (lowWord_operandValue_ne_zero nonzero), sideEffect_dreg, answer,
    sideEffect_ccr, moveFlags_eq_valueFlags, valueFlags_congr sameLow]
  exact retire_ok_past ht length _

/-- A division that overflows keeps Dn (R252, R253). -/
theorem divDn_overflow_next (answer : op (s.dreg n) (lowWord (operandValue ea .w (s.pc + 2) s)) = none) :
    divDn signed op n ea s = .next (past i ((sideEffect ea .w s).setCcr
      { x := s.ccr.x, n := (Config.divOvfNZ signed (s.dreg n) (lowWord (operandValue ea .w (s.pc + 2) s))).1,
        z := (Config.divOvfNZ signed (s.dreg n) (lowWord (operandValue ea .w (s.pc + 2) s))).2, v := true, c := false })) := by
  simp only [divDn, readEa_ready ready, Res.bind_ok, if_neg (lowWord_operandValue_ne_zero nonzero), sideEffect_dreg, answer,
    sideEffect_ccr]
  exact retire_ok_past ht length _

end

/-- Settles O35: the products as numbers; a division by whether its quotient fits a word. -/
theorem multiplyAndDivideResults : Obligations.MultiplyAndDivideResults := by
  unfold Obligations.MultiplyAndDivideResults
  refine ⟨fun n ea s _ ht ready => ?_, fun n ea s _ ht ready => ?_, fun n ea s _ ht ready nonzero fits => ?_,
    fun n ea s _ ht ready nonzero overflow => ?_, fun n ea s _ ht ready nonzero lower upper => ?_,
    fun n ea s _ ht ready nonzero overflow => ?_⟩
  · refine mulToDn_next ht ready (eaLength_eq_encEa ..) ?_
    rw [muluResult_eq, toNat_lowWord_operandValue, toNat_lowWord]
  · refine mulToDn_next ht ready (eaLength_eq_encEa ..) ?_
    rw [mulsResult_eq, signedAt_word, signedAt_word]
  · refine divDn_fits_next ht ready (eaLength_eq_encEa ..) nonzero ?_ (lowWord_ofNat _)
    rw [← toNat_lowWord_operandValue] at fits ⊢
    exact if_neg (Nat.not_lt.mpr fits)
  · refine divDn_overflow_next ht ready (eaLength_eq_encEa ..) nonzero ?_
    rw [← toNat_lowWord_operandValue] at overflow
    exact if_pos overflow
  · rw [signedAt_word] at lower upper ⊢
    exact divDn_fits_next ht ready (eaLength_eq_encEa ..) nonzero (divsResult_of_inside (by omega)) (lowWord_ofInt _)
  · rw [signedAt_word] at overflow
    exact divDn_overflow_next ht ready (eaLength_eq_encEa ..) nonzero (divsResult_eq_none_iff.mpr overflow)

/-! ## Registers only -/

/-- Two writes of data registers may be exchanged, if they agree where they are to the same register. -/
theorem State.setDreg_comm (s : State) {x y : Reg} {v w : Long} (h : x = y → v = w) :
    (s.setDreg x v).setDreg y w = (s.setDreg y w).setDreg x v := by
  by_cases same : x = y
  · rw [same, h same]
  · simp only [State.setDreg, Vector.set_comm v w fun e => same (Fin.ext e)]

theorem State.setAreg_setDreg (s : State) (x y : Reg) (v w : Long) :
    (s.setDreg x v).setAreg y w = (s.setAreg y w).setDreg x v := by
  by_cases low : y.val < 7
  · simp only [State.setAreg, dif_pos low]
    rfl
  · simp only [State.setAreg, dif_neg low, State.setSp, State.supervisor_setDreg]
    split <;> rfl

/-- The stack pointer is no cell of A0 to A6 (R23). -/
theorem State.setSp_setAreg_low (s : State) {x : Reg} (low : x.val < 7) (v w : Long) :
    (s.setAreg x v).setSp w = (s.setSp w).setAreg x v := by
  have kept := State.supervisor_setAreg s x v
  cases mode : s.supervisor
  · rw [State.setSp_of_user (kept.trans mode), State.setSp_of_user mode]
    simp only [State.setAreg, dif_pos low]
  · rw [State.setSp_of_supervisor (kept.trans mode), State.setSp_of_supervisor mode]
    simp only [State.setAreg, dif_pos low]

/-- Two writes of address registers may be exchanged, if they agree where they are to the same register. -/
theorem State.setAreg_comm (s : State) {x y : Reg} {v w : Long} (h : x = y → v = w) :
    (s.setAreg x v).setAreg y w = (s.setAreg y w).setAreg x v := by
  have low {r : Reg} (notSp : r ≠ 7) : r.val < 7 := Fin.val_lt_last notSp
  by_cases same : x = y
  · rw [same, h same]
  · by_cases hx : x = 7
    · have hy : y ≠ 7 := fun hy => same (hx.trans hy.symm)
      rw [hx, State.setAreg_seven, State.setAreg_seven, State.setSp_setAreg_low s (low hy)]
    · by_cases hy : y = 7
      · rw [hy, State.setAreg_seven, State.setAreg_seven, State.setSp_setAreg_low s (low hx)]
      · simp only [State.setAreg, dif_pos (low hx), dif_pos (low hy), Vector.set_comm v w fun e => same (Fin.ext e)]

/-- Exchanging the words of a long is rotating it by 16 bits (R299). -/
theorem lowWord_append_highWord (v : Long) : (lowWord v ++ highWord v : Long) = v.rotateLeft 16 := by
  refine BitVec.eq_of_getLsbD_eq fun k hk => ?_
  rw [BitVec.getLsbD_append, lowWord, highWord, BitVec.getLsbD_extractLsb', BitVec.getLsbD_extractLsb', BitVec.getLsbD_rotateLeft]
  by_cases high : k < 16
  · simp [high]
  · simp [high, hk, show k - 16 < 16 by omega]

/-- Settles O34: each instruction is one write of its registers and flags; the order of two writes to different registers is not seen. -/
theorem registerOnlyResults : Obligations.RegisterOnlyResults := by
  unfold Obligations.RegisterOnlyResults
  refine ⟨fun n s ht => ?_, fun n s ht => ?_, fun n s ht => ?_, fun x y s ht => ?_, fun x y s ht => ?_, fun x y s ht => ?_⟩
  · rw [exec, execExtW, moveFlags_eq_valueFlags]
    exact retire_ok_past ht (by rfl) _
  · rw [exec, execExtL, moveFlags_eq_valueFlags]
    exact retire_ok_past ht (by rfl) _
  · rw [exec, execSwap, moveFlags_eq_valueFlags, lowWord_append_highWord]
    exact retire_ok_past ht (by rfl) _
  · rw [exec, execExgDD, State.setDreg_comm s fun same => by rw [same]]
    exact retire_ok_past ht (by rfl) _
  · rw [exec, execExgAA, State.setAreg_comm s fun same => by rw [same]]
    exact retire_ok_past ht (by rfl) _
  · rw [exec, execExgDA, State.setAreg_setDreg]
    exact retire_ok_past ht (by rfl) _

end Sys2Proof.Machine
end

section
/-! SUPPORT. The iteration of 45_shift_rotate.md R290 on a value of its size, bit by bit: where each bit stands after one place of shifting,
and what an iteration leaves when its steps say what each of them does. -/

namespace Sys2Proof.Machine

/-! ## The iteration -/

/-- The operation on a value of its size is the iteration from that value, with N and Z by the value it leaves (R290). -/
theorem shiftOp_of_fits {sz : Size} {v : Long} (h : sz.fits v = true) {step : Size → ShiftState → ShiftState} {c0 keepV : Bool} {cnt : Nat}
    {f : Ccr} {t : ShiftState} (loop : shiftLoop (step sz) cnt { v := v, x := f.x, c := c0, vf := false } = t) :
    shiftOp step c0 keepV sz cnt v f =
      (t.v, { x := t.x, n := t.v.getLsbD (sz.bits - 1), z := decide (t.v = 0), v := keepV && t.vf, c := t.c }) := by
  simp only [shiftOp, trunc_of_fits h, loop, msb, Bool.beq_eq_decide_eq]

theorem shiftOp_z (step : Size → ShiftState → ShiftState) (c0 keepV : Bool) (sz : Size) (cnt : Nat) (v : Long) (f : Ccr) :
    (shiftOp step c0 keepV sz cnt v f).2.z = decide ((shiftOp step c0 keepV sz cnt v f).1 = 0) := Bool.beq_eq_decide_eq _ _

/-- What every step keeps, the iteration keeps. -/
theorem shiftLoop_keeps {step : ShiftState → ShiftState} {P : ShiftState → Prop} (keeps : ∀ t, P t → P (step t)) (n : Nat)
    {t : ShiftState} (h : P t) : P (shiftLoop step n t) := by
  induction n generalizing t with
  | zero => exact h
  | succ n ih => exact ih (keeps t h)

/-- Steps through the values `g`, each of which puts the bit `out` in X and C, end in the last value with the last bit (R290). -/
theorem shiftLoop_succ_eq {step : ShiftState → ShiftState} {g : Nat → Long} {out : Nat → Bool} {vf : Bool}
    (steps : ∀ i x c, step ⟨g i, x, c, vf⟩ = ⟨g (i + 1), out i, out i, vf⟩) (n : Nat) (x c : Bool) :
    shiftLoop step (n + 1) ⟨g 0, x, c, vf⟩ = ⟨g (n + 1), out n, out n, vf⟩ := by
  induction n with
  | zero => exact steps 0 x c
  | succ n ih => rw [shiftLoop_last, ih, steps]

/-! ## Bits of a value of a size -/

/-- A value fits its size exactly when no bit above the size is set (00_scope.md R9). -/
theorem fits_iff_getLsbD {sz : Size} {v : Long} : sz.fits v = true ↔ ∀ k, sz.bits ≤ k → v.getLsbD k = false := by
  constructor
  · intro h k hk
    rw [← trunc_of_fits h, getLsbD_trunc, decide_eq_false (Nat.not_lt.mpr hk), Bool.and_false]
  · intro h
    refine beq_iff_eq.mpr (BitVec.eq_of_getLsbD_eq fun k _ => ?_)
    rw [BitVec.getLsbD_and, getLsbD_mask]
    by_cases hk : k < sz.bits
    · simp [hk]
    · simp [hk, h k (Nat.not_lt.mp hk)]

theorem fits_trunc (sz : Size) (v : Long) : sz.fits (trunc sz v) = true := beq_iff_eq.mpr (trunc_trunc sz v)

theorem fits_of_lt {sz : Size} {v : Long} (h : v.toNat < 2 ^ sz.bits) : sz.fits v = true :=
  beq_iff_eq.mpr (BitVec.eq_of_toNat_eq ((toNat_trunc sz v).trans (Nat.mod_eq_of_lt h)))

/-- Values of a size are equal when their bits below the size are. -/
theorem eq_of_getLsbD_of_fits {sz : Size} {v w : Long} (hv : sz.fits v = true) (hw : sz.fits w = true)
    (bits : ∀ k, k < sz.bits → v.getLsbD k = w.getLsbD k) : v = w := BitVec.eq_of_getLsbD_eq fun k _ => by
  by_cases hk : k < sz.bits
  · exact bits k hk
  · rw [fits_iff_getLsbD.mp hv k (Nat.not_lt.mp hk), fits_iff_getLsbD.mp hw k (Nat.not_lt.mp hk)]

theorem eq_zero_iff_getLsbD {sz : Size} {v : Long} (h : sz.fits v = true) : v = 0 ↔ ∀ k, k < sz.bits → v.getLsbD k = false := by
  constructor
  · rintro rfl k _
    exact BitVec.getLsbD_zero
  · intro zero
    refine eq_of_getLsbD_of_fits h (fits_iff_getLsbD.mpr fun k _ => BitVec.getLsbD_zero) fun k hk => ?_
    rw [zero k hk]
    exact BitVec.getLsbD_zero.symm

theorem long_eq_zero_iff (v : Long) : v = 0 ↔ v.toNat = 0 := BitVec.toNat_inj.symm

theorem bits_pos (sz : Size) : 0 < sz.bits := by cases sz <;> decide

theorem bits_le (sz : Size) : sz.bits ≤ 32 := by cases sz <;> decide

theorem getLsbD_msbOnly (sz : Size) (k : Nat) : (msbOnly sz).getLsbD k = decide (k + 1 = sz.bits) := by
  have power : msbOnly sz = BitVec.twoPow 32 (sz.bits - 1) := by cases sz <;> rfl
  have top := bits_pos sz
  have width := bits_le sz
  rw [power, BitVec.getLsbD_twoPow, ← Bool.decide_and, decide_eq_decide]
  omega

end Sys2Proof.Machine
end

section
/-! SUPPORT. The shifts (spec/45_shift_rotate.md R291 to R294; 00_scope.md R9): what an iteration of each leaves, as a shift by the count,
then as the number that is. -/

namespace Sys2Proof.Machine

/-! ## Left -/

theorem trunc_trunc_shiftLeft_one (sz : Size) (v : Long) : trunc sz (trunc sz v <<< 1) = trunc sz (v <<< 1) :=
  eq_of_getLsbD_of_fits (fits_trunc sz _) (fits_trunc sz _) fun k hk => by
    simp [show k - 1 < sz.bits by omega]

theorem msb_trunc (sz : Size) (v : Long) : msb sz (trunc sz v) = msb sz v := by
  simp [msb, bits_pos]

theorem lslLoop_eq {sz : Size} {v : Long} (fits : sz.fits v = true) (n : Nat) (x c vf : Bool) :
    shiftLoop (lslStep sz) (n + 1) ⟨v, x, c, vf⟩ = ⟨trunc sz (v <<< (n + 1)), msb sz (v <<< n), msb sz (v <<< n), vf⟩ := by
  have steps (i : Nat) (x c : Bool) : lslStep sz ⟨trunc sz (v <<< i), x, c, vf⟩ =
      ⟨trunc sz (v <<< (i + 1)), msb sz (v <<< i), msb sz (v <<< i), vf⟩ := by
    rw [lslStep, trunc_trunc_shiftLeft_one, msb_trunc, ← BitVec.shiftLeft_add]
  have iterated := shiftLoop_succ_eq (g := fun i => trunc sz (v <<< i)) (out := fun i => msb sz (v <<< i)) steps n x c
  rwa [BitVec.shiftLeft_zero, trunc_of_fits fits] at iterated

theorem toNat_trunc_shiftLeft (sz : Size) (v : Long) (n : Nat) : (trunc sz (v <<< n)).toNat = v.toNat * 2 ^ n % 2 ^ sz.bits := by
  rw [toNat_trunc, BitVec.toNat_shiftLeft, Nat.shiftLeft_eq, Nat.mod_mod_of_dvd _ (Nat.pow_dvd_pow 2 (bits_le sz))]

theorem msb_shiftLeft (sz : Size) (v : Long) (n : Nat) :
    msb sz (v <<< n) = (decide (n + 1 ≤ sz.bits) && v.getLsbD (sz.bits - (n + 1))) := by
  have top := bits_pos sz
  have width := bits_le sz
  rw [msb, BitVec.getLsbD_shiftLeft, decide_eq_true (show sz.bits - 1 < 32 by omega), Bool.true_and, ← decide_not,
    show sz.bits - 1 - n = sz.bits - (n + 1) by omega]
  congr 1
  rw [decide_eq_decide]
  omega

/-- ASL's step is LSL's, with the sign change collected (R291, R293). -/
theorem aslStep_eq (sz : Size) (t : ShiftState) :
    aslStep sz t = { lslStep sz t with vf := t.vf || (msb sz (trunc sz (t.v <<< 1)) != msb sz t.v) } := rfl

/-- The sign changes on doubling exactly when the signed double is out of range, else the result is that double (R291). -/
theorem sign_change_eq {sz : Size} {v : Long} (h : v.toNat < 2 ^ sz.bits) :
    (msb sz (trunc sz (v <<< 1)) != msb sz v) = !inRange sz (signedAt sz v * 2) ∧
      (inRange sz (signedAt sz v * 2) = true → signedAt sz (trunc sz (v <<< 1)) = signedAt sz v * 2) := by
  have small := toNat_trunc_lt sz (v <<< 1)
  have double := toNat_trunc_shiftLeft sz v 1
  rw [msb_of_lt small, msb_of_lt h, Bool.eq_iff_iff, Bool.not_eq_true', ← Bool.not_eq_true, inRange_iff, bne_iff_ne, ne_eq, decide_eq_decide]
  have old_signed := signedAt_cases h
  have new_signed := signedAt_cases small
  rw [double] at *
  cases sz <;> simp only [Size.bits] at * <;> omega

theorem inRange_signedAt {sz : Size} {v : Long} (h : v.toNat < 2 ^ sz.bits) : inRange sz (signedAt sz v) = true := by
  rw [inRange_iff]
  have := signedAt_cases h
  cases sz <;> simp only [Size.bits] at * <;> omega

theorem inRange_of_mul_pow {sz : Size} {k : Int} {n : Nat} (h : inRange sz (k * 2 ^ n) = true) : inRange sz k = true := by
  have grows : (1 : Int) ≤ 2 ^ n := one_le_pow₀ (by decide)
  obtain ⟨lower, upper⟩ := inRange_iff.mp h
  rw [inRange_iff]
  rcases le_total 0 k with nonneg | nonpos
  · have := le_mul_of_one_le_right nonneg grows
    omega
  · have := mul_le_of_one_le_right nonpos grows
    omega

theorem lslLoop_vf (sz : Size) (n : Nat) (t : ShiftState) (b : Bool) :
    shiftLoop (lslStep sz) n { t with vf := b } = { shiftLoop (lslStep sz) n t with vf := b } := by
  induction n generalizing t with
  | zero => rfl
  | succ n ih => exact ih (lslStep sz t)

/-- ASL leaves what LSL leaves, and V says that the signed product is out of range (R291). -/
theorem aslLoop_eq (sz : Size) (n : Nat) {t : ShiftState} (h : t.v.toNat < 2 ^ sz.bits) :
    shiftLoop (aslStep sz) n t =
      { shiftLoop (lslStep sz) n t with vf := t.vf || !inRange sz (signedAt sz t.v * 2 ^ n) } := by
  induction n generalizing t with
  | zero => simp [inRange_signedAt h]
  | succ n ih =>
    obtain ⟨change, double⟩ := sign_change_eq h
    have overflow : (!inRange sz (signedAt sz t.v * 2) || !inRange sz (signedAt sz (trunc sz (t.v <<< 1)) * 2 ^ n)) =
        !inRange sz (signedAt sz t.v * 2 ^ (n + 1)) := by
      rw [pow_succ', ← mul_assoc]
      cases inside : inRange sz (signedAt sz t.v * 2)
      · cases later : inRange sz (signedAt sz t.v * 2 * 2 ^ n)
        · rfl
        · rw [inRange_of_mul_pow later] at inside
          contradiction
      · rw [double inside]
        rfl
    rw [shiftLoop_succ, ih (toNat_trunc_lt sz _), aslStep_eq, lslLoop_vf, shiftLoop_succ, change]
    simp only [lslStep, Bool.or_assoc, overflow]

/-! ## Right -/

theorem lsrLoop_eq (sz : Size) (v : Long) (n : Nat) (x c vf : Bool) :
    shiftLoop (lsrStep sz) (n + 1) ⟨v, x, c, vf⟩ = ⟨v >>> (n + 1), v.getLsbD n, v.getLsbD n, vf⟩ := by
  refine shiftLoop_succ_eq (g := fun i => v >>> i) (out := fun i => v.getLsbD i) (fun i x c => ?_) n x c
  simp only [lsrStep, ← BitVec.shiftRight_add, BitVec.getLsbD_ushiftRight, Nat.add_zero]

/-- The sign bit fills the places above a size (00_scope.md R9). -/
theorem getLsbD_sext (sz : Size) (v : Long) {k : Nat} (hk : k < 32) : (sext sz v).getLsbD k = v.getLsbD (min k (sz.bits - 1)) := by
  have extended (n : Nat) (hn : 0 < n) : ((v.extractLsb' 0 n).signExtend 32).getLsbD k = v.getLsbD (min k (n - 1)) := by
    rw [BitVec.getLsbD_signExtend, BitVec.msb_eq_getLsbD_last, BitVec.getLsbD_extractLsb', BitVec.getLsbD_extractLsb']
    by_cases low : k < n
    · simp [low, hk, show min k (n - 1) = k by omega]
    · simp [low, hk, hn, show min k (n - 1) = n - 1 by omega]
  cases sz with
  | b => exact extended 8 (by decide)
  | w => exact extended 16 (by decide)
  | l => rw [sext, Size.bits, show min k (32 - 1) = k by omega]

/-- Bit `k` of the sign-extended value shifted right with its sign. -/
theorem getLsbD_sext_sshiftRight (sz : Size) (v : Long) (n : Nat) {k : Nat} (hk : k < 32) :
    ((sext sz v).sshiftRight n).getLsbD k = v.getLsbD (min (k + n) (sz.bits - 1)) := by
  have width := bits_le sz
  rw [BitVec.getLsbD_sshiftRight, decide_eq_false (Nat.not_le.mpr hk), Bool.not_false, Bool.true_and]
  by_cases inside : n + k < 32
  · rw [if_pos inside, getLsbD_sext sz v inside, Nat.add_comm]
  · rw [if_neg inside, BitVec.msb_eq_getLsbD_last, getLsbD_sext sz v (by decide), show min (k + n) (sz.bits - 1) = sz.bits - 1 by omega,
      show min (32 - 1) (sz.bits - 1) = sz.bits - 1 by omega]

/-- The sign-extended value shifted right with its sign, at the size: what ASR leaves (R292). -/
def shiftedArithmetically (sz : Size) (v : Long) (n : Nat) : Long := trunc sz ((sext sz v).sshiftRight n)

theorem getLsbD_shiftedArithmetically (sz : Size) (v : Long) (n : Nat) {k : Nat} (hk : k < sz.bits) :
    (shiftedArithmetically sz v n).getLsbD k = v.getLsbD (min (k + n) (sz.bits - 1)) := by
  have width := bits_le sz
  rw [shiftedArithmetically, getLsbD_trunc, getLsbD_sext_sshiftRight sz v n (by omega), decide_eq_true hk, Bool.and_true]

/-- One step more: every bit moves one place down and the sign stays (R292). -/
theorem shiftedArithmetically_succ (sz : Size) (v : Long) (n : Nat) :
    (shiftedArithmetically sz v n >>> 1) ||| (shiftedArithmetically sz v n &&& msbOnly sz) = shiftedArithmetically sz v (n + 1) := by
  have above := fits_iff_getLsbD.mp (fits_trunc sz ((sext sz v).sshiftRight n))
  rw [← shiftedArithmetically] at above
  have bit (k : Nat) : ((shiftedArithmetically sz v n >>> 1) ||| (shiftedArithmetically sz v n &&& msbOnly sz)).getLsbD k =
      ((shiftedArithmetically sz v n).getLsbD (k + 1) || (shiftedArithmetically sz v n).getLsbD k && decide (k + 1 = sz.bits)) := by
    rw [BitVec.getLsbD_or, BitVec.getLsbD_ushiftRight, BitVec.getLsbD_and, getLsbD_msbOnly, Nat.add_comm 1 k]
  refine eq_of_getLsbD_of_fits (fits_iff_getLsbD.mpr fun k hk => ?_) (fits_trunc sz _) fun k hk => ?_
  · rw [bit, above k hk, above (k + 1) (by omega)]
    rfl
  · rw [bit, getLsbD_shiftedArithmetically sz v (n + 1) hk, getLsbD_shiftedArithmetically sz v n hk]
    by_cases top : k + 1 = sz.bits
    · rw [above (k + 1) top.ge, decide_eq_true top, Bool.false_or, Bool.and_true, show min (k + n) (sz.bits - 1) = sz.bits - 1 by omega,
        show min (k + (n + 1)) (sz.bits - 1) = sz.bits - 1 by omega]
    · rw [getLsbD_shiftedArithmetically sz v n (by omega), decide_eq_false top, Bool.and_false, Bool.or_false, Nat.add_right_comm,
        Nat.add_assoc]

theorem asrLoop_eq {sz : Size} {v : Long} (fits : sz.fits v = true) (n : Nat) (x c vf : Bool) :
    shiftLoop (asrStep sz) (n + 1) ⟨v, x, c, vf⟩ =
      ⟨shiftedArithmetically sz v (n + 1), v.getLsbD (min n (sz.bits - 1)), v.getLsbD (min n (sz.bits - 1)), vf⟩ := by
  have start : v = shiftedArithmetically sz v 0 := eq_of_getLsbD_of_fits fits (fits_trunc sz _) fun k hk => by
    rw [getLsbD_shiftedArithmetically sz v 0 hk, show min (k + 0) (sz.bits - 1) = k by omega]
  have steps (i : Nat) (x c : Bool) : asrStep sz ⟨shiftedArithmetically sz v i, x, c, vf⟩ =
      ⟨shiftedArithmetically sz v (i + 1), v.getLsbD (min i (sz.bits - 1)), v.getLsbD (min i (sz.bits - 1)), vf⟩ := by
    simp only [asrStep, shiftedArithmetically_succ, getLsbD_shiftedArithmetically sz v i (bits_pos sz), Nat.zero_add]
  have iterated := shiftLoop_succ_eq (g := shiftedArithmetically sz v) (out := fun i => v.getLsbD (min i (sz.bits - 1))) steps n x c
  rwa [← start] at iterated

/-- A value at a size is the residue of its signed reading as a long. -/
theorem toNat_trunc_eq_toInt (sz : Size) (v : Long) : ((trunc sz v).toNat : Int) = v.toInt % 2 ^ sz.bits := by
  have small := v.isLt
  rw [toNat_trunc, BitVec.toInt_eq_toNat_cond]
  cases sz <;> simp only [Size.bits] <;> omega

theorem toNat_shiftedArithmetically (sz : Size) (v : Long) (n : Nat) :
    ((shiftedArithmetically sz v n).toNat : Int) = signedAt sz v / 2 ^ n % 2 ^ sz.bits := by
  rw [shiftedArithmetically, toNat_trunc_eq_toInt, BitVec.toInt_sshiftRight, Int.shiftRight_eq_div_pow, signedAt]
  norm_cast

theorem inRange_ediv_pow {sz : Size} {k : Int} (h : inRange sz k = true) (n : Nat) : inRange sz (k / 2 ^ n) = true := by
  have grows : (1 : Int) ≤ 2 ^ n := one_le_pow₀ (by decide)
  obtain ⟨lower, upper⟩ := inRange_iff.mp h
  rw [inRange_iff]
  have bound : (2 : Int) ^ (sz.bits - 1) ≤ 2 ^ (sz.bits - 1) * 2 ^ n := le_mul_of_one_le_right (by positivity) grows
  exact ⟨Int.le_ediv_of_mul_le (by omega) (by rw [neg_mul]; omega), Int.ediv_lt_of_lt_mul (by omega) (by omega)⟩

theorem shiftedArithmetically_eq_zero_iff {sz : Size} {v : Long} (h : v.toNat < 2 ^ sz.bits) (n : Nat) :
    shiftedArithmetically sz v n = 0 ↔ signedAt sz v / 2 ^ n = 0 := by
  have inside := inRange_iff.mp (inRange_ediv_pow (inRange_signedAt h) n)
  have residue := toNat_shiftedArithmetically sz v n
  rw [long_eq_zero_iff, ← Int.natCast_eq_zero, residue]
  cases sz <;> simp only [Size.bits] at * <;> omega

/-! ## The closed forms -/

section
variable {sz : Size} {v : Long} (fits : sz.fits v = true) (n : Nat) (f : Ccr)
include fits

/-- What LSL and ASL leave: the product modulo the size, the flags by its number, the last bit out in C and X. -/
theorem shiftOp_left {step : Size → ShiftState → ShiftState} {keepV vf : Bool}
    (loop : shiftLoop (step sz) (n + 1) ⟨v, f.x, false, false⟩ = { shiftLoop (lslStep sz) (n + 1) ⟨v, f.x, false, false⟩ with vf := vf }) :
    (shiftOp step false keepV sz (n + 1) v f).1.toNat = v.toNat * 2 ^ (n + 1) % 2 ^ sz.bits ∧
      (shiftOp step false keepV sz (n + 1) v f).2 =
        { x := decide (n + 1 ≤ sz.bits) && v.getLsbD (sz.bits - (n + 1)),
          n := decide (2 ^ (sz.bits - 1) ≤ v.toNat * 2 ^ (n + 1) % 2 ^ sz.bits),
          z := decide (v.toNat * 2 ^ (n + 1) % 2 ^ sz.bits = 0), v := keepV && vf,
          c := decide (n + 1 ≤ sz.bits) && v.getLsbD (sz.bits - (n + 1)) } := by
  have value := toNat_trunc_shiftLeft sz v (n + 1)
  have sign := msb_of_lt (toNat_trunc_lt sz (v <<< (n + 1)))
  have zero : trunc sz (v <<< (n + 1)) = 0 ↔ v.toNat * 2 ^ (n + 1) % 2 ^ sz.bits = 0 := by
    rw [← value, long_eq_zero_iff]
  rw [lslLoop_eq fits] at loop
  rw [shiftOp_of_fits fits loop, msb_shiftLeft]
  rw [value, msb] at sign
  simp only [value, sign, zero, and_self]

theorem shiftOp_lsr :
    (shiftOp lsrStep false false sz (n + 1) v f).1.toNat = v.toNat / 2 ^ (n + 1) ∧
      (shiftOp lsrStep false false sz (n + 1) v f).2 =
        { x := decide (n + 1 ≤ sz.bits) && v.getLsbD n, n := false, z := decide (v.toNat / 2 ^ (n + 1) = 0), v := false,
          c := decide (n + 1 ≤ sz.bits) && v.getLsbD n } := by
  have value : (v >>> (n + 1)).toNat = v.toNat / 2 ^ (n + 1) := by rw [BitVec.toNat_ushiftRight, Nat.shiftRight_eq_div_pow]
  have zero : v >>> (n + 1) = 0 ↔ v.toNat / 2 ^ (n + 1) = 0 := by rw [← value, long_eq_zero_iff]
  have sign : (v >>> (n + 1)).getLsbD (sz.bits - 1) = false := by
    rw [BitVec.getLsbD_ushiftRight]
    exact fits_iff_getLsbD.mp fits _ (by omega)
  have out : v.getLsbD n = (decide (n + 1 ≤ sz.bits) && v.getLsbD n) := by
    by_cases inside : n + 1 ≤ sz.bits
    · rw [decide_eq_true inside, Bool.true_and]
    · rw [fits_iff_getLsbD.mp fits n (by omega), Bool.and_false]
  rw [shiftOp_of_fits fits (lsrLoop_eq ..), ← out]
  simp only [value, sign, zero, Bool.false_and, and_self]

theorem shiftOp_asr :
    ((shiftOp asrStep false false sz (n + 1) v f).1.toNat : Int) = signedAt sz v / 2 ^ (n + 1) % 2 ^ sz.bits ∧
      (shiftOp asrStep false false sz (n + 1) v f).2 =
        { x := if n + 1 ≤ sz.bits then v.getLsbD n else v.getLsbD (sz.bits - 1), n := v.getLsbD (sz.bits - 1),
          z := decide (signedAt sz v / 2 ^ (n + 1) = 0), v := false,
          c := if n + 1 ≤ sz.bits then v.getLsbD n else v.getLsbD (sz.bits - 1) } := by
  have top := bits_pos sz
  have sign : (shiftedArithmetically sz v (n + 1)).getLsbD (sz.bits - 1) = v.getLsbD (sz.bits - 1) := by
    rw [getLsbD_shiftedArithmetically sz v (n + 1) (by omega), show min (sz.bits - 1 + (n + 1)) (sz.bits - 1) = sz.bits - 1 by omega]
  have out : v.getLsbD (min n (sz.bits - 1)) = if n + 1 ≤ sz.bits then v.getLsbD n else v.getLsbD (sz.bits - 1) := by
    split
    · rw [show min n (sz.bits - 1) = n by omega]
    · rw [show min n (sz.bits - 1) = sz.bits - 1 by omega]
  rw [shiftOp_of_fits fits (asrLoop_eq fits ..), out]
  simp only [toNat_shiftedArithmetically, sign, shiftedArithmetically_eq_zero_iff (toNat_lt_of_fits fits), Bool.false_and, and_self]

end

/-- Settles O18: each shift by its closed form for the iteration; a count of 0 iterates nothing. -/
theorem shiftClosedForms : Obligations.ShiftClosedForms := by
  unfold Obligations.ShiftClosedForms
  refine ⟨fun sz v cnt f fits hcnt => ?_, fun sz v f st c0 keepV fits => ?_⟩
  · obtain ⟨n, rfl⟩ : ∃ n, cnt = n + 1 := ⟨cnt - 1, by omega⟩
    exact ⟨shiftOp_left fits n f rfl, shiftOp_left fits n f (aslLoop_eq sz (n + 1) (toNat_lt_of_fits fits)), shiftOp_lsr fits n f,
      shiftOp_asr fits n f⟩
  · rw [shiftOp_of_fits fits (shiftLoop_zero _ _), Bool.and_false]

end Sys2Proof.Machine
end

section
/-! SUPPORT. The rotates (spec/45_shift_rotate.md R295 to R298): a step of any of the four turns a ring of bits by one place, the operand
for ROL and ROR, X and the operand for ROXL and ROXR; so `cnt` steps turn it by `cnt` places. -/

namespace Sys2Proof.Machine

/-! ## One place of turning -/

theorem getLsbD_bitOf (b : Bool) (k : Nat) : (bitOf b).getLsbD k = (b && decide (k = 0)) := by
  cases b <;> simp [bitOf, BitVec.getLsbD_one]

/-- Bit `k` of a left shift by one place with `b` entering at bit 0 (R295, R297). -/
theorem getLsbD_shiftedLeft (sz : Size) (v : Long) (b : Bool) {k : Nat} (hk : k < sz.bits) :
    (trunc sz ((v <<< 1) ||| bitOf b)).getLsbD k = if k = 0 then b else v.getLsbD (k - 1) := by
  have width := bits_le sz
  rw [getLsbD_trunc, BitVec.getLsbD_or, BitVec.getLsbD_shiftLeft, getLsbD_bitOf]
  by_cases zero : k = 0
  · simp [zero, bits_pos]
  · simp [zero, hk, show k < 32 by omega]

/-- Bit `k` of a right shift by one place with `b` entering at the top (R296, R298). -/
theorem getLsbD_shiftedRight {sz : Size} {v : Long} (fits : sz.fits v = true) (b : Bool) (k : Nat) :
    ((v >>> 1) ||| (if b then msbOnly sz else 0)).getLsbD k = if k + 1 = sz.bits then b else v.getLsbD (k + 1) := by
  have entering : (if b then msbOnly sz else 0).getLsbD k = (b && decide (k + 1 = sz.bits)) := by
    cases b <;> simp [getLsbD_msbOnly]
  rw [BitVec.getLsbD_or, BitVec.getLsbD_ushiftRight, entering, Nat.add_comm 1 k]
  by_cases top : k + 1 = sz.bits
  · simp [top, fits_iff_getLsbD.mp fits]
  · simp [top]

theorem fits_shiftedRight {sz : Size} {v : Long} (fits : sz.fits v = true) (b : Bool) :
    sz.fits ((v >>> 1) ||| (if b then msbOnly sz else 0)) = true := fits_iff_getLsbD.mpr fun k hk => by
  rw [getLsbD_shiftedRight fits, if_neg (by omega), fits_iff_getLsbD.mp fits _ (by omega)]

/-! ## Rings of bits -/

/-- A step that leaves values that fit their size turns a ring of `m` bits by `d` places. -/
structure Turns (sz : Size) (m d : Nat) (ring : ShiftState → Nat → Bool) (step : ShiftState → ShiftState) : Prop where
  pos : 0 < m
  fits : ∀ t, sz.fits t.v = true → sz.fits (step t).v = true
  ring_step : ∀ t k, sz.fits t.v = true → k < m → ring (step t) k = ring t ((k + d) % m)

/-- X and the operand as a ring, X at the place above the operand (R297, R298). -/
def extendRing (sz : Size) (x : Bool) (v : Long) (k : Nat) : Bool := if k = sz.bits then x else v.getLsbD k

/-- One place back in a ring of `m` is `m - 1` places on. -/
theorem add_pred_mod {m k : Nat} (hk : k < m) : (k + (m - 1)) % m = if k = 0 then m - 1 else k - 1 := by
  split
  · rw [Nat.mod_eq_of_lt (by omega)]; omega
  · rw [show k + (m - 1) = k - 1 + m by omega, Nat.add_mod_right, Nat.mod_eq_of_lt (by omega)]

theorem add_one_mod {m k : Nat} (hk : k < m) : (k + 1) % m = if k + 1 = m then 0 else k + 1 := by
  split
  · next last => rw [last, Nat.mod_self]
  · exact Nat.mod_eq_of_lt (by omega)

theorem rolStep_turns (sz : Size) : Turns sz sz.bits (sz.bits - 1) (fun t => t.v.getLsbD) (rolStep sz) where
  pos := bits_pos sz
  fits _ _ := fits_trunc sz _
  ring_step t k _ hk := by
    rw [add_pred_mod hk, rolStep, getLsbD_shiftedLeft sz _ _ hk]
    split <;> rfl

theorem rorStep_turns (sz : Size) : Turns sz sz.bits 1 (fun t => t.v.getLsbD) (rorStep sz) where
  pos := bits_pos sz
  fits t h := fits_shiftedRight h (t.v.getLsbD 0)
  ring_step t k h hk := by
    rw [add_one_mod hk, rorStep, getLsbD_shiftedRight h]
    split <;> rfl

theorem roxlStep_turns (sz : Size) : Turns sz (sz.bits + 1) sz.bits (fun t => extendRing sz t.x t.v) (roxlStep sz) where
  pos := Nat.succ_pos _
  fits _ _ := fits_trunc sz _
  ring_step t k _ hk := by
    rw [show k + sz.bits = k + (sz.bits + 1 - 1) by omega, add_pred_mod hk]
    have top := bits_pos sz
    by_cases above : k = sz.bits
    · simp only [extendRing, roxlStep, above, if_true, msb, show sz.bits ≠ 0 by omega, show sz.bits - 1 ≠ sz.bits by omega, if_false]
    · simp only [extendRing, roxlStep, above, if_false, getLsbD_shiftedLeft sz _ _ (show k < sz.bits by omega), Nat.add_sub_cancel]
      split
      · rw [if_pos rfl]
      · rw [if_neg (by omega)]

theorem roxrStep_turns (sz : Size) : Turns sz (sz.bits + 1) 1 (fun t => extendRing sz t.x t.v) (roxrStep sz) where
  pos := Nat.succ_pos _
  fits t h := fits_shiftedRight h t.x
  ring_step t k h hk := by
    rw [add_one_mod hk]
    have top := bits_pos sz
    by_cases above : k = sz.bits
    · simp only [extendRing, roxrStep, above, if_true, show 0 ≠ sz.bits by omega, if_false]
    · simp only [extendRing, roxrStep, above, if_false, getLsbD_shiftedRight h, show k + 1 ≠ sz.bits + 1 by omega]

namespace Turns
variable {sz : Size} {m d : Nat} {ring : ShiftState → Nat → Bool} {step : ShiftState → ShiftState} (turns : Turns sz m d ring step)
include turns

theorem fits_shiftLoop (n : Nat) {t : ShiftState} (h : sz.fits t.v = true) : sz.fits (shiftLoop step n t).v = true :=
  shiftLoop_keeps (P := fun t => sz.fits t.v = true) turns.fits n h

/-- `n` steps turn the ring by `n * d` places (R290). -/
theorem ring_shiftLoop (n : Nat) {t : ShiftState} {k : Nat} (h : sz.fits t.v = true) (hk : k < m) :
    ring (shiftLoop step n t) k = ring t ((k + n * d) % m) := by
  induction n generalizing t with
  | zero => rw [shiftLoop_zero, Nat.zero_mul, Nat.add_zero, Nat.mod_eq_of_lt hk]
  | succ n ih =>
    rw [shiftLoop_succ, ih (turns.fits t h), turns.ring_step t _ h (Nat.mod_lt _ turns.pos), Nat.mod_add_mod, Nat.add_assoc,
      ← Nat.succ_mul]

/-- What a step from a value of its size establishes holds after an iteration of at least one. -/
theorem shiftLoop_of_step {P : ShiftState → Prop} (establishes : ∀ t, sz.fits t.v = true → P (step t)) {n : Nat} (hn : 1 ≤ n)
    {t : ShiftState} (h : sz.fits t.v = true) : P (shiftLoop step n t) := by
  obtain ⟨j, rfl⟩ : ∃ j, n = j + 1 := ⟨n - 1, by omega⟩
  rw [shiftLoop_last]
  exact establishes _ (turns.fits_shiftLoop j h)

end Turns

/-- Turning on and back by places that make up whole turns gives back every place. -/
theorem mod_add_mod_of_whole {m k a b n : Nat} (hk : k < m) (whole : a + b = n * m) : ((k + a) % m + b) % m = k := by
  rw [Nat.mod_add_mod, Nat.add_assoc, whole, Nat.add_mul_mod_self_right, Nat.mod_eq_of_lt hk]

theorem add_mul_pred {m : Nat} (hm : 0 < m) (n : Nat) : n + n * (m - 1) = n * m := by
  rw [← mul_one_add n, show 1 + (m - 1) = m by omega]

/-- `n` times `m - 1` places on in a ring of `m` are `n` places back. -/
theorem add_mul_pred_mod {m : Nat} (hm : 0 < m) (k n : Nat) : (k + n * (m - 1)) % m = (k + m - n % m) % m := by
  have back : n % m ≤ k + m := (Nat.mod_lt n hm).le.trans (Nat.le_add_left m k)
  refine Nat.ModEq.add_right_cancel' n (?_ : (k + n * (m - 1) + n) % m = (k + m - n % m + n) % m)
  rw [Nat.add_assoc, Nat.add_comm _ n, add_mul_pred hm, Nat.add_mul_mod_self_right, ← Nat.add_mod_mod (k + m - n % m),
    Nat.sub_add_cancel back, Nat.add_mod_right]

theorem fits_shiftOp {sz : Size} {step : Size → ShiftState → ShiftState} {m d : Nat} {ring : ShiftState → Nat → Bool}
    (turns : Turns sz m d ring (step sz)) (c0 keepV : Bool) (cnt : Nat) (v : Long) (f : Ccr) :
    sz.fits (shiftOp step c0 keepV sz cnt v f).1 = true := turns.fits_shiftLoop cnt (fits_trunc sz v)

/-! ## ROL and ROR -/

section
variable {sz : Size} {v : Long} (fits : sz.fits v = true) {step : Size → ShiftState → ShiftState} {d : Nat}
  (turns : Turns sz sz.bits d (fun t => t.v.getLsbD) (step sz)) (c0 keepV : Bool) (cnt : Nat) (f : Ccr)
include fits turns

theorem getLsbD_rotated {k : Nat} (hk : k < sz.bits) :
    (shiftOp step c0 keepV sz cnt v f).1.getLsbD k = v.getLsbD ((k + cnt * d) % sz.bits) := by
  rw [shiftOp_of_fits fits rfl]
  exact turns.ring_shiftLoop cnt (t := ⟨v, f.x, c0, false⟩) fits hk

/-- A rotate moves every bit to some place, so it leaves 0 exactly of 0. -/
theorem rotated_eq_zero_iff : (shiftOp step c0 keepV sz cnt v f).1 = 0 ↔ v = 0 := by
  have place {j : Nat} (hj : j < sz.bits) : ((j + cnt * d * (sz.bits - 1)) % sz.bits + cnt * d) % sz.bits = j :=
    mod_add_mod_of_whole hj (by rw [Nat.add_comm, add_mul_pred turns.pos])
  rw [eq_zero_iff_getLsbD (fits_shiftOp turns c0 keepV cnt v f), eq_zero_iff_getLsbD fits]
  constructor
  · intro zero j hj
    rw [← place hj, ← getLsbD_rotated fits turns c0 keepV cnt f (Nat.mod_lt _ turns.pos), zero _ (Nat.mod_lt _ turns.pos)]
  · intro zero k hk
    rw [getLsbD_rotated fits turns c0 keepV cnt f hk, zero _ (Nat.mod_lt _ turns.pos)]

end

/-- ROL's last bit out is the bit that entered at the bottom (R295). -/
theorem rolStep_c (sz : Size) (t : ShiftState) : (rolStep sz t).c = (rolStep sz t).v.getLsbD 0 := by
  rw [rolStep, getLsbD_shiftedLeft sz _ _ (bits_pos sz), if_pos rfl]

/-- ROR's last bit out is the bit that entered at the top (R296). -/
theorem rorStep_c {sz : Size} {t : ShiftState} (h : sz.fits t.v = true) : (rorStep sz t).c = (rorStep sz t).v.getLsbD (sz.bits - 1) := by
  rw [rorStep, getLsbD_shiftedRight h, if_pos (Nat.sub_add_cancel (bits_pos sz))]

/-- Settles O19: both rotates turn the operand; C is the bit that the last step moved, and no step touches X. -/
theorem rotateClosedForms : Obligations.RotateClosedForms := by
  unfold Obligations.RotateClosedForms
  intro sz v cnt k f fits hcnt hk l r
  have left := rolStep_turns sz
  have right := rorStep_turns sz
  have zero {step : Size → ShiftState → ShiftState} {d : Nat} (turns : Turns sz sz.bits d (fun t => t.v.getLsbD) (step sz)) :
      (shiftOp step false false sz cnt v f).2.z = decide (v = 0) := by
    rw [shiftOp_z, decide_eq_decide, rotated_eq_zero_iff fits turns]
  refine ⟨?_, ?_, ?_, ?_, shiftLoop_x (rolStep_x sz) cnt _, shiftLoop_x (rorStep_x sz) cnt _, rfl, rfl, zero left, zero right, rfl, rfl⟩
  · rw [getLsbD_rotated fits left false false cnt f hk, add_mul_pred_mod (bits_pos sz)]
  · exact left.shiftLoop_of_step (P := fun t => t.c = t.v.getLsbD 0) (fun t _ => rolStep_c sz t) hcnt (fits_trunc sz v)
  · rw [getLsbD_rotated fits right false false cnt f hk, Nat.mul_one]
  · exact right.shiftLoop_of_step (P := fun t => t.c = t.v.getLsbD (sz.bits - 1)) (fun _ h => rorStep_c h) hcnt (fits_trunc sz v)

/-! ## ROXL and ROXR -/

section
variable {sz : Size} {v : Long} (fits : sz.fits v = true) {step : Size → ShiftState → ShiftState} {d : Nat}
include fits

theorem extendRing_rotated (turns : Turns sz (sz.bits + 1) d (fun t => extendRing sz t.x t.v) (step sz)) (c0 keepV : Bool) (cnt : Nat)
    (f : Ccr) {k : Nat} (hk : k < sz.bits + 1) :
    extendRing sz (shiftOp step c0 keepV sz cnt v f).2.x (shiftOp step c0 keepV sz cnt v f).1 k =
      extendRing sz f.x v ((k + cnt * d) % (sz.bits + 1)) := by
  rw [shiftOp_of_fits fits rfl]
  exact turns.ring_shiftLoop cnt (t := ⟨v, f.x, c0, false⟩) fits hk

/-- A rotate through X leaves C equal to X, also for a count of 0 (R297, R298). -/
theorem extendRotate_flags (carry : ∀ t, (step sz t).c = (step sz t).x) (cnt : Nat) (f : Ccr) :
    let r := shiftOp step f.x false sz cnt v f
    r.2 = { x := r.2.x, n := r.1.getLsbD (sz.bits - 1), z := decide (r.1 = 0), v := false, c := r.2.x } := by
  have both := shiftLoop_keeps (P := fun t => t.c = t.x) (fun t _ => carry t) cnt (t := ⟨v, f.x, f.x, false⟩) rfl
  simp only [shiftOp_of_fits fits rfl, both, Bool.false_and]

end

/-- X and the operand are what their ring says. -/
theorem eq_of_extendRing_eq {sz : Size} {x y : Bool} {v w : Long} (hv : sz.fits v = true) (hw : sz.fits w = true)
    (rings : ∀ k, k < sz.bits + 1 → extendRing sz x v k = extendRing sz y w k) : v = w ∧ x = y := by
  constructor
  · refine eq_of_getLsbD_of_fits hv hw fun k hk => ?_
    simpa only [extendRing, if_neg (Nat.ne_of_lt hk)] using rings k (by omega)
  · simpa only [extendRing, if_true] using rings sz.bits (by omega)

/-- Settles O20: both rotates turn the ring of X and the operand, one a place on and the other a place back. -/
theorem extendRotateRoundTrip : Obligations.ExtendRotateRoundTrip := by
  unfold Obligations.ExtendRotateRoundTrip
  intro sz v cnt f fits ring l r
  have left := roxlStep_turns sz
  have right := roxrStep_turns sz
  have leftFits : sz.fits l.1 = true := fits_shiftOp left f.x false cnt v f
  have rightFits : sz.fits r.1 = true := fits_shiftOp right f.x false cnt v f
  refine ⟨fun k hk => ⟨?_, ?_⟩, fun k hk => ⟨fits_iff_getLsbD.mp leftFits k hk, fits_iff_getLsbD.mp rightFits k hk⟩,
    extendRotate_flags fits (fun _ => rfl) cnt f, extendRotate_flags fits (fun _ => rfl) cnt f, ?_⟩
  · rw [← add_mul_pred_mod (Nat.succ_pos sz.bits)]
    exact extendRing_rotated fits left f.x false cnt f (Nat.lt_succ_of_le hk)
  · rw [← Nat.mul_one cnt]
    exact extendRing_rotated fits right f.x false cnt f (Nat.lt_succ_of_le hk)
  · refine eq_of_extendRing_eq (fits_shiftOp right l.2.x false cnt l.1 l.2) fits fun k hk => ?_
    rw [extendRing_rotated leftFits right l.2.x false cnt l.2 hk,
      extendRing_rotated fits left f.x false cnt f (Nat.mod_lt _ (Nat.succ_pos sz.bits)),
      mod_add_mod_of_whole hk (n := cnt) (by rw [Nat.mul_one, Nat.mul_succ, Nat.add_comm])]

end Sys2Proof.Machine
end

section
/-! SUPPORT. The shift and rotate instructions (spec/45_shift_rotate.md R290; 40_ea_resolver.md R158): the register form and the memory
form each end in one state, whatever their step. -/

namespace Sys2Proof.Machine

/-- The operation of a memory form is one step, with N and Z by the word it leaves (R290). -/
theorem shiftOp_once_gives (step : Size → ShiftState → ShiftState) (keepV : Bool) {v : Long} (small : v.toNat < 2 ^ Size.w.bits) (f : Ccr)
    {t : ShiftState} (once : step .w { v := v, x := f.x, c := false, vf := false } = t) :
    Gives .w (shiftOp step false keepV .w 1 v f) t.v
      { x := t.x, n := t.v.getLsbD 15, z := decide (t.v = 0), v := keepV && t.vf, c := t.c } := by
  rw [shiftOp_of_fits (fits_of_lt small) (step := step) (cnt := 1) (f := f) once]
  exact ⟨rfl, rfl⟩

section
variable {s : State} (ht : s.traced = false) {i : Instr} {step : Size → ShiftState → ShiftState}
include ht

theorem shiftDn_next {roxc keepV : Bool} {sz : Size} {cnt : ShiftCount} {y : Reg} (length : 2 = i.length) :
    shiftDn step roxc keepV sz cnt y s = .next (past i
      ((s.setCcr (shiftOp step (roxc && s.ccr.x) keepV sz (shiftCount cnt s) (s.readD y sz) s.ccr).2).writeD y sz
        (shiftOp step (roxc && s.ccr.x) keepV sz (shiftCount cnt s) (s.readD y sz) s.ccr).1)) :=
  retire_ok_past ht length _

theorem shiftEa_next {keepV : Bool} {ea : Ea} (ok : ea.ok .memoryAlterable .w = true) (ready : operandReady ea .w (s.pc + 2) s = true)
    (length : eaLength ea .w = i.length) {t : ShiftState}
    (once : step .w { v := operandValue ea .w (s.pc + 2) s, x := s.ccr.x, c := false, vf := false } = t) :
    shiftEa step keepV ea s = .next (past i (replaced ea .w (s.pc + 2) t.v
      { x := t.x, n := t.v.getLsbD 15, z := decide (t.v = 0), v := keepV && t.vf, c := t.c } s)) := by
  obtain ⟨notImm, notAn, -⟩ := kind_of_ok_memoryAlterable ok
  refine updateEa_next ht notImm notAn ready length ?_
  rw [sideEffect_ccr]
  exact shiftOp_once_gives step keepV (toNat_operandValue_lt ..) s.ccr once

end

/-- Settles O36: each constructor is its form with its step; the count of 8 for a field of 0 is that of the quick data. -/
theorem shiftResults : Obligations.ShiftResults := by
  unfold Obligations.ShiftResults
  refine ⟨?_, ?_, ?_, ?_, ?_, ?_, ?_, ?_, ?_, ?_, ?_, ?_, ?_, ?_, ?_, ?_, ?_, ?_, ?_, ?_, ?_, ?_, ?_, ?_⟩
  iterate 16 exact fun _ _ _ _ ht => shiftDn_next ht (by rfl)
  iterate 8 exact fun ea s hw ht ready => shiftEa_next ht hw ready (eaLength_eq_encEa ..) rfl

end Sys2Proof.Machine
end

section
/-! SUPPORT. Bit manipulation (spec/46_bit_bcd.md R310 to R314): the two forms, a test and a modification of one bit of the operand, each
end in one state; which bit they take is said by the operand's width alone. -/

namespace Sys2Proof.Machine

section
variable {s : State} (ht : s.traced = false) {i : Instr} {ea : Ea} {k num : Nat} (length : k + ea.extBytes ea.bitSize = i.length)
include ht length

/-- BTST leaves its operand's side effect and sets Z (R310, R311). -/
theorem bitTest_next : bitTest k num ea s = .next (past i ((sideEffect ea ea.bitSize s).setCcr
    (bitFlags (operandValue ea ea.bitSize (s.pc + BitVec.ofNat 32 k) s) (bitIndex ea num) s.ccr))) := by
  refine loadEa_setCcr_next ht (operandReady_bitSize ea _ s) length ?_
  rw [sideEffect_ccr]

/-- BCHG, BCLR and BSET replace the operand by what `op` makes of it and of the one bit, and set Z by the old bit (R310). -/
theorem bitModify_next {op : Long → Long → Long} (ok : ea.ok .dataAlterable ea.bitSize = true) :
    bitModify op k num ea s = .next (past i (replaced ea ea.bitSize (s.pc + BitVec.ofNat 32 k)
      (op (operandValue ea ea.bitSize (s.pc + BitVec.ofNat 32 k) s) (oneBit (bitIndex ea num)))
      (bitFlags (operandValue ea ea.bitSize (s.pc + BitVec.ofNat 32 k) s) (bitIndex ea num) s.ccr) s)) := by
  obtain ⟨notImm, notAn⟩ := kind_of_ok_dataAlterable ok
  refine updateEa_next ht notImm notAn (operandReady_bitSize ea _ s) length ⟨rfl, ?_⟩
  rw [sideEffect_ccr]

end

/-- Settles O37: each constructor is the test or the modification with its bit operation; a static form is a word longer, the word of the
bit number, and its operand's extension words are read past that word. -/
theorem bitOperationResults : Obligations.BitOperationResults := by
  unfold Obligations.BitOperationResults
  refine ⟨fun num ea s _ ht => ?_, fun n ea s _ ht => ?_, fun num ea s hw ht => ?_, fun n ea s hw ht => ?_,
    fun num ea s hw ht => ?_, fun n ea s hw ht => ?_, fun num ea s hw ht => ?_, fun n ea s hw ht => ?_⟩
  · exact bitTest_next ht (four_add_extBytes ..)
  · exact bitTest_next ht (eaLength_eq_encEa ..)
  · exact bitModify_next (op := fun e b => e ^^^ b) ht (four_add_extBytes ..) hw
  · exact bitModify_next (op := fun e b => e ^^^ b) ht (eaLength_eq_encEa ..) hw
  · exact bitModify_next (op := fun e b => e &&& ~~~b) ht (four_add_extBytes ..) hw
  · exact bitModify_next (op := fun e b => e &&& ~~~b) ht (eaLength_eq_encEa ..) hw
  · exact bitModify_next (op := fun e b => e ||| b) ht (four_add_extBytes ..) hw
  · exact bitModify_next (op := fun e b => e ||| b) ht (eaLength_eq_encEa ..) hw

end Sys2Proof.Machine
end

section
/-! SUPPORT. Decimal arithmetic (spec/46_bit_bcd.md R320): the bits the algorithm masks are the carries out of the two digits, so it adds or
takes 6 in each digit that carried; for every byte the result and the carry are then those of numbers, and for decimal digits the numbers
are the decimal ones. -/

namespace Sys2Proof.Machine

/-! ## Marks of the two digits -/

/-- A mark in bit 3 for the low digit and in bit 7 for the high digit. -/
def digitMarks (low high : Bool) : Word := (if low then 0x08 else 0) ||| (if high then 0x80 else 0)

/-- A six in each digit that is chosen: `corf` of R320 as a number. -/
def sixes (low high : Bool) : Nat := (if low then 0x06 else 0) + (if high then 0x60 else 0)

theorem getLsbD_digitMarks (low high : Bool) {i : Nat} (hi : i < 16) :
    (digitMarks low high).getLsbD i = ((decide (i = 3) && low) || (decide (i = 7) && high)) := by
  revert low high i; decide

theorem digitMarks_or (a b c d : Bool) : digitMarks a b ||| digitMarks c d = digitMarks (a || c) (b || d) := by
  revert a b c d; decide

theorem digitMarks_sub_shift (low high : Bool) :
    digitMarks low high - (digitMarks low high >>> 2) = BitVec.ofNat 16 (sixes low high) := by
  revert low high; decide

theorem sixes_le (low high : Bool) : sixes low high ≤ 0x66 := by
  revert low high; decide

theorem and_eq_digitMarks (v : Word) : v &&& 0x88 = digitMarks (v.getLsbD 3) (v.getLsbD 7) := BitVec.eq_of_getLsbD_eq fun i hi => by
  have mask : ∀ k < 16, (0x88 : Word).getLsbD k = (decide (k = 3) || decide (k = 7)) := by decide
  rw [getLsbD_digitMarks _ _ hi, BitVec.getLsbD_and, mask i hi]
  by_cases h3 : i = 3 <;> by_cases h7 : i = 7 <;> simp [h3, h7]

theorem and_shift_eq_digitMarks (v : Word) : (v &&& 0x110) >>> 1 = digitMarks (v.getLsbD 4) (v.getLsbD 8) :=
  BitVec.eq_of_getLsbD_eq fun i hi => by
    have mask : ∀ k < 16, (0x110 : Word).getLsbD (1 + k) = (decide (k = 3) || decide (k = 7)) := by decide
    rw [getLsbD_digitMarks _ _ hi, BitVec.getLsbD_ushiftRight, BitVec.getLsbD_and, mask i hi]
    by_cases h3 : i = 3 <;> by_cases h7 : i = 7 <;> simp [h3, h7]

/-! ## The masked bits are carries -/

/-- Bit `i` of R320's expression for the binary carries of `a + b + x` is the carry out of bit `i`. -/
theorem sumCarries_eq_digitMarks (a b : Word) (x : Bool) :
    ((a &&& b) ||| (~~~(a + b + (if x then 1 else 0)) &&& a) ||| (~~~(a + b + (if x then 1 else 0)) &&& b)) &&& 0x88 =
      digitMarks (BitVec.carry 4 a b x) (BitVec.carry 8 a b x) := by
  have extend : (if x then 1 else 0 : Word) = (BitVec.ofBool x).setWidth 16 := by cases x <;> rfl
  have carryOut {i : Nat} (hi : i < 16) : ((a &&& b) ||| (~~~(a + b + (if x then 1 else 0)) &&& a) |||
      (~~~(a + b + (if x then 1 else 0)) &&& b)).getLsbD i = BitVec.carry (i + 1) a b x := by
    simp only [extend, BitVec.getLsbD_or, BitVec.getLsbD_and, BitVec.getLsbD_not, BitVec.getLsbD_add_add_bool hi, BitVec.carry_succ,
      hi, decide_true, Bool.true_and]
    cases a.getLsbD i <;> cases b.getLsbD i <;> cases BitVec.carry i a b x <;> rfl
  rw [and_eq_digitMarks, carryOut (by decide), carryOut (by decide)]

/-- A difference borrows where adding the subtrahend back carries. -/
theorem differenceBorrows_eq_digitMarks (s d : Word) (x : Bool) :
    ((~~~d &&& s) ||| ((d - s - (if x then 1 else 0)) &&& ~~~d) ||| ((d - s - (if x then 1 else 0)) &&& s)) &&& 0x88 =
      digitMarks (BitVec.carry 4 (d - s - (if x then 1 else 0)) s x) (BitVec.carry 8 (d - s - (if x then 1 else 0)) s x) := by
  have back : d - s - (if x then 1 else 0) + s + (if x then 1 else 0) = d := by
    rw [add_right_comm, BitVec.sub_add_cancel, BitVec.sub_add_cancel]
  rw [← sumCarries_eq_digitMarks, back]
  congr 1
  ac_rfl

/-- Adding 0x66 changes bits 4 and 8, where it has a 0, exactly by the carry into them. -/
theorem decimalCarries_eq_digitMarks (a : Word) :
    (((a + 0x66) ^^^ a) &&& 0x110) >>> 1 = digitMarks (BitVec.carry 4 a 0x66 false) (BitVec.carry 8 a 0x66 false) := by
  have carryIn {i : Nat} (hi : i < 16) (zero : (0x66 : Word).getLsbD i = false) :
      ((a + 0x66) ^^^ a).getLsbD i = BitVec.carry i a 0x66 false := by
    rw [BitVec.getLsbD_xor, BitVec.getLsbD_add hi, zero, Bool.false_xor, Bool.xor_comm, ← Bool.xor_assoc, Bool.xor_self,
      Bool.false_xor]
  rw [and_shift_eq_digitMarks, carryIn (by decide) (by decide), carryIn (by decide) (by decide)]

/-! ## The binary results as numbers -/

theorem getLsbD_seven (v : Word) : v.getLsbD 7 = decide (v.toNat / 128 % 2 = 1) := Nat.testBit_eq_decide_div_mod_eq

section
variable (src dst : Byte) (x : Bool)

/-- `ss` of R320. -/
def binarySum : Word := src.setWidth 16 + dst.setWidth 16 + (if x then 1 else 0)

/-- `dd` of R320. -/
def binaryDifference : Word := dst.setWidth 16 - src.setWidth 16 - (if x then 1 else 0)

theorem binarySum_eq : src.setWidth 16 + dst.setWidth 16 + (if x then 1 else 0) = binarySum src dst x := rfl

theorem binaryDifference_eq : dst.setWidth 16 - src.setWidth 16 - (if x then 1 else 0) = binaryDifference src dst x := rfl

theorem toNat_ite_one_zero : (if x then 1 else 0 : Word).toNat = x.toNat := by cases x <;> rfl

theorem toNat_binarySum : (binarySum src dst x).toNat = src.toNat + dst.toNat + x.toNat := by
  have := Bool.toNat_le x
  rw [binarySum, BitVec.toNat_add, BitVec.toNat_add, toNat_ite_one_zero, BitVec.toNat_setWidth, BitVec.toNat_setWidth]
  omega

theorem toNat_binaryDifference : (binaryDifference src dst x).toNat = (65536 + dst.toNat - src.toNat - x.toNat) % 65536 := by
  have := Bool.toNat_le x
  rw [binaryDifference, BitVec.toNat_sub, BitVec.toNat_sub, toNat_ite_one_zero, BitVec.toNat_setWidth, BitVec.toNat_setWidth]
  omega

/-- `bc or dc` of R320: the low digits make 10 or more, and the sum is past 0x99. -/
theorem sumCarries_or_decimalCarries :
    digitMarks (BitVec.carry 4 (src.setWidth 16) (dst.setWidth 16) x) (BitVec.carry 8 (src.setWidth 16) (dst.setWidth 16) x) |||
      digitMarks (BitVec.carry 4 (binarySum src dst x) 0x66 false) (BitVec.carry 8 (binarySum src dst x) 0x66 false) =
        digitMarks (decide (10 ≤ src.toNat % 16 + dst.toNat % 16 + x.toNat)) (decide (0x99 < src.toNat + dst.toNat + x.toNat)) := by
  have sixtySix : (0x66 : Word).toNat = 0x66 := rfl
  rw [digitMarks_or]
  simp only [BitVec.carry, toNat_binarySum, BitVec.toNat_setWidth, sixtySix, Bool.toNat_false, ← Bool.decide_or]
  congr 2 <;> rw [eq_iff_iff] <;> omega

/-- `bc` of the subtraction of R320: a digit borrows where the bits of the subtrahend up to it, and X, are
more than those of the minuend. -/
theorem differenceBorrows :
    digitMarks (BitVec.carry 4 (binaryDifference src dst x) (src.setWidth 16) x)
        (BitVec.carry 8 (binaryDifference src dst x) (src.setWidth 16) x) =
      digitMarks (decide (dst.toNat % 16 < src.toNat % 16 + x.toNat)) (decide (dst.toNat < src.toNat + x.toNat)) := by
  have := Bool.toNat_le x
  simp only [BitVec.carry, toNat_binaryDifference, BitVec.toNat_setWidth]
  congr 2 <;> rw [eq_iff_iff] <;> omega

/-! ## The decimal results as numbers, for every byte -/

variable (f : Ccr)

/-- The correction of a sum: 6 in the low digit if the low digits make 10 or more, 6 in the high digit if the sum is past 0x99. -/
def sumCorrection : Nat :=
  sixes (decide (10 ≤ src.toNat % 16 + dst.toNat % 16 + x.toNat)) (decide (0x99 < src.toNat + dst.toNat + x.toNat))

/-- The correction of a difference: 6 in each digit that borrows. -/
def differenceCorrection : Nat :=
  sixes (decide (dst.toNat % 16 < src.toNat % 16 + x.toNat)) (decide (dst.toNat < src.toNat + x.toNat))

/-- R320's addition, with its masks read as carries. -/
theorem bcdAdd_eq :
    (bcdAdd src dst f).1 = (binarySum src dst f.x + BitVec.ofNat 16 (sumCorrection src dst f.x)).extractLsb' 0 8 ∧
    (bcdAdd src dst f).2.c = (BitVec.carry 8 (src.setWidth 16) (dst.setWidth 16) f.x || ((binarySum src dst f.x).getLsbD 7 &&
      !(binarySum src dst f.x + BitVec.ofNat 16 (sumCorrection src dst f.x)).getLsbD 7)) := by
  simp only [bcdAdd, sumCarries_eq_digitMarks, decimalCarries_eq_digitMarks]
  simp only [binarySum_eq, sumCarries_or_decimalCarries, digitMarks_sub_shift, BitVec.getLsbD_or, BitVec.getLsbD_and,
    BitVec.getLsbD_not, getLsbD_digitMarks _ _ (show 7 < 16 by decide)]
  exact ⟨rfl, rfl⟩

/-- R320's subtraction, with its mask read as borrows. -/
theorem bcdSub_eq :
    (bcdSub src dst f).1 = (binaryDifference src dst f.x - BitVec.ofNat 16 (differenceCorrection src dst f.x)).extractLsb' 0 8 ∧
    (bcdSub src dst f).2.c = (decide (dst.toNat < src.toNat + f.x.toNat) || (!(binaryDifference src dst f.x).getLsbD 7 &&
      (binaryDifference src dst f.x - BitVec.ofNat 16 (differenceCorrection src dst f.x)).getLsbD 7)) := by
  simp only [bcdSub, differenceBorrows_eq_digitMarks]
  simp only [binaryDifference_eq, differenceBorrows, digitMarks_sub_shift, BitVec.getLsbD_or, BitVec.getLsbD_and,
    BitVec.getLsbD_not, getLsbD_digitMarks _ _ (show 7 < 16 by decide)]
  exact ⟨rfl, rfl⟩

theorem toNat_correctedSum : (binarySum src dst x + BitVec.ofNat 16 (sumCorrection src dst x)).toNat =
    src.toNat + dst.toNat + x.toNat + sumCorrection src dst x := by
  have := Bool.toNat_le x
  have small : sumCorrection src dst x ≤ 0x66 := sixes_le ..
  rw [BitVec.toNat_add, toNat_binarySum, BitVec.toNat_ofNat]
  omega

theorem toNat_correctedDifference : (binaryDifference src dst x - BitVec.ofNat 16 (differenceCorrection src dst x)).toNat =
    (65536 + dst.toNat - src.toNat - x.toNat - differenceCorrection src dst x) % 65536 := by
  have := Bool.toNat_le x
  have small : differenceCorrection src dst x ≤ 0x66 := sixes_le ..
  rw [BitVec.toNat_sub, toNat_binaryDifference, BitVec.toNat_ofNat]
  omega

theorem bcdAdd_toNat : (bcdAdd src dst f).1.toNat = (src.toNat + dst.toNat + f.x.toNat + sumCorrection src dst f.x) % 256 := by
  rw [(bcdAdd_eq src dst f).1, BitVec.extractLsb'_toNat, toNat_correctedSum, Nat.shiftRight_zero]

/-- The carry is that of the sum past 0x99: where the binary sum is below 0x100, the correction takes it there. -/
theorem bcdAdd_carry : (bcdAdd src dst f).2.c = decide (0x99 < src.toNat + dst.toNat + f.x.toNat) := by
  have := Bool.toNat_le f.x
  simp only [(bcdAdd_eq src dst f).2, BitVec.carry, getLsbD_seven, toNat_correctedSum, toNat_binarySum, BitVec.toNat_setWidth,
    ← decide_not, ← Bool.decide_and, ← Bool.decide_or, decide_eq_decide]
  simp only [sumCorrection, sixes, decide_eq_true_eq]
  split_ifs <;> omega

theorem bcdSub_toNat : (bcdSub src dst f).1.toNat =
    (65536 + dst.toNat - src.toNat - f.x.toNat - differenceCorrection src dst f.x) % 256 := by
  rw [(bcdSub_eq src dst f).1, BitVec.extractLsb'_toNat, toNat_correctedDifference, Nat.shiftRight_zero]
  omega

/-- The difference borrows also where only the correction of the low digit takes it below 0, as for 0x10 - 0x0F. -/
theorem bcdSub_carry : (bcdSub src dst f).2.c =
    decide (dst.toNat < src.toNat + f.x.toNat + differenceCorrection src dst f.x) := by
  have := Bool.toNat_le f.x
  simp only [(bcdSub_eq src dst f).2, getLsbD_seven, toNat_correctedDifference, toNat_binaryDifference,
    ← decide_not, ← Bool.decide_and, ← Bool.decide_or, decide_eq_decide]
  simp only [differenceCorrection, sixes, decide_eq_true_eq]
  split_ifs <;> omega

end

/-! ## Decimal digits -/

/-- The byte of the two decimal digits of `n` modulo 100. -/
def packedDigits (n : Nat) : Byte := BitVec.ofNat 8 (16 * (n % 100 / 10) + n % 10)

theorem toNat_packedDigits {n k h l : Nat} (digits : n = 100 * k + 10 * h + l) (hh : h < 10) (hl : l < 10) :
    (packedDigits n).toNat = 16 * h + l := by
  have high : n % 100 / 10 = h := by omega
  have low : n % 10 = l := by omega
  rw [packedDigits, high, low, BitVec.toNat_ofNat]
  omega

theorem packedDigits_beq_zero (n : Nat) : (packedDigits n == 0) = decide (n % 100 = 0) := by
  have zero : (0 : Byte).toNat = 0 := rfl
  rw [Bool.beq_eq_decide_eq, decide_eq_decide, ← BitVec.toNat_inj, packedDigits, BitVec.toNat_ofNat, zero]
  omega

/-- A sum of two digits and a carry is a carry and a digit. -/
theorem exists_carry_digit {n : Nat} (hn : n < 20) : ∃ c d, c < 2 ∧ d < 10 ∧ n = 10 * c + d :=
  ⟨n / 10, n % 10, by omega, by omega, by omega⟩

/-- A digit less a digit and a borrow is a digit, with a borrow where it is the smaller. -/
theorem exists_borrow_digit {m n : Nat} (hm : m < 10) (hn : n ≤ 10) : ∃ c d, c < 2 ∧ d < 10 ∧ m + 10 * c = n + d := by
  rcases Nat.lt_or_ge m n with less | enough
  · exact ⟨1, m + 10 - n, by omega, by omega, by omega⟩
  · exact ⟨0, m - n, by omega, by omega, by omega⟩

section
variable {p q u w : Nat} (hp : p < 10) (hq : q < 10) (hu : u < 10) (hw : w < 10) (f : Ccr)

theorem toNat_digits (hp : p < 10) (hq : q < 10) : (BitVec.ofNat 8 (16 * p + q)).toNat = 16 * p + q :=
  Nat.mod_eq_of_lt (by omega)

include hp hq hu hw

/-- The low digits and X make a carry and a digit, the high digits and that carry another: these are the digits of the sum. -/
theorem bcdAdd_digits : (bcdAdd (BitVec.ofNat 8 (16 * p + q)) (BitVec.ofNat 8 (16 * u + w)) f).1 =
    packedDigits (10 * p + q + (10 * u + w) + f.x.toNat) := BitVec.eq_of_toNat_eq (by
  have := Bool.toNat_le f.x
  obtain ⟨c, l, hc, hl, low⟩ := exists_carry_digit (n := q + w + f.x.toNat) (by omega)
  obtain ⟨k, h, hk, hh, high⟩ := exists_carry_digit (n := p + u + c) (by omega)
  rw [toNat_packedDigits (k := k) (h := h) (l := l) (by omega) hh hl]
  simp only [bcdAdd_toNat, sumCorrection, sixes, toNat_digits hp hq, toNat_digits hu hw, decide_eq_true_eq]
  split_ifs <;> omega)

theorem bcdAdd_digits_carry : (bcdAdd (BitVec.ofNat 8 (16 * p + q)) (BitVec.ofNat 8 (16 * u + w)) f).2.c =
    decide (100 ≤ 10 * p + q + (10 * u + w) + f.x.toNat) := by
  have := Bool.toNat_le f.x
  rw [bcdAdd_carry, decide_eq_decide]
  simp only [toNat_digits hp hq, toNat_digits hu hw]
  rcases Nat.lt_or_ge (q + w + f.x.toNat) 10 with noCarry | carry <;> omega

/-- The low digits and X leave a borrow and a digit, the high digits and that borrow another: these are the digits of the difference. -/
theorem bcdSub_digits : (bcdSub (BitVec.ofNat 8 (16 * p + q)) (BitVec.ofNat 8 (16 * u + w)) f).1 =
    packedDigits (100 + (10 * u + w) - (10 * p + q) - f.x.toNat) := BitVec.eq_of_toNat_eq (by
  have := Bool.toNat_le f.x
  obtain ⟨c, l, hc, hl, low⟩ := exists_borrow_digit (m := w) (n := q + f.x.toNat) hw (by omega)
  obtain ⟨k, h, hk, hh, high⟩ := exists_borrow_digit (m := u) (n := p + c) hu (by omega)
  rw [toNat_packedDigits (k := 1 - k) (h := h) (l := l) (by omega) hh hl]
  simp only [bcdSub_toNat, differenceCorrection, sixes, toNat_digits hp hq, toNat_digits hu hw, decide_eq_true_eq]
  split_ifs <;> omega)

theorem bcdSub_digits_carry : (bcdSub (BitVec.ofNat 8 (16 * p + q)) (BitVec.ofNat 8 (16 * u + w)) f).2.c =
    decide (100 + (10 * u + w) - (10 * p + q) - f.x.toNat < 100) := by
  have := Bool.toNat_le f.x
  rw [bcdSub_carry, decide_eq_decide]
  simp only [differenceCorrection, sixes, toNat_digits hp hq, toNat_digits hu hw, decide_eq_true_eq]
  split_ifs <;> omega

end

theorem bcdAdd_z (src dst : Byte) (f : Ccr) : (bcdAdd src dst f).2.z = (f.z && (bcdAdd src dst f).1 == 0) := rfl

theorem bcdSub_z (src dst : Byte) (f : Ccr) : (bcdSub src dst f).2.z = (f.z && (bcdSub src dst f).1 == 0) := rfl

/-- Settles O21: the low digits carry or borrow into the high ones, and a correction of 6 turns each carry at 16 into one at 10. -/
theorem decimalArithmeticOfValidDigits : Obligations.DecimalArithmeticOfValidDigits := by
  unfold Obligations.DecimalArithmeticOfValidDigits
  intro p q u w f hp hq hu hw
  have sum := bcdAdd_digits hp hq hu hw f
  have dif := bcdSub_digits hp hq hu hw f
  have carry := bcdAdd_digits_carry hp hq hu hw f
  have borrow := bcdSub_digits_carry hp hq hu hw f
  refine ⟨sum, carry, carry, ?_, dif, borrow, borrow, ?_⟩
  · rw [bcdAdd_z, sum, packedDigits_beq_zero]
  · rw [bcdSub_z, dif, packedDigits_beq_zero]

end Sys2Proof.Machine
end

section
/-! SUPPORT. The conditions (spec/47_program_control.md R330): after a compare the flags say the unsigned and the signed order of the
operands (41_alu_flags.md R174, R177). -/

namespace Sys2Proof.Machine

section
variable {sz : Size} {src dst : Long} (hs : src.toNat < 2 ^ sz.bits) (hd : dst.toNat < 2 ^ sz.bits)
include hs hd

/-- The signed reading tells the values of a size apart (R9). -/
theorem signedAt_inj : signedAt sz dst = signedAt sz src ↔ dst = src := by
  refine ⟨fun same => BitVec.eq_of_toNat_eq ?_, congrArg _⟩
  have src_signed := signedAt_cases hs
  have dst_signed := signedAt_cases hd
  cases sz <;> simp only [Size.bits] at * <;> omega

variable (f : Ccr)

/-- EQ after a compare: the difference is 0 modulo the size only for equal operands (R172). -/
theorem cmpFlags_z : (cmpFlags src dst false sz .plain f).z = decide (dst = src) := by
  rw [cmpFlags_eq_differenceFlags hs hd, differenceFlags, decide_eq_decide, ← BitVec.toNat_inj, Bool.toNat_false]
  cases sz <;> simp only [Size.bits] at hs hd ⊢ <;> omega

/-- CS after a compare: the borrow (R174). -/
theorem cmpFlags_c : (cmpFlags src dst false sz .plain f).c = decide (dst.toNat < src.toNat) := by
  rw [cmpFlags_eq_differenceFlags hs hd]
  rfl

/-- LT after a compare: N is the sign of the exact difference, or its opposite when that overflows (R177). -/
theorem cmpFlags_n_bne_v : ((cmpFlags src dst false sz .plain f).n != (cmpFlags src dst false sz .plain f).v) =
    decide (signedAt sz dst < signedAt sz src) := by
  have src_signed := signedAt_cases hs
  have dst_signed := signedAt_cases hd
  rw [cmpFlags_eq_differenceFlags hs hd, differenceFlags, Bool.toNat_false, Bool.eq_iff_iff, bne_iff_ne, Bool.ne_not,
    Bool.eq_iff_iff, decide_eq_true_eq, decide_eq_true_eq, inRange_iff]
  cases sz <;> simp only [Size.bits] at * <;> omega

end

theorem condHolds_ls (f : Ccr) : condHolds .ls f = !condHolds .hi f := by simp [condHolds]

theorem condHolds_ge (f : Ccr) : condHolds .ge f = !condHolds .lt f := (Bool.not_not _).symm

theorem condHolds_le (f : Ccr) : condHolds .le f = !condHolds .gt f := by simp [condHolds, bne]

/-- In a linear order, neither below nor equal is above. -/
theorem not_lt_and_not_eq {α : Type} [LinearOrder α] (a b : α) : (!decide (a < b) && !decide (a = b)) = decide (b < a) := by
  rw [Bool.eq_iff_iff]
  simp only [Bool.and_eq_true, Bool.not_eq_true', decide_eq_false_iff_not, decide_eq_true_eq]
  exact ⟨fun ⟨notLess, notEqual⟩ => lt_of_le_of_ne (not_lt.mp notLess) (Ne.symm notEqual), fun h => ⟨h.not_gt, h.ne'⟩⟩

/-- Settles O23: EQ, CS and LT say equal and less; HI and GT are what these leave of a linear order; the others are complements. -/
theorem conditionsFollowTheSignedAndUnsignedOrder : Obligations.ConditionsFollowTheSignedAndUnsignedOrder := by
  unfold Obligations.ConditionsFollowTheSignedAndUnsignedOrder
  refine ⟨fun f => ⟨rfl, rfl, rfl, rfl, rfl, rfl, rfl, rfl, rfl, rfl, rfl, rfl, rfl, rfl, rfl, rfl⟩, ?_⟩
  intro sz src dst f srcFits dstFits g
  have hs := toNat_lt_of_fits srcFits
  have hd := toNat_lt_of_fits dstFits
  have eq : condHolds .eq g = decide (dst = src) := cmpFlags_z hs hd f
  have cs : condHolds .cs g = decide (dst.toNat < src.toNat) := cmpFlags_c hs hd f
  have lt : condHolds .lt g = decide (signedAt sz dst < signedAt sz src) := cmpFlags_n_bne_v hs hd f
  have hi : condHolds .hi g = decide (src.toNat < dst.toNat) := by
    calc condHolds .hi g = (!condHolds .cs g && !condHolds .eq g) := rfl
      _ = (!decide (dst.toNat < src.toNat) && !decide (dst.toNat = src.toNat)) := by simp only [cs, eq, BitVec.toNat_inj]
      _ = _ := not_lt_and_not_eq _ _
  have gt : condHolds .gt g = decide (signedAt sz src < signedAt sz dst) := by
    calc condHolds .gt g = (!condHolds .lt g && !condHolds .eq g) := by rw [← condHolds_ge, Bool.and_comm]; rfl
      _ = (!decide (signedAt sz dst < signedAt sz src) && !decide (signedAt sz dst = signedAt sz src)) := by
        simp only [lt, eq, signedAt_inj hs hd]
      _ = _ := not_lt_and_not_eq _ _
  exact ⟨eq, congrArg not eq, cs, congrArg not cs, hi, (condHolds_ls g).trans (congrArg not hi), lt,
    (condHolds_ge g).trans (congrArg not lt), gt, (condHolds_le g).trans (congrArg not gt)⟩

end Sys2Proof.Machine
end

section
/-! SUPPORT. Program control (spec/47_program_control.md R331 to R343): where each instruction leaves PC, and the counter of DBcc. -/

namespace Sys2Proof.Machine

theorem dispLength_bsr (disp : BranchDisp) : dispLength disp = (Instr.bsr disp).length := by cases disp <;> rfl

theorem dispLength_bcc (cond : Cond) (disp : BranchDisp) : dispLength disp = (Instr.bcc cond disp).length := by cases disp <;> rfl

/-- The counter of DBcc after its decrement is 0xFFFF just when it was 0 (R335). -/
theorem sub_one_eq_ones_iff (c : Word) : c - 1 = 0xFFFF ↔ c = 0 := by
  rw [BitVec.sub_eq_iff_eq_add]
  exact Iff.rfl

theorem lowWord_sub_one (v : Long) : lowWord (v - 1) = lowWord v - 1 := BitVec.eq_of_toNat_eq (by
  have low := toNat_lowWord v
  rw [toNat_lowWord]
  bv_omega)

/-- The word that DBcc writes back is the low word of the decremented register (R335). -/
theorem trunc_counter (v : Long) : trunc .w ((lowWord v - 1).setWidth 32) = trunc .w (v - 1) := by
  rw [trunc_word, trunc_word, lowWord_setWidth, lowWord_sub_one]

section
variable {s : State} (ht : s.traced = false) {cond : Cond} {n : Reg} {d : Word}
include ht

/-- Bcc whose condition holds (R331). -/
theorem execBcc_taken {disp : BranchDisp} (holds : condHolds cond s.ccr = true) :
    execBcc cond disp s = .next (jumpTo (branchTarget disp s) s) := by
  rw [execBcc, if_pos holds, conclude_ok ht]

/-- Bcc whose condition does not hold (R331). -/
theorem execBcc_not_taken {disp : BranchDisp} (fails : condHolds cond s.ccr = false) :
    execBcc cond disp s = .next (past (.bcc cond disp) s) := by
  rw [execBcc, if_neg (ne_true_of_eq_false fails)]
  exact retire_ok_past ht (dispLength_bcc cond disp) s

/-- DBcc whose condition holds (R335). -/
theorem execDbcc_holds (holds : condHolds cond s.ccr = true) : execDbcc cond n d s = .next (past (.dbcc cond n d) s) := by
  rw [execDbcc, if_pos holds]
  exact retire_ok_past ht (by rfl) s

/-- DBcc whose counter runs out (R335). -/
theorem execDbcc_expired (fails : condHolds cond s.ccr = false) (expired : lowWord (s.dreg n) = 0) :
    execDbcc cond n d s = .next (past (.dbcc cond n d) (s.writeD n .w 0xFFFF)) := by
  rw [execDbcc, if_neg (ne_true_of_eq_false fails), expired]
  exact retire_ok_past ht (by rfl) _

/-- DBcc that loops (R335). -/
theorem execDbcc_loops (fails : condHolds cond s.ccr = false) (counting : lowWord (s.dreg n) ≠ 0) :
    execDbcc cond n d s = .next (jumpTo (s.pc + 2 + d.signExtend 32) (s.writeD n .w (s.dreg n - 1))) := by
  rw [execDbcc, if_neg (ne_true_of_eq_false fails)]
  dsimp only
  rw [if_neg (mt (sub_one_eq_ones_iff _).mp counting), conclude_ok ht, State.writeD_congr (trunc_counter _)]

/-- RTR on an even stack: a word and a long, 6 bytes (R340). -/
theorem execRtr_next (even : s.spEven = true) : execRtr s =
    .next (jumpTo (s.mem.load (s.sp + 2) .l) ((s.setSp (s.sp + 6)).writeCcr ((s.mem.load s.sp .w).extractLsb' 0 8))) := by
  rw [execRtr, pop_spEven even, Res.bind_ok, stackStep, pop_spEven (spEven_setSp_add_two even), Res.bind_ok, conclude_ok ht,
    State.sp_setSp, State.mem_setSp, State.setSp_setSp, stackStep, BitVec.add_assoc]
  rfl

end

/-- Settles O41: a branch, jump or return leaves the state its pushes and pops leave, with PC the target; an instruction that does not
leave its line moves PC past its own words. -/
theorem programControlResults : Obligations.ProgramControlResults := by
  unfold Obligations.ProgramControlResults
  refine ⟨fun disp s ht => ?_, fun disp s ht even => ?_, fun cond disp s ht holds => ?_, fun cond disp s ht => execBcc_not_taken ht,
    fun cond n d s ht => execDbcc_holds ht, fun cond n d s ht => execDbcc_expired ht, fun cond n d s ht => execDbcc_loops ht,
    fun ea s hw ht => ?_, fun ea s hw ht even => ?_, fun s ht even => ?_, fun s ht => execRtr_next ht,
    fun s ht => retire_ok_past ht (by rfl) s⟩
  · exact conclude_ok ht _
  · rw [exec, execBsr, push_spEven even, dispLength_bsr]
    exact conclude_ok ht _
  · exact execBcc_taken ht holds
  · rw [exec, execJmp, addressEa_control (kind_of_ok_control hw), Res.bind_ok]
    exact conclude_ok ht _
  · rw [exec, execJsr, addressEa_control (kind_of_ok_control hw), Res.bind_ok, push_spEven even, eaLength_eq_encEa]
    exact conclude_ok ht _
  · rw [exec, execRts, pop_spEven even]
    exact conclude_ok ht _

end Sys2Proof.Machine
end

section
/-! SUPPORT. The driver's cycle (spec/60_exceptions.md R401, R402, R412, R431; 70_reset_and_hazards.md R450): the words at PC, what stands
in the way of the fetch, and the choice of a request. -/

namespace Sys2Proof.Machine

/-! ## The words at PC -/

/-- A fetched word is its two bytes, counted from PC (20_memory.md R62, R63). -/
theorem fetchWord_eq (s : State) (k : Nat) : fetchWord s k = s.mem.byteAt s.pc (2 * k) ++ s.mem.byteAt s.pc (2 * k + 1) := by
  have shift (i : Nat) : s.mem.byteAt (s.pc + BitVec.ofNat 32 (2 * k)) i = s.mem.byteAt s.pc (2 * k + i) := by
    rw [Memory.byteAt, Memory.byteAt, BitVec.add_assoc, BitVec.ofNat_add]
  rw [fetchWord, Memory.load, lowWord_setWidth, shift, shift]
  rfl

theorem length_fetchWords (s : State) : (fetchWords s).length = 5 := rfl

theorem getElem_fetchWords (s : State) {k : Nat} (hk : k < (fetchWords s).length) : (fetchWords s)[k] = fetchWord s k := by
  match k, hk with
  | 0, _ | 1, _ | 2, _ | 3, _ | 4, _ => rfl

/-- No instruction is longer than the five words at PC, so they begin with its encoding when its words stand there (R100). -/
theorem fetchWords_of_encoding {s : State} {i : Instr}
    (stands : ∀ k, (h : k < (encode i).length) → s.mem.byteAt s.pc (2 * k) ++ s.mem.byteAt s.pc (2 * k + 1) = (encode i)[k]) :
    fetchWords s = encode i ++ (fetchWords s).drop (encode i).length := by
  obtain ⟨-, atMostFive⟩ := Laws.EncodedLength.encode_length i
  have start : (fetchWords s).take (encode i).length = encode i := by
    refine List.ext_getElem (by rw [List.length_take, length_fetchWords, Nat.min_eq_left atMostFive]) fun k _ hk => ?_
    rw [List.getElem_take, getElem_fetchWords, fetchWord_eq, stands k hk]
  calc fetchWords s = (fetchWords s).take (encode i).length ++ (fetchWords s).drop (encode i).length := (List.take_append_drop ..).symm
    _ = _ := by rw [start]

theorem fetch_oddPc {s : State} (odd : s.pc.getLsbD 0 = true) : fetch s = .oddPc := by
  rw [fetch, if_pos (misaligned_of_odd (by decide) odd)]

theorem fetch_instr {s : State} (even : s.pc.getLsbD 0 = false) {i : Instr} {rest : List Word}
    (read : decode (fetchWords s) = .ok (i, rest)) : fetch s = .instr i := by
  simp only [fetch, misaligned_of_even even, Bool.false_eq_true, if_false, read]

theorem fetch_illegal {s : State} (even : s.pc.getLsbD 0 = false) {e : DecodeReject}
    (rejected : decode (fetchWords s) = .error e) : fetch s = .illegal (fetchWord s 0) := by
  simp only [fetch, misaligned_of_even even, Bool.false_eq_true, if_false, rejected]

/-! ## The order of the cycle -/

section
variable {s : State} (noReset : s.resetPending = false) (running : s.halted = false)
include noReset running

/-- A step with an acceptable request accepts it (R401). -/
theorem step_accepts {r : IrqRequest} (best : bestRequest s.irqMask s.irqQueue = some r) : step s = .next (acceptInterrupt r s) := by
  simp only [step, driverCycle, noReset, running, best, Bool.false_eq_true, if_false]

variable (quiet : bestRequest s.irqMask s.irqQueue = none)
include quiet

theorem step_stopped (stopped : s.stopped = true) : step s = .next s := by
  simp only [step, driverCycle, noReset, running, quiet, stopped, Bool.false_eq_true, if_false, if_true]

/-- A step that nothing keeps from the fetch (R401 item 5). -/
theorem step_runs (awake : s.stopped = false) : step s = runInstruction s := by
  simp only [step, driverCycle, noReset, running, quiet, awake, Bool.false_eq_true, if_false]

end

/-- Settles O4: five words are enough for the decoder to read the encoding that stands at PC. -/
theorem stepRunsTheDecodedInstruction : Obligations.StepRunsTheDecodedInstruction := by
  unfold Obligations.StepRunsTheDecodedInstruction
  intro s i noReset running awake quiet even hw stands
  have read : decode (fetchWords s) = .ok (i, (fetchWords s).drop (encode i).length) :=
    (congrArg decode (fetchWords_of_encoding stands)).trans (decode_encode i _ hw)
  rw [step_runs noReset running quiet awake, runInstruction, fetch_instr even read]

/-- Settles O5: the branches of the cycle in their order. -/
theorem stepPriority : Obligations.StepPriority := by
  unfold Obligations.StepPriority
  refine fun s => ⟨fun pending => ?_, fun noReset halted => ?_, fun r noReset running => step_accepts noReset running,
    fun noReset running quiet => step_stopped noReset running quiet⟩
  · simp only [step, driverCycle, pending, if_true]
  · simp only [step, driverCycle, noReset, halted, Bool.false_eq_true, if_false, if_true]

/-- The line of an opcode selects vectors 10 and 11 where the parameter separates them (R412). -/
theorem illegalVector_eq (p : Params) (op : Word) : illegalVector p op =
    if p.lineAfVectors = true ∧ op.extractLsb' 12 4 = 10 then 10
    else if p.lineAfVectors = true ∧ op.extractLsb' 12 4 = 15 then 11 else 4 := by
  have line : ∀ l : BitVec 4, (match l.toNat with | 10 => (10 : Byte) | 15 => 11 | _ => 4) =
      if l = 10 then 10 else if l = 15 then 11 else 4 := by decide
  cases separate : p.lineAfVectors
  · simp [illegalVector, separate]
  · simp only [illegalVector, separate, if_true, true_and]
    exact line _

/-- Settles O52: an odd PC is found before anything is decoded; a rejected opcode enters through the vector of its line. -/
theorem illegalOpcodeAndOddPcTakeTheirVectors : Obligations.IllegalOpcodeAndOddPcTakeTheirVectors := by
  unfold Obligations.IllegalOpcodeAndOddPcTakeTheirVectors
  intro s noReset running awake quiet
  rw [step_runs noReset running quiet awake, runInstruction]
  refine ⟨fun odd => by rw [fetch_oddPc odd, takeException], fun op e even word rejected => ?_⟩
  obtain rfl : fetchWord s 0 = op := (fetchWord_eq s 0).trans word
  simp only [fetch_illegal even rejected, raiseIllegal, illegalVector_eq]

/-! ## Reset -/

/-- Settles O6: the reset sequence writes exactly these fields, and the reset state already has them. -/
theorem processResetReloadsSspPcAndSr : Obligations.ProcessResetReloadsSspPcAndSr := by
  unfold Obligations.ProcessResetReloadsSspPcAndSr
  refine ⟨fun s => ⟨rfl, ?_, ?_, rfl, rfl, rfl, rfl, rfl, rfl, rfl, rfl⟩, rfl, rfl, rfl, rfl, rfl, rfl, rfl, rfl⟩
  · simp [processReset, Memory.load, Memory.byteAt_eq_read]
  · simp [processReset, Memory.load, Memory.byteAt_eq_read]

/-! ## The choice of a request -/

/-- Acceptability said of the levels as numbers (R431). -/
theorem acceptable_iff {mask : BitVec 3} {r : IrqRequest} : r.acceptable mask = true ↔ mask.toNat < r.level.toNat ∨ r.level = 7 := by
  simp [IrqRequest.acceptable, BitVec.lt_def]

/-- `r` is taken from `q`: it is acceptable, those posted before it have a lower level where they are acceptable, and those posted after
it no higher one (R431). -/
def TakenFrom (mask : BitVec 3) (q : List IrqRequest) (r : IrqRequest) : Prop :=
  ∃ before after, q = before ++ r :: after ∧ r.acceptable mask = true ∧
    (∀ p ∈ before, p.acceptable mask = true → p.level.toNat < r.level.toNat) ∧
    (∀ p ∈ after, p.acceptable mask = true → p.level.toNat ≤ r.level.toNat)

theorem TakenFrom.cons {mask : BitVec 3} {q : List IrqRequest} {r b : IrqRequest} (h : TakenFrom mask q b)
    (lower : r.acceptable mask = true → r.level.toNat < b.level.toNat) : TakenFrom mask (r :: q) b := by
  obtain ⟨before, after, rfl, acceptable, first, highest⟩ := h
  exact ⟨r :: before, after, rfl, acceptable, List.forall_mem_cons.mpr ⟨lower, first⟩, highest⟩

/-- The first request is taken when no later acceptable one has a higher level. -/
theorem takenFrom_head {mask : BitVec 3} {q : List IrqRequest} {r : IrqRequest} (acceptable : r.acceptable mask = true)
    (highest : ∀ p ∈ q, p.acceptable mask = true → p.level.toNat ≤ r.level.toNat) : TakenFrom mask (r :: q) r :=
  ⟨[], q, rfl, acceptable, nofun, highest⟩

theorem TakenFrom.highest {mask : BitVec 3} {q : List IrqRequest} {b : IrqRequest} (h : TakenFrom mask q b) :
    ∀ p ∈ q, p.acceptable mask = true → p.level.toNat ≤ b.level.toNat := by
  obtain ⟨before, after, rfl, -, first, highest⟩ := h
  intro p hp ok
  rcases List.mem_append.mp hp with early | late
  · exact Nat.le_of_lt (first p early ok)
  · rcases List.mem_cons.mp late with rfl | late
    · exact Nat.le_refl _
    · exact highest p late ok

/-- The choice along the queue: it is taken from the queue, or none of the queue is acceptable. -/
theorem bestRequest_spec (mask : BitVec 3) (q : List IrqRequest) :
    match bestRequest mask q with
    | some r => TakenFrom mask q r
    | none => ∀ p ∈ q, p.acceptable mask = false := by
  induction q with
  | nil => exact nofun
  | cons r q ih =>
    cases later : bestRequest mask q with
    | none =>
      rw [later] at ih
      cases ok : r.acceptable mask
      · simpa [bestRequest, later, ok] using ih
      · simpa [bestRequest, later, ok] using takenFrom_head ok fun p hp acceptable => by simp [ih p hp] at acceptable
    | some b =>
      rw [later] at ih
      by_cases wins : r.acceptable mask = true ∧ b.level.toNat ≤ r.level.toNat
      · obtain ⟨ok, high⟩ := wins
        have head := takenFrom_head ok fun p hp acceptable => (ih.highest p hp acceptable).trans high
        simpa [bestRequest, later, ok, BitVec.le_def, high] using head
      · have lower (ok : r.acceptable mask = true) : r.level.toNat < b.level.toNat := Nat.lt_of_not_le fun high => wins ⟨ok, high⟩
        have keep : (r.acceptable mask && decide (b.level ≤ r.level)) = false := by simpa [BitVec.le_def] using wins
        simpa [bestRequest, later, keep] using ih.cons lower

/-- Settles O56: the choice along the queue, in the words of the rule. -/
theorem highestAcceptableRequestIsTaken : Obligations.HighestAcceptableRequestIsTaken := by
  unfold Obligations.HighestAcceptableRequestIsTaken
  intro mask q
  simp only [← acceptable_iff, Bool.not_eq_true]
  have spec := bestRequest_spec mask q
  cases best : bestRequest mask q with
  | some b =>
    rw [best] at spec
    refine ⟨fun r h => Option.some.inj h ▸ spec, ⟨nofun, fun none => ?_⟩⟩
    obtain ⟨before, after, rfl, acceptable, -⟩ := spec
    simp [none b (by simp)] at acceptable
  | none =>
    rw [best] at spec
    exact ⟨nofun, fun _ => spec, fun _ => rfl⟩

end Sys2Proof.Machine
end

section
/-! SUPPORT. Exception entry and the return from it (spec/60_exceptions.md R405, R406, R421, R422, R432): the frame of six bytes on the
supervisor stack, and that RTE reads back what an entry stored. -/

namespace Sys2Proof.Machine

/-! ## The entry in the numbers of the rules -/

/-- The address of a vector is four times its number (R404). -/
theorem vectorAddress_eq (v : Byte) : vectorAddress v = BitVec.ofNat 32 (4 * v.toNat) := BitVec.eq_of_toNat_eq (by
  rw [vectorAddress, BitVec.toNat_mul, BitVec.toNat_setWidth, BitVec.toNat_ofNat]
  have bound := v.isLt
  change v.toNat % 2 ^ 32 * 4 % 2 ^ 32 = _
  omega)

/-- The two pushes of an entry lower SSP by six (R405). -/
theorem sub_four_sub_two (a : Long) : a - 4 - 2 = a - 6 := by
  rw [← sub_add_eq_sub_sub]
  rfl

theorem sub_six_add_two (a : Long) : a - 6 + 2 = a - 4 := by rw [← sub_four_sub_two, BitVec.sub_add_cancel]

theorem entrySr_none (sr : Word) : entrySr none sr = (sr &&& 0x3FFF) ||| 0x2000 := rfl

/-- Raising the mask clears the three bits it stands in first, so the two steps on SR are one (R432). -/
theorem entrySr_some (level : BitVec 3) (sr : Word) :
    entrySr (some level) sr = (sr &&& 0x38FF) ||| 0x2000 ||| (level.setWidth 16 <<< 8) := by
  simp only [entrySr, maskSr, enterSr, BitVec.and_or_distrib_right, BitVec.and_assoc]
  rfl

/-- The posted vector or the autovector 24 + level (R432). -/
theorem toNat_vectorNumber (r : IrqRequest) :
    r.vectorNumber.toNat = match r.vector with | some v => v.toNat | none => 24 + r.level.toNat := by
  have auto : ∀ l : BitVec 3, (24 + l.setWidth 8 : Byte).toNat = 24 + l.toNat := by decide
  rw [IrqRequest.vectorNumber]
  cases r.vector with
  | some v => rfl
  | none => exact auto r.level

/-- Settles O48: the two outcomes of an entry, by the parity of SSP; accepting a request is the entry with a mask, the request gone. -/
theorem exceptionEntrySavesAndVectors : Obligations.ExceptionEntrySavesAndVectors := by
  unfold Obligations.ExceptionEntrySavesAndVectors
  refine ⟨fun v retpc s => ⟨fun even => ?_, fun odd => ?_⟩, fun r s => ⟨fun even => ?_, fun odd => ?_⟩⟩
  · rw [raiseVector, enterException_even v none retpc even, vectorAddress_eq, sub_four_sub_two, entrySr_none]
  · rw [raiseVector, enterException_odd v none retpc odd, entrySr_none]
  · rw [acceptInterrupt, enterException_even _ (some r.level) _ (s := { s with irqQueue := s.irqQueue.erase r }) even,
      vectorAddress_eq, sub_four_sub_two, entrySr_some, toNat_vectorNumber] <;> rfl
  · rw [acceptInterrupt_odd r odd, entrySr_some]

/-! ## The frame -/

/-- A word stored leaves the long just above it. -/
theorem Memory.load_above_word (m : Memory) (a v : Long) : (m.store a .w v).load (a + 2) .l = m.load (a + 2) .l :=
  Memory.load_congr fun _ above => Memory.read_store_outside
    (fun below => not_mem_cells_of_mem_cells (m := 2) (by decide) below above) v

/-- A store of a word reads back as that word. -/
theorem Memory.load_store_word {m : Memory} (wf : m.wf = true) (a : Long) (w : Word) :
    (m.store a .w (w.setWidth 32)).load a .w = w.setWidth 32 := by
  rw [loadAfterStoreReturnsTheValue m a .w _ wf, trunc_word, lowWord_setWidth]

/-- A store of a long reads back as that long. -/
theorem Memory.load_store_long {m : Memory} (wf : m.wf = true) (a v : Long) : (m.store a .l v).load a .l = v := by
  rw [loadAfterStoreReturnsTheValue m a .l _ wf, trunc_long]

section
variable (v : Byte) (retpc : Long) {s : State} (even : s.ssp.getLsbD 0 = false)
include even

theorem raiseVector_ssp : (raiseVector v retpc s).ssp = s.ssp - 6 := by
  rw [raiseVector, enterException_even v none retpc even, sub_four_sub_two]

theorem raiseVector_mem : (raiseVector v retpc s).mem =
    (s.mem.store (s.ssp - 4) .l retpc).store (s.ssp - 6) .w (s.sr.setWidth 32) := by
  rw [raiseVector, enterException_even v none retpc even, sub_four_sub_two]

variable (wf : s.mem.wf = true)
include wf

/-- The word at SSP is the SR before the entry (R406). -/
theorem raiseVector_frame_sr : (raiseVector v retpc s).mem.load (raiseVector v retpc s).ssp .w = s.sr.setWidth 32 := by
  rw [raiseVector_mem v retpc even, raiseVector_ssp v retpc even, Memory.load_store_word (Memory.wf_store wf _ _ _)]

/-- The long at SSP + 2 is the return PC (R406). -/
theorem raiseVector_frame_pc : (raiseVector v retpc s).mem.load ((raiseVector v retpc s).ssp + 2) .l = retpc := by
  rw [raiseVector_mem v retpc even, raiseVector_ssp v retpc even, Memory.load_above_word,
    sub_six_add_two, Memory.load_store_long wf]

omit wf in
/-- The pushes lie in the six bytes from the new SSP upward (R405). -/
theorem raiseVector_outside {k : Nat} (outside : k ∉ cells (raiseVector v retpc s).ssp 6) :
    (raiseVector v retpc s).mem.read k = s.mem.read k := by
  rw [raiseVector_ssp v retpc even] at outside
  have parts := cells_add (s.ssp - 6) 2 4
  rw [show s.ssp - 6 + BitVec.ofNat 32 2 = s.ssp - 4 from sub_six_add_two _] at parts
  rw [parts, List.mem_append, not_or] at outside
  obtain ⟨word, long⟩ := outside
  rw [raiseVector_mem v retpc even, Memory.read_store_outside word, Memory.read_store_outside long]

end

/-- The entry without a mask writes bits 15 to 13 of SR only (R405). -/
theorem getLsbD_entrySr_none (sr : Word) {k : Nat} (hk : k < 13) : (entrySr none sr).getLsbD k = sr.getLsbD k := by
  have kept : ∀ j : Fin 13, (0x3FFF : Word).getLsbD j.val = true ∧ (0x2000 : Word).getLsbD j.val = false := by decide
  obtain ⟨keep, clear⟩ := kept ⟨k, hk⟩
  rw [entrySr_none, BitVec.getLsbD_or, BitVec.getLsbD_and, keep, clear, Bool.and_true, Bool.or_false]

theorem raiseVector_sr (v : Byte) (retpc : Long) (s : State) : (raiseVector v retpc s).sr = entrySr none s.sr :=
  enterException_sr v none retpc s

/-- Settles O49: the frame is the two pushes; the entry writes S and T of SR and no condition code or mask bit. -/
theorem exceptionFrameHoldsSrAndReturnPc : Obligations.ExceptionFrameHoldsSrAndReturnPc := by
  unfold Obligations.ExceptionFrameHoldsSrAndReturnPc
  intro v retpc s even wf
  obtain ⟨supervisor, untraced⟩ := entrySr_bits none s.sr
  refine ⟨raiseVector_frame_sr v retpc even wf, raiseVector_frame_pc v retpc even wf, fun k => raiseVector_outside v retpc even,
    ?_, ?_, ?_, ?_, enterException_usp .., enterException_d .., enterException_a ..⟩
  · rw [State.supervisor, raiseVector_sr, supervisor]
  · rw [State.traceEnabled, raiseVector_sr, untraced]
  · refine BitVec.eq_of_getLsbD_eq fun k hk => ?_
    rw [State.irqMask, State.irqMask, raiseVector_sr, BitVec.getLsbD_extractLsb', BitVec.getLsbD_extractLsb',
      getLsbD_entrySr_none s.sr (by omega)]
  · simp only [State.ccr, raiseVector_sr, getLsbD_entrySr_none s.sr (show 4 < 13 by decide),
      getLsbD_entrySr_none s.sr (show 3 < 13 by decide), getLsbD_entrySr_none s.sr (show 2 < 13 by decide),
      getLsbD_entrySr_none s.sr (show 1 < 13 by decide), getLsbD_entrySr_none s.sr (show 0 < 13 by decide)]

/-! ## The return -/

/-- SR of a state that meets the invariant passes the mask of WriteSR as it is (10_state.md R32, R33). -/
theorem sr_and_implMask {s : State} (h : s.inv = true) : s.sr &&& srImplMask = s.sr := by
  obtain ⟨-, reserved, -⟩ := State.inv_iff.mp h
  refine BitVec.eq_of_getLsbD_eq fun k hk => ?_
  rw [BitVec.getLsbD_and]
  cases implemented : srImplMask.getLsbD k
  · rw [State.srReserved_iff.mp reserved k hk implemented, Bool.and_false]
  · exact Bool.and_true _

/-- RTE at an even SSP in supervisor mode, untraced (48_system_control.md R375). -/
theorem execRte_next {s : State} (ht : s.traced = false) (mode : s.supervisor = true) (even : s.ssp.getLsbD 0 = false) :
    execRte s = .next { s with
      sr := lowWord (s.mem.load s.ssp .w) &&& srImplMask
      pc := s.mem.load (s.ssp + 2) .l
      ssp := s.ssp + 6 } := by
  rw [execRte, privileged_supervisor _ _ mode, returnFromException_even even, conclude_ok ht]
  rfl

/-- Settles O50: RTE runs untraced in the entered state, and reads the frame the entry stored. -/
theorem rteUndoesExceptionEntry : Obligations.RteUndoesExceptionEntry := by
  unfold Obligations.RteUndoesExceptionEntry
  intro v retpc s even inv
  obtain ⟨supervisor, untraced⟩ := entrySr_bits none s.sr
  have wf := State.mem_wf_of_inv inv
  have notTraced : (raiseVector v retpc s).traced = false := by
    rw [State.traced, State.traceEnabled, raiseVector_sr, untraced, Bool.and_false]
  have mode : (raiseVector v retpc s).supervisor = true := by rw [State.supervisor, raiseVector_sr, supervisor]
  have ssp := raiseVector_ssp v retpc even
  have evenFrame : (raiseVector v retpc s).ssp.getLsbD 0 = false := by rw [ssp, getLsbD_zero_sub _ _ (by decide), even]
  rw [exec, execRte_next notTraced mode evenFrame, raiseVector_frame_sr v retpc even wf, raiseVector_frame_pc v retpc even wf,
    lowWord_setWidth, sr_and_implMask inv, ssp, BitVec.sub_add_cancel]

end Sys2Proof.Machine
end

section
/-! SUPPORT. System control (spec/48_system_control.md R362 to R380; 60_exceptions.md R410 to R417): the condition-code writers, the
privileged instructions in both modes, and the traps an instruction raises by itself. -/

namespace Sys2Proof.Machine

/-! ## Condition codes and SR -/

theorem lowWord_eq_setWidth (v : Long) : lowWord v = v.setWidth 16 := (BitVec.setWidth_eq_extractLsb' (by decide)).symm

/-- WriteCCR keeps bits 4:0 of its byte, so those of a word do as well (R33, R369). -/
theorem lowByte_flags (v : Long) : (v.extractLsb' 0 8).setWidth 16 &&& 0x001F = v.setWidth 16 &&& (0x1F : Word) := by
  have flags : ∀ j : Fin 16, (0x001F : Word).getLsbD j.val = decide (j.val < 5) := by decide
  refine BitVec.eq_of_getLsbD_eq fun k hk => ?_
  rw [BitVec.getLsbD_and, BitVec.getLsbD_and, flags ⟨k, hk⟩, BitVec.getLsbD_setWidth, BitVec.getLsbD_setWidth,
    BitVec.getLsbD_extractLsb', Nat.zero_add]
  by_cases low : k < 5
  · simp [hk, show k < 8 by omega]
  · simp [low]

theorem immToCcr_next {op : Byte → Byte → Byte} {imm : Byte} {s : State} (ht : s.traced = false) {i : Instr} (length : 4 = i.length) :
    immToCcr op imm s = .next (past i
      { s with sr := (s.sr &&& 0xFF00) ||| ((op (s.sr.extractLsb' 0 8) imm).setWidth 16 &&& 0x1F) }) :=
  retire_ok_past ht length _

/-- Settles O42: the flag writers through WriteCCR; MOVE from SR stores its operand without reading it. -/
theorem conditionCodeRegisterResults : Obligations.ConditionCodeRegisterResults := by
  unfold Obligations.ConditionCodeRegisterResults
  refine ⟨fun imm s ht => immToCcr_next ht rfl, fun imm s ht => immToCcr_next ht rfl, fun imm s ht => immToCcr_next ht rfl,
    fun ea s _ ht ready => ?_, fun ea s hw ht ready => ?_⟩
  · rw [exec, execMoveToCcr, loadEa_ready _ ready, State.writeCcr, lowByte_flags, sideEffect_sr]
    exact retire_ok_past ht (eaLength_eq_encEa ..) _
  · rw [exec, execMoveFromSr, writeEa_ready _ ready (kind_of_ok_dataAlterable hw).1]
    exact retire_ok_past ht (eaLength_eq_encEa ..) _

/-! ## The privileged instructions -/

section
variable {s : State} (ht : s.traced = false) (mode : s.supervisor = true) {i : Instr}
include ht mode

theorem immToSr_next {op : Word → Word → Word} {imm : Word} (length : 4 = i.length) :
    immToSr op imm s = .next (past i { s with sr := op s.sr imm &&& 0xA71F }) := by
  rw [immToSr, privileged_supervisor _ _ mode]
  exact retire_ok_past ht length _

theorem execMoveToSr_next {ea : Ea} (ready : operandReady ea .w (s.pc + 2) s = true) :
    execMoveToSr ea s = .next (past (.moveToSr ea)
      { sideEffect ea .w s with sr := (operandValue ea .w (s.pc + 2) s).setWidth 16 &&& 0xA71F }) := by
  rw [execMoveToSr, privileged_supervisor _ _ mode, loadEa_ready _ ready, lowWord_eq_setWidth]
  exact retire_ok_past ht (eaLength_eq_encEa ..) _

/-- MOVE USP and RESET, whose body ends in one state. -/
theorem privileged_next {body : State → State} {n : Nat} (length : n = i.length) :
    retire n s (privileged (fun u => .ok () (body u)) s) = .next (past i (body s)) := by
  rw [privileged_supervisor _ _ mode]
  exact retire_ok_past ht length _

end

/-- Settles O43: past the privilege check each instruction is one write of SR, of a stack pointer, or of the `stopped` flag. -/
theorem privilegedResultsInSupervisorMode : Obligations.PrivilegedResultsInSupervisorMode := by
  unfold Obligations.PrivilegedResultsInSupervisorMode
  refine ⟨fun imm s ht mode => immToSr_next ht mode rfl, fun imm s ht mode => immToSr_next ht mode rfl,
    fun imm s ht mode => immToSr_next ht mode rfl, fun ea s _ ht mode => execMoveToSr_next ht mode,
    fun n s ht mode => ?_, fun n s ht mode => ?_, fun s ht mode => ?_, fun imm s ht mode => execStop_next ht mode,
    fun s ht mode even => ?_⟩
  · exact privileged_next (body := fun u => { u with usp := u.areg n }) ht mode rfl
  · exact privileged_next (body := fun u => u.setAreg n u.usp) ht mode rfl
  · exact privileged_next (body := fun u => u) ht mode rfl
  · rw [exec, execRte_next ht mode even, lowWord_eq_setWidth]
    rfl

/-- The instructions of R362. -/
def isPrivileged (i : Instr) : Bool :=
  match i with
  | .andiToSr _ | .oriToSr _ | .eoriToSr _ | .moveToSr _ | .moveToUsp _ | .moveFromUsp _ | .reset | .rte | .stop _ => true
  | _ => false

/-- In user mode the check raises before anything else (R362, R411). -/
theorem exec_privileged_user {i : Instr} (privilegedInstr : isPrivileged i = true) {s : State} (mode : s.supervisor = false) :
    exec i s = .next (raiseVector 8 s.pc s) := by
  have trapped (n : Nat) (body : State → Res Unit) : retire n s (privileged body s) = .next (raiseVector 8 s.pc s) := by
    rw [privileged_user _ _ mode, retire_raise, takeException]
  have trappedAtEnd (body : State → Res Unit) : conclude s (privileged body s) = .next (raiseVector 8 s.pc s) := by
    rw [privileged_user _ _ mode, conclude_raise, takeException]
  cases i with
  | andiToSr imm | oriToSr imm | eoriToSr imm | moveToSr ea | moveToUsp n | moveFromUsp n | reset => exact trapped _ _
  | rte | stop imm => exact trappedAtEnd _
  | _ => cases privilegedInstr

/-- Settles O51: all nine by the privilege check. -/
theorem privilegedInstructionsTrapInUserMode : Obligations.PrivilegedInstructionsTrapInUserMode := by
  unfold Obligations.PrivilegedInstructionsTrapInUserMode
  intro s imm ea n mode
  have trap {i : Instr} (privilegedInstr : isPrivileged i = true) := exec_privileged_user privilegedInstr mode
  exact ⟨trap rfl, trap rfl, trap rfl, trap rfl, trap rfl, trap rfl, trap rfl, trap rfl, trap rfl⟩

/-! ## Traps -/

@[simp] theorem sideEffect_readCcr (ea : Ea) (sz : Size) (s : State) : (sideEffect ea sz s).readCcr = s.readCcr := by
  simp only [State.readCcr, sideEffect_sr]

/-- The flags CHK writes: N as the outcome says, X kept, the others free (R379, log entry 6). -/
def chkFlags (n : Reg) (ea : Ea) (negative : Bool) (s : State) : Ccr :=
  let u := Config.chkUndef (lowWord (s.dreg n)) (lowWord (operandValue ea .w (s.pc + 2) s)) s.readCcr
  { x := s.ccr.x, n := negative, z := u.z, v := u.v, c := u.c }

section
variable {s : State} {n : Reg} {ea : Ea} (ready : operandReady ea .w (s.pc + 2) s = true)
include ready

/-- CHK below its lower bound, which is tested first (R379). -/
theorem execChk_negative (negative : signedAt .w (s.dreg n) < 0) : execChk n ea s =
    .next (raiseVector 6 (s.pc + BitVec.ofNat 32 (Instr.chk n ea).length) ((sideEffect ea .w s).setCcr (chkFlags n ea true s))) := by
  have below : (lowWord (s.dreg n)).slt 0 = true := by simpa [signedAt_word, BitVec.slt_eq_decide] using negative
  simp only [execChk, readEa_ready ready, Res.bind_ok, sideEffect_dreg, below, if_true, retire_raise, sideEffect_readCcr,
    sideEffect_ccr, sideEffect_pc, takeException]
  rw [eaLength_eq_encEa]
  rfl

section
variable (lower : 0 ≤ signedAt .w (s.dreg n))
include lower

/-- CHK above its upper bound (R379). -/
theorem execChk_above (above : signedAt .w (operandValue ea .w (s.pc + 2) s) < signedAt .w (s.dreg n)) : execChk n ea s =
    .next (raiseVector 6 (s.pc + BitVec.ofNat 32 (Instr.chk n ea).length) ((sideEffect ea .w s).setCcr (chkFlags n ea false s))) := by
  have notBelow : (lowWord (s.dreg n)).slt 0 = false := by simpa [signedAt_word, BitVec.slt_eq_decide] using lower
  have beyond : (lowWord (operandValue ea .w (s.pc + 2) s)).slt (lowWord (s.dreg n)) = true := by
    simpa [signedAt_word, BitVec.slt_eq_decide] using above
  simp only [execChk, readEa_ready ready, Res.bind_ok, sideEffect_dreg, notBelow, beyond, Bool.false_eq_true, if_false, if_true,
    retire_raise, sideEffect_readCcr, sideEffect_ccr, sideEffect_pc, takeException]
  rw [eaLength_eq_encEa]
  rfl

/-- CHK inside its bounds goes on, N being free too (R379). -/
theorem execChk_inside (ht : s.traced = false) (upper : signedAt .w (s.dreg n) ≤ signedAt .w (operandValue ea .w (s.pc + 2) s)) :
    execChk n ea s = .next (past (.chk n ea) ((sideEffect ea .w s).setCcr (chkFlags n ea
      (Config.chkUndef (lowWord (s.dreg n)) (lowWord (operandValue ea .w (s.pc + 2) s)) s.readCcr).n s))) := by
  obtain ⟨-, notBelow, notAbove⟩ := chk_completes_iff.mp (by simp only [Instr.completes, ready, lower, upper]; rfl :
    (Instr.chk n ea).completes s = true)
  simp only [execChk, readEa_ready ready, Res.bind_ok, sideEffect_dreg, notBelow, notAbove, Bool.false_eq_true, if_false,
    sideEffect_readCcr, sideEffect_ccr]
  exact retire_ok_past ht (eaLength_eq_encEa ..) _

end

/-- A division by 0 is found once the operand is read (R252, R253, R414). -/
theorem divDn_by_zero {signed : Bool} {op : Long → Word → Option (Word × Word)} (zero : operandValue ea .w (s.pc + 2) s = 0) :
    divDn signed op n ea s = .next (raiseVector 5 (s.pc + BitVec.ofNat 32 (eaLength ea .w)) (sideEffect ea .w s)) := by
  have divisor : lowWord (operandValue ea .w (s.pc + 2) s) = 0 := by rw [zero]; rfl
  simp only [divDn, readEa_ready ready, Res.bind_ok, if_pos divisor, retire_raise, takeException, sideEffect_pc]

end

/-- Settles O44: each trap at its branch of the meaning, the exception taken with the PC the branch names. -/
theorem trapResults : Obligations.TrapResults := by
  unfold Obligations.TrapResults
  refine ⟨fun v s => rfl, fun s => rfl, fun s set => ?_, fun s ht clear => ?_,
    fun n ea s _ ht ready lower upper => execChk_inside ready lower ht upper, fun n ea s _ ready => execChk_negative ready,
    fun n ea s _ ready => execChk_above ready, fun n ea s _ ready zero => ?_, fun n ea s _ ready zero => ?_⟩
  · rw [exec, execTrapv, if_pos set, retire_raise, takeException]
  · rw [exec, execTrapv, if_neg (ne_true_of_eq_false clear)]
    exact retire_ok_past ht (by rfl) s
  · rw [exec, execDivu, divDn_by_zero ready zero, eaLength_eq_encEa]
    rfl
  · rw [exec, execDivs, divDn_by_zero ready zero, eaLength_eq_encEa]
    rfl

end Sys2Proof.Machine
end

section
/-! SUPPORT. Operands at an odd address (spec/60_exceptions.md R409, R413; 40_ea_resolver.md R146, R147): the access an instruction makes
first raises, and what it had done before stays. -/

namespace Sys2Proof.Machine

/-! ## One rule per access -/

/-- An address error enters through vector 3 with pc0, which no part of an instruction has moved (R413, 10_state.md R30). -/
theorem retire_addressError {s u : State} (pc : u.pc = s.pc) (n : Nat) :
    retire n s (.raise .addressError u) = .next (raiseVector 3 s.pc u) := by
  rw [retire_raise, takeException, pc]

section
variable {s : State} {ea : Ea} {sz : Size} {ext : Long} {k : Nat}

/-- An instruction that reads an odd operand first, in the state `u` it has come to, ends with the pre-decrement made. -/
theorem readEa_odd_next {u : State} {f : Long → State → Res Unit} (odd : operandReady ea sz ext u = false) (pc : u.pc = s.pc) :
    retire k s ((readEa ea sz ext u).bind f) = .next (raiseVector 3 s.pc (decremented ea sz u)) := by
  rw [readEa_odd odd, Res.bind_raise, eaPre_eq_decremented]
  exact retire_addressError ((decremented_pc ..).trans pc) k

theorem loadEa_odd_next {u : State} {g : Long → State → State} (odd : operandReady ea sz ext u = false) (pc : u.pc = s.pc) :
    retire k s (loadEa ea sz ext g u) = .next (raiseVector 3 s.pc (decremented ea sz u)) := readEa_odd_next odd pc

/-- A read-modify-write faults at its read, before the flags are set (R158). -/
theorem updateEa_odd_next {u : State} {g : Long → State → Long × Ccr} (odd : operandReady ea sz ext u = false)
    (pc : u.pc = s.pc) : retire k s (updateEa ea sz ext g u) = .next (raiseVector 3 s.pc (decremented ea sz u)) := by
  rw [updateEa_odd g odd, eaPre_eq_decremented]
  exact retire_addressError ((decremented_pc ..).trans pc) k

/-- A store that follows its flags has set them when it faults (42_data_movement.md R200). -/
theorem storeEa_odd_next {u : State} {v : Long} {f : Ccr} (odd : operandReady ea sz ext u = false) (pc : u.pc = s.pc) :
    retire k s (storeEa ea sz ext v f u) = .next (raiseVector 3 s.pc ((decremented ea sz u).setCcr f)) := by
  rw [storeEa_odd v f odd, eaPre_eq_decremented]
  exact retire_addressError ((State.pc_setCcr ..).trans ((decremented_pc ..).trans pc)) k

theorem writeEa_odd_next {v : Long} (odd : operandReady ea sz ext s = false) :
    retire k s (writeEa ea sz ext v s) = .next (raiseVector 3 s.pc (decremented ea sz s)) := by
  rw [writeEa_odd v odd, eaPre_eq_decremented]
  exact retire_addressError (decremented_pc ..) k

end

section
variable {s : State} {sz : Size}

theorem execMove_odd_source {src dst : Ea} (odd : operandReady src sz (s.pc + 2) s = false) :
    execMove sz src dst s = .next (raiseVector 3 s.pc (decremented src sz s)) := readEa_odd_next odd rfl

theorem execMove_odd_destination {src dst : Ea} (ready : operandReady src sz (s.pc + 2) s = true)
    (odd : operandReady dst sz (s.pc + 2 + BitVec.ofNat 32 (src.extBytes sz)) (sideEffect src sz s) = false) :
    execMove sz src dst s = .next (raiseVector 3 s.pc
      ((decremented dst sz (sideEffect src sz s)).setCcr (valueFlags sz (operandValue src sz (s.pc + 2) s) s.ccr))) := by
  rw [execMove, readEa_ready ready, Res.bind_ok, sideEffect_ccr, moveFlags_eq_valueFlags]
  exact storeEa_odd_next odd (sideEffect_pc ..)

/-- The quick forms write An itself without an access, so an odd operand is none of them (R234). -/
theorem quickEa_odd {op : Long → Long → Ccr → Long × Ccr} {opA : Long → Long → Long} {q : BitVec 3} {ea : Ea}
    (odd : operandReady ea sz (s.pc + 2) s = false) :
    quickEa op opA sz q ea s = .next (raiseVector 3 s.pc (decremented ea sz s)) := by
  cases ea with
  | dn n | an n | imm v => cases odd
  | _ => exact updateEa_odd_next odd rfl

theorem execMoveToSr_odd {ea : Ea} (mode : s.supervisor = true) (odd : operandReady ea .w (s.pc + 2) s = false) :
    execMoveToSr ea s = .next (raiseVector 3 s.pc (decremented ea .w s)) := by
  rw [execMoveToSr, privileged_supervisor _ _ mode]
  exact loadEa_odd_next odd rfl

variable {x y : Reg} {op : Long → Long → Ccr → Long × Ccr}

theorem pairOp_odd_source (odd : operandReady (.preDec y) sz (s.pc + 2) s = false) :
    pairOp op sz .preDecs x y s = .next (raiseVector 3 s.pc (decremented (.preDec y) sz s)) := readEa_odd_next odd rfl

theorem pairOp_odd_destination (ready : operandReady (.preDec y) sz (s.pc + 2) s = true)
    (odd : operandReady (.preDec x) sz (s.pc + 2) (sideEffect (.preDec y) sz s) = false) :
    pairOp op sz .preDecs x y s =
      .next (raiseVector 3 s.pc (decremented (.preDec x) sz (sideEffect (.preDec y) sz s))) := by
  simp only [pairOp, readEa_ready ready, Res.bind_ok]
  exact updateEa_odd_next odd (sideEffect_pc ..)

theorem execCmpm_odd_destination (ready : operandReady (.postInc y) sz (s.pc + 2) s = true)
    (odd : operandReady (.postInc x) sz (s.pc + 2) (sideEffect (.postInc y) sz s) = false) :
    execCmpm sz x y s = .next (raiseVector 3 s.pc (sideEffect (.postInc y) sz s)) := by
  rw [execCmpm, readEa_ready ready, Res.bind_ok]
  exact loadEa_odd_next odd (sideEffect_pc ..)

end

/-! ## MOVEM -/

/-- A mask with a bit set lists a register. -/
theorem maskList_ne_nil {mask : Word} (h : mask ≠ 0) : maskList mask ≠ [] := by
  intro empty
  refine h (BitVec.eq_of_getLsbD_eq fun k hk => ?_)
  have every : ∀ j : Fin 16, j ∈ maskBits := by decide
  have clear := List.filter_eq_nil_iff.mp empty ⟨k, hk⟩ (every _)
  simpa using clear

/-- MOVEM that is not ready has a register listed and an odd base (R204, R205). -/
theorem maskList_cons_and_misaligned {sz : Size} {mask : Word} {a : Long} (h : movemReady sz mask a = false) :
    (∃ k ks, maskList mask = k :: ks) ∧ misaligned a sz = true := by
  simp only [movemReady, Bool.or_eq_false_iff, beq_eq_false_iff_ne, Bool.not_eq_false'] at h
  obtain ⟨listed, odd⟩ := h
  exact ⟨List.exists_cons_of_ne_nil (maskList_ne_nil listed), odd⟩

section
variable {sz : WordLong} {mask : Word} {ea : Ea} {s : State} (notReady : movemReady sz.size mask (movemBase ea s) = false)
include notReady

/-- The first store faults; An is written after the last one (R204). -/
theorem execMovemToMem_odd (hw : ea.ok .controlAlterablePreDec sz.size = true) :
    execMovemToMem sz mask ea s = .next (raiseVector 3 s.pc s) := by
  obtain ⟨⟨k, ks, listed⟩, odd⟩ := maskList_cons_and_misaligned notReady
  rcases ok_controlAlterablePreDec_cases hw with control | ⟨n, rfl⟩
  · rw [movemBase_control control] at odd
    rw [execMovemToMem, movemToMemBody_control control, listed, movemStoreUp_odd odd, Res.bind_raise]
    exact retire_addressError rfl _
  · rw [show movemBase (.preDec n) s = s.areg n from rfl] at odd
    rw [execMovemToMem, movemToMemBody, listed, movemStoreDown_odd odd, Res.bind_raise]
    exact retire_addressError rfl _

/-- The first load faults; An is written after the last one (R205). -/
theorem execMovemToRegs_odd (hw : ea.ok .controlPostInc sz.size = true) :
    execMovemToRegs sz mask ea s = .next (raiseVector 3 s.pc s) := by
  obtain ⟨⟨k, ks, listed⟩, odd⟩ := maskList_cons_and_misaligned notReady
  rcases ok_controlPostInc_cases hw with control | ⟨n, rfl⟩
  · rw [movemBase_control control] at odd
    rw [execMovemToRegs, movemToRegsBody_control control, listed, movemLoad_odd odd, Res.bind_raise]
    exact retire_addressError rfl _
  · rw [show movemBase (.postInc n) s = s.areg n from rfl] at odd
    rw [execMovemToRegs, movemToRegsBody, listed, movemLoad_odd odd, Res.bind_raise]
    exact retire_addressError rfl _

end

/-! ## The obligations -/

/-- Settles O53: every form but CLR and MOVE reads its operand first; CLR and MOVE's destination store after their flags. -/
theorem oddOperandTakesTheAddressError : Obligations.OddOperandTakesTheAddressError := by
  unfold Obligations.OddOperandTakesTheAddressError
  intro sz ea src dst n s trap taken
  refine ⟨fun odd => ?_, execMove_odd_source, execMove_odd_destination⟩
  have load {k : Nat} {g : Long → State → State} : retire k s (loadEa ea sz (s.pc + 2) g s) = taken := loadEa_odd_next odd rfl
  have update {k : Nat} {g : Long → State → Long × Ccr} : retire k s (updateEa ea sz (s.pc + 2) g s) = taken :=
    updateEa_odd_next odd rfl
  exact ⟨load, load, load, load, load, update, update, update, update, update, update, update, update, load,
    storeEa_odd_next odd rfl⟩

/-- Settles O58: the remaining forms, each by the rule of its first access; MOVEM by its first transfer. -/
theorem oddOperandOfTheOtherFormsTakesTheAddressError : Obligations.OddOperandOfTheOtherFormsTakesTheAddressError := by
  unfold Obligations.OddOperandOfTheOtherFormsTakesTheAddressError
  intro sz wl imm q mask ea n x y s trap
  refine ⟨fun odd => ?immediate, fun odd => ?address, fun odd => ?quick, fun odd => ?word,
    fun odd => ?pairSource, fun ready odd => ?pairDestination, fun odd => readEa_odd_next odd rfl,
    execCmpm_odd_destination, fun notReady => ⟨execMovemToMem_odd notReady, execMovemToRegs_odd notReady⟩⟩
  case immediate =>
    have update {k : Nat} {g : Long → State → Long × Ccr} :
        retire k s (updateEa ea sz (s.pc + 2 + BitVec.ofNat 32 (immBytes sz)) g s) = trap (decremented ea sz s) :=
      updateEa_odd_next odd rfl
    exact ⟨update, update, update, update, update, loadEa_odd_next odd rfl⟩
  case address =>
    have load {k : Nat} {g : Long → State → State} :
        retire k s (loadEa ea wl.size (s.pc + 2) g s) = trap (decremented ea wl.size s) := loadEa_odd_next odd rfl
    exact ⟨load, load, load, load⟩
  case quick =>
    simp only [exec, execAddq, execSubq]
    exact ⟨quickEa_odd odd, quickEa_odd odd⟩
  case pairSource =>
    simp only [exec, execAddx, execSubx]
    exact ⟨pairOp_odd_source odd, pairOp_odd_source odd⟩
  case pairDestination =>
    simp only [exec, execAddx, execSubx]
    exact ⟨pairOp_odd_destination ready odd, pairOp_odd_destination ready odd⟩
  case word =>
    have load {k : Nat} {g : Long → State → State} :
        retire k s (loadEa ea .w (s.pc + 2) g s) = trap (decremented ea .w s) := loadEa_odd_next odd rfl
    have read {k : Nat} {f : Long → State → Res Unit} :
        retire k s ((readEa ea .w (s.pc + 2) s).bind f) = trap (decremented ea .w s) := readEa_odd_next odd rfl
    have update {k : Nat} {g : Long → State → Long × Ccr} :
        retire k s (updateEa ea .w (s.pc + 2) g s) = trap (decremented ea .w s) := updateEa_odd_next odd rfl
    exact ⟨load, load, read, read, read, load, writeEa_odd_next odd, fun mode => execMoveToSr_odd mode odd, update, update, update,
      update, update, update, update, update⟩

end Sys2Proof.Machine
end

section
/-! SUPPORT. What no unprivileged instruction reaches (spec/10_state.md R24, R33; 60_exceptions.md R441, R442): the upper byte of SR, the
other mode's stack pointer, the hidden fields and the parameters. No rule asks that an access be aligned or a term well formed, since
what an operation raises leaves them as well. -/

namespace Sys2Proof.Machine

/-! ## Confined changes -/

/-- From `s` to `u` only D0 to D7, the address registers of the mode, PC, memory and the low byte of SR may differ. -/
structure Confined (s u : State) : Prop where
  params : u.params = s.params
  hidden : u.hidden = s.hidden
  upper : u.sr &&& 0xFF00 = s.sr &&& 0xFF00
  ssp : s.supervisor = false → u.ssp = s.ssp

namespace Confined

variable {s u : State}

theorem refl : Confined s s := ⟨rfl, rfl, rfl, fun _ => rfl⟩

/-- S is a bit of the upper byte. -/
theorem supervisor (h : Confined s u) : u.supervisor = s.supervisor := by
  simpa [State.supervisor] using congrArg (BitVec.getLsbD · 13) h.upper

theorem setDreg (h : Confined s u) (n : Reg) (v : Long) : Confined s (u.setDreg n v) := ⟨h.params, h.hidden, h.upper, h.ssp⟩

theorem writeD (h : Confined s u) (n : Reg) (sz : Size) (v : Long) : Confined s (u.writeD n sz v) := h.setDreg n _

theorem withMem (h : Confined s u) (m : Memory) : Confined s { u with mem := m } := ⟨h.params, h.hidden, h.upper, h.ssp⟩

theorem jumpTo (h : Confined s u) (a : Long) : Confined s (jumpTo a u) := ⟨h.params, h.hidden, h.upper, h.ssp⟩

theorem advance (h : Confined s u) (n : Nat) : Confined s (advance n u) := h.jumpTo (u.pc + BitVec.ofNat 32 n)

/-- In user mode SP is USP (R24). -/
theorem setSp (h : Confined s u) (v : Long) : Confined s (u.setSp v) := by
  cases mode : u.supervisor
  · rw [State.setSp_of_user mode]
    exact ⟨h.params, h.hidden, h.upper, h.ssp⟩
  · rw [State.setSp_of_supervisor mode]
    exact ⟨h.params, h.hidden, h.upper, fun user => absurd (h.supervisor.symm.trans mode) (by simp [user])⟩

theorem setAreg (h : Confined s u) (n : Reg) (v : Long) : Confined s (u.setAreg n v) := by
  unfold State.setAreg
  split
  · exact ⟨h.params, h.hidden, h.upper, h.ssp⟩
  · exact h.setSp v

theorem setMovemReg (h : Confined s u) (k : Fin 16) (v : Long) : Confined s (u.setMovemReg k v) := by
  unfold State.setMovemReg
  split
  · exact h.setDreg _ v
  · exact h.setAreg _ v

theorem setCcr (h : Confined s u) (f : Ccr) : Confined s (u.setCcr f) :=
  ⟨h.params, h.hidden, (State.sr_setCcr_and u f (by decide)).trans h.upper, h.ssp⟩

theorem writeCcr (h : Confined s u) (v : Byte) : Confined s (u.writeCcr v) :=
  ⟨h.params, h.hidden, (State.sr_writeCcr_and u v).1.trans h.upper, h.ssp⟩

end Confined

/-! ## Parts of an instruction -/

/-- A part of an instruction ends, with a value or by raising, in a state with `P`. -/
def Res.Ends {α : Type} (P : State → Prop) (r : Res α) : Prop :=
  match r with
  | .ok _ s => P s
  | .raise _ s => P s

/-- The outcome is what an instruction that began in `s` concludes with, its run having ended in a state with `P`. -/
def ConcludesIn (P : State → Prop) (s : State) (o : Host.Outcome State Fault Refusal) : Prop := ∃ r, o = conclude s r ∧ r.Ends P

theorem Res.Ends.bind {α β : Type} {P : State → Prop} {r : Res α} {f : α → State → Res β} (h : r.Ends P)
    (hf : ∀ v u, P u → (f v u).Ends P) : (r.bind f).Ends P := by
  cases r with
  | ok v u => exact hf v u h
  | raise e u => exact h

theorem Res.Ends.mono {α : Type} {P Q : State → Prop} {r : Res α} (h : r.Ends P) (pq : ∀ u, P u → Q u) : r.Ends Q := by
  cases r with
  | ok v u => exact pq u h
  | raise e u => exact pq u h

theorem privileged_ends {P : State → Prop} {body : State → Res Unit} {s : State} (hs : P s) (hb : (body s).Ends P) :
    (privileged body s).Ends P := by
  unfold privileged
  split
  · exact hb
  · exact hs

section
variable {s u : State} (h : Confined s u)
include h

theorem memRead_confined (a : Long) (sz : Size) : (memRead a sz u).Ends (Confined s) := by
  unfold memRead
  split <;> exact h

theorem memWrite_confined (a : Long) (sz : Size) (v : Long) : (memWrite a sz v u).Ends (Confined s) := by
  unfold memWrite
  split
  · exact h
  · exact h.withMem _

theorem push_confined (sz : Size) (v : Long) : (push sz v u).Ends (Confined s) := memWrite_confined (h.setSp _) _ sz v

theorem pop_confined (sz : Size) : (pop sz u).Ends (Confined s) := (memRead_confined h _ sz).bind fun _ _ hu => hu.setSp _

theorem Loc.post_confined (loc : Loc) : Confined s (loc.post u) := by
  cases loc with
  | mem a pending => cases pending with
    | none => exact h
    | some step => exact h.setAreg _ _
  | _ => exact h

theorem eaPre_confined (ea : Ea) (sz : Size) : Confined s (eaPre ea sz u) := by
  cases ea with
  | preDec n => exact h.setAreg n _
  | _ => exact h

theorem readLoc_confined (loc : Loc) (sz : Size) : (readLoc loc sz u).Ends (Confined s) := by
  cases loc with
  | mem a pending => exact (memRead_confined h a sz).bind fun _ _ hu => Loc.post_confined hu _
  | _ => exact h

theorem writeLoc_confined (loc : Loc) (sz : Size) (v : Long) : (writeLoc loc sz v u).Ends (Confined s) := by
  cases loc with
  | dreg n => exact h.writeD n sz v
  | areg n => exact h.setAreg n v
  | mem a pending => exact (memWrite_confined h a sz v).bind fun _ _ hu => Loc.post_confined hu _
  | imm w => exact h

theorem readEa_confined (ea : Ea) (sz : Size) (ext : Long) : (readEa ea sz ext u).Ends (Confined s) :=
  readLoc_confined (eaPre_confined h ea sz) _ sz

theorem writeEa_confined (ea : Ea) (sz : Size) (ext v : Long) : (writeEa ea sz ext v u).Ends (Confined s) :=
  writeLoc_confined (eaPre_confined h ea sz) _ sz v

theorem storeEa_confined (ea : Ea) (sz : Size) (ext v : Long) (f : Ccr) : (storeEa ea sz ext v f u).Ends (Confined s) :=
  writeLoc_confined ((eaPre_confined h ea sz).setCcr f) _ sz v

theorem updateEa_confined {ea : Ea} {sz : Size} {ext : Long} {g : Long → State → Long × Ccr} :
    (updateEa ea sz ext g u).Ends (Confined s) :=
  (readLoc_confined (eaPre_confined h ea sz) _ sz).bind fun _ _ hu => writeLoc_confined (hu.setCcr _) _ sz _

theorem loadEa_confined {ea : Ea} {sz : Size} {ext : Long} {g : Long → State → State}
    (hg : ∀ e t, Confined s t → Confined s (g e t)) : (loadEa ea sz ext g u).Ends (Confined s) :=
  (readEa_confined h ea sz ext).bind hg

theorem addressEa_confined (ea : Ea) (ext : Long) : (addressEa ea ext u).Ends (Confined s) := by
  unfold addressEa
  split <;> exact h

end

section
variable {s : State} (sz : Size) (ks : List (Fin 16)) (a : Long)

theorem movemStoreUp_confined {u : State} (h : Confined s u) : (movemStoreUp sz ks a u).Ends (Confined s) := by
  induction ks generalizing a u with
  | nil => exact h
  | cons k ks ih => exact (memWrite_confined h a sz _).bind fun _ _ hu => ih _ hu

theorem movemStoreDown_confined {u : State} (h : Confined s u) : (movemStoreDown sz ks a u).Ends (Confined s) := by
  induction ks generalizing a u with
  | nil => exact h
  | cons k ks ih => exact (memWrite_confined h _ sz _).bind fun _ _ hu => ih _ hu

theorem movemLoad_confined {u : State} (h : Confined s u) : (movemLoad sz ks a u).Ends (Confined s) := by
  induction ks generalizing a u with
  | nil => exact h
  | cons k ks ih => exact (memRead_confined h a sz).bind fun _ _ hu => ih _ (hu.setMovemReg k _)

theorem movemToMemBody_confined (mask : Word) (ea : Ea) : (movemToMemBody sz mask ea s).Ends (Confined s) := by
  cases ea with
  | preDec n => exact (movemStoreDown_confined sz _ _ .refl).bind fun a _ hu => hu.setAreg n a
  | _ =>
    unfold movemToMemBody
    exact (addressEa_confined .refl _ _).bind fun a _ ha => (movemStoreUp_confined sz _ a ha).bind fun _ _ hu => hu

theorem movemToRegsBody_confined (mask : Word) (ea : Ea) : (movemToRegsBody sz mask ea s).Ends (Confined s) := by
  cases ea with
  | postInc n => exact (movemLoad_confined sz _ _ .refl).bind fun a _ hu => hu.setAreg n a
  | _ =>
    unfold movemToRegsBody
    exact (addressEa_confined .refl _ _).bind fun a _ ha => (movemLoad_confined sz _ a ha).bind fun _ _ hu => hu

end

/-! ## Every instruction -/

/-- An instruction that leaves everything above alone concludes in such a state. -/
def StaysConfined (s : State) (o : Host.Outcome State Fault Refusal) : Prop := ConcludesIn (Confined s) s o

section
variable {s : State}

theorem conclude_confined {r : Res Unit} (h : r.Ends (Confined s)) : StaysConfined s (conclude s r) := ⟨r, rfl, h⟩

theorem retire_confined {n : Nat} {r : Res Unit} (h : r.Ends (Confined s)) : StaysConfined s (retire n s r) :=
  conclude_confined (h.bind fun _ _ hu => hu.advance n)

theorem retire_updateEa_confined {ea : Ea} {sz : Size} {ext : Long} {g : Long → State → Long × Ccr} {n : Nat} :
    StaysConfined s (retire n s (updateEa ea sz ext g s)) := retire_confined (updateEa_confined .refl)

/-- An instruction that only sets flags by its operand (CMP, TST, BTST). -/
theorem retire_loadEa_setCcr_confined {ea : Ea} {sz : Size} {ext : Long} {f : Long → State → Ccr} {n : Nat} :
    StaysConfined s (retire n s (loadEa ea sz ext (fun e u => u.setCcr (f e u)) s)) :=
  retire_confined (loadEa_confined .refl fun _ _ hu => hu.setCcr _)

theorem immToCcr_confined (op : Byte → Byte → Byte) (imm : Byte) : StaysConfined s (immToCcr op imm s) :=
  retire_confined (Confined.refl.writeCcr _)

theorem eaToDn_confined (op : Long → Long → Ccr → Long × Ccr) (sz : Size) (ea : Ea) (n : Reg) :
    StaysConfined s (eaToDn op sz ea n s) := retire_confined (loadEa_confined .refl fun _ _ hu => (hu.setCcr _).writeD n sz _)

theorem eaToAn_confined (op : Long → Long → Long) (sz : WordLong) (n : Reg) (ea : Ea) : StaysConfined s (eaToAn op sz n ea s) :=
  retire_confined (loadEa_confined .refl fun _ _ hu => hu.setAreg n _)

theorem mulToDn_confined (op : Word → Word → Long) (n : Reg) (ea : Ea) : StaysConfined s (mulToDn op n ea s) :=
  retire_confined (loadEa_confined .refl fun _ _ hu => (hu.setCcr _).setDreg n _)

theorem shiftDn_confined (step : Size → ShiftState → ShiftState) (roxc keepV : Bool) (sz : Size) (cnt : ShiftCount) (y : Reg) :
    StaysConfined s (shiftDn step roxc keepV sz cnt y s) := retire_confined ((Confined.refl.setCcr _).writeD y sz _)

theorem quickEa_confined (op : Long → Long → Ccr → Long × Ccr) (opA : Long → Long → Long) (sz : Size) (q : BitVec 3) (ea : Ea) :
    StaysConfined s (quickEa op opA sz q ea s) := by
  cases ea with
  | an n => exact retire_confined (Confined.refl.setAreg n _)
  | _ => exact retire_updateEa_confined

theorem pairOp_confined (op : Long → Long → Ccr → Long × Ccr) (sz : Size) (form : PairForm) (x y : Reg) :
    StaysConfined s (pairOp op sz form x y s) := by
  cases form with
  | dregs => exact retire_confined ((Confined.refl.setCcr _).writeD x sz _)
  | preDecs => exact retire_confined ((readEa_confined .refl _ sz _).bind fun _ _ hu => updateEa_confined hu)

/-- A division traps on divisor 0, and else sets the flags and at most `D[n]` (R252, R253). -/
theorem divDn_confined (signed : Bool) (op : Long → Word → Option (Word × Word)) (n : Reg) (ea : Ea) :
    StaysConfined s (divDn signed op n ea s) := by
  refine retire_confined ((readEa_confined .refl ea .w _).bind fun e u hu => ?_)
  dsimp only
  split
  · exact hu
  · split
    · exact hu.setCcr _
    · exact (hu.setCcr _).setDreg n _

/-- CHK writes the flags in each of its three outcomes (R379). -/
theorem execChk_confined (n : Reg) (ea : Ea) : StaysConfined s (execChk n ea s) := by
  refine retire_confined ((readEa_confined .refl ea .w _).bind fun e u hu => ?_)
  dsimp only
  split
  · exact hu.setCcr _
  · split <;> exact hu.setCcr _

theorem execMovep_confined (dir : MovepDir) (sz : WordLong) (dx ay : Reg) (d : Word) :
    StaysConfined s (execMovep dir sz dx ay d s) := by
  cases dir with
  | memToReg => exact retire_confined (Confined.refl.writeD dx sz.size _)
  | regToMem => exact retire_confined (Confined.refl.withMem _)

theorem execBcc_confined (cond : Cond) (disp : BranchDisp) : StaysConfined s (execBcc cond disp s) := by
  refine conclude_confined ?_
  split
  · exact Confined.refl.jumpTo _
  · exact Confined.refl.advance _

theorem execDbcc_confined (cond : Cond) (n : Reg) (d : Word) : StaysConfined s (execDbcc cond n d s) := by
  refine conclude_confined ?_
  split
  · exact Confined.refl.advance 4
  · dsimp only
    split
    · exact (Confined.refl.writeD n .w _).advance 4
    · exact (Confined.refl.writeD n .w _).jumpTo _

theorem execTrapv_confined : StaysConfined s (execTrapv s) := by
  refine retire_confined ?_
  split <;> exact Confined.refl

end

/-- Every term but the nine privileged instructions. One case per form, grouped by the operation the instructions share. -/
theorem exec_confined {i : Instr} (unprivileged : isPrivileged i = false) (s : State) : StaysConfined s (exec i s) := by
  unfold exec
  cases i with
  | andiToSr _ | oriToSr _ | eoriToSr _ | moveToSr _ | moveToUsp _ | moveFromUsp _ | reset | rte | stop _ => cases unprivileged
  | oriToCcr imm | andiToCcr imm | eoriToCcr imm => exact immToCcr_confined _ imm
  | ori sz imm ea | andi sz imm ea | subi sz imm ea | addi sz imm ea | eori sz imm ea => exact retire_updateEa_confined
  | btstImm num ea | btstDyn n ea => exact retire_loadEa_setCcr_confined
  | bchgImm num ea | bclrImm num ea | bsetImm num ea | bchgDyn n ea | bclrDyn n ea | bsetDyn n ea => exact retire_updateEa_confined
  | movep dir sz dx ay d => exact execMovep_confined dir sz dx ay d
  | move sz src dst => exact retire_confined ((readEa_confined .refl src sz _).bind fun _ _ hu => storeEa_confined hu dst sz _ _ _)
  | movea sz n src => exact retire_confined (loadEa_confined .refl fun _ _ hu => hu.setAreg n _)
  | negx sz ea | neg sz ea | not sz ea | nbcd ea | tas ea => exact retire_updateEa_confined
  | clr sz ea => exact retire_confined (storeEa_confined .refl ea sz _ _ _)
  | moveFromSr ea | scc cond ea => exact retire_confined (writeEa_confined .refl ea _ _ _)
  | moveToCcr ea => exact retire_confined (loadEa_confined .refl fun _ _ hu => hu.writeCcr _)
  | chk n ea => exact execChk_confined n ea
  | lea n ea => exact retire_confined ((addressEa_confined .refl ea _).bind fun a _ hu => hu.setAreg n a)
  | pea ea => exact retire_confined ((addressEa_confined .refl ea _).bind fun a _ hu => push_confined hu .l a)
  | jsr ea =>
    exact conclude_confined ((addressEa_confined .refl ea _).bind fun a _ ha => (push_confined ha .l _).bind fun _ _ hu => hu.jumpTo a)
  | jmp ea => exact conclude_confined ((addressEa_confined .refl ea _).bind fun a _ hu => hu.jumpTo a)
  | bsr disp => exact conclude_confined ((push_confined .refl .l _).bind fun _ _ hu => hu.jumpTo _)
  | rts => exact conclude_confined ((pop_confined .refl .l).bind fun a _ hu => hu.jumpTo a)
  | rtr =>
    exact conclude_confined ((pop_confined .refl .w).bind fun c _ hc => (pop_confined hc .l).bind fun a _ hu =>
      (hu.writeCcr _).jumpTo a)
  | link n d =>
    exact retire_confined ((memWrite_confined (Confined.refl.setSp _) _ .l _).bind fun _ _ hu => (hu.setAreg n _).setSp _)
  | unlk n => exact retire_confined ((memRead_confined .refl _ .l).bind fun v _ hu => (hu.setSp _).setAreg n v)
  | swap n | extL n | moveq n data => exact retire_confined ((Confined.refl.setCcr _).setDreg n _)
  | extW n => exact retire_confined ((Confined.refl.setCcr _).writeD n .w _)
  | movemToMem sz mask ea => exact retire_confined (movemToMemBody_confined sz.size mask ea)
  | movemToRegs sz mask ea => exact retire_confined (movemToRegsBody_confined sz.size mask ea)
  | illegal | trap v => exact conclude_confined Confined.refl
  | nop => exact retire_confined Confined.refl
  | trapv => exact execTrapv_confined
  | addq sz q ea | subq sz q ea => exact quickEa_confined _ _ sz q ea
  | dbcc cond n d => exact execDbcc_confined cond n d
  | bra disp => exact conclude_confined (Confined.refl.jumpTo _)
  | bcc cond disp => exact execBcc_confined cond disp
  | orEaDn sz ea n | subEaDn sz ea n | andEaDn sz ea n | addEaDn sz ea n => exact eaToDn_confined _ sz ea n
  | orDnEa sz n ea | subDnEa sz n ea | andDnEa sz n ea | addDnEa sz n ea | eor sz n ea => exact retire_updateEa_confined
  | divu n ea | divs n ea => exact divDn_confined _ _ n ea
  | mulu n ea | muls n ea => exact mulToDn_confined _ n ea
  | suba sz n ea | adda sz n ea => exact eaToAn_confined _ sz n ea
  | cmp sz ea n | cmpa sz n ea | cmpi sz imm ea | tst sz ea => exact retire_loadEa_setCcr_confined
  | cmpm sz x y =>
    exact retire_confined ((readEa_confined .refl _ sz _).bind fun _ _ hy => loadEa_confined hy fun _ _ hu => hu.setCcr _)
  | abcd form x y | sbcd form x y | addx sz form x y | subx sz form x y => exact pairOp_confined _ _ form x y
  | exgDD x y => exact retire_confined ((Confined.refl.setDreg x _).setDreg y _)
  | exgAA x y => exact retire_confined ((Confined.refl.setAreg x _).setAreg y _)
  | exgDA x y => exact retire_confined ((Confined.refl.setDreg x _).setAreg y _)
  | asrReg sz cnt y | aslReg sz cnt y | lsrReg sz cnt y | lslReg sz cnt y => exact shiftDn_confined _ _ _ sz cnt y
  | roxrReg sz cnt y | roxlReg sz cnt y | rorReg sz cnt y | rolReg sz cnt y => exact shiftDn_confined _ _ _ sz cnt y
  | asrMem ea | aslMem ea | lsrMem ea | lslMem ea => exact retire_updateEa_confined
  | roxrMem ea | roxlMem ea | rorMem ea | rolMem ea => exact retire_updateEa_confined

/-! ## The parameters -/

/-- Where an instruction's run keeps the parameters, so does the entry it may end with. -/
theorem ConcludesIn.params {s : State} {p : Params} {o : Host.Outcome State Fault Refusal}
    (h : ConcludesIn (fun u => u.params = p) s o) : ∃ t, o = .next t ∧ t.params = p := by
  obtain ⟨r, rfl, ends⟩ := h
  obtain ⟨e, u, rfl, answer⟩ | ⟨u, rfl, -, answer⟩ | ⟨u, rfl, -, answer⟩ := conclude_cases s r
  · obtain ⟨v, retpc, -, entry⟩ := takeException_eq_raiseVector e u
    exact ⟨_, answer, by rw [entry, raiseVector, enterException_params]; exact ends⟩
  · exact ⟨u, answer, ends⟩
  · exact ⟨_, answer, by rw [raiseVector, enterException_params]; exact ends⟩

theorem memRead_params {p : Params} {u : State} (h : u.params = p) (a : Long) (sz : Size) :
    (memRead a sz u).Ends fun t => t.params = p := by
  unfold memRead
  split <;> exact h

/-- No instruction writes the parameters, the privileged ones included (log entry 4). -/
theorem exec_params (i : Instr) (s : State) : ∃ t, exec i s = .next t ∧ t.params = s.params := by
  have retired {n : Nat} {body : State → Res Unit} (hb : (body s).Ends fun u => u.params = s.params) :
      ∃ t, retire n s (privileged body s) = .next t ∧ t.params = s.params :=
    ConcludesIn.params ⟨_, rfl, (privileged_ends (P := fun u => u.params = s.params) rfl hb).bind fun _ _ hu => hu⟩
  have concluded {body : State → Res Unit} (hb : (body s).Ends fun u => u.params = s.params) :
      ∃ t, conclude s (privileged body s) = .next t ∧ t.params = s.params := ConcludesIn.params ⟨_, rfl, privileged_ends rfl hb⟩
  cases privilegedInstr : isPrivileged i
  case false =>
    obtain ⟨r, answer, ends⟩ := exec_confined privilegedInstr s
    exact ConcludesIn.params ⟨r, answer, ends.mono fun _ hu => hu.params⟩
  case true =>
    cases i with
    | andiToSr imm | oriToSr imm | eoriToSr imm | moveToUsp n | reset => exact retired rfl
    | moveFromUsp n => exact retired (State.params_setAreg ..)
    | moveToSr ea =>
      have read := (readEa_confined (.refl (s := s)) ea .w (s.pc + 2)).mono (Q := fun u => u.params = s.params) fun _ hu => hu.params
      exact retired (read.bind fun _ _ hu => hu)
    | rte =>
      refine concluded ?_
      exact (memRead_params rfl _ _).bind fun _ _ hu => (memRead_params hu _ _).bind fun _ _ ht => ht
    | stop imm => exact concluded rfl
    | _ => cases privilegedInstr

/-- Settles O9: every instruction by the rule above, and a step by the branches of its cycle. -/
theorem everyStepAnswersANextState : Obligations.EveryStepAnswersANextState := by
  unfold Obligations.EveryStepAnswersANextState
  refine ⟨exec_params, fun s => ?_⟩
  unfold step driverCycle
  split
  · exact ⟨_, rfl, rfl⟩
  · split
    · exact ⟨s, rfl, rfl⟩
    · split
      · exact ⟨_, rfl, enterException_params ..⟩
      · split
        · exact ⟨s, rfl, rfl⟩
        · obtain ⟨-, run⟩ | ⟨op, -, run⟩ | ⟨i, -, run⟩ := runInstruction_cases s <;> rw [run]
          · exact ⟨_, rfl, enterException_params ..⟩
          · exact ⟨_, rfl, enterException_params ..⟩
          · exact exec_params i s

/-! ## The mode -/

/-- Where an instruction's run ends in supervisor mode, it answers a supervisor mode state: so does every entry. -/
theorem ConcludesIn.supervisor {s t : State} {o : Host.Outcome State Fault Refusal}
    (h : ConcludesIn (fun u => u.supervisor = true) s o) (e : o = .next t) : t.supervisor = true := by
  obtain ⟨r, rfl, ends⟩ := h
  obtain ⟨e', u, rfl, answer⟩ | ⟨u, rfl, -, answer⟩ | ⟨u, rfl, -, answer⟩ := conclude_cases s r <;>
    obtain rfl := Host.Outcome.next.inj (answer.symm.trans e)
  · obtain ⟨v, retpc, -, entry⟩ := takeException_eq_raiseVector e' u
    rw [entry]
    exact enterException_supervisor ..
  · exact ends
  · exact enterException_supervisor ..

/-- The SR writers that can clear S (R442); ORI to SR cannot. -/
def leavesSupervisor (i : Instr) : Prop :=
  (∃ ea, i = .moveToSr ea) ∨ (∃ v, i = .andiToSr v) ∨ (∃ v, i = .eoriToSr v) ∨ i = .rte ∨ ∃ v, i = .stop v

theorem exec_keeps_supervisor {i : Instr} {s t : State} (mode : s.supervisor = true) (stays : ¬ leavesSupervisor i)
    (h : exec i s = .next t) : t.supervisor = true := by
  have retired {n : Nat} {body : State → Res Unit} (hb : (body s).Ends fun u => u.supervisor = true) :
      ConcludesIn (fun u => u.supervisor = true) s (retire n s (privileged body s)) :=
    ⟨_, rfl, (privileged_ends mode hb).bind fun _ _ hu => hu⟩
  refine ConcludesIn.supervisor (s := s) ?_ h
  cases privilegedInstr : isPrivileged i
  case false =>
    obtain ⟨r, answer, ends⟩ := exec_confined privilegedInstr s
    exact ⟨r, answer, ends.mono fun _ hu => hu.supervisor.trans mode⟩
  case true =>
    cases i with
    | moveToUsp n | reset => exact retired mode
    | moveFromUsp n => exact retired ((State.supervisor_setAreg ..).trans mode)
    | oriToSr imm =>
      refine retired ?_
      show ((s.sr ||| imm) &&& srImplMask).getLsbD 13 = true
      rw [BitVec.getLsbD_and, BitVec.getLsbD_or, show s.sr.getLsbD 13 = true from mode, Bool.true_or, Bool.true_and]
      rfl
    | moveToSr _ | andiToSr _ | eoriToSr _ | rte | stop _ => exact absurd (by simp [leavesSupervisor]) stays
    | _ => cases privilegedInstr

/-- What user mode leaves alone, as the obligation lists it. -/
def supervisorKept (s u : State) : Prop :=
  u.ssp = s.ssp ∧ u.sr &&& 0xFF00 = s.sr &&& 0xFF00 ∧ u.stopped = s.stopped ∧ u.halted = s.halted ∧
    u.resetPending = s.resetPending ∧ u.irqQueue = s.irqQueue

theorem Confined.supervisorKept {s u : State} (h : Confined s u) (mode : s.supervisor = false) : supervisorKept s u := by
  obtain ⟨resetPending, halted, irqQueue, stopped⟩ := by simpa only [State.hidden, Prod.mk.injEq] using h.hidden
  exact ⟨h.ssp mode, h.upper, stopped, halted, resetPending, irqQueue⟩

/-- Settles O57: in user mode a run stays confined or is cut short by the entry it raises; supervisor mode is left only where S is
written. -/
theorem privilegeModeChangesOnlyByItsDoors : Obligations.PrivilegeModeChangesOnlyByItsDoors := by
  unfold Obligations.PrivilegeModeChangesOnlyByItsDoors
  refine ⟨fun i s t mode h => ?_, fun i s t mode h user => ?_⟩
  · intro kept
    cases privilegedInstr : isPrivileged i
    case true =>
      obtain rfl := Host.Outcome.next.inj (h.symm.trans (exec_privileged_user privilegedInstr mode))
      exact .inr ⟨8, s.pc, s, .inl (by decide), rfl, Confined.refl.supervisorKept mode⟩
    case false =>
      obtain ⟨r, answer, ends⟩ := exec_confined privilegedInstr s
      rw [answer] at h
      obtain ⟨e, u, rfl, ended⟩ | ⟨u, rfl, -, ended⟩ | ⟨u, rfl, -, ended⟩ := conclude_cases s r <;>
        obtain rfl := Host.Outcome.next.inj (h.symm.trans ended)
      · obtain ⟨v, retpc, range, entry⟩ := takeException_eq_raiseVector e u
        exact .inr ⟨v, retpc, u, range.imp_left fun ⟨low, high⟩ => ⟨low, Nat.le_succ_of_le high⟩, entry,
          Confined.supervisorKept ends mode⟩
      · exact .inl ⟨(Confined.supervisor ends).trans mode, Confined.supervisorKept ends mode⟩
      · exact .inr ⟨9, u.pc, u, .inl (by decide), rfl, Confined.supervisorKept ends mode⟩
  · by_contra stays
    exact absurd (exec_keeps_supervisor mode stays h) (by simp [user])

end Sys2Proof.Machine
end

section
/-! SUPPORT. Tracing (spec/60_exceptions.md R418): the parameter TRACE_EXC decides how an instruction's run is concluded, and no part of
the run reads it. One rule per operation says so, and one says when the operation ends without raising; together they give the run of
every well-formed instruction, the same with both settings, which raises exactly when the instruction does not complete. -/

namespace Sys2Proof.Machine

/-! ## The state without tracing -/

/-- The state with TRACE_EXC cleared. -/
def State.untraced (s : State) : State := { s with params := { s.params with traceExc := false } }

/-- A part of an instruction, its end state with TRACE_EXC cleared. -/
def Res.untraced {α : Type} (r : Res α) : Res α :=
  match r with
  | .ok v s => .ok v s.untraced
  | .raise e s => .raise e s.untraced

/-- A part of an instruction ends without raising. -/
def Res.isOk {α : Type} (r : Res α) : Bool :=
  match r with
  | .ok _ _ => true
  | .raise _ _ => false

theorem State.traced_untraced (s : State) : s.untraced.traced = false := rfl

@[simp] theorem State.pc_untraced (s : State) : s.untraced.pc = s.pc := rfl
@[simp] theorem State.sp_untraced (s : State) : s.untraced.sp = s.sp := rfl

theorem State.setCcr_untraced (s : State) (f : Ccr) : s.untraced.setCcr f = (s.setCcr f).untraced := rfl

/-- Putting the parameters back undoes the clearing. -/
theorem State.untraced_with_params {u : State} {p : Params} (h : u.params = p) : ({ u.untraced with params := p } : State) = u := by
  subst h
  rfl

theorem State.setSp_untraced (s : State) (v : Long) : s.untraced.setSp v = (s.setSp v).untraced := by
  cases mode : s.supervisor
  · rw [State.setSp_of_user mode, State.setSp_of_user (s := s.untraced) mode]
    rfl
  · rw [State.setSp_of_supervisor mode, State.setSp_of_supervisor (s := s.untraced) mode]
    rfl

theorem State.setAreg_untraced (s : State) (n : Reg) (v : Long) : s.untraced.setAreg n v = (s.setAreg n v).untraced := by
  by_cases low : n.val < 7
  · simp only [State.setAreg, dif_pos low]
    rfl
  · simp only [State.setAreg, dif_neg low, State.setSp_untraced]

theorem State.setMovemReg_untraced (s : State) (k : Fin 16) (v : Long) :
    s.untraced.setMovemReg k v = (s.setMovemReg k v).untraced := by
  by_cases data : k.val < 8
  · simp only [State.setMovemReg, dif_pos data]
    rfl
  · simp only [State.setMovemReg, dif_neg data, State.setAreg_untraced]

theorem enterException_untraced (v : Byte) (mask : Option (BitVec 3)) (retpc : Long) (s : State) :
    enterException v mask retpc s.untraced = (enterException v mask retpc s).untraced := by
  cases parity : s.ssp.getLsbD 0
  · rw [enterException_even v mask retpc parity, enterException_even v mask retpc (s := s.untraced) parity]
    rfl
  · rw [enterException_odd v mask retpc parity, enterException_odd v mask retpc (s := s.untraced) parity]
    rfl

theorem takeException_untraced (e : Exc) (s : State) : takeException e s.untraced = (takeException e s).untraced := by
  cases e <;> simp only [takeException, raiseVector, enterException_untraced, State.pc_untraced]

/-! ## Parts of an instruction do not read TRACE_EXC -/

/-- Two parts in sequence. -/
theorem Res.bind_untraced {α β : Type} {r r' : Res α} {f f' : α → State → Res β} (hr : r' = r.untraced)
    (hf : ∀ v u, f' v u.untraced = (f v u).untraced) : r'.bind f' = (r.bind f).untraced := by
  subst hr
  cases r with
  | ok v u => exact hf v u
  | raise e u => rfl

section
variable {s : State}

theorem memRead_untraced (a : Long) (sz : Size) : memRead a sz s.untraced = (memRead a sz s).untraced := by
  cases odd : misaligned a sz
  · rw [memRead_aligned odd, memRead_aligned odd]
    rfl
  · rw [memRead_misaligned odd, memRead_misaligned odd]
    rfl

theorem memWrite_untraced (a : Long) (sz : Size) (v : Long) : memWrite a sz v s.untraced = (memWrite a sz v s).untraced := by
  cases odd : misaligned a sz
  · rw [memWrite_aligned odd, memWrite_aligned odd]
    rfl
  · rw [memWrite_misaligned odd, memWrite_misaligned odd]
    rfl

theorem push_untraced (sz : Size) (v : Long) : push sz v s.untraced = (push sz v s).untraced := by
  simp only [push, State.sp_untraced, State.setSp_untraced, memWrite_untraced]

theorem pop_untraced (sz : Size) : pop sz s.untraced = (pop sz s).untraced :=
  Res.bind_untraced (memRead_untraced ..) fun _ _ => congrArg _ (State.setSp_untraced ..)

theorem returnFromException_untraced : returnFromException s.untraced = (returnFromException s).untraced :=
  Res.bind_untraced (memRead_untraced ..) fun _ _ => Res.bind_untraced (memRead_untraced ..) fun _ _ => rfl

theorem privileged_untraced {body body' : State → Res Unit} (hb : body' s.untraced = (body s).untraced) :
    privileged body' s.untraced = (privileged body s).untraced := by
  cases mode : s.supervisor
  · rw [privileged_user _ _ mode, privileged_user _ s.untraced mode]
    rfl
  · rw [privileged_supervisor _ _ mode, privileged_supervisor _ s.untraced mode, hb]

theorem eaLoc_untraced (ea : Ea) (sz : Size) (ext : Long) : eaLoc ea sz ext s.untraced = eaLoc ea sz ext s := by cases ea <;> rfl

theorem eaPre_untraced (ea : Ea) (sz : Size) : eaPre ea sz s.untraced = (eaPre ea sz s).untraced := by
  cases ea with
  | preDec n => exact State.setAreg_untraced ..
  | _ => rfl

theorem Loc.post_untraced (loc : Loc) : loc.post s.untraced = (loc.post s).untraced := by
  cases loc with
  | mem a pending => cases pending with
    | none => rfl
    | some step => exact State.setAreg_untraced ..
  | _ => rfl

theorem readLoc_untraced (loc : Loc) (sz : Size) : readLoc loc sz s.untraced = (readLoc loc sz s).untraced := by
  cases loc with
  | mem a pending => exact Res.bind_untraced (memRead_untraced ..) fun _ _ => congrArg _ (Loc.post_untraced _)
  | _ => rfl

theorem writeLoc_untraced (loc : Loc) (sz : Size) (v : Long) : writeLoc loc sz v s.untraced = (writeLoc loc sz v s).untraced := by
  cases loc with
  | areg n => exact congrArg _ (State.setAreg_untraced ..)
  | mem a pending => exact Res.bind_untraced (memWrite_untraced ..) fun _ _ => congrArg _ (Loc.post_untraced _)
  | _ => rfl

variable (ea : Ea) (sz : Size) (ext : Long)

theorem readEa_untraced : readEa ea sz ext s.untraced = (readEa ea sz ext s).untraced := by
  rw [readEa, eaLoc_untraced, eaPre_untraced, readLoc_untraced, readEa]

theorem writeEa_untraced (v : Long) : writeEa ea sz ext v s.untraced = (writeEa ea sz ext v s).untraced := by
  rw [writeEa, eaLoc_untraced, eaPre_untraced, writeLoc_untraced, writeEa]

theorem storeEa_untraced (v : Long) (f : Ccr) : storeEa ea sz ext v f s.untraced = (storeEa ea sz ext v f s).untraced := by
  rw [storeEa, eaLoc_untraced, eaPre_untraced, State.setCcr_untraced, writeLoc_untraced, storeEa]

variable {ea sz ext}

theorem updateEa_untraced {g g' : Long → State → Long × Ccr} (hg : ∀ e u, g' e u.untraced = g e u) :
    updateEa ea sz ext g' s.untraced = (updateEa ea sz ext g s).untraced := by
  simp only [updateEa, eaLoc_untraced, eaPre_untraced]
  refine Res.bind_untraced (readLoc_untraced ..) fun e u => ?_
  rw [hg, State.setCcr_untraced, writeLoc_untraced]

theorem loadEa_untraced {g g' : Long → State → State} (hg : ∀ e u, g' e u.untraced = (g e u).untraced) :
    loadEa ea sz ext g' s.untraced = (loadEa ea sz ext g s).untraced :=
  Res.bind_untraced (readEa_untraced ..) fun e u => congrArg _ (hg e u)

theorem addressEa_untraced : addressEa ea ext s.untraced = (addressEa ea ext s).untraced := by
  unfold addressEa
  rw [eaLoc_untraced]
  cases eaLoc ea .l ext s <;> rfl

end

section
variable {s : State} (sz : Size) (ks : List (Fin 16)) (a : Long)

theorem movemStoreUp_untraced : movemStoreUp sz ks a s.untraced = (movemStoreUp sz ks a s).untraced := by
  induction ks generalizing a s with
  | nil => rfl
  | cons k ks ih => exact Res.bind_untraced (memWrite_untraced ..) fun _ _ => ih _

theorem movemStoreDown_untraced : movemStoreDown sz ks a s.untraced = (movemStoreDown sz ks a s).untraced := by
  induction ks generalizing a s with
  | nil => rfl
  | cons k ks ih => exact Res.bind_untraced (memWrite_untraced ..) fun _ _ => ih _

theorem movemLoad_untraced : movemLoad sz ks a s.untraced = (movemLoad sz ks a s).untraced := by
  induction ks generalizing a s with
  | nil => rfl
  | cons k ks ih =>
    refine Res.bind_untraced (memRead_untraced ..) fun v u => ?_
    rw [State.setMovemReg_untraced]
    exact ih _

theorem movemToMemBody_untraced (mask : Word) (ea : Ea) :
    movemToMemBody sz mask ea s.untraced = (movemToMemBody sz mask ea s).untraced := by
  cases ea with
  | preDec n => exact Res.bind_untraced (movemStoreDown_untraced ..) fun _ _ => congrArg _ (State.setAreg_untraced ..)
  | _ =>
    unfold movemToMemBody
    exact Res.bind_untraced addressEa_untraced fun _ _ => Res.bind_untraced (movemStoreUp_untraced ..) fun _ _ => rfl

theorem movemToRegsBody_untraced (mask : Word) (ea : Ea) :
    movemToRegsBody sz mask ea s.untraced = (movemToRegsBody sz mask ea s).untraced := by
  cases ea with
  | postInc n => exact Res.bind_untraced (movemLoad_untraced ..) fun _ _ => congrArg _ (State.setAreg_untraced ..)
  | _ =>
    unfold movemToRegsBody
    exact Res.bind_untraced addressEa_untraced fun _ _ => Res.bind_untraced (movemLoad_untraced ..) fun _ _ => rfl

end

/-! ## When a part of an instruction raises -/

section
variable {s : State} {ea : Ea} {sz : Size} {ext : Long}

/-- What follows a part that cannot raise does not matter. -/
theorem Res.isOk_bind_ok {α β : Type} (r : Res α) (f : α → State → β) (g : α → State → State) :
    (r.bind fun v u => .ok (f v u) (g v u)).isOk = r.isOk := by cases r <;> rfl

theorem memRead_isOk (a : Long) : (memRead a sz s).isOk = !misaligned a sz := by
  cases odd : misaligned a sz
  · rw [memRead_aligned odd]; rfl
  · rw [memRead_misaligned odd]; rfl

theorem memWrite_isOk (a v : Long) : (memWrite a sz v s).isOk = !misaligned a sz := by
  cases odd : misaligned a sz
  · rw [memWrite_aligned odd]; rfl
  · rw [memWrite_misaligned odd]; rfl

theorem misaligned_wide (a : Long) (hsz : sz ≠ .b) : misaligned a sz = a.getLsbD 0 := by simp [misaligned, hsz]

theorem push_isOk (v : Long) : (push .l v s).isOk = s.spEven := by
  rw [push, memWrite_isOk, State.sp_setSp, misaligned_wide _ (by decide), stackStep, getLsbD_zero_sub _ _ (by decide), State.spEven]

theorem pop_isOk (hsz : sz ≠ .b) : (pop sz s).isOk = s.spEven := by
  rw [pop, Res.isOk_bind_ok, memRead_isOk, misaligned_wide _ hsz, State.spEven]

theorem privileged_isOk (body : State → Res Unit) : (privileged body s).isOk = (s.supervisor && (body s).isOk) := by
  cases mode : s.supervisor
  · rw [privileged_user _ _ mode]; rfl
  · rw [privileged_supervisor _ _ mode]; rfl

theorem readEa_isOk : (readEa ea sz ext s).isOk = operandReady ea sz ext s := by
  cases ready : operandReady ea sz ext s
  · rw [readEa_odd ready]; rfl
  · rw [readEa_ready ready]; rfl

/-- After an operand that is read first, the rest of the run decides, in the state its side effect left. -/
theorem readEa_bind_isOk {α : Type} (f : Long → State → Res α) : ((readEa ea sz ext s).bind f).isOk =
    (operandReady ea sz ext s && (f (operandValue ea sz ext s) (sideEffect ea sz s)).isOk) := by
  cases ready : operandReady ea sz ext s
  · rw [readEa_odd ready]; rfl
  · rw [readEa_ready ready]; rfl

theorem loadEa_isOk (g : Long → State → State) : (loadEa ea sz ext g s).isOk = operandReady ea sz ext s := by
  rw [loadEa, Res.isOk_bind_ok, readEa_isOk]

variable (notImm : ea.kind ≠ .imm)
include notImm

theorem updateEa_isOk (g : Long → State → Long × Ccr) : (updateEa ea sz ext g s).isOk = operandReady ea sz ext s := by
  cases ready : operandReady ea sz ext s
  · rw [updateEa_odd g ready]; rfl
  · rw [updateEa_ready g ready notImm]; rfl

theorem writeEa_isOk (v : Long) : (writeEa ea sz ext v s).isOk = operandReady ea sz ext s := by
  cases ready : operandReady ea sz ext s
  · rw [writeEa_odd v ready]; rfl
  · rw [writeEa_ready v ready notImm]; rfl

theorem storeEa_isOk (v : Long) (f : Ccr) : (storeEa ea sz ext v f s).isOk = operandReady ea sz ext s := by
  cases ready : operandReady ea sz ext s
  · rw [storeEa_odd v f ready]; rfl
  · rw [storeEa_ready v f ready notImm]; rfl

end

section
variable {s : State} {sz : Size} {mask : Word} {ea : Ea}

theorem movemToMemBody_isOk (hw : ea.ok .controlAlterablePreDec sz = true) :
    (movemToMemBody sz mask ea s).isOk = movemReady sz mask (movemBase ea s) := by
  cases ready : movemReady sz mask (movemBase ea s)
  case true =>
    have aligned := maskList_nil_or_aligned ready
    rcases ok_controlAlterablePreDec_cases hw with control | ⟨n, rfl⟩
    · rw [movemBase_control control] at aligned
      obtain ⟨b, m, stored⟩ := movemStoreUp_ready aligned s
      rw [movemToMemBody_control control, stored]
      rfl
    · obtain ⟨b, m, stored⟩ := movemStoreDown_ready aligned s
      rw [movemToMemBody, show s.areg n = movemBase (.preDec n) s from rfl, stored]
      rfl
  case false =>
    obtain ⟨⟨k, ks, listed⟩, odd⟩ := maskList_cons_and_misaligned ready
    rcases ok_controlAlterablePreDec_cases hw with control | ⟨n, rfl⟩
    · rw [movemBase_control control] at odd
      rw [movemToMemBody_control control, listed, movemStoreUp_odd odd]
      rfl
    · rw [movemToMemBody, show s.areg n = movemBase (.preDec n) s from rfl, listed, movemStoreDown_odd odd]
      rfl

theorem movemToRegsBody_isOk (hw : ea.ok .controlPostInc sz = true) :
    (movemToRegsBody sz mask ea s).isOk = movemReady sz mask (movemBase ea s) := by
  cases ready : movemReady sz mask (movemBase ea s)
  case true =>
    obtain ⟨b, t, loaded, -, -⟩ := movemLoad_ready (dd := fun _ => true) (ad := fun _ => true) (fun _ _ _ _ => rfl)
      (fun _ _ _ _ => rfl) (maskList_nil_or_aligned ready) (RegsKept.refl (s := s)) rfl
    rcases ok_controlPostInc_cases hw with control | ⟨n, rfl⟩
    · rw [movemBase_control control] at loaded
      rw [movemToRegsBody_control control, loaded]
      rfl
    · rw [movemToRegsBody, show s.areg n = movemBase (.postInc n) s from rfl, loaded]
      rfl
  case false =>
    obtain ⟨⟨k, ks, listed⟩, odd⟩ := maskList_cons_and_misaligned ready
    rcases ok_controlPostInc_cases hw with control | ⟨n, rfl⟩
    · rw [movemBase_control control] at odd
      rw [movemToRegsBody_control control, listed, movemLoad_odd odd]
      rfl
    · rw [movemToRegsBody, show s.areg n = movemBase (.postInc n) s from rfl, listed, movemLoad_odd odd]
      rfl

end

/-! ## The run of an instruction -/

/-- The outcomes `o` in `s` and `o'` in `s` without tracing conclude the same run, which ends without raising just when `done`. -/
def SameRun (done : Bool) (s : State) (o o' : Host.Outcome State Fault Refusal) : Prop :=
  ∃ r : Res Unit, o = conclude s r ∧ o' = conclude s.untraced r.untraced ∧ r.isOk = done

section
variable {s : State} {done : Bool}

theorem conclude_sameRun {r r' : Res Unit} (same : r' = r.untraced) (ok : r.isOk = done) :
    SameRun done s (conclude s r) (conclude s.untraced r') := ⟨r, rfl, by rw [same], ok⟩

theorem retire_sameRun {n : Nat} {r r' : Res Unit} (same : r' = r.untraced) (ok : r.isOk = done) :
    SameRun done s (retire n s r) (retire n s.untraced r') :=
  conclude_sameRun (Res.bind_untraced same fun _ _ => rfl) ((Res.isOk_bind_ok ..).trans ok)

/-- An instruction that cannot raise. -/
theorem retire_ok_sameRun {n : Nat} {u u' : State} (same : u' = u.untraced) :
    SameRun true s (retire n s (.ok () u)) (retire n s.untraced (.ok () u')) := retire_sameRun (congrArg _ same) rfl

variable {ea : Ea} {sz : Size} {ext : Long} {n : Nat}

theorem loadEa_sameRun {g g' : Long → State → State} (hg : ∀ e u, g' e u.untraced = (g e u).untraced)
    (ready : operandReady ea sz ext s = done) :
    SameRun done s (retire n s (loadEa ea sz ext g s)) (retire n s.untraced (loadEa ea sz ext g' s.untraced)) :=
  retire_sameRun (loadEa_untraced hg) ((loadEa_isOk g).trans ready)

theorem updateEa_sameRun {g g' : Long → State → Long × Ccr} (notImm : ea.kind ≠ .imm) (hg : ∀ e u, g' e u.untraced = g e u)
    (ready : operandReady ea sz ext s = done) :
    SameRun done s (retire n s (updateEa ea sz ext g s)) (retire n s.untraced (updateEa ea sz ext g' s.untraced)) :=
  retire_sameRun (updateEa_untraced hg) ((updateEa_isOk notImm g).trans ready)

theorem writeEa_sameRun {v : Long} (notImm : ea.kind ≠ .imm) (ready : operandReady ea sz ext s = done) :
    SameRun done s (retire n s (writeEa ea sz ext v s)) (retire n s.untraced (writeEa ea sz ext v s.untraced)) :=
  retire_sameRun (writeEa_untraced ..) ((writeEa_isOk notImm v).trans ready)

theorem quickEa_sameRun {op : Long → Long → Ccr → Long × Ccr} {opA : Long → Long → Long} {q : BitVec 3}
    (ok : ea.ok .alterable sz = true) :
    SameRun (operandReady ea sz (s.pc + 2) s) s (quickEa op opA sz q ea s) (quickEa op opA sz q ea s.untraced) := by
  have notImm := kind_of_ok_alterable ok
  cases ea with
  | an n => exact retire_ok_sameRun (State.setAreg_untraced ..)
  | _ => exact updateEa_sameRun notImm (fun _ _ => rfl) rfl

theorem pairOp_sameRun {op : Long → Long → Ccr → Long × Ccr} {form : PairForm} {x y : Reg}
    (ready : (form == .dregs || pairReady sz (.preDec y) (.preDec x) s) = done) :
    SameRun done s (pairOp op sz form x y s) (pairOp op sz form x y s.untraced) := by
  subst ready
  cases form with
  | dregs => exact retire_ok_sameRun rfl
  | preDecs =>
    refine retire_sameRun (Res.bind_untraced (readEa_untraced ..) fun _ _ => updateEa_untraced fun _ _ => rfl) ?_
    rw [readEa_bind_isOk, updateEa_isOk (by simp [Ea.kind])]
    rfl

/-- A division raises for an operand that is odd or 0 (R252, R253). -/
theorem divDn_sameRun {signed : Bool} {op : Long → Word → Option (Word × Word)} {n : Reg} :
    SameRun (operandReady ea .w (s.pc + 2) s && operandValue ea .w (s.pc + 2) s != 0) s (divDn signed op n ea s)
      (divDn signed op n ea s.untraced) := by
  refine retire_sameRun (Res.bind_untraced (readEa_untraced ..) fun e u => ?_) ?_
  · by_cases zero : lowWord e = 0
    · simp only [if_pos zero]
      rfl
    · simp only [if_neg zero]
      show (match op (u.dreg n) (lowWord e) with | none => _ | some (q, r) => _) = _
      cases op (u.dreg n) (lowWord e) <;> rfl
  · rw [readEa_bind_isOk]
    by_cases zero : operandValue ea .w (s.pc + 2) s = 0
    · rw [zero]
      rfl
    · simp only [if_neg (lowWord_operandValue_ne_zero zero), bne_iff_ne.mpr zero]
      split <;> rfl

/-- CHK raises for an odd operand and outside its bounds (R379). -/
theorem execChk_sameRun {n : Reg} : SameRun ((Instr.chk n ea).completes s) s (execChk n ea s) (execChk n ea s.untraced) := by
  refine retire_sameRun (Res.bind_untraced (readEa_untraced ..) fun e u => ?_) ?_
  · show (if (lowWord (u.dreg n)).slt 0 then _ else if (lowWord e).slt (lowWord (u.dreg n)) then _ else _) = _
    dsimp only
    split
    · rfl
    · split <;> rfl
  · rw [readEa_bind_isOk, Bool.eq_iff_iff, chk_completes_iff, Bool.and_eq_true, sideEffect_dreg]
    refine and_congr_right fun _ => ?_
    dsimp only
    cases below : (lowWord (s.dreg n)).slt 0
    · cases above : (lowWord (operandValue ea .w (s.pc + 2) s)).slt (lowWord (s.dreg n)) <;> simp [Res.isOk]
    · simp [Res.isOk]

theorem execMove_sameRun {src dst : Ea} (hw : (Instr.move sz src dst).wellFormed = true) :
    SameRun ((Instr.move sz src dst).completes s) s (execMove sz src dst s) (execMove sz src dst s.untraced) := by
  refine retire_sameRun (Res.bind_untraced (readEa_untraced ..) fun _ _ => storeEa_untraced ..) ?_
  rw [readEa_bind_isOk, storeEa_isOk (kind_of_ok_dataAlterable (Bool.and_elim_right hw)).1]
  rfl

theorem execCmpm_sameRun {x y : Reg} :
    SameRun (pairReady sz (.postInc y) (.postInc x) s) s (execCmpm sz x y s) (execCmpm sz x y s.untraced) := by
  refine retire_sameRun (Res.bind_untraced (readEa_untraced ..) fun _ _ => loadEa_untraced fun _ _ => rfl) ?_
  rw [readEa_bind_isOk, loadEa_isOk]
  rfl

theorem execLea_sameRun {n : Reg} (hw : ea.ok .control .l = true) : SameRun true s (execLea n ea s) (execLea n ea s.untraced) := by
  refine retire_sameRun (Res.bind_untraced addressEa_untraced fun _ _ => congrArg _ (State.setAreg_untraced ..)) ?_
  rw [addressEa_control (kind_of_ok_control hw)]
  rfl

theorem execPea_sameRun (hw : ea.ok .control .l = true) : SameRun s.spEven s (execPea ea s) (execPea ea s.untraced) := by
  refine retire_sameRun (Res.bind_untraced addressEa_untraced fun _ _ => push_untraced ..) ?_
  rw [addressEa_control (kind_of_ok_control hw), Res.bind_ok, push_isOk]

theorem execJmp_sameRun (hw : ea.ok .control .l = true) : SameRun true s (execJmp ea s) (execJmp ea s.untraced) := by
  refine conclude_sameRun (Res.bind_untraced addressEa_untraced fun _ _ => rfl) ?_
  rw [addressEa_control (kind_of_ok_control hw)]
  rfl

theorem execJsr_sameRun (hw : ea.ok .control .l = true) : SameRun s.spEven s (execJsr ea s) (execJsr ea s.untraced) := by
  refine conclude_sameRun
    (Res.bind_untraced addressEa_untraced fun _ _ => Res.bind_untraced (push_untraced ..) fun _ _ => rfl) ?_
  rw [addressEa_control (kind_of_ok_control hw), Res.bind_ok, Res.isOk_bind_ok, push_isOk]

theorem execBsr_sameRun {disp : BranchDisp} : SameRun s.spEven s (execBsr disp s) (execBsr disp s.untraced) :=
  conclude_sameRun (Res.bind_untraced (push_untraced ..) fun _ _ => rfl) ((Res.isOk_bind_ok ..).trans (push_isOk _))

theorem execRts_sameRun : SameRun s.spEven s (execRts s) (execRts s.untraced) :=
  conclude_sameRun (Res.bind_untraced (pop_untraced ..) fun _ _ => rfl) ((Res.isOk_bind_ok ..).trans (pop_isOk (by decide)))

theorem execRtr_sameRun : SameRun s.spEven s (execRtr s) (execRtr s.untraced) := by
  refine conclude_sameRun
    (Res.bind_untraced (pop_untraced ..) fun _ _ => Res.bind_untraced (pop_untraced ..) fun _ _ => rfl) ?_
  cases even : s.spEven
  · rw [pop_odd (by simpa [State.spEven] using even) (by decide)]
    rfl
  · rw [pop_spEven even, Res.bind_ok, Res.isOk_bind_ok, pop_isOk (by decide), stackStep, spEven_setSp_add_two even]

theorem execRte_sameRun :
    SameRun (s.supervisor && !s.ssp.getLsbD 0) s (execRte s) (execRte s.untraced) := by
  refine conclude_sameRun (privileged_untraced returnFromException_untraced) ?_
  rw [privileged_isOk]
  cases odd : s.ssp.getLsbD 0
  · rw [returnFromException_even odd]
    rfl
  · rw [returnFromException, memRead_misaligned (misaligned_of_odd (by decide) odd)]
    rfl

theorem execLink_sameRun {n : Reg} {d : Word} : SameRun s.spEven s (execLink n d s) (execLink n d s.untraced) := by
  simp only [execLink, State.sp_untraced, State.setSp_untraced]
  refine retire_sameRun (Res.bind_untraced (memWrite_untraced ..) fun _ _ => ?_) ?_
  · simp only [State.sp_untraced, State.setAreg_untraced, State.setSp_untraced]
    rfl
  · exact (Res.isOk_bind_ok ..).trans (push_isOk _)

theorem execUnlk_sameRun {n : Reg} : SameRun (!(s.areg n).getLsbD 0) s (execUnlk n s) (execUnlk n s.untraced) := by
  refine retire_sameRun (Res.bind_untraced (memRead_untraced ..) fun _ _ => ?_) ?_
  · simp only [State.setSp_untraced, State.setAreg_untraced]
    rfl
  · rw [Res.isOk_bind_ok, memRead_isOk, misaligned_wide _ (by decide)]

/-- A privileged instruction whose body cannot raise. -/
theorem retire_privileged_sameRun {n : Nat} {body : State → State} (hb : body s.untraced = (body s).untraced) :
    SameRun s.supervisor s (retire n s (privileged (fun u => .ok () (body u)) s))
      (retire n s.untraced (privileged (fun u => .ok () (body u)) s.untraced)) :=
  retire_sameRun (privileged_untraced (congrArg _ hb)) ((privileged_isOk _).trans (Bool.and_true _))

theorem execBcc_sameRun {cond : Cond} {disp : BranchDisp} : SameRun true s (execBcc cond disp s) (execBcc cond disp s.untraced) := by
  refine conclude_sameRun (congrArg _ ?_) rfl
  show (if condHolds cond s.ccr then _ else _) = _
  split <;> rfl

theorem execDbcc_sameRun {cond : Cond} {n : Reg} {d : Word} :
    SameRun true s (execDbcc cond n d s) (execDbcc cond n d s.untraced) := by
  refine conclude_sameRun (congrArg _ ?_) rfl
  show (if condHolds cond s.ccr then _ else if lowWord (s.dreg n) - 1 = 0xFFFF then _ else _) = _
  dsimp only
  split
  · rfl
  · split <;> rfl

theorem execTrapv_sameRun : SameRun (!s.ccr.v) s (execTrapv s) (execTrapv s.untraced) := by
  cases set : s.ccr.v
  · rw [execTrapv, execTrapv, if_neg (ne_true_of_eq_false set), if_neg (ne_true_of_eq_false (b := s.untraced.ccr.v) set)]
    exact retire_ok_sameRun rfl
  · rw [execTrapv, execTrapv, if_pos set, if_pos (show s.untraced.ccr.v = true from set)]
    exact retire_sameRun rfl rfl

theorem execMovep_sameRun {dir : MovepDir} {sz : WordLong} {dx ay : Reg} {d : Word} :
    SameRun true s (execMovep dir sz dx ay d s) (execMovep dir sz dx ay d s.untraced) := by
  cases dir <;> exact retire_ok_sameRun rfl

end

/-- Every well-formed instruction: TRACE_EXC is not read by its run, which raises just when the instruction does not complete. One case
per form, grouped by the operation the instructions share. -/
theorem exec_sameRun {i : Instr} (hw : i.wellFormed = true) (s : State) :
    SameRun (i.completes s) s (exec i s) (exec i s.untraced) := by
  unfold exec
  cases i with
  | oriToCcr imm | andiToCcr imm | eoriToCcr imm => exact retire_ok_sameRun rfl
  | oriToSr imm | andiToSr imm | eoriToSr imm => exact retire_privileged_sameRun rfl
  | ori sz imm ea | andi sz imm ea | subi sz imm ea | addi sz imm ea | eori sz imm ea =>
    exact updateEa_sameRun (kind_of_ok_dataAlterable (Bool.and_elim_right hw)).1 (fun _ _ => rfl) rfl
  | btstImm num ea | btstDyn n ea => exact loadEa_sameRun (fun _ _ => rfl) (operandReady_bitSize ..)
  | bchgImm num ea | bclrImm num ea | bsetImm num ea | bchgDyn n ea | bclrDyn n ea | bsetDyn n ea =>
    exact updateEa_sameRun (kind_of_ok_dataAlterable hw).1 (fun _ _ => rfl) (operandReady_bitSize ..)
  | movep dir sz dx ay d => exact execMovep_sameRun
  | move sz src dst => exact execMove_sameRun hw
  | movea sz n src => exact loadEa_sameRun (fun _ _ => State.setAreg_untraced ..) rfl
  | negx sz ea | neg sz ea | not sz ea => exact updateEa_sameRun (kind_of_ok_dataAlterable hw).1 (fun _ _ => rfl) rfl
  | nbcd ea | tas ea => exact updateEa_sameRun (kind_of_ok_dataAlterable hw).1 (fun _ _ => rfl) (operandReady_byte ..)
  | clr sz ea => exact retire_sameRun (storeEa_untraced ..) (storeEa_isOk (kind_of_ok_dataAlterable hw).1 _ _)
  | moveFromSr ea => exact writeEa_sameRun (kind_of_ok_dataAlterable hw).1 rfl
  | scc cond ea => exact writeEa_sameRun (kind_of_ok_dataAlterable hw).1 (operandReady_byte ..)
  | moveToCcr ea => exact loadEa_sameRun (fun _ _ => rfl) rfl
  | moveToSr ea =>
    exact retire_sameRun (privileged_untraced (loadEa_untraced fun _ _ => rfl)) (by rw [privileged_isOk, loadEa_isOk]; rfl)
  | chk n ea => exact execChk_sameRun
  | lea n ea => exact execLea_sameRun hw
  | pea ea => exact execPea_sameRun hw
  | jsr ea => exact execJsr_sameRun hw
  | jmp ea => exact execJmp_sameRun hw
  | bsr disp => exact execBsr_sameRun
  | rts => exact execRts_sameRun
  | rtr => exact execRtr_sameRun
  | rte => exact execRte_sameRun
  | link n d => exact execLink_sameRun
  | unlk n => exact execUnlk_sameRun
  | swap n | extW n | extL n | moveq n data | exgDD x y | nop => exact retire_ok_sameRun rfl
  | exgAA x y => exact retire_ok_sameRun ((congrArg (State.setAreg · y _) (State.setAreg_untraced ..)).trans (State.setAreg_untraced ..))
  | exgDA x y => exact retire_ok_sameRun (State.setAreg_untraced (s.setDreg x _) y _)
  | movemToMem sz mask ea => exact retire_sameRun (movemToMemBody_untraced ..) (movemToMemBody_isOk hw)
  | movemToRegs sz mask ea => exact retire_sameRun (movemToRegsBody_untraced ..) (movemToRegsBody_isOk hw)
  | illegal | trap v => exact conclude_sameRun rfl rfl
  | moveToUsp n | reset => exact retire_privileged_sameRun rfl
  | moveFromUsp n => exact retire_privileged_sameRun (State.setAreg_untraced ..)
  | stop imm => exact conclude_sameRun (privileged_untraced rfl) ((privileged_isOk _).trans (Bool.and_true _))
  | trapv => exact execTrapv_sameRun
  | addq sz q ea | subq sz q ea => exact quickEa_sameRun hw
  | dbcc cond n d => exact execDbcc_sameRun
  | bra disp => exact conclude_sameRun rfl rfl
  | bcc cond disp => exact execBcc_sameRun
  | orEaDn sz ea n | subEaDn sz ea n | andEaDn sz ea n | addEaDn sz ea n => exact loadEa_sameRun (fun _ _ => rfl) rfl
  | orDnEa sz n ea | subDnEa sz n ea | andDnEa sz n ea | addDnEa sz n ea =>
    exact updateEa_sameRun (kind_of_ok_memoryAlterable hw).1 (fun _ _ => rfl) rfl
  | eor sz n ea => exact updateEa_sameRun (kind_of_ok_dataAlterable hw).1 (fun _ _ => rfl) rfl
  | divu n ea | divs n ea => exact divDn_sameRun
  | mulu n ea | muls n ea => exact loadEa_sameRun (fun _ _ => rfl) rfl
  | suba sz n ea | adda sz n ea => exact loadEa_sameRun (fun _ _ => State.setAreg_untraced ..) rfl
  | cmp sz ea n | cmpa sz n ea | cmpi sz imm ea | tst sz ea => exact loadEa_sameRun (fun _ _ => rfl) rfl
  | cmpm sz x y => exact execCmpm_sameRun
  | abcd form x y | sbcd form x y => exact pairOp_sameRun (by rw [pairReady_byte, Bool.or_true]; rfl)
  | addx sz form x y | subx sz form x y => exact pairOp_sameRun rfl
  | asrReg sz cnt y | aslReg sz cnt y | lsrReg sz cnt y | lslReg sz cnt y
  | roxrReg sz cnt y | roxlReg sz cnt y | rorReg sz cnt y | rolReg sz cnt y => exact retire_ok_sameRun rfl
  | asrMem ea | aslMem ea | lsrMem ea | lslMem ea | roxrMem ea | roxlMem ea | rorMem ea | rolMem ea =>
    exact updateEa_sameRun (kind_of_ok_memoryAlterable hw).1 (fun _ _ => rfl) rfl

/-- The parameters of the state an instruction's run ends in, whichever way it is concluded. -/
theorem params_of_conclude {i : Instr} {s : State} {r : Res Unit} (h : exec i s = conclude s r) :
    r.Ends fun u => u.params = s.params := by
  obtain ⟨t, answer, params⟩ := exec_params i s
  obtain ⟨e, u, rfl, ended⟩ | ⟨u, rfl, -, ended⟩ | ⟨u, rfl, -, ended⟩ := conclude_cases s r <;>
    obtain rfl := Host.Outcome.next.inj (answer.symm.trans (h.trans ended))
  · obtain ⟨v, retpc, -, entry⟩ := takeException_eq_raiseVector e u
    rw [entry, raiseVector, enterException_params] at params
    exact params
  · exact params
  · rw [raiseVector, enterException_params] at params
    exact params

/-- Settles O55: both settings conclude one run, which the trace follows only where it ended without raising. -/
theorem tracedInstructionTakesVectorNine : Obligations.TracedInstructionTakesVectorNine := by
  unfold Obligations.TracedInstructionTakesVectorNine
  intro i s t hw traceExc traceBit h
  have traced : s.traced = true := by rw [State.traced, State.traceEnabled, traceExc, traceBit]; rfl
  obtain ⟨r, run, untracedRun, completes⟩ := exec_sameRun hw s
  have ends := params_of_conclude run
  have answer := h.symm.trans untracedRun
  rw [run]
  cases r with
  | ok _ u =>
    obtain rfl : t = u.untraced := Host.Outcome.next.inj (answer.trans (conclude_ok (State.traced_untraced s) u.untraced))
    rw [State.untraced_with_params ends, conclude_ok_traced traced]
    exact ⟨fun _ => rfl, fun raised => Bool.noConfusion (completes.trans raised : true = false)⟩
  | raise e u =>
    obtain rfl : t = (takeException e u).untraced := (Host.Outcome.next.inj answer).trans (takeException_untraced e u)
    obtain ⟨v, retpc, -, entry⟩ := takeException_eq_raiseVector e u
    rw [State.untraced_with_params (by rw [entry, raiseVector, enterException_params]; exact ends), conclude_raise]
    exact ⟨fun done => Bool.noConfusion (completes.trans done : false = true), fun _ => rfl⟩

end Sys2Proof.Machine
end
